-- ==== Sys2Proof/Word.lean ====
section
/-! DEFINITION. The bit vectors the manual has: bytes on the link, the wrapping tick count, and the
masks, which R183 sends as bit fields in which bit m stands for member m. -/

namespace Sys2Proof

/-- One byte of a frame. -/
abbrev Byte := BitVec 8

/-- The tick count, 32 bits, wrapping (R21). -/
abbrev Tick := BitVec 32

/-- A set of channel slots 0 to 11. -/
abbrev SlotMask := BitVec 12

/-- A set of bands 0 to 15. -/
abbrev BandMask := BitVec 16

/-- A set of the nine day types, bit 0 MON to bit 8 SPECIAL (section 10.2). -/
abbrev DayMask := BitVec 9

/-- A set of plant lines 0 to 7. -/
abbrev LineSet := BitVec 8

/-- A set of the fourteen notices, by the bits of section 10.2. -/
abbrev NoticeSet := BitVec 14

/-- One received or sent envelope, start marker to last check byte. -/
abbrev Frame := List Byte

end Sys2Proof
end

