-- ==== Sys2Proof/Config.lean ====
section
/-! DEFINITION. The figures the manual fixes for the NB-212. It leaves no result value of a command
open, so this file holds no free value. -/

namespace Sys2Proof.Config

/-- Channel slots (R4). -/
def slotCount : Nat := 12

/-- Indices of a limit table (R47). -/
def entryCount : Nat := 64

/-- User bands; OTHER and UNTIMED follow them (section 2.6). -/
def userBands : Nat := 14

/-- Band 14, OTHER. -/
def other : Nat := 14

/-- Band 15, UNTIMED. -/
def untimed : Nat := 15

/-- Longest exception list (R30). -/
def exceptionCount : Nat := 24

/-- Plain accumulator units (R66). -/
def plainUnits : Nat := 72

/-- Histogram-capable accumulator units (R66). -/
def histogramUnits : Nat := 24

/-- All accumulator units (R66). -/
def poolUnits : Nat := 96

/-- Episode records (R91). -/
def episodeRecords : Nat := 32

/-- Plant lines (R120). -/
def plantLines : Nat := 8

/-- Beacon lines (R136). -/
def beaconLines : Nat := 4

/-- Records the report queue holds (R150). -/
def queueDepth : Nat := 48

/-- The depth whose reaching raises QUEUE_HIGH (R152). -/
def queueHigh : Nat := 40

/-- Frames the forward FIFO holds (R167). -/
def forwardDepth : Nat := 8

/-- Frames the onward FIFO holds (R169). -/
def onwardDepth : Nat := 4

/-- Places of reply holding (R174). -/
def replyPlaces : Nat := 2

/-- The starve count at which a waiting report goes before a forwarded frame (R170). -/
def starveLimit : Nat := 8

/-- Standing queries the list holds (R161). -/
def queryCount : Nat := 4

/-- Items of a control frame (R175). -/
def itemCount : Nat := 16

/-- Eighths of a day (section 5.5). -/
def eighthsPerDay : Nat := 691200

/-- Ticks without an accepted slice after which a LIVE slot stalls (R13). -/
def stallTicks : Nat := 16

/-- Where 16-bit event counters saturate (section 5.7). -/
def max16 : Nat := 65535

/-- Where 32-bit counts saturate (R15, R68, R123). -/
def max32 : Nat := 4294967295

/-- Bytes of content in one frame of a run (R188). -/
def segmentBytes : Nat := 246

/-- Longest payload of an envelope (R165). -/
def payloadBytes : Nat := 248

/-- Debounce figure of MARK (R118). -/
def markDebounce : Nat := 4

/-- Debounce figure of CERTIFY (R118). -/
def certifyDebounce : Nat := 16

/-- Ticks of half a flash period (R140). -/
def flashTicks : Nat := 4

end Sys2Proof.Config
end

