-- ==== Sys2Proof/Syntax.lean ====
section
/-! DEFINITION. The commands of the block: one constructor per row of spec/opcode_table.json.
A command of a control frame (LOAD ENTRIES to READ STATUS) is the decoder reaching that item; its
operands and prefixes are bytes of the frame in execution and so stand in the state (log 3). -/

namespace Sys2Proof

/-- A pin level. -/
inductive Level where
  | low
  | high
  deriving DecidableEq, Repr

/-- The ten sampled inputs (R118). -/
inductive Input where
  | plant (line : Nat)
  | mark
  | certify
  deriving DecidableEq, Repr

/-- The pin levels met by one sample (R118): bit n of `plant` is set when PLn is HIGH. -/
structure Pins where
  plant   : LineSet
  mark    : Level
  certify : Level
  deriving DecidableEq, Repr

/-- A piece of work that falls to one block at a tick, or a recognition that falls at a sample.
Each belongs to one moment and is taken once, in an order the sender chooses (log 1, log 20). -/
inductive Due where
  /-- The run counts of the active plant lines (R123). -/
  | runCounts
  /-- The FIXED boundaries and ROLLING step ends of the tick (R71, R73). -/
  | windows
  /-- The band decision of a minute tick (R35). -/
  | band
  /-- The count of the cadence timers (R155). -/
  | cadence
  /-- The summary underflow that a base underflow has brought about (R156). -/
  | summary
  /-- The offer of the waiting verdicts (R113). -/
  | verdicts
  /-- The offer of the MARK record (R132). -/
  | mark
  /-- The checks of a pending commit (R59). -/
  | commit
  /-- The expiry of a slot's stall timer (R13). -/
  | stall (slot : Nat)
  /-- The hold-off count of the HOLDOFF episode of a key and slot (R104). -/
  | holdOff (key slot : Nat)
  /-- The maximum-length check of the current episode of a key and slot (R105). -/
  | maximumLength (key slot : Nat)
  /-- The pulse count of a beacon line (R139). -/
  | pulse (line : Nat)
  /-- The flash count of a beacon line (R140). -/
  | flash (line : Nat)
  /-- A completed run of a sampler (R118). -/
  | recognition (input : Input)
  deriving DecidableEq, Repr

/-- What R61, R67 and R100 leave open about a commit swap: the keys whose closure demands come
first, the pairs that take plain units first, and whether the BAND_END closure of a band change at
the swap comes before its evaluations (log 10). -/
structure SwapChoice where
  keys         : List Nat
  plainFirst   : List (Nat × Nat)
  bandEndFirst : Bool
  deriving DecidableEq, Repr

/-- What the manual leaves open about one tick: the work taken first and in which order, whether a
BAND_END closure comes before the evaluations of the event (R100), and the choices of a commit swap. -/
structure TickChoice where
  order        : List Due
  bandEndFirst : Bool
  swap         : SwapChoice
  deriving DecidableEq, Repr

/-- The commands. -/
inductive Instr where
  /-- POWER_ON_RESET with the levels of ADDR1 and ADDR0. -/
  | powerOnReset (straps : BitVec 2)
  /-- RESET_ASSERTED: RESET is driven low. -/
  | resetAsserted
  /-- LINE_RESET: RESET returns high; the straps, and the position of the frame then being sent. -/
  | lineReset (straps : BitVec 2) (position : Nat)
  /-- TICK. -/
  | tick (choice : TickChoice)
  /-- FIELD_PORT_FRAME: the bytes received at the field port up to an idle interval. -/
  | fieldPortFrame (bytes : List Byte)
  /-- CONTROL_FRAME: the bytes received at the gateway port up to an idle interval. -/
  | controlFrame (bytes : List Byte)
  | unknownItem
  | controlFrameEnd
  | loadEntries
  | removeEntry
  | revertStaging
  | commit
  | clearCommitResult
  | freezeEntry
  | probeEntry
  | readEntry
  | loadBands
  | loadExceptions
  | readBands
  | setTime
  | startTime
  | readTime
  | trim
  | bindSlot
  | unbindSlot
  | readSlot
  | loadPlant
  | readPlant
  | fetchCoincidence
  | readWindow
  | readHistogram
  | readEpisodes
  | restartAnalysis
  | setBeacon
  | beaconOverride
  | setNoticeMask
  | fetchNotices
  | setCadence
  | cancelQuery
  | readStatus
  /-- GATEWAY_TX_DONE; whether the offer of waiting verdicts after a departure belongs to this step
  or is left to a WAITING_VERDICT_OFFER of its own (R113, log 15). -/
  | gatewayTxDone (offerNow : Bool)
  | fieldTxDone
  | plantLineRecognition (line : Nat)
  | markPress
  | certifyChange
  | commitChecks (choice : SwapChoice)
  | stallTimerExpiry (slot : Nat)
  | holdOffExpiry (key slot : Nat)
  | maximumLength (key slot : Nat)
  | pulseEnd (line : Nat)
  | flashTurn (line : Nat)
  | baseUnderflow
  | summaryUnderflow
  | waitingVerdictOffer
  | markRecordOffer
  /-- SAMPLE with the pin levels it meets. -/
  | sample (pins : Pins)
  deriving DecidableEq, Repr

end Sys2Proof
end

