-- ==== Sys2Proof/Decode.lean ====
section
/-! DEFINITION. The command table gives no row any bits (spec/opcode_table.json, every `fields` is
empty), so no word spells a command. The layouts of frames and items are in Machine/Layout.lean and
Machine/Operands.lean. -/

namespace Sys2Proof

/-- The command a word of the table spells: none, since no row has bits. -/
def decodeTableWord (_nbits _w : Nat) : Option Instr := none

end Sys2Proof
end

