-- ==== Sys2Proof/Machine/State.lean ====
section
/-! DEFINITION. The state of the analyser as plain data, block by block as section 3 of the overview
lists them, and the state after power-on reset. -/

namespace Sys2Proof.Machine

/-! ### Site time (chapter 2) -/

/-- The clock states (R23). -/
inductive ClockState where
  | unset
  | stopped
  | running
  deriving DecidableEq, Repr

/-- A site time stamp (R25). -/
structure Stamp where
  day    : Nat
  eighth : Nat
  clock  : ClockState
  deriving DecidableEq, Repr

/-- A site time stamp with the tick count of the same moment (R25). -/
structure Moment where
  stamp : Stamp
  tick  : Tick
  deriving DecidableEq, Repr

/-- The site clock, the tick generator and the held current band (chapter 2, block table).
`intervalTrim` is the trim under which the tick interval in progress began (R22), `tickStamp` the stamp of the
most recent tick, which what falls at that tick carries (R104 to R106). -/
structure Clock where
  trim          : Int
  intervalTrim  : Int
  tickCount     : Tick
  state         : ClockState
  day           : Nat
  eighth        : Nat
  weekdayOffset : Nat
  band          : Nat
  tickStamp     : Stamp
  deriving DecidableEq, Repr

/-- The day types (section 5.5). -/
inductive DayType where
  | mon | tue | wed | thu | fri | sat | sun | holiday | special
  deriving DecidableEq, Repr

/-- A defined band record (section 2.6): its day types, first minute, and minute after the last. -/
structure BandRecord where
  days  : DayMask
  start : Nat
  stop  : Nat
  deriving DecidableEq, Repr

/-- An exception record (section 2.5). -/
structure ExceptionRecord where
  day     : Nat
  dayType : DayType
  deriving DecidableEq, Repr

/-- The active and staged band tables and exception lists (R30, R32); `none` is an undefined band. -/
structure Schedule where
  activeBands      : List (Option BandRecord)
  stagedBands      : List (Option BandRecord)
  activeExceptions : List ExceptionRecord
  stagedExceptions : List ExceptionRecord
  deriving DecidableEq, Repr

/-! ### Energy (overview section 5.3)

Both are lists of (key, amount) with rising keys and amounts above 0. -/

/-- Amounts by key, keys rising, no amount 0. -/
abbrev Counts := List (Nat × Nat)

/-- An energy sum, held exactly: an entry (r, n) stands for n × 10^(r/100), r from 0 to 99 (log 6). -/
abbrev EnergySum := Counts

/-- An energy sum with its slice count (R15, R102). -/
structure EnergyAccount where
  sum   : EnergySum
  count : Nat
  deriving DecidableEq, Repr

/-! ### Slice intake (chapter 1) -/

/-- A slice as judged (section 1.1). -/
structure Slice where
  channel     : Nat
  sequence    : Nat
  level       : Nat
  fast        : Nat
  peak        : Nat
  overload    : Bool
  calibrating : Bool
  deriving DecidableEq, Repr

/-- A slot's state with the fields present in it (R4): the bound id in all but UNBOUND, the expected
sequence and the last-accepted tick in LIVE and STALLED. -/
inductive SlotLink where
  | unbound
  | waiting (id : Nat)
  | live (id expected : Nat) (last : Tick)
  | stalled (id expected : Nat) (last : Tick)
  deriving DecidableEq, Repr

/-- The seven counters of a slot (R14). -/
structure SlotCounters where
  accepted : Nat
  missing  : Nat
  rejected : Nat
  range    : Nat
  excluded : Nat
  resyncs  : Nat
  stalls   : Nat
  deriving DecidableEq, Repr

/-- A slot record (section 1.2). -/
structure SlotRecord where
  link     : SlotLink
  latest   : Option Nat
  counters : SlotCounters
  energy   : EnergyAccount
  deriving DecidableEq, Repr

/-! ### The limit table (chapter 3) -/

/-- The metrics, with their conditional fields (R39). -/
inductive Metric where
  | leq
  | lmax
  | lpeak
  | ln (percentile : Nat)
  | events (aux : Nat)
  deriving DecidableEq, Repr

/-- The window types, with their conditional fields (R39). -/
inductive WindowType where
  | slice
  | fixed (minutes : Nat)
  | band
  | rolling (stepSeconds stepCount : Nat)
  deriving DecidableEq, Repr

/-- The tests, EXCESS with its reference key (R39, R43). -/
inductive Test where
  | gt
  | rise
  | excess (reference : Nat)
  | countGe
  | invalid
  | always
  deriving DecidableEq, Repr

/-- The actions (R39). -/
inductive Action where
  | none
  | report
  | episode
  | both
  deriving DecidableEq, Repr

/-- The custodies (R39). -/
inductive Custody where
  | site
  | certified
  deriving DecidableEq, Repr

/-- A limit entry (R39). -/
structure LimitEntry where
  key         : Nat
  slots       : SlotMask
  bands       : BandMask
  metric      : Metric
  window      : WindowType
  test        : Test
  negate      : Bool
  threshold   : Nat
  minCoverage : Nat
  action      : Action
  beacon      : Option Nat
  holdOff     : Nat
  maxLength   : Nat
  custody     : Custody
  deriving DecidableEq, Repr

/-- One limit table: 64 indices, each empty or holding an entry (R47). -/
abbrev EntryTable := List (Option LimitEntry)

/-- The reasons of a failed commit (R59). -/
inductive CommitFailure where
  | duplicateKey
  | badReference
  | bandUndefined
  | poolExhausted
  | histogramExhausted
  deriving DecidableEq, Repr

/-- The last commit result when it is present (R64). -/
inductive CommitResult where
  | done
  | failed (reason : CommitFailure) (index : Option Nat)
  deriving DecidableEq, Repr

/-- The limit table's state (chapter 3, block table); `pending` is the commit state PENDING. -/
structure LimitTable where
  active     : EntryTable
  staged     : EntryTable
  frozen     : BitVec 64
  pending    : Bool
  lastResult : Option CommitResult
  deriving DecidableEq, Repr

/-! ### The window engine (chapter 4) -/

/-- What a window or a rolling step has gathered (R68). `cut` is TRUNCATED for a window and the
partial mark for a step. -/
structure Tally where
  start    : Moment
  counted  : Nat
  excluded : Nat
  energy   : EnergySum
  maxFast  : Option Nat
  maxPeak  : Option Nat
  events   : Nat
  bins     : Counts
  overload : Bool
  cut      : Bool
  deriving DecidableEq, Repr

/-- The contents of an accumulator (R68): IDLE, an open FIXED or BAND window, or an open ring with its
step records oldest first, the step in progress last. -/
inductive Acc where
  | idle
  | window (tally : Tally)
  | ring (steps : List Tally)
  deriving DecidableEq, Repr

/-- A unit of the pool held by a pair (R66): its kind and its contents. -/
structure PoolUnit where
  histogram : Bool
  acc       : Acc
  deriving DecidableEq, Repr

/-- The outcomes of an evaluation (section 3.3). -/
inductive TestOutcome where
  | isTrue
  | isFalse
  | undetermined
  deriving DecidableEq, Repr

/-- A previous comparison (R45). -/
inductive Comparison where
  | notAbove
  | above
  deriving DecidableEq, Repr

/-- A result cell (R84). The two flags are absent like the other fields until an evaluation (log 32). -/
structure ResultCell where
  outcome   : Option TestOutcome
  metric    : Option Nat
  coverage  : Option Nat
  spanStart : Option Moment
  close     : Option Moment
  truncated : Option Bool
  overload  : Option Bool
  previous  : Option Comparison
  valid     : Option Nat
  deriving DecidableEq, Repr

/-- The window engine: by entry index, then by slot, the unit a pair holds and its result cell. -/
structure WindowEngine where
  units : List (List (Option PoolUnit))
  cells : List (List ResultCell)
  deriving DecidableEq, Repr

/-! ### The episode table (chapter 5) -/

/-- The state of a current episode (R91); CLOSED_WAITING episodes stand in `EpisodeTable.waiting`. -/
inductive EpisodeState where
  | opened
  | holdOff (remaining : Nat)
  deriving DecidableEq, Repr

/-- The record of an OPEN or HOLDOFF episode (R91). -/
structure Episode where
  number          : Nat
  key             : Nat
  index           : Nat
  slot            : Nat
  state           : EpisodeState
  openTick        : Tick
  start           : Moment
  lastTrue        : Moment
  peak            : Option Nat
  energy          : EnergyAccount
  reentries       : Nat
  primary         : Option Nat
  everActive      : LineSet
  coincident      : SlotMask
  continuationOf  : Option Nat
  suspect         : Bool
  clockNotRunning : Bool
  truncated       : Bool
  deriving DecidableEq, Repr

/-- The close reasons (R108, section 10.2). -/
inductive CloseReason where
  | quiet
  | continued
  | bandEnd
  | withdrawn
  | redefined
  | stalled
  | unbound
  | timeSet
  | restart
  deriving DecidableEq, Repr

/-- The fields of the entry in force at a close (R112). -/
structure Judged where
  metric    : Metric
  window    : WindowType
  test      : Test
  negate    : Bool
  threshold : Nat
  deriving DecidableEq, Repr

/-- The VERDICT of a closed episode (R112). A verdict on the waiting list is the fixed record of its
CLOSED_WAITING episode and holds one of the 32 records (R111, R113). -/
structure Verdict where
  number          : Nat
  key             : Nat
  index           : Nat
  slot            : Nat
  continuationOf  : Option Nat
  judged          : Option Judged
  reason          : CloseReason
  start           : Moment
  lastTrue        : Moment
  close           : Moment
  openTick        : Tick
  duration        : Tick
  peak            : Option Nat
  leq             : Option Nat
  sliceCount      : Nat
  reentries       : Nat
  primary         : Option Nat
  everActive      : LineSet
  coincident      : SlotMask
  suspect         : Bool
  clockNotRunning : Bool
  truncated       : Bool
  deriving DecidableEq, Repr

/-- The episode table: current episodes in opening order, closed ones in closing order, the next
episode number and the uncaptured counters by entry index. -/
structure EpisodeTable where
  current    : List Episode
  waiting    : List Verdict
  next       : Nat
  uncaptured : List Nat
  deriving DecidableEq, Repr

/-! ### The plant monitor (chapter 6) -/

/-- A sampler (R118). -/
structure Sampler where
  level : Level
  run   : Nat
  deriving DecidableEq, Repr

/-- A plant record (R120). -/
structure PlantRecord where
  enabled     : Bool
  activeLevel : Level
  debounce    : Nat
  priority    : Nat
  linger      : Nat
  deriving DecidableEq, Repr

/-- One plant line: its sampler, its record, its active flag and ticks (R122), its run counts (R123). -/
structure PlantLine where
  sampler          : Sampler
  record           : PlantRecord
  active           : Bool
  activationTick   : Option Tick
  deactivationTick : Option Tick
  summaryRun       : Nat
  bandRun          : Nat
  deriving DecidableEq, Repr

/-- The coincidence mask, its latch and the setting stamp (R128). -/
structure Coincidence where
  mask    : SlotMask
  latch   : Bool
  setting : Option Moment
  deriving DecidableEq, Repr

/-- A mark (R131). -/
structure Mark where
  moment : Moment
  band   : Nat
  levels : List (Nat × Option Nat)
  deriving DecidableEq, Repr

/-- The plant monitor. -/
structure PlantMonitor where
  lines       : List PlantLine
  mark        : Sampler
  certify     : Sampler
  bandStart   : Moment
  coincidence : Coincidence
  markLatch   : Option Mark
  deriving DecidableEq, Repr

/-! ### Beacons and notices (chapter 7) -/

/-- Beacon modes (R136). -/
inductive BeaconMode where
  | steady
  | pulse
  | flash
  deriving DecidableEq, Repr

/-- Beacon overrides (R136). -/
inductive Override where
  | auto
  | forceOn
  | forceOff
  deriving DecidableEq, Repr

/-- A running flash phase: its level and its count (R140). -/
structure FlashPhase where
  asserted : Bool
  count    : Nat
  deriving DecidableEq, Repr

/-- A beacon line (R136). The demand, the automatic level and the output are computed views. -/
structure BeaconLine where
  mode     : BeaconMode
  width    : Nat
  override : Override
  pulse    : Nat
  flash    : Option FlashPhase
  deriving DecidableEq, Repr

/-- The fourteen notices, in the bit order of section 10.2. -/
inductive Notice where
  | commitDone | commitFailed | episodeOpened | episodeOverflow | queueHigh | reportDropped
  | coincidence | slotStalled | slotResync | clockStopped | markTaken | certifyChanged
  | forwardOverrun | controlOverrun
  deriving DecidableEq, Repr

/-- The notice unit (R144 to R146). -/
structure NoticeUnit where
  pending : NoticeSet
  mask    : NoticeSet
  latch   : Bool
  deriving DecidableEq, Repr

/-- The pin levels held while RESET is low (R136, R149); `attnLow` is ATTN driven low. -/
structure HeldPins where
  beacons : List Bool
  attnLow : Bool
  deriving DecidableEq, Repr

/-! ### Commands, replies and records (chapters 8 to 10) -/

/-- The commands of the summary table of section 9.8. -/
inductive CommandCode where
  | loadEntries | removeEntry | revertStaging | commit | clearCommitResult | freezeEntry
  | probeEntry | readEntry | loadBands | loadExceptions | readBands | setTime | startTime
  | readTime | trim | bindSlot | unbindSlot | readSlot | loadPlant | readPlant
  | fetchCoincidence | readWindow | readHistogram | readEpisodes | restartAnalysis | setBeacon
  | beaconOverride | setNoticeMask | fetchNotices | setCadence | cancelQuery | readStatus
  deriving DecidableEq, Repr

/-- The result codes (R179). -/
inductive Result where
  | ok
  | busy
  | denied
  | frozen
  | range
  | malformed
  | unknown
  | notFound
  | full
  deriving DecidableEq, Repr

/-- The answers of PROBE ENTRY (R56). -/
inductive ProbeAnswer where
  | frozen
  | empty
  | needsCertify
  | writable
  deriving DecidableEq, Repr

/-- A query's command with its target (R161). -/
inductive QueryCommand where
  | readWindow (key : Nat) (slot : Option Nat)
  | readSlot (slot : Option Nat)
  | readEpisodes
  | readTime
  deriving DecidableEq, Repr

/-- A standing query (R161). -/
structure Query where
  command : QueryCommand
  tag     : Byte
  deriving DecidableEq, Repr

/-- Cadence modes (R155). -/
inductive CadenceMode where
  | continuous
  | oneShot
  deriving DecidableEq, Repr

/-- The cadence unit (R155, R161). -/
structure Cadence where
  second       : Nat
  baseLatch    : Nat
  base         : Nat
  summaryLatch : Nat
  summary      : Nat
  mode         : CadenceMode
  running      : Bool
  queries      : List Query
  deriving DecidableEq, Repr

/-- One slot as READ SLOT reports it (R18). -/
structure SlotReport where
  slot     : Nat
  link     : SlotLink
  elapsed  : Option Tick
  latest   : Option Nat
  counters : SlotCounters
  leq      : Option Nat
  count    : Nat
  deriving DecidableEq, Repr

/-- The figures so far of an OPEN accumulator (R88). -/
structure OpenFigures where
  start     : Option Moment
  records   : Option Nat
  oldest    : Option Moment
  counted   : Nat
  excluded  : Nat
  expected  : Nat
  coverage  : Nat
  metric    : Option Nat
  truncated : Bool
  overload  : Bool
  deriving DecidableEq, Repr

/-- One slot as READ WINDOW reports it (R88): the result cell, whether an accumulator exists and is
OPEN, and its figures so far. -/
structure WindowReport where
  cell    : ResultCell
  accOpen : Option Bool
  figures : Option OpenFigures
  deriving DecidableEq, Repr

/-- One current episode as READ EPISODES reports it (R115). -/
structure EpisodeReport where
  episode : Episode
  leq     : Option Nat
  deriving DecidableEq, Repr

/-- One beacon line as its reply items report it (R143). -/
structure BeaconReport where
  mode      : BeaconMode
  width     : Nat
  override  : Override
  demand    : Nat
  pulse     : Nat
  automatic : Bool
  output    : Bool
  deriving DecidableEq, Repr

/-- The readout of READ STATUS (R181). -/
structure StatusReport where
  moment        : Moment
  strap         : BitVec 2
  commitPending : Bool
  lastResult    : Option CommitResult
  clock         : ClockState
  band          : Nat
  plainInUse    : Nat
  histInUse     : Nat
  depth         : Nat
  opened        : Nat
  holdOff       : Nat
  closedWaiting : Nat
  certify       : Bool
  queries       : Nat
  beacons       : List BeaconReport
  latch         : Bool
  fieldErrors   : Nat
  gatewayErrors : Nat
  forwardOverruns : Nat
  controlOverruns : Nat
  forwardFill   : Nat
  onwardFill    : Nat
  replyFill     : Nat
  deriving DecidableEq, Repr

/-- The data of an OK reply item (R179). -/
inductive ReplyData where
  | empty
  | entry (index : Nat) (frozen : Bool) (entry : Option LimitEntry) (active : Option Bool)
  | probe (index : Nat) (answer : ProbeAnswer)
  | bands (bands : List (Option BandRecord)) (isProtected : List Bool)
      (exceptions : List ExceptionRecord) (band : Nat)
  | time (moment : Moment) (weekday : Nat) (dayType : DayType) (band : Nat) (trim : Int)
  | slots (moment : Moment) (slots : List SlotReport)
  | plant (moment : Moment) (band : Nat) (bandStart : Moment) (lines : List PlantLine)
      (pressed asserted : Bool) (mark : Option Tick) (coincidenceLatch : Bool)
  | coincidence (moment : Moment) (mask : SlotMask) (setting : Option Moment)
  | windows (moment : Moment) (index : Nat) (active : Bool) (slots : List WindowReport)
  | histogram (moment : Moment) (slot : Nat) (accOpen : Bool) (start : Option Moment)
      (counted : Nat) (bins : List (Nat × Nat))
  | episodes (moment : Moment) (closedWaiting : Nat) (episodes : List EpisodeReport)
  | beacons (moment : Moment) (lines : List BeaconReport)
  | noticeMask (mask : NoticeSet)
  | notices (moment : Moment) (pending mask : NoticeSet) (latch : Bool)
  | cadence (moment : Moment) (cadence : Cadence)
  | queries (queries : List Query)
  | status (report : StatusReport)
  deriving DecidableEq, Repr

/-- A reply item (R179): the code it names, its result and its data. -/
structure ReplyItem where
  code   : Byte
  result : Result
  data   : ReplyData
  deriving DecidableEq, Repr

/-- A WINDOW record (R87). -/
structure WindowRecord where
  key       : Nat
  index     : Nat
  slot      : Nat
  window    : WindowType
  metric    : Metric
  test      : Test
  spanStart : Moment
  close     : Moment
  value     : Option Nat
  threshold : Nat
  reference : Option Nat
  counted   : Nat
  excluded  : Nat
  expected  : Nat
  coverage  : Nat
  truncated : Bool
  overload  : Bool
  deriving DecidableEq, Repr

/-- A slot account of a SUMMARY record (R159). -/
structure SlotAccount where
  slot     : Nat
  link     : SlotLink
  counters : SlotCounters
  leq      : Option Nat
  count    : Nat
  deriving DecidableEq, Repr

/-- A line account of a SUMMARY record (R159). -/
structure LineAccount where
  line   : Nat
  run    : Nat
  active : Bool
  deriving DecidableEq, Repr

/-- An uncaptured account of a SUMMARY record (R159); the key is absent where the index is empty. -/
structure UncapturedAccount where
  index : Nat
  key   : Option Nat
  count : Nat
  deriving DecidableEq, Repr

/-- A SUMMARY record (R159). -/
structure SummaryRecord where
  moment          : Moment
  slots           : List SlotAccount
  lines           : List LineAccount
  uncaptured      : List UncapturedAccount
  dropped         : Nat
  fieldErrors     : Nat
  gatewayErrors   : Nat
  forwardOverruns : Nat
  controlOverruns : Nat
  deriving DecidableEq, Repr

/-- A QUERY record (R162). -/
structure QueryRecord where
  position : Nat
  query    : Query
  item     : ReplyItem
  deriving DecidableEq, Repr

/-- An ATTENTION record (R147). -/
structure AttentionRecord where
  moment  : Moment
  pending : NoticeSet
  mask    : NoticeSet
  deriving DecidableEq, Repr

/-- The six kinds of report record with their contents (section 8.1). -/
inductive RecordBody where
  | verdict (verdict : Verdict)
  | window (record : WindowRecord)
  | summary (record : SummaryRecord)
  | mark (mark : Mark)
  | query (record : QueryRecord)
  | attention (record : AttentionRecord)
  deriving DecidableEq, Repr

/-- A queued report record with its entry tick (R150). -/
structure Record where
  entryTick : Tick
  body      : RecordBody
  deriving DecidableEq, Repr

/-- The report queue, head first, and the dropped-report count (R150, R154). -/
structure ReportQueue where
  queue   : List Record
  dropped : Nat
  deriving DecidableEq, Repr

/-! ### Link ports and command decoder (chapter 9) -/

/-- A control frame in execution (R174): its tag, the bytes not yet decoded, the items taken so far,
and the reply items written. -/
structure Executing where
  tag   : Byte
  rest  : List Byte
  taken : Nat
  items : List ReplyItem
  deriving DecidableEq, Repr

/-- A complete reply: tag, items and the pending notice set at the end of execution (R179). -/
structure Reply where
  tag     : Byte
  items   : List ReplyItem
  pending : NoticeSet
  deriving DecidableEq, Repr

/-- A place of reply holding that is not FREE (R174). -/
inductive Transaction where
  | queued (tag : Byte) (items : List Byte)
  | executing (frame : Executing)
  | ready (reply : Reply)
  deriving DecidableEq, Repr

/-- The link ports: FIFOs, reply holding in order of arrival, starve count, the two transmitters
(the frames of the run being sent, or the frame being sent, while busy), the four counters of R172
and the strap address. -/
structure Ports where
  forward         : List Frame
  onward          : List Frame
  holding         : List Transaction
  starve          : Nat
  gatewayTx       : Option (List Frame)
  fieldTx         : Option Frame
  fieldErrors     : Nat
  gatewayErrors   : Nat
  forwardOverruns : Nat
  controlOverruns : Nat
  strap           : BitVec 2
  deriving DecidableEq, Repr

/-! ### The whole -/

/-- The state of the analyser, with the queue of waiting commands and the work of the moment that has
not been taken yet. -/
structure State where
  pending  : List Instr
  due      : List Due
  clock    : Clock
  schedule : Schedule
  slots    : List SlotRecord
  table    : LimitTable
  windows  : WindowEngine
  episodes : EpisodeTable
  plant    : PlantMonitor
  beacons  : List BeaconLine
  notices  : NoticeUnit
  report   : ReportQueue
  cadence  : Cadence
  ports    : Ports
  held     : Option HeldPins
  deriving DecidableEq, Repr

/-- The faults of the part: none. Nobody raises one; the manual names no condition that stops the part
(every bad frame is discarded and every refused command is answered), so the empty type is safe. -/
inductive Fault where
  deriving DecidableEq, Repr

/-- The refusals of the model. -/
inductive Refusal where
  /-- Raised by an arm of `exec` whose command has no meaning yet; no arm raises it. Safe. -/
  | notModelled (mnemonic : String)
  deriving DecidableEq, Repr

/-! ### Values after power-on -/

/-- The stamp and tick of power-on (R23, R21). -/
def Moment.powerOn : Moment := ⟨⟨0, 0, .unset⟩, 0⟩

/-- The clock at power-on (chapter 2, block table). -/
def Clock.powerOn : Clock where
  trim := 0
  intervalTrim := 0
  tickCount := 0
  state := .unset
  day := 0
  eighth := 0
  weekdayOffset := 0
  band := Config.untimed
  tickStamp := ⟨0, 0, .unset⟩

/-- The schedule at power-on (R30, R32). -/
def Schedule.powerOn : Schedule where
  activeBands := List.replicate Config.userBands none
  stagedBands := List.replicate Config.userBands none
  activeExceptions := []
  stagedExceptions := []

/-- An empty energy account (R15). -/
def EnergyAccount.empty : EnergyAccount := ⟨[], 0⟩

/-- Cleared slot counters (R14). -/
def SlotCounters.zero : SlotCounters := ⟨0, 0, 0, 0, 0, 0, 0⟩

/-- A slot record with everything but its binding and state cleared (R16, R19, R20). -/
def SlotRecord.cleared (link : SlotLink) : SlotRecord := ⟨link, none, .zero, .empty⟩

/-- An empty limit table. -/
def EntryTable.empty : EntryTable := List.replicate Config.entryCount none

/-- The limit table at power-on (R65). -/
def LimitTable.powerOn : LimitTable := ⟨.empty, .empty, 0, false, none⟩

/-- A restarted result cell: every field absent, the two flags included (R69, R84, log 32). -/
def ResultCell.empty : ResultCell := ⟨none, none, none, none, none, none, none, none, none⟩

/-- No pair holds a unit. -/
def WindowEngine.noUnits : List (List (Option PoolUnit)) :=
  List.replicate Config.entryCount (List.replicate Config.slotCount none)

/-- Every result cell restarted. -/
def WindowEngine.noCells : List (List ResultCell) :=
  List.replicate Config.entryCount (List.replicate Config.slotCount .empty)

/-- The window engine at power-on (R90). -/
def WindowEngine.powerOn : WindowEngine := ⟨noUnits, noCells⟩

/-- The episode table at power-on (R117). -/
def EpisodeTable.powerOn : EpisodeTable := ⟨[], [], 1, List.replicate Config.entryCount 0⟩

/-- A plant record at power-on (R120). -/
def PlantRecord.powerOn : PlantRecord := ⟨false, .high, 4, 7, 0⟩

/-- A plant line at power-on (R119, R122, R123). -/
def PlantLine.powerOn : PlantLine := ⟨⟨.low, 0⟩, .powerOn, false, none, none, 0, 0⟩

/-- No coincidence (R130). -/
def Coincidence.empty : Coincidence := ⟨0, false, none⟩

/-- The plant monitor at power-on (R135). -/
def PlantMonitor.powerOn : PlantMonitor where
  lines := List.replicate Config.plantLines .powerOn
  mark := ⟨.high, 0⟩
  certify := ⟨.high, 0⟩
  bandStart := .powerOn
  coincidence := .empty
  markLatch := none

/-- A beacon line after either reset (R136). -/
def BeaconLine.afterReset : BeaconLine := ⟨.steady, 5, .auto, 0, none⟩

/-- The notice unit after either reset (R149). -/
def NoticeUnit.afterReset : NoticeUnit := ⟨0, 0, false⟩

/-- The cadence unit after either reset (R158, R164). -/
def Cadence.afterReset : Cadence := ⟨8, 60, 60, 15, 15, .continuous, true, []⟩

/-- The ports at power-on, with the strap address read (R173). -/
def Ports.powerOn (straps : BitVec 2) : Ports := ⟨[], [], [], 0, none, none, 0, 0, 0, 0, straps⟩

/-- The analyser after power-on reset with the given straps (R19 and the rule of each block). -/
def State.powerOn (straps : BitVec 2) : State where
  pending := []
  due := []
  clock := .powerOn
  schedule := .powerOn
  slots := List.replicate Config.slotCount (.cleared .unbound)
  table := .powerOn
  windows := .powerOn
  episodes := .powerOn
  plant := .powerOn
  beacons := List.replicate Config.beaconLines .afterReset
  notices := .afterReset
  report := ⟨[], 0⟩
  cadence := .afterReset
  ports := .powerOn straps
  held := none

/-- The machine right after power-on reset, both straps read as 0 (log 5). -/
def State.reset : State := State.powerOn 0

end Sys2Proof.Machine
end

