-- ==== Sys2Proof/Machine/Energy.lean ====
section
/-! DEFINITION. Level codes, energies and percentiles (overview sections 5.3 and 5.4). The energy of a
code c is 10^(c/100). A sum of energies is held exactly as the whole amounts of 10^(r/100) for each
residue r of the codes modulo 100 (log 6). -/

namespace Sys2Proof.Machine

/-- `n` more of key `k`; the keys stay rising. -/
def Counts.bump (k n : Nat) : Counts → Counts
  | [] => [(k, n)]
  | (j, m) :: rest =>
    if k < j then (k, n) :: (j, m) :: rest
    else if k = j then (j, m + n) :: rest
    else (j, m) :: Counts.bump k n rest

/-- The amount of key `k`. -/
def Counts.at : Counts → Nat → Nat
  | [], _ => 0
  | (j, m) :: rest, k => if j = k then m else Counts.at rest k

/-- All amounts of both. -/
def Counts.merge (a b : Counts) : Counts :=
  b.foldl (fun acc p => Counts.bump p.1 p.2 acc) a

/-- The sum of the amounts. -/
def Counts.total : Counts → Nat
  | [] => 0
  | (_, m) :: rest => m + Counts.total rest

/-- The sum of the amounts of keys at or above `b`. -/
def Counts.totalFrom (b : Nat) : Counts → Nat
  | [] => 0
  | (j, m) :: rest => (if b ≤ j then m else 0) + Counts.totalFrom b rest

/-- `n` times the energy of `code`, n above 0. -/
def EnergySum.ofCode (n code : Nat) : EnergySum := [(code % 100, n * 10 ^ (code / 100))]

/-- The sum with the energy of one more code. -/
def EnergySum.add (code : Nat) (e : EnergySum) : EnergySum :=
  Counts.bump (code % 100) (10 ^ (code / 100)) e

/-- Bits `j-1` down to 0 of the largest x with x^100 ≤ 10^r × 2^(100 k), those above being `acc`. -/
def rootBits (k r : Nat) : Nat → Nat → Nat
  | 0, acc => acc
  | j + 1, acc =>
    if (acc + 2 ^ j) ^ 100 ≤ 10 ^ r * 2 ^ (100 * k) then rootBits k r j (acc + 2 ^ j)
    else rootBits k r j acc

/-- ⌊2^k × 10^(r/100)⌋ for r below 100. -/
def rootFloor (k r : Nat) : Nat := rootBits k r (k + 4) 0

/-- A lower bound of 2^k times the sum. -/
def EnergySum.lower (k : Nat) (e : EnergySum) : Nat :=
  (e.map (fun p => p.2 * rootFloor k p.1)).sum

/-- An upper bound of 2^k times the sum. -/
def EnergySum.upper (k : Nat) (e : EnergySum) : Nat :=
  (e.map (fun p => p.2 * (rootFloor k p.1 + 1))).sum

/-- The comparison by bounds of rising precision. -/
def EnergySum.leAt (a b : EnergySum) : List Nat → Bool
  | [] => false
  | k :: ks =>
    if a.upper k ≤ b.lower k then true
    else if b.upper k ≤ a.lower k then false
    else EnergySum.leAt a b ks

/-- The precisions, in bits, at which two different sums are compared. The last one separates any two
different sums the part can form (log 6). -/
def EnergySum.precisions : List Nat := [64, 512, 4096, 16384]

/-- The first sum does not exceed the second. Equal sums are equal lists, because the energies of the
residues have no linear relation with whole coefficients (log 6). -/
def EnergySum.le (a b : EnergySum) : Bool :=
  a == b || EnergySum.leAt a b EnergySum.precisions

/-- Bits `j-1` down to 0 of the largest code whose energy, `n` times, does not exceed the sum. -/
def EnergySum.codeBits (n : Nat) (e : EnergySum) : Nat → Nat → Nat
  | 0, acc => acc
  | j + 1, acc =>
    if EnergySum.le (EnergySum.ofCode n (acc + 2 ^ j)) e then EnergySum.codeBits n e j (acc + 2 ^ j)
    else EnergySum.codeBits n e j acc

/-- The equivalent level of `count` slices (section 5.3): the largest code whose energy does not exceed
the mean energy; absent for no slice. -/
def equivalentLevel (e : EnergySum) (count : Nat) : Option Nat :=
  if count = 0 then none else some (EnergySum.codeBits count e 11 0)

/-- One more slice of the given level, unless the count has saturated (R15, R102). -/
def EnergyAccount.add (level : Nat) (a : EnergyAccount) : EnergyAccount :=
  if a.count < Config.max32 then ⟨a.sum.add level, a.count + 1⟩ else a

/-- The equivalent level of an account. -/
def EnergyAccount.leq (a : EnergyAccount) : Option Nat := equivalentLevel a.sum a.count

/-- The histogram bin of an A-level code (section 5.4). -/
def binOf (code : Nat) : Nat := min ((code - 200) / 10) 119

/-- The highest bin at or below `b` whose slices in it and above are at least N percent of all. -/
def highestBin (bins : Counts) (n : Nat) : Nat → Nat
  | 0 => 0
  | b + 1 =>
    if n * Counts.total bins ≤ 100 * Counts.totalFrom (b + 1) bins then b + 1
    else highestBin bins n b

/-- The percentile value LN (section 5.4), absent for an empty histogram. -/
def percentileLevel (bins : Counts) (n : Nat) : Option Nat :=
  if Counts.total bins = 0 then none else some (200 + 10 * highestBin bins n 119)

end Sys2Proof.Machine
end

