-- ==== Sys2Proof/Machine/Layout.lean ====
section
/-! DEFINITION. The byte layouts of chapter 10 that the part sends: the envelope and its check, the
enumerations, load images, reply items, report records, and the runs that carry them. -/

namespace Sys2Proof.Machine

/-! ### Quantities (R183) -/

/-- One byte. -/
def byte1 (n : Nat) : List Byte := [BitVec.ofNat 8 n]

/-- Two bytes, most significant first. -/
def byte2 (n : Nat) : List Byte := [BitVec.ofNat 8 (n / 256), BitVec.ofNat 8 n]

/-- Three bytes, most significant first. -/
def byte3 (n : Nat) : List Byte := BitVec.ofNat 8 (n / 65536) :: byte2 n

/-- Four bytes, most significant first. -/
def byte4 (n : Nat) : List Byte := BitVec.ofNat 8 (n / 16777216) :: byte3 n

/-- The value of bytes sent most significant first. -/
def bigEndian (bytes : List Byte) : Nat := bytes.foldl (fun acc b => acc * 256 + b.toNat) 0

/-- A yes-or-no item (R189). -/
def byteBool (b : Bool) : List Byte := byte1 (if b then 1 else 0)

/-- An optional item behind a flag byte with its presence bit; absent bytes are zero (R189). -/
def flagged (width : Nat) (item : Option (List Byte)) : List Byte :=
  match item with
  | some bytes => byte1 1 ++ bytes
  | none => byte1 0 ++ List.replicate width 0

/-- An optional level code, FFFFh when absent (R183). -/
def byteLevel (code : Option Nat) : List Byte := byte2 (code.getD 0xFFFF)

/-- An optional slot or line number, FFh when absent (R183). -/
def byteNumber (number : Option Nat) : List Byte := byte1 (number.getD 0xFF)

/-! ### Enumerations (section 10.2) -/

/-- Clock state codes. -/
def ClockState.code : ClockState → Nat
  | .unset => 0 | .stopped => 1 | .running => 2

/-- Day type codes, also their bits in a day-type mask. -/
def DayType.code : DayType → Nat
  | .mon => 0 | .tue => 1 | .wed => 2 | .thu => 3 | .fri => 4 | .sat => 5 | .sun => 6
  | .holiday => 7 | .special => 8

/-- Slot state codes. -/
def SlotLink.code : SlotLink → Nat
  | .unbound => 0 | .waiting _ => 1 | .live _ _ _ => 2 | .stalled _ _ _ => 3

/-- Episode state codes of current episodes. -/
def EpisodeState.code : EpisodeState → Nat
  | .opened => 1 | .holdOff _ => 2

/-- Metric codes. -/
def Metric.code : Metric → Nat
  | .leq => 1 | .lmax => 2 | .lpeak => 3 | .ln _ => 4 | .events _ => 5

/-- Window type codes. -/
def WindowType.code : WindowType → Nat
  | .slice => 1 | .fixed _ => 2 | .band => 3 | .rolling _ _ => 4

/-- Test codes. -/
def Test.code : Test → Nat
  | .gt => 1 | .rise => 2 | .excess _ => 3 | .countGe => 4 | .invalid => 5 | .always => 6

/-- Action codes. -/
def Action.code : Action → Nat
  | .none => 0 | .report => 1 | .episode => 2 | .both => 3

/-- Close reason codes. -/
def CloseReason.code : CloseReason → Nat
  | .quiet => 1 | .continued => 2 | .bandEnd => 3 | .withdrawn => 4 | .redefined => 5
  | .stalled => 6 | .unbound => 7 | .timeSet => 8 | .restart => 9

/-- Commit failure codes. -/
def CommitFailure.code : CommitFailure → Nat
  | .duplicateKey => 1 | .badReference => 2 | .bandUndefined => 3 | .poolExhausted => 4
  | .histogramExhausted => 5

/-- Beacon mode codes. -/
def BeaconMode.code : BeaconMode → Nat
  | .steady => 0 | .pulse => 1 | .flash => 2

/-- Override codes. -/
def Override.code : Override → Nat
  | .auto => 0 | .forceOn => 1 | .forceOff => 2

/-- Result codes. -/
def Result.code : Result → Nat
  | .ok => 0 | .busy => 1 | .denied => 2 | .frozen => 3 | .range => 4 | .malformed => 5
  | .unknown => 6 | .notFound => 7 | .full => 8

/-- Outcome codes. -/
def TestOutcome.code : TestOutcome → Nat
  | .isTrue => 1 | .isFalse => 2 | .undetermined => 3

/-- Previous comparison codes. -/
def Comparison.code : Comparison → Nat
  | .notAbove => 0 | .above => 1

/-- Probe answer codes. -/
def ProbeAnswer.code : ProbeAnswer → Nat
  | .frozen => 1 | .empty => 2 | .needsCertify => 3 | .writable => 4

/-- Cadence mode codes. -/
def CadenceMode.code : CadenceMode → Nat
  | .continuous => 0 | .oneShot => 1

/-- Pin level codes. -/
def levelCode : Level → Nat
  | .low => 0 | .high => 1

/-- The bit of a notice in a notice set. -/
def Notice.bit : Notice → Nat
  | .commitDone => 0 | .commitFailed => 1 | .episodeOpened => 2 | .episodeOverflow => 3
  | .queueHigh => 4 | .reportDropped => 5 | .coincidence => 6 | .slotStalled => 7
  | .slotResync => 8 | .clockStopped => 9 | .markTaken => 10 | .certifyChanged => 11
  | .forwardOverrun => 12 | .controlOverrun => 13

/-- Command codes (section 9.8). -/
def CommandCode.code : CommandCode → Nat
  | .loadEntries => 0x20 | .removeEntry => 0x21 | .revertStaging => 0x22 | .commit => 0x23
  | .clearCommitResult => 0x24 | .freezeEntry => 0x25 | .probeEntry => 0x26 | .readEntry => 0x27
  | .loadBands => 0x30 | .loadExceptions => 0x31 | .readBands => 0x32 | .setTime => 0x38
  | .startTime => 0x39 | .readTime => 0x3A | .trim => 0x3B | .bindSlot => 0x40
  | .unbindSlot => 0x41 | .readSlot => 0x42 | .loadPlant => 0x48 | .readPlant => 0x49
  | .fetchCoincidence => 0x4A | .readWindow => 0x50 | .readHistogram => 0x51
  | .readEpisodes => 0x58 | .restartAnalysis => 0x59 | .setBeacon => 0x60
  | .beaconOverride => 0x61 | .setNoticeMask => 0x68 | .fetchNotices => 0x69
  | .setCadence => 0x70 | .cancelQuery => 0x71 | .readStatus => 0x78

/-- The commands of section 9.8, in its order. -/
def CommandCode.all : List CommandCode :=
  [.loadEntries, .removeEntry, .revertStaging, .commit, .clearCommitResult, .freezeEntry,
   .probeEntry, .readEntry, .loadBands, .loadExceptions, .readBands, .setTime, .startTime,
   .readTime, .trim, .bindSlot, .unbindSlot, .readSlot, .loadPlant, .readPlant,
   .fetchCoincidence, .readWindow, .readHistogram, .readEpisodes, .restartAnalysis, .setBeacon,
   .beaconOverride, .setNoticeMask, .fetchNotices, .setCadence, .cancelQuery, .readStatus]

/-- The code byte of a command. -/
def CommandCode.byte (c : CommandCode) : Byte := BitVec.ofNat 8 c.code

/-- The code byte of the SLOT prefix item (section 9.8). -/
def slotCode : Byte := 0x01

/-- The code byte of the STAGED prefix item. -/
def stagedCode : Byte := 0x02

/-- The code byte of the KEEP prefix item. -/
def keepCode : Byte := 0x03

/-! ### Stamps and load images (R183, section 10.5) -/

/-- A site time stamp, 6 bytes. -/
def Stamp.bytes (t : Stamp) : List Byte := byte2 t.day ++ byte3 t.eighth ++ byte1 t.clock.code

/-- A stamp with its tick count, 10 bytes. -/
def Moment.bytes (m : Moment) : List Byte := m.stamp.bytes ++ byte4 m.tick.toNat

/-- An optional stamp with its tick count behind a flag byte. -/
def momentFlagged (m : Option Moment) : List Byte := flagged 10 (m.map Moment.bytes)

/-- An optional tick count behind a flag byte. -/
def tickFlagged (t : Option Tick) : List Byte := flagged 4 (t.map (fun x => byte4 x.toNat))

/-- The percentile of a metric, 0 where absent. -/
def Metric.percentileField : Metric → Nat
  | .ln n => n
  | _ => 0

/-- The aux threshold of a metric, 0 where absent. -/
def Metric.auxField : Metric → Nat
  | .events a => a
  | _ => 0

/-- The fixed length, step seconds and step count fields of a window type, 0 where absent. -/
def WindowType.fields : WindowType → Nat × Nat × Nat
  | .fixed m => (m, 0, 0)
  | .rolling s k => (0, s, k)
  | _ => (0, 0, 0)

/-- The reference key field of a test, 0 where absent. -/
def Test.referenceField : Test → Nat
  | .excess k => k
  | _ => 0

/-- The flag byte of an entry image: negate, CERTIFIED, beacon line present. -/
def LimitEntry.flagByte (e : LimitEntry) : Nat :=
  (if e.negate then 1 else 0) + (if e.custody = .certified then 2 else 0) +
    (if e.beacon.isSome then 4 else 0)

/-- A limit entry image, 28 bytes. -/
def LimitEntry.image (e : LimitEntry) : List Byte :=
  byte2 e.key ++ byte2 e.slots.toNat ++ byte2 e.bands.toNat ++ byte1 e.metric.code ++
    byte1 e.metric.percentileField ++ byte2 e.metric.auxField ++ byte1 e.window.code ++
    byte2 e.window.fields.1 ++ byte2 e.window.fields.2.1 ++ byte1 e.window.fields.2.2 ++
    byte1 e.test.code ++ byte1 e.flagByte ++ byte2 e.threshold ++ byte2 e.test.referenceField ++
    byte1 e.minCoverage ++ byte1 e.action.code ++ byte1 (e.beacon.getD 0) ++ byte2 e.holdOff ++
    byte1 e.maxLength

/-- A band image, 8 bytes; the fields of an undefined band are sent as zero. -/
def bandImage (number : Nat) (band : Option BandRecord) : List Byte :=
  match band with
  | some b => byte1 number ++ byte1 1 ++ byte2 b.days.toNat ++ byte2 b.start ++ byte2 b.stop
  | none => byte1 number ++ List.replicate 7 0

/-- An exception image, 3 bytes. -/
def ExceptionRecord.image (e : ExceptionRecord) : List Byte := byte2 e.day ++ byte1 e.dayType.code

/-- A plant image, 6 bytes. -/
def PlantRecord.image (line : Nat) (r : PlantRecord) : List Byte :=
  byte1 line ++ byteBool r.enabled ++ byte1 (levelCode r.activeLevel) ++ byte1 r.debounce ++
    byte1 r.priority ++ byte1 r.linger

/-! ### Reply items (section 10.6, R189) -/

/-- The counters of R14 in their order. -/
def SlotCounters.bytes (c : SlotCounters) : List Byte :=
  byte2 c.accepted ++ byte2 c.missing ++ byte2 c.rejected ++ byte2 c.range ++ byte2 c.excluded ++
    byte2 c.resyncs ++ byte2 c.stalls

/-- The bound id, where there is one. -/
def SlotLink.boundId : SlotLink → Option Nat
  | .unbound => none
  | .waiting id => some id
  | .live id _ _ => some id
  | .stalled id _ _ => some id

/-- The expected sequence, present in LIVE and STALLED. -/
def SlotLink.expectedSequence : SlotLink → Option Nat
  | .live _ e _ => some e
  | .stalled _ e _ => some e
  | _ => none

/-- The last-accepted tick, present in LIVE and STALLED. -/
def SlotLink.lastAccepted : SlotLink → Option Tick
  | .live _ _ t => some t
  | .stalled _ _ t => some t
  | _ => none

/-- One slot of a READ SLOT item (R18). -/
def SlotReport.bytes (r : SlotReport) : List Byte :=
  byte1 r.slot ++ byte1 r.link.code ++ flagged 1 (r.link.boundId.map byte1) ++
    flagged 1 (r.link.expectedSequence.map byte1) ++ tickFlagged r.elapsed ++ byteLevel r.latest ++
    r.counters.bytes ++ byteLevel r.leq ++ byte4 r.count

/-- One line of a READ PLANT item (R134). -/
def PlantLine.bytes (number : Nat) (l : PlantLine) : List Byte :=
  l.record.image number ++ byte1 (levelCode l.sampler.level) ++ byteBool l.active ++
    tickFlagged l.activationTick ++ tickFlagged l.deactivationTick ++ byte4 l.summaryRun ++
    byte4 l.bandRun

/-- A result cell of a READ WINDOW item (R84, R88). Every field can be absent, so each has its flag byte,
TRUNCATED and OVERLOAD-seen too (R189, log 32). -/
def ResultCell.bytes (c : ResultCell) : List Byte :=
  flagged 1 (c.outcome.map (fun o => byte1 o.code)) ++ flagged 2 (c.metric.map byte2) ++
    flagged 1 (c.coverage.map byte1) ++ momentFlagged c.spanStart ++ momentFlagged c.close ++
    flagged 1 (c.truncated.map byteBool) ++ flagged 1 (c.overload.map byteBool) ++
    flagged 1 (c.previous.map (fun p => byte1 p.code)) ++ flagged 2 (c.valid.map byte2)

/-- The accumulator part of a READ WINDOW item (R88); each item is optional. -/
def openFiguresBytes (f : Option OpenFigures) : List Byte :=
  momentFlagged (f.bind (·.start)) ++ flagged 1 ((f.bind (·.records)).map byte1) ++
    momentFlagged (f.bind (·.oldest)) ++ flagged 4 (f.map (fun x => byte4 x.counted)) ++
    flagged 4 (f.map (fun x => byte4 x.excluded)) ++ flagged 4 (f.map (fun x => byte4 x.expected)) ++
    flagged 1 (f.map (fun x => byte1 x.coverage)) ++ flagged 2 ((f.bind (·.metric)).map byte2) ++
    flagged 1 (f.map (fun x => byteBool x.truncated)) ++
    flagged 1 (f.map (fun x => byteBool x.overload))

/-- One slot of a READ WINDOW item. -/
def WindowReport.bytes (r : WindowReport) : List Byte :=
  r.cell.bytes ++ flagged 1 (r.accOpen.map byteBool) ++ openFiguresBytes r.figures

/-- The hold-off remaining of an episode, present in HOLDOFF. -/
def EpisodeState.remaining : EpisodeState → Option Nat
  | .opened => none
  | .holdOff n => some n

/-- One episode of a READ EPISODES item (R115). -/
def EpisodeReport.bytes (r : EpisodeReport) : List Byte :=
  byte2 r.episode.number ++ byte2 r.episode.key ++ byte1 r.episode.index ++ byte1 r.episode.slot ++
    byte1 r.episode.state.code ++ byte4 r.episode.openTick.toNat ++ r.episode.start.bytes ++
    r.episode.lastTrue.bytes ++ flagged 4 (r.episode.state.remaining.map byte4) ++
    flagged 2 (r.episode.peak.map byte2) ++ byteLevel r.leq ++ byte4 r.episode.energy.count ++
    byte2 r.episode.reentries ++ byteNumber r.episode.primary ++ byte1 r.episode.everActive.toNat ++
    byte2 r.episode.coincident.toNat ++ byte2 (r.episode.continuationOf.getD 0) ++
    byteBool r.episode.suspect ++ byteBool r.episode.clockNotRunning ++ byteBool r.episode.truncated

/-- One line of the SET BEACON and BEACON OVERRIDE items (R143). -/
def BeaconReport.bytes (r : BeaconReport) : List Byte :=
  byte1 r.mode.code ++ byte1 r.width ++ byte1 r.override.code ++ byte1 r.demand ++ byte4 r.pulse ++
    byteBool r.automatic ++ byteBool r.output

/-- The command code of a query. -/
def QueryCommand.commandCode : QueryCommand → CommandCode
  | .readWindow _ _ => .readWindow
  | .readSlot _ => .readSlot
  | .readEpisodes => .readEpisodes
  | .readTime => .readTime

/-- The target key of a query, 0 where it has none. -/
def QueryCommand.keyField : QueryCommand → Nat
  | .readWindow key _ => key
  | _ => 0

/-- The target slot of a query, where it has one. -/
def QueryCommand.slotField : QueryCommand → Option Nat
  | .readWindow _ slot => slot
  | .readSlot slot => slot
  | _ => none

/-- A standing query, 6 bytes (R189). -/
def Query.bytes (position : Nat) (q : Query) : List Byte :=
  byte1 position ++ byte1 q.command.commandCode.code ++ byte2 q.command.keyField ++
    byteNumber q.command.slotField ++ [q.tag]

/-- A list of standing queries behind its count. -/
def queryListBytes (queries : List Query) : List Byte :=
  byte1 queries.length ++ queries.zipIdx.flatMap (fun p => p.1.bytes p.2)

/-- The last commit result, 3 bytes (R189). -/
def commitResultBytes : Option CommitResult → List Byte
  | none => byte1 0 ++ byte1 0 ++ byte1 0xFF
  | some .done => byte1 1 ++ byte1 0 ++ byte1 0xFF
  | some (.failed reason index) => byte1 2 ++ byte1 reason.code ++ byteNumber index

/-- The data of a READ STATUS item (R181). -/
def StatusReport.bytes (r : StatusReport) : List Byte :=
  r.moment.bytes ++ byte1 r.strap.toNat ++ byteBool r.commitPending ++
    commitResultBytes r.lastResult ++ byte1 r.clock.code ++ byte1 r.band ++ byte1 r.plainInUse ++
    byte1 r.histInUse ++ byte1 r.depth ++ byte1 r.opened ++ byte1 r.holdOff ++
    byte1 r.closedWaiting ++ byteBool r.certify ++ byte1 r.queries ++
    r.beacons.flatMap (fun b => byte1 b.override.code ++ byteBool b.automatic ++ byteBool b.output) ++
    byteBool r.latch ++ byte2 r.fieldErrors ++ byte2 r.gatewayErrors ++ byte2 r.forwardOverruns ++
    byte2 r.controlOverruns ++ byte1 r.forwardFill ++ byte1 r.onwardFill ++ byte1 r.replyFill

/-- The data of an OK reply item, in the order of the command's rule (R189). The per-slot parts of READ SLOT
and READ WINDOW stand without a count, though the slots of an entry's mask vary in number (log 13).
The activity item of READ ENTRY is sent behind its flag byte; that it is absent for an empty index of the
active table is State.readEntry's choice (log 37). -/
def ReplyData.bytes : ReplyData → List Byte
  | .empty => []
  | .entry index frozen held active =>
    byte1 index ++ byteBool held.isNone ++ byteBool frozen ++
      flagged 28 (held.map LimitEntry.image) ++ flagged 1 (active.map byteBool)
  | .probe index answer => byte1 index ++ byte1 answer.code
  | .bands records isProtected exceptions band =>
    records.zipIdx.flatMap (fun p => bandImage p.2 p.1) ++ isProtected.flatMap byteBool ++
      byte1 exceptions.length ++ exceptions.flatMap ExceptionRecord.image ++ byte1 band
  | .time moment weekday dayType band trim =>
    moment.bytes ++ byte1 weekday ++ byte1 dayType.code ++ byte1 band ++
      byte2 (BitVec.ofInt 16 trim).toNat
  | .slots moment reports => moment.bytes ++ reports.flatMap SlotReport.bytes
  | .plant moment band bandStart lines pressed asserted mark coincidenceLatch =>
    moment.bytes ++ byte1 band ++ bandStart.bytes ++
      lines.zipIdx.flatMap (fun p => p.1.bytes p.2) ++ byteBool pressed ++ byteBool asserted ++
      byteBool mark.isSome ++ tickFlagged mark ++ byteBool coincidenceLatch
  | .coincidence moment mask setting => moment.bytes ++ byte2 mask.toNat ++ momentFlagged setting
  | .windows moment index active reports =>
    moment.bytes ++ byte1 index ++ byteBool active ++ reports.flatMap WindowReport.bytes
  | .histogram moment slot accOpen start counted bins =>
    moment.bytes ++ byte1 slot ++ byteBool accOpen ++ momentFlagged start ++ byte4 counted ++
      byte1 bins.length ++ bins.flatMap (fun p => byte1 p.1 ++ byte4 p.2)
  | .episodes moment closedWaiting reports =>
    moment.bytes ++ byte1 closedWaiting ++ byte1 reports.length ++
      reports.flatMap EpisodeReport.bytes
  | .beacons moment lines => moment.bytes ++ lines.flatMap BeaconReport.bytes
  | .noticeMask mask => byte2 mask.toNat
  | .notices moment pendingSet mask latch =>
    moment.bytes ++ byte2 pendingSet.toNat ++ byte2 mask.toNat ++ byteBool latch
  | .cadence moment c =>
    moment.bytes ++ byte2 c.baseLatch ++ byte1 c.summaryLatch ++ byte2 c.base ++ byte1 c.summary ++
      byte1 c.second ++ byte1 c.mode.code ++ byteBool c.running ++ queryListBytes c.queries
  | .queries list => queryListBytes list
  | .status report => report.bytes

/-- A reply item: code, result, data length and data. -/
def ReplyItem.bytes (i : ReplyItem) : List Byte :=
  [i.code] ++ byte1 i.result.code ++ byte2 i.data.bytes.length ++ i.data.bytes

/-- The content of a reply: tag, count, items and the pending notice set. -/
def Reply.content (r : Reply) : List Byte :=
  [r.tag] ++ byte1 r.items.length ++ r.items.flatMap ReplyItem.bytes ++ byte2 r.pending.toNat

/-! ### Report records (section 10.6) -/

/-- The five bytes-worth of entry fields of a verdict, zero where the key left the table (log 22). -/
def Judged.codes (j : Option Judged) : Nat × Nat × Nat × Bool × Nat :=
  match j with
  | some x => (x.metric.code, x.window.code, x.test.code, x.negate, x.threshold)
  | none => (0, 0, 0, false, 0)

/-- VERDICT content, 67 bytes. -/
def Verdict.bytes (v : Verdict) : List Byte :=
  let j := Judged.codes v.judged
  byte2 v.number ++ byte2 v.key ++ byte1 v.index ++ byte1 v.slot ++
    byte2 (v.continuationOf.getD 0) ++ byte1 j.1 ++ byte1 j.2.1 ++ byte1 j.2.2.1 ++
    byte1 v.reason.code ++ byte2 j.2.2.2.2 ++ v.start.bytes ++ v.lastTrue.bytes ++ v.close.bytes ++
    byte4 v.openTick.toNat ++ byte4 v.duration.toNat ++ byte2 (v.peak.getD 0) ++ byteLevel v.leq ++
    byte4 v.sliceCount ++ byte2 v.reentries ++ byteNumber v.primary ++ byte1 v.everActive.toNat ++
    byte2 v.coincident.toNat ++
    byte1 ((if j.2.2.2.1 then 1 else 0) + (if v.suspect then 2 else 0) +
      (if v.clockNotRunning then 4 else 0) + (if v.truncated then 8 else 0) +
      (if v.peak.isSome then 16 else 0))

/-- WINDOW content, 47 bytes. -/
def WindowRecord.bytes (r : WindowRecord) : List Byte :=
  byte2 r.key ++ byte1 r.index ++ byte1 r.slot ++ byte1 r.window.code ++ byte1 r.metric.code ++
    byte1 r.test.code ++
    byte1 ((if r.truncated then 1 else 0) + (if r.overload then 2 else 0) +
      (if r.reference.isSome then 4 else 0) + (if r.value.isSome then 8 else 0)) ++
    r.spanStart.bytes ++ r.close.bytes ++ byte2 (r.value.getD 0) ++ byte2 r.threshold ++
    byte2 (r.reference.getD 0) ++ byte4 r.counted ++ byte4 r.excluded ++ byte4 r.expected ++
    byte1 r.coverage

/-- A slot account, 23 bytes. -/
def SlotAccount.bytes (a : SlotAccount) : List Byte :=
  byte1 a.slot ++ byte1 a.link.code ++ byte1 (a.link.boundId.getD 0) ++ a.counters.bytes ++
    byteLevel a.leq ++ byte4 a.count

/-- A line account, 6 bytes. -/
def LineAccount.bytes (a : LineAccount) : List Byte :=
  byte1 a.line ++ byte4 a.run ++ byteBool a.active

/-- An uncaptured account, 5 bytes. -/
def UncapturedAccount.bytes (a : UncapturedAccount) : List Byte :=
  byte1 a.index ++ byte2 (a.key.getD 0) ++ byte2 a.count

/-- SUMMARY content. -/
def SummaryRecord.bytes (r : SummaryRecord) : List Byte :=
  r.moment.bytes ++ byte2 r.dropped ++ byte2 r.fieldErrors ++ byte2 r.gatewayErrors ++
    byte2 r.forwardOverruns ++ byte2 r.controlOverruns ++ byte1 r.slots.length ++
    r.slots.flatMap SlotAccount.bytes ++ byte1 r.lines.length ++ r.lines.flatMap LineAccount.bytes ++
    byte1 r.uncaptured.length ++ r.uncaptured.flatMap UncapturedAccount.bytes

/-- MARK content. -/
def Mark.bytes (m : Mark) : List Byte :=
  m.moment.bytes ++ byte1 m.band ++ byte1 m.levels.length ++
    m.levels.flatMap (fun p => byte1 p.1 ++ byteLevel p.2)

/-- QUERY content. -/
def QueryRecord.bytes (r : QueryRecord) : List Byte :=
  r.query.bytes r.position ++ r.item.bytes

/-- ATTENTION content, 14 bytes. -/
def AttentionRecord.bytes (r : AttentionRecord) : List Byte :=
  r.moment.bytes ++ byte2 r.pending.toNat ++ byte2 r.mask.toNat

/-- Record kind codes. -/
def RecordBody.code : RecordBody → Nat
  | .verdict _ => 1 | .window _ => 2 | .summary _ => 3 | .mark _ => 4 | .query _ => 5
  | .attention _ => 6

/-- The content of a record after its header. -/
def RecordBody.bytes : RecordBody → List Byte
  | .verdict v => v.bytes
  | .window r => r.bytes
  | .summary r => r.bytes
  | .mark m => m.bytes
  | .query r => r.bytes
  | .attention r => r.bytes

/-- The content of a report: header and contents (R150, R188). -/
def Record.content (r : Record) : List Byte :=
  byte1 r.body.code ++ byte4 r.entryTick.toNat ++ r.body.bytes

/-! ### The envelope (R184) and runs (R166, R188) -/

/-- One bit of the check register, generator x^16 + x^12 + x^5 + 1, most significant bit first. -/
def crcShift (c : BitVec 16) : BitVec 16 :=
  if c.msb then (c <<< 1) ^^^ 0x1021#16 else c <<< 1

/-- `n` shifts of the check register. -/
def crcShifts : Nat → BitVec 16 → BitVec 16
  | 0, c => c
  | n + 1, c => crcShifts n (crcShift c)

/-- One byte into the check register. -/
def crcByte (c : BitVec 16) (b : Byte) : BitVec 16 :=
  crcShifts 8 (c ^^^ (b.setWidth 16 <<< 8))

/-- The check over kind, length and payload (R184). -/
def checkOf (bytes : List Byte) : BitVec 16 := bytes.foldl crcByte 0xFFFF#16

/-- Frame kinds (section 10.2). -/
inductive FrameKind where
  | slice
  | transit
  | control
  | reply
  | report
  deriving DecidableEq, Repr

/-- Frame kind codes. -/
def FrameKind.code : FrameKind → Nat
  | .slice => 1 | .transit => 2 | .control => 3 | .reply => 4 | .report => 5

/-- The kind of a code byte. -/
def FrameKind.ofByte (b : Byte) : Option FrameKind :=
  [FrameKind.slice, .transit, .control, .reply, .report].find? (fun k => BitVec.ofNat 8 k.code == b)

/-- The envelope of a payload. -/
def envelope (kind : FrameKind) (payload : List Byte) : Frame :=
  let body := byte1 kind.code ++ byte1 payload.length ++ payload
  [0x7E] ++ body ++ byte2 (checkOf body).toNat

/-- The segments of a content: 246 bytes each, the last one the remainder (R188). `fuel` bounds their
number. -/
def segments : Nat → List Byte → List (List Byte)
  | 0, content => [content]
  | fuel + 1, content =>
    if content.length ≤ Config.segmentBytes then [content]
    else content.take Config.segmentBytes :: segments fuel (content.drop Config.segmentBytes)

/-- The frames of a run from position `n`, the last one marked (R166, R188). -/
def runFrames (kind : FrameKind) (strap : BitVec 2) : Nat → List (List Byte) → List Frame
  | _, [] => []
  | n, [last] => [envelope kind (byte1 strap.toNat ++ byte1 (128 + n) ++ last)]
  | n, segment :: rest =>
    envelope kind (byte1 strap.toNat ++ byte1 n ++ segment) :: runFrames kind strap (n + 1) rest

/-- The run of frames that carries a content. -/
def runOf (kind : FrameKind) (strap : BitVec 2) (content : List Byte) : List Frame :=
  runFrames kind strap 0 (segments 127 content)

/-- The bytes received up to an idle interval, those before the first start marker discarded (R184). -/
def delimit (bytes : List Byte) : Frame := bytes.dropWhile (fun b => b != 0x7E)

/-- The payload of an envelope: what stands between the length byte and the last two bytes. -/
def payloadOf (frame : Frame) : List Byte := (frame.drop 3).dropLast.dropLast

/-- The kind of an envelope that passes validation at a port that takes the given kinds (R165, R184). -/
def validate (takes : FrameKind → Bool) (frame : Frame) : Option FrameKind :=
  if frame.length < 5 then none
  else
    let payload := payloadOf frame
    let kindByte := frame.getD 1 0
    let lengthByte := frame.getD 2 0
    match FrameKind.ofByte kindByte with
    | none => none
    | some kind =>
      if lengthByte.toNat ≤ Config.payloadBytes ∧ lengthByte.toNat = payload.length ∧
          byte2 (checkOf (kindByte :: lengthByte :: payload)).toNat = frame.drop (frame.length - 2) ∧
          (kind = .slice → payload.length = 9) ∧ takes kind then some kind
      else none

/-- The kinds the field port takes (R165). -/
def fieldTakes : FrameKind → Bool
  | .control => false
  | _ => true

/-- The kinds the gateway port takes (R165). -/
def gatewayTakes : FrameKind → Bool
  | .control => true
  | _ => false

/-- A SLICE payload (R185). -/
def sliceOf (payload : List Byte) : Slice where
  channel := (payload.getD 0 0).toNat
  sequence := (payload.getD 1 0).toNat
  level := bigEndian ((payload.drop 2).take 2)
  fast := bigEndian ((payload.drop 4).take 2)
  peak := bigEndian ((payload.drop 6).take 2)
  overload := (payload.getD 8 0).getLsbD 0
  calibrating := (payload.getD 8 0).getLsbD 1

end Sys2Proof.Machine
end

