-- ==== Sys2Proof/Machine/Flags.lean ====
section
/-! DEFINITION. What is computed without touching the state: sets and saturation (section 5.7), what a
window gathers, its metric and coverage (R42, R75 to R78), tests and outcomes (R43 to R46), day types
and bands (R29, R34). -/

namespace Sys2Proof.Machine

/-! ### Sets and counters -/

/-- One more, saturating at `top`. -/
def bumpTo (top n : Nat) : Nat := min (n + 1) top

/-- `d` more, saturating at 65535 (section 5.7). -/
def add16 (n d : Nat) : Nat := min (n + d) Config.max16

/-- The set with member `i`. -/
def setInsert {w : Nat} (m : BitVec w) (i : Nat) : BitVec w := m ||| BitVec.twoPow w i

/-- The members of a set below `n`, ascending. -/
def members {w : Nat} (m : BitVec w) : List Nat := (List.range w).filter (fun i => m.getLsbD i)

/-- Ticks from `earlier` to `later`, modulo 2^32 (R21). -/
def ticksFrom (earlier later : Tick) : Nat := (later - earlier).toNat

/-! ### Tallies (R68, R75, R76) -/

/-- A window or step that begins now. -/
def Tally.begin (m : Moment) (cut : Bool) : Tally := ⟨m, 0, 0, [], none, none, 0, [], false, cut⟩

/-- The greater of a value held and a new one, or the new one where none was held. -/
def maxOption (held : Option Nat) (new : Nat) : Option Nat := some (max (held.getD new) new)

/-- The events figure after a slice: counted for an EVENTS entry whose aux threshold it reaches. -/
def eventsAfter (metric : Metric) (peak events : Nat) : Nat :=
  match metric with
  | .events aux => if aux ≤ peak then bumpTo Config.max16 events else events
  | _ => events

/-- The bin counts after a slice: one more in its bin for an LN entry. -/
def binsAfter (metric : Metric) (level : Nat) (bins : Counts) : Counts :=
  match metric with
  | .ln _ => Counts.bump (binOf level) 1 bins
  | _ => bins

/-- One slice integrated into a tally of an entry of the given metric (R75); a tally whose counted
figure has saturated takes no more (R68). -/
def Tally.add (metric : Metric) (x : Slice) (t : Tally) : Tally :=
  if t.counted < Config.max32 then
    { t with
      counted := t.counted + 1
      energy := t.energy.add x.level
      maxFast := maxOption t.maxFast x.fast
      maxPeak := maxOption t.maxPeak x.peak
      events := eventsAfter metric x.peak t.events
      bins := binsAfter metric x.level t.bins
      overload := t.overload || x.overload }
  else t

/-- One CALIBRATING slice met (R76). -/
def Tally.exclude (t : Tally) : Tally := { t with excluded := bumpTo Config.max32 t.excluded }

/-- The greater of two optional values. -/
def joinMax (a b : Option Nat) : Option Nat :=
  match b with
  | some y => maxOption a y
  | none => a

/-- Two step records taken together (R77, R78, R85). -/
def Tally.join (a b : Tally) : Tally where
  start := a.start
  counted := a.counted + b.counted
  excluded := a.excluded + b.excluded
  energy := Counts.merge a.energy b.energy
  maxFast := joinMax a.maxFast b.maxFast
  maxPeak := joinMax a.maxPeak b.maxPeak
  events := min (a.events + b.events) Config.max16
  bins := Counts.merge a.bins b.bins
  overload := a.overload || b.overload
  cut := a.cut || b.cut

/-- The step records of a ring taken together, oldest first. -/
def ringTally : List Tally → Option Tally
  | [] => none
  | t :: rest => some (rest.foldl Tally.join t)

/-- The metric over what a window has counted (R42, R78); absent when nothing was counted. -/
def Metric.over (m : Metric) (t : Tally) : Option Nat :=
  if t.counted = 0 then none
  else
    match m with
    | .leq => equivalentLevel t.energy t.counted
    | .lmax => t.maxFast
    | .lpeak => t.maxPeak
    | .ln n => percentileLevel t.bins n
    | .events _ => some t.events

/-- The metric over the one slice of a SLICE window (R42). -/
def Metric.ofSlice (m : Metric) (x : Slice) : Option Nat :=
  match m with
  | .leq => some x.level
  | .lmax => some x.fast
  | .lpeak => some x.peak
  | _ => none

/-- Coverage (R77). -/
def coveragePercent (counted expected : Nat) : Nat :=
  if expected = 0 then (if counted = 0 then 0 else 100) else min 100 (100 * counted / expected)

/-- The expected slices of an entry's window at the given tick (R77). -/
def expectedSlices (w : WindowType) (start now : Tick) : Nat :=
  match w with
  | .rolling s k => 8 * k * s
  | _ => ticksFrom start now

/-! ### Evaluations (R43 to R46, R85) -/

/-- What one evaluation has before it: the figures of the closing window, the evaluated ring or the
slice (R85, R87). -/
structure Reading where
  metric    : Option Nat
  coverage  : Nat
  counted   : Nat
  excluded  : Nat
  expected  : Nat
  spanStart : Moment
  close     : Moment
  truncated : Bool
  overload  : Bool
  deriving DecidableEq, Repr

/-- The reading of a gathered tally at a moment. -/
def Reading.ofTally (e : LimitEntry) (t : Tally) (close : Moment) : Reading :=
  let expected := expectedSlices e.window t.start.tick close.tick
  ⟨e.metric.over t, coveragePercent t.counted expected, t.counted, t.excluded, expected, t.start, close,
    t.cut, t.overload⟩

/-- The reading of an accepted slice (R86). -/
def Reading.ofSlice (e : LimitEntry) (x : Slice) (arrival : Moment) : Reading :=
  ⟨e.metric.ofSlice x, 100, 1, 0, 1, arrival, arrival, false, x.overload⟩

/-- The metric when it is valid: present with coverage at or above the minimum (R46). -/
def Reading.validMetric (r : Reading) (minCoverage : Nat) : Option Nat :=
  if minCoverage ≤ r.coverage then r.metric else none

/-- TRUE or FALSE. -/
def TestOutcome.ofBool (b : Bool) : TestOutcome := if b then .isTrue else .isFalse

/-- A test that depends on coverage, on a metric that is valid or not. -/
def onValid (m : Option Nat) (f : Nat → Bool) : TestOutcome :=
  match m with
  | some v => .ofBool (f v)
  | none => .undetermined

/-- The outcome before negation (R43): `previous` is the held comparison (R45), `reference` the
reference value (R46). -/
def LimitEntry.rawOutcome (e : LimitEntry) (r : Reading) (previous : Option Comparison)
    (reference : Option Nat) : TestOutcome :=
  match e.test with
  | .gt => onValid (r.validMetric e.minCoverage) (fun v => e.threshold < v)
  | .rise =>
    onValid (r.validMetric e.minCoverage) (fun v => e.threshold < v && previous != some .above)
  | .excess _ =>
    match reference with
    | some ref => onValid (r.validMetric e.minCoverage) (fun v => ref + e.threshold < v)
    | none => .undetermined
  | .countGe => onValid (r.validMetric e.minCoverage) (fun v => e.threshold ≤ v)
  | .invalid => .ofBool (r.coverage < e.minCoverage)
  | .always => .isTrue

/-- Negation (R44). -/
def TestOutcome.negated (negate : Bool) (o : TestOutcome) : TestOutcome :=
  match negate, o with
  | true, .isTrue => .isFalse
  | true, .isFalse => .isTrue
  | _, o => o

/-- The comparison of a metric with the threshold; without a metric it was not above (log 11). -/
def comparisonOf (threshold : Nat) (m : Option Nat) : Comparison :=
  match m with
  | some v => if threshold < v then .above else .notAbove
  | none => .notAbove

/-- The result cell after an evaluation (R84). -/
def ResultCell.after (c : ResultCell) (e : LimitEntry) (r : Reading) (raw : TestOutcome) :
    ResultCell where
  outcome := some (raw.negated e.negate)
  metric := r.metric
  coverage := some r.coverage
  spanStart := some r.spanStart
  close := some r.close
  truncated := some r.truncated
  overload := some r.overload
  previous := if raw = .undetermined then c.previous else some (comparisonOf e.threshold r.metric)
  valid := (r.validMetric e.minCoverage).or c.valid

/-- The action queues WINDOW records (R44). -/
def Action.reports : Action → Bool
  | .report => true
  | .both => true
  | _ => false

/-- The action opens episodes (R44). -/
def Action.episodes : Action → Bool
  | .episode => true
  | .both => true
  | _ => false

/-- The entry judges windows, and so needs accumulators (R60). -/
def WindowType.windowed : WindowType → Bool
  | .slice => false
  | _ => true

/-- The metric needs histogram-capable units (R60). -/
def Metric.isLn : Metric → Bool
  | .ln _ => true
  | _ => false

/-- The reference key of an EXCESS test. -/
def Test.reference : Test → Option Nat
  | .excess k => some k
  | _ => none

/-- Same measurement definition (R61). -/
def LimitEntry.sameDefinition (a b : LimitEntry) : Bool :=
  a.metric = b.metric && a.window = b.window && a.bands = b.bands

/-! ### Days and bands (R29, R34) -/

/-- The weekday of a day number. -/
def weekdayOf (day offset : Nat) : Nat := (day + offset) % 7

/-- The day types, in the order of their codes. -/
def DayType.all : List DayType := [.mon, .tue, .wed, .thu, .fri, .sat, .sun, .holiday, .special]

/-- The day type of a day number under an exception list (R29). -/
def dayTypeOf (exceptions : List ExceptionRecord) (offset day : Nat) : DayType :=
  match exceptions.find? (fun x => x.day == day) with
  | some x => x.dayType
  | none => DayType.all.getD (weekdayOf day offset) .mon

/-- The band record covers the minute of a day of the given type. -/
def BandRecord.holds (b : BandRecord) (d : DayType) (minute : Nat) : Bool :=
  b.days.getLsbD d.code && b.start ≤ minute && minute < b.stop

/-- The lowest-numbered band that holds, numbering from `n`, or OTHER (R34). -/
def firstBand (d : DayType) (minute : Nat) : Nat → List (Option BandRecord) → Nat
  | _, [] => Config.other
  | n, some b :: rest => if b.holds d minute then n else firstBand d minute (n + 1) rest
  | n, none :: rest => firstBand d minute (n + 1) rest

end Sys2Proof.Machine
end

