-- ==== Sys2Proof/Machine/Ops.lean ====
section
/-! DEFINITION. The named operations every meaning uses: indexed access, the present moment, authority,
work that is due, the gateway-port arbiter (R170), the report queue (R151), notices (R144 to R147) and
the beacon lines (R137 to R141). -/

namespace Sys2Proof.Machine

/-! ### Indexed access -/

/-- The entry at an index of a table. -/
def EntryTable.at (t : EntryTable) (i : Nat) : Option LimitEntry := (t[i]?).join

/-- The entries of a table with their indices, ascending. -/
def EntryTable.entries (t : EntryTable) : List (Nat × LimitEntry) :=
  t.zipIdx.filterMap (fun p => p.1.map (fun e => (p.2, e)))

/-- The index and entry that hold a key, the lowest index first. -/
def EntryTable.find (t : EntryTable) (key : Nat) : Option (Nat × LimitEntry) :=
  t.entries.find? (fun p => p.2.key == key)

/-- The member of a two-level list. -/
def gridAt {α : Type} (g : List (List α)) (i j : Nat) : Option α := (g[i]?).bind (fun row => row[j]?)

/-- The two-level list with one member changed. -/
def gridModify {α : Type} (g : List (List α)) (i j : Nat) (f : α → α) : List (List α) :=
  g.modify i (fun row => row.modify j f)

/-- The unit a pair holds. -/
def WindowEngine.unitAt (w : WindowEngine) (i slot : Nat) : Option PoolUnit :=
  (gridAt w.units i slot).join

/-- The accumulator contents of a pair; IDLE where it holds no unit. -/
def WindowEngine.accAt (w : WindowEngine) (i slot : Nat) : Acc :=
  match w.unitAt i slot with
  | some u => u.acc
  | none => .idle

/-- The result cell of an index and slot. -/
def WindowEngine.cellAt (w : WindowEngine) (i slot : Nat) : ResultCell :=
  (gridAt w.cells i slot).getD .empty

/-- New contents for the unit a pair holds. -/
def State.setAcc (i slot : Nat) (a : Acc) (s : State) : State :=
  { s with windows := { s.windows with
      units := gridModify s.windows.units i slot (fun u => u.map (fun x => { x with acc := a })) } }

/-- A new result cell. -/
def State.setCell (i slot : Nat) (c : ResultCell) (s : State) : State :=
  { s with windows := { s.windows with cells := gridModify s.windows.cells i slot (fun _ => c) } }

/-- A slot record changed. -/
def State.modifySlot (n : Nat) (f : SlotRecord → SlotRecord) (s : State) : State :=
  { s with slots := s.slots.modify n f }

/-- A plant line changed. -/
def State.modifyLine (n : Nat) (f : PlantLine → PlantLine) (s : State) : State :=
  { s with plant := { s.plant with lines := s.plant.lines.modify n f } }

/-- A beacon line changed. -/
def State.modifyBeacon (n : Nat) (f : BeaconLine → BeaconLine) (s : State) : State :=
  { s with beacons := s.beacons.modify n f }

/-! ### Time and authority -/

/-- The site time stamp of the present moment (R25). -/
def Clock.stamp (c : Clock) : Stamp := ⟨c.day, c.eighth, c.state⟩

/-- The stamp and tick count of the present moment. -/
def Clock.now (c : Clock) : Moment := ⟨c.stamp, c.tickCount⟩

/-- The stamp and tick count of the present moment. -/
def State.now (s : State) : Moment := s.clock.now

/-- The stamp and tick count of the most recent tick (R24, R25). -/
def State.tickNow (s : State) : Moment := ⟨s.clock.tickStamp, s.clock.tickCount⟩

/-- The site clock is RUNNING. -/
def Clock.running (c : Clock) : Bool := c.state == .running

/-- The minute of the day (R24). -/
def Clock.minute (c : Clock) : Nat := c.eighth / 480

/-- The day type of the present day under the active exception list (R29). -/
def State.dayType (s : State) : DayType :=
  dayTypeOf s.schedule.activeExceptions s.clock.weekdayOffset s.clock.day

/-- The current band as R34 decides it from the clock, the active tables and the site time. -/
def State.bandNow (s : State) : Nat :=
  if s.clock.running then firstBand s.dayType s.clock.minute 0 s.schedule.activeBands
  else Config.untimed

/-- An entry is active in a band (R41). -/
def LimitEntry.activeIn (e : LimitEntry) (band : Nat) : Bool := e.bands.getLsbD band

/-- The debounced CERTIFY line is asserted (R119, R133). -/
def State.certifyAsserted (s : State) : Bool := s.plant.certify.level == .low

/-- Some active entry is of CERTIFIED custody (R37). -/
def State.anyCertified (s : State) : Bool :=
  s.table.active.entries.any (fun p => p.2.custody == .certified)

/-- A user band is protected (R37). -/
def State.bandProtected (s : State) (band : Nat) : Bool :=
  s.table.active.entries.any (fun p => p.2.custody == .certified && p.2.bands.getLsbD band)

/-- A slot is named by an active CERTIFIED entry (R16). -/
def State.slotProtected (s : State) (slot : Nat) : Bool :=
  s.table.active.entries.any (fun p => p.2.custody == .certified && p.2.slots.getLsbD slot)

/-! ### Work that is due (log 1) -/

/-- The work stands among the due work. -/
def State.isDue (d : Due) (s : State) : Bool := s.due.contains d

/-- The work leaves the due work. -/
def State.clearDue (d : Due) (s : State) : State := { s with due := s.due.filter (fun x => x != d) }

/-- The work joins the due work, once. -/
def State.addDue (d : Due) (s : State) : State :=
  if s.due.contains d then s else { s with due := s.due ++ [d] }

/-! ### The gateway-port arbiter (R170) and the field-port transmitter (R168) -/

/-- The earliest READY reply with the places left. -/
def takeReady : List Transaction → Option (Reply × List Transaction)
  | [] => none
  | .ready r :: rest => some (r, rest)
  | t :: rest => (takeReady rest).map (fun p => (p.1, t :: p.2))

/-- A departure from the report queue is handed to the episode table, whose offer of waiting verdicts
becomes due (R153, log 15). -/
def State.handDeparture (s : State) : State :=
  if s.episodes.waiting.isEmpty then s else s.addDue .verdicts

/-- A reply grant. -/
def State.grantReply (r : Reply) (rest : List Transaction) (s : State) : State :=
  { s with ports := { s.ports with
      holding := rest
      gatewayTx := some (runOf .reply s.ports.strap r.content) } }

/-- A forward grant; it counts toward the starve count while a report waits. -/
def State.grantForward (f : Frame) (rest : List Frame) (s : State) : State :=
  { s with ports := { s.ports with
      forward := rest
      starve := if s.report.queue.isEmpty then s.ports.starve else s.ports.starve + 1
      gatewayTx := some [f] } }

/-- A report grant: the head departs and the starve count becomes 0 (R153). -/
def State.grantReport (r : Record) (rest : List Record) (s : State) : State :=
  State.handDeparture
    { s with
      report := { s.report with queue := rest }
      ports := { s.ports with
        starve := 0
        gatewayTx := some (runOf .report s.ports.strap r.content) } }

/-- The grant the arbiter makes among the requesters that wait (R170), if any waits. -/
def State.grant (s : State) : State :=
  match takeReady s.ports.holding with
  | some (r, rest) => s.grantReply r rest
  | none =>
    match s.ports.forward, s.report.queue with
    | f :: fs, [] => s.grantForward f fs
    | f :: fs, r :: rs =>
      if s.ports.starve < Config.starveLimit then s.grantForward f fs else s.grantReport r rs
    | [], r :: rs => s.grantReport r rs
    | [], [] => s

/-- A grant is made at once while the gateway-port transmitter is idle (R171). -/
def State.arbitrate (s : State) : State :=
  match s.ports.gatewayTx with
  | some _ => s
  | none => s.grant

/-- The head of the onward FIFO departs at once while the field-port transmitter is idle (R168). -/
def State.sendOnward (s : State) : State :=
  match s.ports.fieldTx, s.ports.onward with
  | none, f :: rest => { s with ports := { s.ports with onward := rest, fieldTx := some f } }
  | _, _ => s

/-! ### Admission to the report queue (R151) and notices (R144 to R147, R152) -/

/-- The queue has room. -/
def State.queueHasRoom (s : State) : Bool := s.report.queue.length < Config.queueDepth

/-- A record joins the tail with its entry tick (R150). -/
def State.enqueue (body : RecordBody) (s : State) : State :=
  { s with report := { s.report with queue := s.report.queue ++ [⟨s.clock.tickCount, body⟩] } }

/-- A dropped record is counted (R151). -/
def State.countDrop (s : State) : State :=
  { s with report := { s.report with dropped := bumpTo Config.max16 s.report.dropped } }

/-- A notice joins the pending set (R144). -/
def State.joinNotice (n : Notice) (s : State) : State :=
  { s with notices := { s.notices with pending := setInsert s.notices.pending n.bit } }

/-- The offer of an ATTENTION record while the latch is set: QUEUE_HIGH and REPORT_DROPPED then join
the pending set and change nothing else (R146, R147, R151). -/
def State.offerAttention (body : RecordBody) (s : State) : State :=
  if s.queueHasRoom then
    let s := s.enqueue body
    let s := if s.report.queue.length = Config.queueHigh then s.joinNotice .queueHigh else s
    s.arbitrate
  else s.countDrop.joinNotice .reportDropped

/-- The attention latch sets: ATTN is driven low and the ATTENTION record is formed and offered. -/
def State.setLatch (s : State) : State :=
  let s := { s with notices := { s.notices with latch := true } }
  s.offerAttention (.attention ⟨s.now, s.notices.pending, s.notices.mask⟩)

/-- The latch sets when it is clear and a pending notice is enabled (R146). -/
def State.settleLatch (s : State) : State :=
  if s.notices.latch = false ∧ s.notices.pending &&& s.notices.mask ≠ 0 then s.setLatch else s

/-- A notice is raised (R144, R146). -/
def State.raise (n : Notice) (s : State) : State := (s.joinNotice n).settleLatch

/-- A record is admitted: it joins the tail, QUEUE_HIGH is raised when the depth goes from 39 to 40
(R152), and an idle transmitter is granted. -/
def State.admitRecord (body : RecordBody) (s : State) : State :=
  let s := s.enqueue body
  let s := if s.report.queue.length = Config.queueHigh then s.raise .queueHigh else s
  s.arbitrate

/-- A WINDOW, ATTENTION, SUMMARY or QUERY record that is refused is dropped (R151). -/
def State.drop (s : State) : State := s.countDrop.raise .reportDropped

/-- The offer of a WINDOW or QUERY record (R151). -/
def State.offer (body : RecordBody) (s : State) : State :=
  if s.queueHasRoom then s.admitRecord body else s.drop

/-- The attention latch replaced. -/
def State.withLatch (latch : Bool) (s : State) : State :=
  { s with notices := { s.notices with latch := latch } }

/-- Offers made as a single action, with no record of another block between them (R156): a latch that they set
offers its ATTENTION record after the last of them (log 34). -/
def State.asOneAction (f : State → State) (s : State) : State :=
  ((f (s.withLatch true)).withLatch s.notices.latch).settleLatch

/-- The waiting verdicts offered oldest first until one is refused (R113). The list drives the
recursion; each admitted verdict frees its record. -/
def State.offerVerdicts : List Verdict → State → State
  | [], s => s
  | v :: rest, s =>
    if s.queueHasRoom then
      State.offerVerdicts rest
        (State.admitRecord (.verdict v) { s with episodes := { s.episodes with waiting := rest } })
    else s

/-- A formed verdict is offered at once when none waits; otherwise, or when it is refused, it joins the
end of the waiting list (R113). -/
def State.offerVerdict (v : Verdict) (s : State) : State :=
  if s.episodes.waiting.isEmpty && s.queueHasRoom then s.admitRecord (.verdict v)
  else { s with episodes := { s.episodes with waiting := s.episodes.waiting ++ [v] } }

/-- The MARK record is offered; the latch empties when it is admitted (R132). -/
def State.offerMark (s : State) : State :=
  match s.plant.markLatch with
  | none => s
  | some m =>
    if s.queueHasRoom then
      State.admitRecord (.mark m) { s with plant := { s.plant with markLatch := none } }
    else s

/-! ### Beacon lines (R137 to R141) -/

/-- The entry with the key names the beacon line (R137). -/
def EntryTable.names (t : EntryTable) (key line : Nat) : Bool :=
  match t.find key with
  | some (_, e) => e.action.episodes && e.beacon == some line
  | none => false

/-- The demand of a line: the current episodes whose entry names it (R137). -/
def State.demand (s : State) (line : Nat) : List Nat :=
  (s.episodes.current.filter (fun ep => s.table.active.names ep.key line)).map (·.number)

/-- A flash phase begins when the demand has become non-empty and ends when it has become empty
(R140). -/
def BeaconLine.follow (demanded : Bool) (b : BeaconLine) : BeaconLine :=
  match b.mode, demanded with
  | .flash, true => { b with flash := b.flash.or (some ⟨true, Config.flashTicks⟩) }
  | _, _ => { b with flash := none }

/-- Every line follows its demand. -/
def State.followDemand (s : State) : State :=
  { s with beacons :=
      s.beacons.zipIdx.map (fun p => p.1.follow (!(s.demand p.2).isEmpty)) }

/-- A new opening starts a pulse on a line in PULSE mode (R139). -/
def BeaconLine.startPulse (b : BeaconLine) : BeaconLine :=
  match b.mode with
  | .pulse => { b with pulse := 8 * b.width }
  | _ => b

/-- A new opening of an episode of the key starts a pulse on the line its entry names. -/
def State.startPulses (key : Nat) (s : State) : State :=
  { s with beacons := s.beacons.zipIdx.map (fun p =>
      if s.table.active.names key p.2 then p.1.startPulse else p.1) }

/-- The automatic level of a line, given whether its demand is non-empty (R138 to R140). -/
def BeaconLine.automatic (demanded : Bool) (b : BeaconLine) : Bool :=
  match b.mode with
  | .steady => demanded
  | .pulse => 0 < b.pulse
  | .flash =>
    match b.flash with
    | some p => p.asserted
    | none => false

/-- The output of a line (R141). -/
def BeaconLine.output (demanded : Bool) (b : BeaconLine) : Bool :=
  match b.override with
  | .auto => b.automatic demanded
  | .forceOn => true
  | .forceOff => false

/-- The outputs of the four lines. -/
def State.outputs (s : State) : List Bool :=
  s.beacons.zipIdx.map (fun p => p.1.output (!(s.demand p.2).isEmpty))

/-- The level of a beacon pin: the output, or the level held while RESET is low (R136). -/
def State.beaconPin (s : State) (line : Nat) : Bool :=
  match s.held with
  | some h => h.beacons.getD line false
  | none => s.outputs.getD line false

/-- ATTN is driven low: by the latch, or as held while RESET is low (R146, R149). -/
def State.attnPin (s : State) : Bool :=
  match s.held with
  | some h => h.attnLow
  | none => s.notices.latch

/-- The lines as their reply items report them (R143). -/
def State.beaconReports (s : State) : List BeaconReport :=
  s.beacons.zipIdx.map (fun p =>
    let d := s.demand p.2
    ⟨p.1.mode, p.1.width, p.1.override, d.length, p.1.pulse, p.1.automatic (!d.isEmpty),
      p.1.output (!d.isEmpty)⟩)

end Sys2Proof.Machine
end

