-- ==== Sys2Proof/Machine/Episodes.lean ====
section
/-! DEFINITION. The episode table (chapter 5) with what the plant monitor does at an opening
(R124 to R128): openings, outcomes, closures, hold-offs, maximum lengths and continuations. -/

namespace Sys2Proof.Machine

/-! ### Records and the current episode -/

/-- Records that hold an episode, in any state (R93). -/
def EpisodeTable.used (t : EpisodeTable) : Nat := t.current.length + t.waiting.length

/-- A record is free. -/
def EpisodeTable.hasFree (t : EpisodeTable) : Bool := t.used < Config.episodeRecords

/-- The episode is of the key and slot. -/
def Episode.of (key slot : Nat) (e : Episode) : Bool := e.key == key && e.slot == slot

/-- The current episode of a key and slot (R93). -/
def EpisodeTable.find (t : EpisodeTable) (key slot : Nat) : Option Episode :=
  t.current.find? (Episode.of key slot)

/-- The current episodes replaced. -/
def State.setCurrent (es : List Episode) (s : State) : State :=
  { s with episodes := { s.episodes with current := es } }

/-- A current episode changed, the first of its key and slot. -/
def modifyEpisode (key slot : Nat) (f : Episode → Episode) : List Episode → List Episode
  | [] => []
  | e :: rest => if e.of key slot then f e :: rest else e :: modifyEpisode key slot f rest

/-- The current episode of a key and slot changed. -/
def State.modifyEpisode (key slot : Nat) (f : Episode → Episode) (s : State) : State :=
  s.setCurrent (Machine.modifyEpisode key slot f s.episodes.current)

/-- The current episode of a key and slot taken out. -/
def State.removeEpisode (key slot : Nat) (s : State) : State :=
  s.setCurrent (s.episodes.current.eraseP (Episode.of key slot))

/-- The episode number after `n` (R94). -/
def nextNumber (n : Nat) : Nat := if n < Config.max16 then n + 1 else 1

/-- An opening that finds no free record (R101, R106). -/
def State.countUncaptured (index : Nat) (s : State) : State :=
  State.raise .episodeOverflow
    { s with episodes := { s.episodes with
        uncaptured := s.episodes.uncaptured.modify index (bumpTo Config.max16) } }

/-! ### Attribution and coincidence (R124 to R128) -/

/-- A plant line is a candidate for an episode opened at the given tick (R124). -/
def PlantLine.candidate (openTick : Tick) (l : PlantLine) : Bool :=
  l.record.enabled &&
    (l.active ||
      match l.deactivationTick with
      | some t => ticksFrom t openTick ≤ 8 * l.record.linger
      | none => false)

/-- The candidate lines with their numbers, ascending. -/
def PlantMonitor.candidates (p : PlantMonitor) (openTick : Tick) : List (Nat × PlantLine) :=
  (p.lines.zipIdx.filter (fun l => l.1.candidate openTick)).map (fun l => (l.2, l.1))

/-- The candidate of lowest priority figure, the lowest-numbered among equals (R125). -/
def primaryOf : List (Nat × PlantLine) → Option Nat
  | [] => none
  | c :: rest =>
    some ((rest.foldl (fun best x => if x.2.record.priority < best.2.record.priority then x else best) c).1)

/-- The set of the numbers of a candidate list. -/
def candidateSet (cs : List (Nat × PlantLine)) : LineSet :=
  cs.foldl (fun m c => setInsert m c.1) 0

/-- The slots of the current episodes on other slots (R127). -/
def partnerSlots (slot : Nat) (es : List Episode) : SlotMask :=
  es.foldl (fun m e => if e.slot = slot then m else setInsert m e.slot) 0

/-- The coincidence mask after an opening (R127, R128): the latch sets with the stamp of the opening when
the mask leaves empty. -/
def Coincidence.gain (slots : SlotMask) (at_ : Moment) (c : Coincidence) : Coincidence :=
  if c.mask = 0 then ⟨slots, true, some at_⟩ else { c with mask := c.mask ||| slots }

/-- The coincidence of an opening on a slot at a moment (R127, R128): `partners` is the set of partner slots, not
empty. -/
def State.coincide (slot : Nat) (at_ : Moment) (partners : SlotMask) (s : State) : State :=
  let fresh := s.plant.coincidence.mask = 0
  let s := { s with plant := { s.plant with
    coincidence := s.plant.coincidence.gain (setInsert partners slot) at_ } }
  if fresh then s.raise .coincidence else s

/-! ### Openings (R96, R106) -/

/-- What an opening is made of: the record before the plant monitor has written its fields. -/
structure Opening where
  key            : Nat
  index          : Nat
  slot           : Nat
  openTick       : Tick
  start          : Moment
  lastTrue       : Moment
  peak           : Option Nat
  continuationOf : Option Nat
  truncated      : Bool
  deriving DecidableEq, Repr

/-- The record of an opening with its attribution and coincident slots (R96, R106, R124, R127). -/
def Opening.episode (o : Opening) (number : Nat) (p : PlantMonitor) (partners : SlotMask) : Episode :=
  let cs := p.candidates o.openTick
  { number := number
    key := o.key
    index := o.index
    slot := o.slot
    state := .opened
    openTick := o.openTick
    start := o.start
    lastTrue := o.lastTrue
    peak := o.peak
    energy := .empty
    reentries := 0
    primary := primaryOf cs
    everActive := candidateSet cs
    coincident := partners
    continuationOf := o.continuationOf
    suspect := false
    clockNotRunning := o.lastTrue.stamp.clock != .running
    truncated := o.truncated }

/-- The coincident slots of the partners of an opening gain its slot (R127). -/
def gainCoincident (slot : Nat) (es : List Episode) : List Episode :=
  es.map (fun e => if e.slot = slot then e else { e with coincident := setInsert e.coincident slot })

/-- An episode opens in a free record: it takes the next number; the plant monitor, the beacon driver
and the notice unit are told in this order (R94, R96, R106). -/
def State.openEpisode (o : Opening) (s : State) : State :=
  let partners := partnerSlots o.slot s.episodes.current
  let e := o.episode s.episodes.next s.plant partners
  let s := { s with episodes := { s.episodes with
    current := gainCoincident o.slot s.episodes.current ++ [e]
    next := nextNumber s.episodes.next } }
  let s := if partners = 0 then s else s.coincide o.slot o.lastTrue partners
  let s := s.followDemand
  let s := if o.continuationOf.isNone then s.startPulses o.key else s
  s.raise .episodeOpened

/-- An opening by R96, or an uncaptured one when no record is free (R101). -/
def State.tryOpen (o : Opening) (s : State) : State :=
  if s.episodes.hasFree then s.openEpisode o else s.countUncaptured o.index

/-! ### Closes and verdicts (R108, R111 to R113) -/

/-- The fields of the entry of a key in force at a close (R112). -/
def EntryTable.judged (t : EntryTable) (key : Nat) : Option Judged :=
  (t.find key).map (fun p =>
    ⟨p.2.metric, p.2.window, p.2.test, p.2.negate, p.2.threshold⟩)

/-- The verdict of an episode closed with a reason at a moment (R103, R111, R112). -/
def Episode.verdict (e : Episode) (t : EntryTable) (reason : CloseReason) (close : Moment) : Verdict where
  number := e.number
  key := e.key
  index := e.index
  slot := e.slot
  continuationOf := e.continuationOf
  judged := t.judged e.key
  reason := reason
  start := e.start
  lastTrue := e.lastTrue
  close := close
  openTick := e.openTick
  duration := close.tick - e.openTick
  peak := e.peak
  leq := e.energy.leq
  sliceCount := e.energy.count
  reentries := e.reentries
  primary := e.primary
  everActive := e.everActive
  coincident := e.coincident
  suspect := e.suspect
  clockNotRunning := e.clockNotRunning || close.stamp.clock != .running
  truncated := e.truncated

/-- The current episode leaves its record's current state and its verdict is formed and offered. The
beacon driver has not been told yet (R137, continuation). -/
def State.retire (e : Episode) (reason : CloseReason) (close : Moment) (s : State) : State :=
  (s.removeEpisode e.key e.slot).offerVerdict (e.verdict s.table.active reason close)

/-- A close: the beacon driver removes the episode from its demand and the verdict is offered. -/
def State.closeEpisode (e : Episode) (reason : CloseReason) (close : Moment) (s : State) : State :=
  let s' := (s.removeEpisode e.key e.slot).followDemand
  s'.offerVerdict (e.verdict s.table.active reason close)

/-- The close of the current episode of a key and slot, if there is one. -/
def State.closeOf (key slot : Nat) (reason : CloseReason) (close : Moment) (s : State) : State :=
  match s.episodes.find key slot with
  | some e => s.closeEpisode e reason close
  | none => s

/-- A closure demand (R108): the named episodes, as they stand when it is taken, close in the order
they were opened with the stamp and tick of the moment. -/
def State.demandClose (named : Episode → Bool) (reason : CloseReason) (s : State) : State :=
  (s.episodes.current.filter named).foldl
    (fun s' e => s'.closeOf e.key e.slot reason s.now) s

/-! ### Outcomes (R95 to R101) -/

/-- An outcome handed to the episode table (section 5.3). -/
structure Handed where
  key       : Nat
  index     : Nat
  slot      : Nat
  holdOff   : Nat
  outcome   : TestOutcome
  metric    : Option Nat
  spanStart : Moment
  close     : Moment
  truncated : Bool
  closing   : Bool
  deriving DecidableEq, Repr

/-- An extension (R97). -/
def Episode.extend (h : Handed) (e : Episode) : Episode :=
  { e with lastTrue := h.close, peak := joinMax e.peak h.metric }

/-- A re-entry (R99). -/
def Episode.reenter (h : Handed) (e : Episode) : Episode :=
  { (e.extend h) with state := .opened, reentries := bumpTo Config.max16 e.reentries }

/-- The opening an outcome asks for (R96). -/
def Handed.opening (h : Handed) : Opening :=
  ⟨h.key, h.index, h.slot, h.close.tick, h.spanStart, h.close, h.metric, none, h.truncated⟩

/-- An outcome of an evaluation sets TRUNCATED when the evaluation carried it (R103). -/
def Episode.markTruncated (h : Handed) (e : Episode) : Episode :=
  { e with truncated := e.truncated || h.truncated }

/-- A not-true outcome applied to an OPEN episode (R98). An episode that enters HOLDOFF at a tick is not
counted down at it (R104). -/
def State.endTrueRun (h : Handed) (s : State) : State :=
  if h.holdOff = 0 then s.closeOf h.key h.slot .quiet h.close
  else
    (s.clearDue (.holdOff h.key h.slot)).modifyEpisode h.key h.slot
      (fun e => { e with state := .holdOff (8 * h.holdOff) })

/-- An outcome applied to the episode table (R95). -/
def State.applyOutcome (h : Handed) (s : State) : State :=
  match s.episodes.find h.key h.slot with
  | none => if h.outcome = .isTrue ∧ h.closing = false then s.tryOpen h.opening else s
  | some e =>
    let s := s.modifyEpisode h.key h.slot (Episode.markTruncated h)
    match e.state, h.outcome with
    | .opened, .isTrue => s.modifyEpisode h.key h.slot (Episode.extend h)
    | .opened, _ => s.endTrueRun h
    | .holdOff _, .isTrue => s.modifyEpisode h.key h.slot (Episode.reenter h)
    | .holdOff _, _ => s

/-- The energy and flag of an accepted slice go to every current episode of its slot (R102). -/
def Episode.gainSlice (x : Slice) (e : Episode) : Episode :=
  { e with energy := e.energy.add x.level, suspect := e.suspect || x.overload }

/-- The energy of an accepted slice is handed to the episode table (R10, step 2). -/
def State.gainSlice (slot : Nat) (x : Slice) (s : State) : State :=
  s.setCurrent (s.episodes.current.map (fun e => if e.slot = slot then e.gainSlice x else e))

/-! ### Ticks (R104 to R106) -/

/-- The hold-off count of a tick: one less, and a close with QUIET at 0, with the stamp of the tick (R104). -/
def State.countHoldOff (key slot : Nat) (s : State) : State :=
  match s.episodes.find key slot with
  | some e =>
    match e.state with
    | .holdOff n =>
      if n ≤ 1 then s.closeEpisode e .quiet s.tickNow
      else s.modifyEpisode key slot (fun x => { x with state := .holdOff (n - 1) })
    | .opened => s
  | none => s

/-- The maximum length in ticks that the entry of a key holds (R105). -/
def EntryTable.maximumTicks (t : EntryTable) (key : Nat) : Option Nat :=
  (t.find key).map (fun p => 480 * p.2.maxLength)

/-- The episode has reached its maximum length (R105). -/
def State.atMaximum (e : Episode) (s : State) : Bool :=
  match s.table.active.maximumTicks e.key with
  | some n => n ≤ ticksFrom e.openTick s.clock.tickCount
  | none => false

/-- The opening of the continuation of a closed episode (R106). -/
def Episode.continuation (e : Episode) (close : Moment) : Opening :=
  ⟨e.key, e.index, e.slot, close.tick, close, close, none, some e.number, false⟩

/-- An OPEN episode at its maximum length closes CONTINUED with the stamp of the tick, and its continuation opens,
or is counted uncaptured (R105, R106). The beacon driver takes the two as one event (R137). -/
def State.continueEpisode (e : Episode) (s : State) : State :=
  let s' := s.retire e .continued s.tickNow
  if s'.episodes.hasFree then s'.openEpisode (e.continuation s.tickNow)
  else (s'.followDemand).countUncaptured e.index

/-- The maximum-length check of the current episode of a key and slot (R105). -/
def State.checkLength (key slot : Nat) (s : State) : State :=
  match s.episodes.find key slot with
  | some e =>
    if s.atMaximum e then
      match e.state with
      | .opened => s.continueEpisode e
      | .holdOff _ => s.closeEpisode e .quiet s.tickNow
    else s
  | none => s

end Sys2Proof.Machine
end

