-- ==== Sys2Proof/Machine/Plant.lean ====
section
/-! DEFINITION. The plant monitor's inputs (chapter 6): samplers and recognitions, activations and
deactivations, run counts and marks. -/

namespace Sys2Proof.Machine

/-! ### Activation (R122, R126) -/

/-- A line joins the ever-active lines of every current episode (R126). -/
def State.everActive (line : Nat) (s : State) : State :=
  s.setCurrent (s.episodes.current.map (fun e => { e with everActive := setInsert e.everActive line }))

/-- The line's active flag follows its recognised level and active level (R119, R122). -/
def PlantLine.level (l : PlantLine) : Bool := l.sampler.level == l.record.activeLevel

/-- An activation or deactivation at a tick count, when the flag changes (R122). -/
def PlantLine.settle (tick : Tick) (l : PlantLine) : PlantLine :=
  if l.level = l.active then l
  else if l.level then { l with active := true, activationTick := some tick }
  else { l with active := false, deactivationTick := some tick }

/-- A line whose sampler or record has changed: the activation or deactivation it causes, and the
ever-active lines gain it when an enabled line has become active, or an active line enabled (R121,
R122). -/
def State.changeLine (line : Nat) (f : PlantLine → PlantLine) (s : State) : State :=
  match s.plant.lines[line]? with
  | none => s
  | some old =>
    let new := (f old).settle s.clock.tickCount
    let s := s.modifyLine line (fun _ => new)
    if new.record.enabled && new.active && !(old.record.enabled && old.active) then s.everActive line
    else s

/-! ### Samplers (R118) -/

/-- The other level. -/
def otherLevel : Level → Level
  | .low => .high
  | .high => .low

/-- A recognition: the other level is taken and the run length returns to 0. -/
def Sampler.recognise (p : Sampler) : Sampler := ⟨otherLevel p.level, 0⟩

/-- A sample that does not complete a recognition: the run length reset or advanced. -/
def Sampler.sample (pin : Level) (p : Sampler) : Sampler :=
  if pin = p.level then ⟨p.level, 0⟩ else ⟨p.level, p.run + 1⟩

/-- The sample completes a recognition. -/
def Sampler.completes (debounce : Nat) (pin : Level) (p : Sampler) : Bool :=
  pin ≠ p.level && debounce ≤ p.run + 1

/-- The level of a pin of a plant line. -/
def pinOf (p : Pins) (line : Nat) : Level := if p.plant.getLsbD line then .high else .low

/-- A sample of a plant line; a completed run makes its recognition due (log 20). -/
def State.sampleLine (pins : Pins) (line : Nat) (s : State) : State :=
  match s.plant.lines[line]? with
  | none => s
  | some l =>
    let s := if l.sampler.completes l.record.debounce (pinOf pins line)
      then s.addDue (.recognition (.plant line)) else s
    s.modifyLine line (fun l =>
      { l with sampler := l.sampler.sample (pinOf pins line) })

/-- The MARK sampler set. -/
def State.setMark (p : Sampler) (s : State) : State := { s with plant := { s.plant with mark := p } }

/-- The CERTIFY sampler set. -/
def State.setCertify (p : Sampler) (s : State) : State :=
  { s with plant := { s.plant with certify := p } }

/-- A sample of MARK: a completed press is due, a completed release is taken at once (R118, R131). -/
def State.sampleMark (pin : Level) (s : State) : State :=
  let p := s.plant.mark
  if p.completes Config.markDebounce pin then
    match p.level with
    | .high => (s.addDue (.recognition .mark)).setMark (p.sample pin)
    | .low => s.setMark p.recognise
  else s.setMark (p.sample pin)

/-- A sample of CERTIFY; a completed change is due. -/
def State.sampleCertify (pin : Level) (s : State) : State :=
  let p := s.plant.certify
  let s := if p.completes Config.certifyDebounce pin then s.addDue (.recognition .certify) else s
  s.setCertify (p.sample pin)

/-- One sample of the ten inputs (R118). -/
def State.samplePins (pins : Pins) (s : State) : State :=
  (((List.range Config.plantLines).foldl (fun s' line => s'.sampleLine pins line) s).sampleMark
    pins.mark).sampleCertify pins.certify

/-! ### Recognitions (R122, R131, R133) -/

/-- The recognition of a plant line (R122). -/
def State.recogniseLine (line : Nat) (s : State) : State :=
  s.changeLine line (fun l => { l with sampler := l.sampler.recognise })

/-- The slots that are LIVE with their latest levels, ascending (R131). -/
def liveLevels (slots : List SlotRecord) : List (Nat × Option Nat) :=
  slots.zipIdx.filterMap (fun p =>
    match p.1.link with
    | .live _ _ _ => some (p.2, p.1.latest)
    | _ => none)

/-- A press: a mark is taken when the latch is empty (R131). -/
def State.press (s : State) : State :=
  match s.plant.markLatch with
  | some _ => s
  | none =>
    State.raise .markTaken
      { s with plant := { s.plant with
          markLatch := some ⟨s.now, s.clock.band, liveLevels s.slots⟩ } }

/-- The recognition of a press of MARK. -/
def State.recogniseMark (s : State) : State := (s.setMark s.plant.mark.recognise).press

/-- The recognition of a change of CERTIFY (R133). -/
def State.recogniseCertify (s : State) : State :=
  (s.setCertify s.plant.certify.recognise).raise .certifyChanged

/-! ### Run counts (R123) -/

/-- The run counts of a tick for one line. -/
def PlantLine.countRun (l : PlantLine) : PlantLine :=
  if l.active then
    { l with
      summaryRun := bumpTo Config.max32 l.summaryRun
      bandRun := bumpTo Config.max32 l.bandRun }
  else l

/-- The run counts of a tick. -/
def State.countRuns (s : State) : State :=
  { s with plant := { s.plant with lines := s.plant.lines.map PlantLine.countRun } }

end Sys2Proof.Machine
end

