-- ==== Sys2Proof/Machine/Windows.lean ====
section
/-! DEFINITION. The window engine (chapter 4): windows open, integrate and close; evaluations; what
restarts, resyncs, SET TIME and band changes do to the accumulators. -/

namespace Sys2Proof.Machine

/-! ### Pairs and their order in an evaluation event -/

/-- The pairs of an entry: its index, itself, and each slot of its mask, ascending. -/
def entryPairs (p : Nat × LimitEntry) : List (Nat × LimitEntry × Nat) :=
  (members p.2.slots).map (fun slot => (p.1, p.2, slot))

/-- The key is the reference key of an entry active in one of the bands. -/
def EntryTable.refersTo (t : EntryTable) (bands : List Nat) (key : Nat) : Bool :=
  t.entries.any (fun p => p.2.test.reference == some key && bands.any (p.2.activeIn ·))

/-- The pairs of the active table in the order of an evaluation event (R85): referred entries first,
then the others, each group by index and slot. `bands` are the bands in force at the event (log 9). -/
def State.evaluationPairs (bands : List Nat) (s : State) : List (Nat × LimitEntry × Nat) :=
  let (first, rest) := s.table.active.entries.partition
    (fun p => s.table.active.refersTo bands p.2.key)
  (first ++ rest).flatMap entryPairs

/-- All pairs of the active table that an entry and slot condition keeps. -/
def State.pairsWhere (keep : LimitEntry → Nat → Bool) (s : State) : List (Nat × LimitEntry × Nat) :=
  (s.table.active.entries.flatMap entryPairs).filter (fun p => keep p.2.1 p.2.2)

/-! ### Evaluation (R85) -/

/-- The reference value of an EXCESS test on a slot (R46). -/
def State.referenceValue (e : LimitEntry) (slot : Nat) (s : State) : Option Nat :=
  match e.test.reference with
  | none => none
  | some key =>
    match s.table.active.find key with
    | none => none
    | some (i, r) => if r.slots.getLsbD slot then (s.windows.cellAt i slot).valid else none

/-- The WINDOW record of a TRUE evaluation (R87). -/
def windowRecord (i slot : Nat) (e : LimitEntry) (r : Reading) (reference : Option Nat) : WindowRecord where
  key := e.key
  index := i
  slot := slot
  window := e.window
  metric := e.metric
  test := e.test
  spanStart := r.spanStart
  close := r.close
  value := r.metric
  threshold := e.threshold
  reference := reference
  counted := r.counted
  excluded := r.excluded
  expected := r.expected
  coverage := r.coverage
  truncated := r.truncated
  overload := r.overload

/-- What an evaluation hands the episode table (R85, step 3). -/
def handedOf (i slot : Nat) (e : LimitEntry) (r : Reading) (final : TestOutcome) (closing : Bool) :
    Handed :=
  ⟨e.key, i, slot, e.holdOff, final, r.metric, r.spanStart, r.close, r.truncated, closing⟩

/-- The evaluation of an entry on a slot, in the four steps of R85. -/
def State.evaluate (i slot : Nat) (e : LimitEntry) (r : Reading) (closing : Bool) (s : State) : State :=
  let cell := s.windows.cellAt i slot
  let reference := s.referenceValue e slot
  let raw := e.rawOutcome r cell.previous reference
  let final := raw.negated e.negate
  let s := s.setCell i slot (cell.after e r raw)
  let s := if e.action.episodes then s.applyOutcome (handedOf i slot e r final closing) else s
  if e.action.reports && final = .isTrue then s.offer (.window (windowRecord i slot e r reference))
  else s

/-! ### Opening and restart (R69, R70) -/

/-- A window of the type opened at a moment is cut short at its start: TRUNCATED, or the step partial
(R70). `minute` is set at a band-change event decided at a minute tick. -/
def WindowType.cutAt (w : WindowType) (eighth : Nat) (minute : Bool) : Bool :=
  match w with
  | .slice => false
  | .fixed m => eighth % (480 * m) != 0
  | .band => !minute
  | .rolling step _ => eighth % (8 * step) != 0

/-- The contents a unit of the entry opens with at a moment (R70). -/
def LimitEntry.openAcc (e : LimitEntry) (m : Moment) (minute : Bool) : Acc :=
  let t := Tally.begin m (e.window.cutAt m.stamp.eighth minute)
  match e.window with
  | .slice => .idle
  | .rolling _ _ => .ring [t]
  | _ => .window t

/-- Windows of the entry open now: it is active in the current band and the clock is RUNNING. -/
def State.opensNow (e : LimitEntry) (s : State) : Bool :=
  e.activeIn s.clock.band && s.clock.running

/-- The contents of a restarted accumulator of the entry (R69). -/
def State.restartedAcc (e : LimitEntry) (s : State) : Acc :=
  if s.opensNow e then e.openAcc s.now false else .idle

/-- The accumulators of some pairs are restarted (R69). -/
def State.restartAccs (pairs : List (Nat × LimitEntry × Nat)) (s : State) : State :=
  pairs.foldl (fun s' p => s'.setAcc p.1 p.2.2 (s'.restartedAcc p.2.1)) s

/-- The result cells of a slot are restarted, at every index (R69). -/
def State.restartCellsOfSlot (slot : Nat) (s : State) : State :=
  { s with windows := { s.windows with
      cells := s.windows.cells.map (fun row => row.modify slot (fun _ => .empty)) } }

/-- The restart a BIND SLOT or UNBIND SLOT demands (R69). -/
def State.restartSlot (slot : Nat) (s : State) : State :=
  (s.restartAccs (s.pairsWhere (fun _ n => n == slot))).restartCellsOfSlot slot

/-- The restart of every unit in use and every result cell (R69, R90). -/
def State.restartAll (s : State) : State :=
  let s := s.restartAccs (s.pairsWhere (fun _ _ => true))
  { s with windows := { s.windows with cells := WindowEngine.noCells } }

/-- An IDLE accumulator of an entry opens (R70); an OPEN one is left as it is. -/
def State.openIdle (minute : Bool) (p : Nat × LimitEntry × Nat) (s : State) : State :=
  match s.windows.accAt p.1 p.2.2 with
  | .idle => if s.opensNow p.2.1 then s.setAcc p.1 p.2.2 (p.2.1.openAcc s.now minute) else s
  | _ => s

/-- IDLE accumulators of some pairs open. -/
def State.openIdles (minute : Bool) (pairs : List (Nat × LimitEntry × Nat)) (s : State) : State :=
  pairs.foldl (fun s' p => s'.openIdle minute p) s

/-! ### Boundaries and step ends (R71, R73) -/

/-- A window that began at this tick is not ended by it (R71, R73). -/
def Tally.beganAt (t : Tally) (m : Moment) : Bool := t.start.tick == m.tick

/-- A FIXED boundary or ROLLING step end of the type falls at the eighth-of-day (R71, R73). -/
def WindowType.endsAt (w : WindowType) (eighth : Nat) : Bool :=
  match w with
  | .fixed m => eighth % (480 * m) == 0
  | .rolling step _ => eighth % (8 * step) == 0
  | _ => false

/-- The ring after a step end: the oldest record removed if it holds K, and a new step begun (R73). -/
def ringAfter (k : Nat) (steps : List Tally) (m : Moment) : List Tally :=
  (if steps.length < k then steps else steps.drop 1) ++ [Tally.begin m false]

/-- The most records the ring of a type holds. -/
def WindowType.ringSize : WindowType → Nat
  | .rolling _ k => k
  | _ => 0

/-- The close of a pair's window or step at a boundary, with its evaluation (R71, R73). -/
def State.endWindow (p : Nat × LimitEntry × Nat) (s : State) : State :=
  if p.2.1.window.endsAt s.clock.eighth then
    match s.windows.accAt p.1 p.2.2 with
    | .window t =>
      if t.beganAt s.now then s
      else
        (s.setAcc p.1 p.2.2
          (if p.2.1.activeIn s.clock.band then .window (Tally.begin s.now false) else .idle)).evaluate
            p.1 p.2.2 p.2.1 (.ofTally p.2.1 t s.now) false
    | .ring steps =>
      match steps.getLast?, ringTally steps with
      | some last, some t =>
        if last.beganAt s.now then s
        else
          (s.setAcc p.1 p.2.2 (.ring (ringAfter p.2.1.window.ringSize steps s.now))).evaluate
            p.1 p.2.2 p.2.1 (.ofTally p.2.1 t s.now) false
      | _, _ => s
    | .idle => s
  else s

/-- The evaluation event of the FIXED boundaries and ROLLING step ends of a tick (R71, R73, R85). -/
def State.endWindows (s : State) : State :=
  if s.clock.running then
    (s.evaluationPairs [s.clock.band]).foldl (fun s' p => s'.endWindow p) s
  else s

/-! ### Band changes (R72, R79, R80) -/

/-- A pair at a band-change event from an old band to the current one. `minute` is set when the event was
decided at a minute tick, whose boundaries have then been taken (R80, log 8): it is not the deactivation that
R80 says performs the close or the step end itself where it is taken first. The TRUNCATED close of a FIXED
window carries the closing-evaluation mark (R79); a BAND window closes as R72 states for every BAND window,
without it (log 31). -/
def State.bandWindow (old : Nat) (minute : Bool) (p : Nat × LimitEntry × Nat) (s : State) : State :=
  let now := s.now
  let active := p.2.1.activeIn s.clock.band
  match p.2.1.window, s.windows.accAt p.1 p.2.2 with
  | .band, .window t =>
    (s.setAcc p.1 p.2.2 (if s.opensNow p.2.1 then p.2.1.openAcc now minute else .idle)).evaluate
      p.1 p.2.2 p.2.1 (.ofTally p.2.1 t now) false
  | .fixed _, .window t =>
    if active then s
    else if minute && t.beganAt now then s.setAcc p.1 p.2.2 .idle
    else
      (s.setAcc p.1 p.2.2 .idle).evaluate p.1 p.2.2 p.2.1
        (.ofTally p.2.1 { t with cut := true } now) true
  | .rolling _ _, .ring _ => if active then s else s.setAcc p.1 p.2.2 .idle
  | _, .idle => if p.2.1.activeIn old then s else s.openIdle minute p
  | _, _ => s

/-- What the window engine does at a band-change event (R72, R79). -/
def State.bandWindows (old : Nat) (minute : Bool) (s : State) : State :=
  (s.evaluationPairs [old, s.clock.band]).foldl (fun s' p => s'.bandWindow old minute p) s

/-- The episodes of keys that are not active in the current band (R109). -/
def State.outOfBand (s : State) (ep : Episode) : Bool :=
  match s.table.active.find ep.key with
  | some (_, e) => !e.activeIn s.clock.band
  | none => true

/-- What the episode table does at a band-change event (R109). -/
def State.bandEpisodes (s : State) : State := s.demandClose s.outOfBand .bandEnd

/-- What the plant monitor does at a band-change event (R123). -/
def State.bandPlant (s : State) : State :=
  { s with plant := { s.plant with
      lines := s.plant.lines.map (fun l => { l with bandRun := 0 })
      bandStart := s.now } }

/-- A band-change event (R35): handed to the window engine, the episode table and the plant monitor, the
first two in either order (R100). -/
def State.bandEvent (old : Nat) (minute bandEndFirst : Bool) (s : State) : State :=
  if bandEndFirst then (s.bandEpisodes.bandWindows old minute).bandPlant
  else (s.bandWindows old minute).bandEpisodes.bandPlant

/-- The current band is decided afresh; a change makes a band-change event (R35). -/
def State.decideBand (minute bandEndFirst : Bool) (s : State) : State :=
  if s.bandNow = s.clock.band then s
  else
    State.bandEvent s.clock.band minute bandEndFirst
      { s with clock := { s.clock with band := s.bandNow } }

/-! ### Integration (R75, R76) and SLICE evaluations (R86) -/

/-- The contents after one slice: integrated, or counted as excluded when CALIBRATING. -/
def Acc.take (metric : Metric) (x : Slice) (a : Acc) : Acc :=
  let f := fun t : Tally => if x.calibrating then t.exclude else t.add metric x
  match a with
  | .idle => .idle
  | .window t => .window (f t)
  | .ring steps => .ring (steps.modify (steps.length - 1) f)

/-- A slice into every accumulator of its slot (R75, R76). -/
def State.integrate (slot : Nat) (x : Slice) (s : State) : State :=
  (s.pairsWhere (fun _ n => n == slot)).foldl
    (fun s' p => s'.setAcc p.1 slot ((s'.windows.accAt p.1 slot).take p.2.1.metric x)) s

/-- The SLICE evaluations of an accepted slice, one evaluation event (R86). -/
def State.evaluateSlice (slot : Nat) (x : Slice) (s : State) : State :=
  ((s.evaluationPairs [s.clock.band]).filter (fun p =>
      p.2.2 == slot && p.2.1.window == .slice && p.2.1.activeIn s.clock.band)).foldl
    (fun s' p => s'.evaluate p.1 slot p.2.1 (.ofSlice p.2.1 x s.now) false) s

/-! ### SET TIME and resyncs (R81, R82) -/

/-- Every window is discarded and every ring emptied, without evaluation (R81). -/
def State.discardWindows (s : State) : State :=
  { s with windows := { s.windows with
      units := s.windows.units.map (fun row => row.map (fun u => u.map (fun x => { x with acc := .idle }))) } }

/-- The contents after a resync of the slot at a moment: a window TRUNCATED, a ring begun anew. -/
def Acc.resync (e : LimitEntry) (m : Moment) (a : Acc) : Acc :=
  match a with
  | .idle => .idle
  | .window t => .window { t with cut := true }
  | .ring _ => e.openAcc m false

/-- The demands of a resync on the window engine (R82). -/
def State.resyncWindows (slot : Nat) (s : State) : State :=
  (s.pairsWhere (fun _ n => n == slot)).foldl
    (fun s' p => s'.setAcc p.1 slot ((s'.windows.accAt p.1 slot).resync p.2.1 s.now)) s

/-! ### The pool in use (R66) -/

/-- The units in use of a kind. -/
def WindowEngine.inUse (histogram : Bool) (w : WindowEngine) : Nat :=
  ((w.units.flatten.filterMap id).filter (fun u => u.histogram == histogram)).length

end Sys2Proof.Machine
end

