-- ==== Sys2Proof/Machine/Slices.lean ====
section
/-! DEFINITION. Slice intake (chapter 1): range check, sequence judgement, acceptance and the stall
timer. -/

namespace Sys2Proof.Machine

/-! ### The slot record -/

/-- The accepted counter, and the excluded one for a CALIBRATING slice (R12, R14). -/
def SlotCounters.accept (x : Slice) (c : SlotCounters) : SlotCounters :=
  { c with
    accepted := bumpTo Config.max16 c.accepted
    excluded := if x.calibrating then bumpTo Config.max16 c.excluded else c.excluded }

/-- The judgements of a slice that has passed the range check (R5, R6). -/
inductive Judgement where
  | base
  | inOrder
  | gap (missing : Nat)
  | resync
  | late
  deriving DecidableEq, Repr

/-- The distance of a sequence from the expected one (R5). -/
def distance (sequence expected : Nat) : Nat := (sequence + 256 - expected) % 256

/-- The judgement by distance (R5). -/
def judgeDistance (d : Nat) : Judgement :=
  if d = 0 then .inOrder
  else if d ≤ 31 then .gap d
  else if d ≤ 223 then .resync
  else .late

/-- The judgement of a slice for a slot (R5, R6); `late` where no slot is bound, which is never judged. -/
def SlotLink.judge (l : SlotLink) (x : Slice) : Judgement :=
  match l with
  | .live _ expected _ => judgeDistance (distance x.sequence expected)
  | .waiting _ => .base
  | .stalled _ _ _ => .base
  | .unbound => .late

/-- The counters a judgement adds to (R14). -/
def SlotCounters.judged (j : Judgement) (c : SlotCounters) : SlotCounters :=
  match j with
  | .gap d => { c with missing := add16 c.missing d }
  | .resync => { c with resyncs := bumpTo Config.max16 c.resyncs }
  | _ => c

/-- The slot after an acceptance: LIVE, with the expected sequence and the last-accepted tick (R5, R6). -/
def SlotLink.accept (x : Slice) (arrival : Tick) (l : SlotLink) : SlotLink :=
  match l.boundId with
  | some id => .live id ((x.sequence + 1) % 256) arrival
  | none => l

/-- The slot record after an acceptance (R5, R6, R12, R14). -/
def SlotRecord.accept (x : Slice) (j : Judgement) (arrival : Tick) (r : SlotRecord) : SlotRecord :=
  { r with
    link := r.link.accept x arrival
    counters := (r.counters.accept x).judged j }

/-- The summary energy and latest level after an accepted slice that is not CALIBRATING (R10 step 3,
R15). -/
def SlotRecord.gainSlice (x : Slice) (r : SlotRecord) : SlotRecord :=
  { r with energy := r.energy.add x.level, latest := some x.level }

/-- A rejection as late or duplicate (R8). -/
def SlotRecord.rejectLate (r : SlotRecord) : SlotRecord :=
  { r with counters := { r.counters with rejected := bumpTo Config.max16 r.counters.rejected } }

/-- A rejection for range (R2). -/
def SlotRecord.rejectRange (r : SlotRecord) : SlotRecord :=
  { r with counters := { r.counters with
      rejected := bumpTo Config.max16 r.counters.rejected
      range := bumpTo Config.max16 r.counters.range } }

/-! ### Intake -/

/-- The codes are in their ranges (R2). -/
def Slice.inRange (x : Slice) : Bool := x.level ≤ 1400 && x.fast ≤ 1400 && x.peak ≤ 1600

/-- The slot bound to a field channel id, the lowest-numbered (R1). -/
def boundSlot (id : Nat) (slots : List SlotRecord) : Option Nat :=
  slots.findIdx? (fun r => r.link.boundId == some id)

/-- An accepted slice is handed on: window engine, episode table, the slot's own account (R10). A
CALIBRATING one is counted as excluded and goes no further (R12). -/
def State.handOn (slot : Nat) (x : Slice) (s : State) : State :=
  let s := s.integrate slot x
  if x.calibrating then s
  else ((s.evaluateSlice slot x).gainSlice slot x).modifySlot slot (SlotRecord.gainSlice x)

/-- What a resync raises and demands (R9). -/
def State.demandResync (slot : Nat) (s : State) : State :=
  (s.raise .slotResync).resyncWindows slot

/-- A slice judged for a slot (R2, R5 to R9). -/
def State.judgeSlice (slot : Nat) (r : SlotRecord) (x : Slice) (s : State) : State :=
  if x.inRange then
    match r.link.judge x with
    | .late => s.modifySlot slot SlotRecord.rejectLate
    | j =>
      let s := s.modifySlot slot (SlotRecord.accept x j s.clock.tickCount)
      let s := if j = .resync then s.demandResync slot else s
      s.handOn slot x
  else s.modifySlot slot SlotRecord.rejectRange

/-- Slice intake takes a slice (R1). -/
def State.intake (x : Slice) (s : State) : State :=
  match boundSlot x.channel s.slots with
  | none => s
  | some slot =>
    match s.slots[slot]? with
    | some r => s.judgeSlice slot r x
    | none => s

/-! ### The stall timer (R13) -/

/-- The stall timer of the slot has expired: LIVE, with 16 ticks or more since the last slice. -/
def SlotLink.expired (now : Tick) (l : SlotLink) : Bool :=
  match l with
  | .live _ _ last => Config.stallTicks ≤ ticksFrom last now
  | _ => false

/-- The record of a slot that stalls (R13). -/
def SlotRecord.stall (r : SlotRecord) : SlotRecord :=
  { r with
    link := match r.link with
      | .live id expected last => .stalled id expected last
      | l => l
    counters := { r.counters with stalls := bumpTo Config.max16 r.counters.stalls } }

/-- The expiry of a slot's stall timer (R13). Its demand carries the moment it is taken (R108), also where the
clock has been started since the tick (the model's choice, log 35). -/
def State.stallSlot (slot : Nat) (s : State) : State :=
  match s.slots[slot]? with
  | some r =>
    if r.link.expired s.clock.tickCount then
      State.demandClose (fun e => e.slot == slot) .stalled
        ((s.modifySlot slot SlotRecord.stall).raise .slotStalled)
    else s
  | none => s

end Sys2Proof.Machine
end

