-- ==== Sys2Proof/Machine/Reads.lean ====
section
/-! DEFINITION. The readouts: what each reading command reports of the state (R18, R28, R38, R51, R56,
R88, R89, R115, R129, R134, R148, R181). None of them changes anything. -/

namespace Sys2Proof.Machine

/-- What a command answers: its result and, where that is OK, its data (R179). -/
structure Answer where
  result : Result
  data   : ReplyData
  deriving DecidableEq, Repr

/-- OK with data. -/
def Answer.ok (data : ReplyData) : Answer := ⟨.ok, data⟩

/-- OK without data. -/
def Answer.done : Answer := ⟨.ok, .empty⟩

/-- Any other result; it carries no data. -/
def Answer.refuse (r : Result) : Answer := ⟨r, .empty⟩

/-- READ TIME (R28). -/
def State.readTime (s : State) : Answer :=
  .ok (.time s.now (weekdayOf s.clock.day s.clock.weekdayOffset) s.dayType s.clock.band s.clock.trim)

/-- One slot of READ SLOT (R18). -/
def slotReport (tick : Tick) (n : Nat) (r : SlotRecord) : SlotReport :=
  ⟨n, r.link, r.link.lastAccepted.map (fun t => tick - t), r.latest, r.counters, r.energy.leq,
    r.energy.count⟩

/-- The slots READ SLOT reports: all twelve, or the one named. -/
def State.slotReports (target : Option Nat) (s : State) : List SlotReport :=
  match target with
  | none => s.slots.zipIdx.map (fun p => slotReport s.clock.tickCount p.2 p.1)
  | some n => (s.slots[n]?).toList.map (slotReport s.clock.tickCount n)

/-- READ SLOT (R18). -/
def State.readSlot (target : Option Nat) (s : State) : Answer :=
  if Config.slotCount ≤ target.getD 0 then .refuse .range
  else .ok (.slots s.now (s.slotReports target))

/-- The figures so far of an accumulator (R88): present while it is OPEN. -/
def openFigures (e : LimitEntry) (a : Acc) (now : Moment) : Option OpenFigures :=
  match a with
  | .idle => none
  | .window t =>
    let r := Reading.ofTally e t now
    some ⟨some t.start, none, none, r.counted, r.excluded, r.expected, r.coverage, r.metric,
      r.truncated, r.overload⟩
  | .ring steps =>
    (ringTally steps).map (fun t =>
      let r := Reading.ofTally e t now
      ⟨none, some steps.length, some t.start, r.counted, r.excluded, r.expected, r.coverage,
        r.metric, r.truncated, r.overload⟩)

/-- The accumulator is OPEN. -/
def Acc.isOpen : Acc → Bool
  | .idle => false
  | _ => true

/-- One slot of READ WINDOW (R88). -/
def State.windowReport (i : Nat) (e : LimitEntry) (slot : Nat) (s : State) : WindowReport :=
  let a := s.windows.accAt i slot
  if e.window.windowed then
    ⟨s.windows.cellAt i slot, some a.isOpen, openFigures e a s.now⟩
  else ⟨s.windows.cellAt i slot, none, none⟩

/-- READ WINDOW (R88). -/
def State.readWindow (key : Nat) (slot : Option Nat) (s : State) : Answer :=
  if key = 0 ∨ Config.slotCount ≤ slot.getD 0 then .refuse .range
  else
    match s.table.active.find key with
    | none => .refuse .notFound
    | some (i, e) =>
      let reported := match slot with
        | none => members e.slots
        | some n => (members e.slots).filter (fun m => m == n)
      if reported.isEmpty then .refuse .notFound
      else
        .ok (.windows s.now i (e.activeIn s.clock.band)
          (reported.map (fun n => s.windowReport i e n)))

/-- READ EPISODES (R115). -/
def State.readEpisodes (s : State) : Answer :=
  .ok (.episodes s.now s.episodes.waiting.length
    (s.episodes.current.map (fun e => ⟨e, e.energy.leq⟩)))

/-- The bins READ HISTOGRAM returns: `count` bins from `start` upward, with wrap 0 to bin 119, with a
wrap of w round the aligned group of w bins that holds `start`, cut short at bin 119 (R89). -/
def histogramBins (start count wrap : Nat) : List Nat :=
  if wrap = 0 then (List.range count).filterMap (fun k => if start + k ≤ 119 then some (start + k) else none)
  else
    let base := start / wrap * wrap
    let size := min wrap (120 - base)
    (List.range count).map (fun k => base + (start - base + k) % size)

/-- READ HISTOGRAM (R89). -/
def State.readHistogram (key start count wrap : Nat) (slot : Option Nat) (s : State) : Answer :=
  match slot with
  | none => .refuse .range
  | some n =>
    if Config.slotCount ≤ n ∨ key = 0 ∨ 119 < start ∨ count = 0 ∨ 32 < count ∨
        (wrap ≠ 0 ∧ wrap ≠ 8 ∧ wrap ≠ 16 ∧ wrap ≠ 32) then .refuse .range
    else
      match s.table.active.find key with
      | none => .refuse .notFound
      | some (i, e) =>
        if e.slots.getLsbD n then
          if e.metric.isLn then
            let bins := histogramBins start count wrap
            match s.windows.accAt i n with
            | .window t =>
              .ok (.histogram s.now n true (some t.start) t.counted
                (bins.map (fun b => (b, Counts.at t.bins b))))
            | _ => .ok (.histogram s.now n false none 0 (bins.map (fun b => (b, 0))))
          else .refuse .range
        else .refuse .notFound

/-- READ ENTRY (R51). The activity item is absent for the staged table, which R51 gives none. DESIGN CHOICE
(unsafe, log 37): for an empty index of the active table R51 and R189 do not say whether the item is absent or
present as inactive, and it is absent here. -/
def State.readEntry (index : Nat) (staged : Bool) (s : State) : Answer :=
  if Config.entryCount ≤ index then .refuse .range
  else
    let e := if staged then s.table.staged.at index else s.table.active.at index
    .ok (.entry index (s.table.frozen.getLsbD index) e
      (if staged then none else e.map (fun x => x.activeIn s.clock.band)))

/-- The answer of PROBE ENTRY for an index (R56). -/
def State.probeAnswer (index : Nat) (s : State) : ProbeAnswer :=
  if s.table.frozen.getLsbD index then .frozen
  else
    match s.table.staged.at index with
    | none => .empty
    | some e => if e.custody = .certified ∧ s.certifyAsserted = false then .needsCertify else .writable

/-- PROBE ENTRY (R56). -/
def State.probeEntry (index : Nat) (s : State) : Answer :=
  .ok (.probe (index % 64) (s.probeAnswer (index % 64)))

/-- READ BANDS (R38). -/
def State.readBands (staged : Bool) (s : State) : Answer :=
  .ok (.bands (if staged then s.schedule.stagedBands else s.schedule.activeBands)
    ((List.range Config.userBands).map s.bandProtected)
    (if staged then s.schedule.stagedExceptions else s.schedule.activeExceptions) s.clock.band)

/-- READ PLANT (R134). -/
def State.readPlant (s : State) : Answer :=
  .ok (.plant s.now s.clock.band s.plant.bandStart s.plant.lines (s.plant.mark.level == .low)
    s.certifyAsserted (s.plant.markLatch.map (fun m => m.moment.tick)) s.plant.coincidence.latch)

/-- The data of FETCH COINCIDENCE (R129). -/
def State.coincidenceData (s : State) : ReplyData :=
  .coincidence s.now s.plant.coincidence.mask s.plant.coincidence.setting

/-- The data of FETCH NOTICES (R148). -/
def State.noticesData (s : State) : ReplyData :=
  .notices s.now s.notices.pending s.notices.mask s.notices.latch

/-- READ STATUS (R181). -/
def State.readStatus (s : State) : Answer :=
  .ok (.status
    { moment := s.now
      strap := s.ports.strap
      commitPending := s.table.pending
      lastResult := s.table.lastResult
      clock := s.clock.state
      band := s.clock.band
      plainInUse := s.windows.inUse false
      histInUse := s.windows.inUse true
      depth := s.report.queue.length
      opened := (s.episodes.current.filter (fun e => e.state == .opened)).length
      holdOff := (s.episodes.current.filter (fun e => e.state != .opened)).length
      closedWaiting := s.episodes.waiting.length
      certify := s.certifyAsserted
      queries := s.cadence.queries.length
      beacons := s.beaconReports
      latch := s.notices.latch
      fieldErrors := s.ports.fieldErrors
      gatewayErrors := s.ports.gatewayErrors
      forwardOverruns := s.ports.forwardOverruns
      controlOverruns := s.ports.controlOverruns
      forwardFill := s.ports.forward.length
      onwardFill := s.ports.onward.length
      replyFill := s.ports.holding.length })

/-- The read of a standing query with its target (R161, R162). -/
def State.readQuery (q : QueryCommand) (s : State) : Answer :=
  match q with
  | .readWindow key slot => s.readWindow key slot
  | .readSlot slot => s.readSlot slot
  | .readEpisodes => s.readEpisodes
  | .readTime => s.readTime

end Sys2Proof.Machine
end

