-- ==== Sys2Proof/Machine/Operands.lean ====
section
/-! DEFINITION. Operand layouts and load images (R39, R40, R186, R187), and the items of a control frame
(R175, R176). A parser of operands answers `none` where the item does not have the form of its command
(MALFORMED); a parser of an image answers `none` where a value is out of range (RANGE). -/

namespace Sys2Proof.Machine

/-! ### Fields -/

/-- The field of `n` bytes at an offset. -/
def field (bytes : List Byte) (offset n : Nat) : Nat := bigEndian ((bytes.drop offset).take n)

/-- Records of a fixed size, `count` of them. -/
def recordsOf (size count : Nat) (bytes : List Byte) : List (List Byte) :=
  (List.range count).map (fun k => (bytes.drop (size * k)).take size)

/-- All values, if every one is present. -/
def allOf {α : Type} : List (Option α) → Option (List α)
  | [] => some []
  | some x :: rest => (allOf rest).map (fun xs => x :: xs)
  | none :: _ => none

/-- No two members are equal. -/
def distinct (xs : List Nat) : Bool := xs.all (fun x => (xs.filter (fun y => y == x)).length == 1)

/-- A value under a condition. -/
def onlyIf {α : Type} (b : Bool) (x : α) : Option α := if b then some x else none

/-- Operands of fixed form (R186). -/
def fixedForm {α : Type} (size : Nat) (read : List Byte → α) (operands : List Byte) : Option α :=
  onlyIf (operands.length == size) (read operands)

/-- Operands of varying form: `lead` leading bytes of which the last is the count (R186). -/
def countedForm (lead size : Nat) (operands : List Byte) : Option (List (List Byte)) :=
  if lead ≤ operands.length then
    let count := field operands (lead - 1) 1
    onlyIf (operands.length == lead + size * count) (recordsOf size count (operands.drop lead))
  else none

/-- No operands. -/
def noOperands : List Byte → Option Unit := fixedForm 0 (fun _ => ())

/-- One operand byte. -/
def oneByte : List Byte → Option Nat := fixedForm 1 (fun o => field o 0 1)

/-- One operand of two bytes. -/
def twoBytes : List Byte → Option Nat := fixedForm 2 (fun o => field o 0 2)

/-! ### Limit entry images (R39, R40, R187) -/

/-- The metric with its conditional fields, absent ones zero. -/
def metricOf (code percentile aux : Nat) : Option Metric :=
  match code with
  | 1 => onlyIf (percentile == 0 && aux == 0) .leq
  | 2 => onlyIf (percentile == 0 && aux == 0) .lmax
  | 3 => onlyIf (percentile == 0 && aux == 0) .lpeak
  | 4 => onlyIf (1 ≤ percentile && percentile ≤ 99 && aux == 0) (.ln percentile)
  | 5 => onlyIf (percentile == 0 && aux ≤ 1600) (.events aux)
  | _ => none

/-- `n` is one of the divisors of `m`. -/
def divisorOf (n m : Nat) : Bool := 1 ≤ n && m % n == 0

/-- The window type with its conditional fields, absent ones zero. -/
def windowOf (code minutes stepSeconds stepCount : Nat) : Option WindowType :=
  match code with
  | 1 => onlyIf (minutes == 0 && stepSeconds == 0 && stepCount == 0) .slice
  | 2 => onlyIf (divisorOf minutes 1440 && stepSeconds == 0 && stepCount == 0) (.fixed minutes)
  | 3 => onlyIf (minutes == 0 && stepSeconds == 0 && stepCount == 0) .band
  | 4 =>
    onlyIf (minutes == 0 && divisorOf stepSeconds 3600 && 2 ≤ stepCount && stepCount ≤ 16)
      (.rolling stepSeconds stepCount)
  | _ => none

/-- The test with its reference key, absent zero. -/
def testOf (code reference : Nat) : Option Test :=
  match code with
  | 1 => onlyIf (reference == 0) .gt
  | 2 => onlyIf (reference == 0) .rise
  | 3 => onlyIf (reference != 0) (.excess reference)
  | 4 => onlyIf (reference == 0) .countGe
  | 5 => onlyIf (reference == 0) .invalid
  | 6 => onlyIf (reference == 0) .always
  | _ => none

/-- The action of a code. -/
def actionOf : Nat → Option Action
  | 0 => some .none
  | 1 => some .report
  | 2 => some .episode
  | 3 => some .both
  | _ => none

/-- The beacon line of a flag and a byte: a flag set with action EPISODE or BOTH alone. -/
def beaconOf (present : Bool) (line : Nat) (action : Action) : Option (Option Nat) :=
  if present then onlyIf (line < Config.beaconLines && action.episodes) (some line)
  else onlyIf (line == 0) none

/-- The combination of metric, window and test is allowed (R40). -/
def combinationAllowed (m : Metric) (w : WindowType) (t : Test) : Bool :=
  (match m, w with
    | .ln _, .fixed _ => true
    | .ln _, .band => true
    | .ln _, _ => false
    | .events _, .slice => false
    | _, _ => true) &&
  (match m, t with
    | .events _, .countGe => true
    | .events _, .invalid => true
    | .events _, .always => true
    | .events _, _ => false
    | _, .countGe => false
    | _, _ => true)

/-- The threshold is in its range for the test (R39). -/
def thresholdAllowed (t : Test) (threshold : Nat) : Bool :=
  match t with
  | .countGe => threshold ≤ Config.max16
  | _ => threshold ≤ 1600

/-- The flag byte of an image. -/
def imageFlags (image : List Byte) : Byte := image.getD 17 0

/-- The fields of R39 that carry no condition are in their ranges: key, slot mask, band mask, minimum
coverage, hold-off and maximum length. -/
def plainFieldsAllowed (o : List Byte) : Bool :=
  field o 0 2 != 0 && field o 2 2 != 0 && field o 2 2 < 4096 && field o 4 2 != 0 &&
    50 ≤ field o 22 1 && field o 22 1 ≤ 100 && field o 25 2 ≤ 600 && 1 ≤ field o 27 1 &&
    field o 27 1 ≤ 240

/-- The limit entry of an image, `none` where it breaks R39, R40 or R187. -/
def LimitEntry.ofImage (o : List Byte) : Option LimitEntry :=
  (metricOf (field o 6 1) (field o 7 1) (field o 8 2)).bind fun metric =>
  (windowOf (field o 10 1) (field o 11 2) (field o 13 2) (field o 15 1)).bind fun window =>
  (testOf (field o 16 1) (field o 20 2)).bind fun test =>
  (actionOf (field o 23 1)).bind fun action =>
  (beaconOf ((imageFlags o).getLsbD 2) (field o 24 1) action).bind fun beacon =>
  onlyIf (plainFieldsAllowed o && combinationAllowed metric window test &&
      thresholdAllowed test (field o 18 2))
    { key := field o 0 2
      slots := BitVec.ofNat 12 (field o 2 2)
      bands := BitVec.ofNat 16 (field o 4 2)
      metric := metric
      window := window
      test := test
      negate := (imageFlags o).getLsbD 0
      threshold := field o 18 2
      minCoverage := field o 22 1
      action := action
      beacon := beacon
      holdOff := field o 25 2
      maxLength := field o 27 1
      custody := if (imageFlags o).getLsbD 1 then .certified else .site }

/-! ### The other images (R31, R33, R121, R187) -/

/-- A band image: the band it names, and its record or that it is undefined. -/
def bandOfImage (o : List Byte) : Option (Nat × Option BandRecord) :=
  let band := field o 0 1
  let days := BitVec.ofNat 9 (field o 2 2)
  let start := field o 4 2
  let stop := field o 6 2
  if Config.userBands ≤ band then none
  else
    match field o 1 1 with
    | 0 => some (band, none)
    | 1 =>
      onlyIf (days != 0 && start ≤ 1439 && 1 ≤ stop && stop ≤ 1440 && start < stop)
        (band, some ⟨days, start, stop⟩)
    | _ => none

/-- An exception image. -/
def exceptionOfImage (o : List Byte) : Option ExceptionRecord :=
  (DayType.all[field o 2 1]?).map (fun t => ⟨field o 0 2, t⟩)

/-- The level of a byte. -/
def levelOf : Nat → Option Level
  | 0 => some .low
  | 1 => some .high
  | _ => none

/-- A plant image: the line it names and its record. -/
def plantOfImage (o : List Byte) : Option (Nat × PlantRecord) :=
  (levelOf (field o 2 1)).bind fun level =>
  onlyIf (field o 0 1 < Config.plantLines && 2 ≤ field o 3 1 && field o 3 1 ≤ 15 &&
      field o 4 1 ≤ 7 && field o 5 1 ≤ 60)
    (field o 0 1, ⟨(o.getD 1 0).getLsbD 0, level, field o 3 1, field o 4 1, field o 5 1⟩)

/-! ### Operands of commands (R186, operand layouts) -/

/-- LOAD ENTRIES: the start index and the images. -/
def loadEntriesForm (o : List Byte) : Option (Nat × List (List Byte)) :=
  (countedForm 2 28 o).map (fun images => (field o 0 1, images))

/-- LOAD BANDS: the images. -/
def loadBandsForm : List Byte → Option (List (List Byte)) := countedForm 1 8

/-- LOAD EXCEPTIONS: the images. -/
def loadExceptionsForm : List Byte → Option (List (List Byte)) := countedForm 1 3

/-- LOAD PLANT: the images. -/
def loadPlantForm : List Byte → Option (List (List Byte)) := countedForm 1 6

/-- SET TIME: day number, eighth-of-day, weekday. -/
def setTimeForm : List Byte → Option (Nat × Nat × Nat) :=
  fixedForm 6 (fun o => (field o 0 2, field o 2 3, field o 5 1))

/-- TRIM: the signed value. -/
def trimForm : List Byte → Option Int :=
  fixedForm 2 (fun o => (BitVec.ofNat 16 (field o 0 2)).toInt)

/-- BIND SLOT: slot and field channel id. BEACON OVERRIDE: line and override. -/
def byteByteForm : List Byte → Option (Nat × Nat) :=
  fixedForm 2 (fun o => (field o 0 1, field o 1 1))

/-- READ HISTOGRAM: key, start bin, count, wrap. -/
def readHistogramForm : List Byte → Option (Nat × Nat × Nat × Nat) :=
  fixedForm 5 (fun o => (field o 0 2, field o 2 1, field o 3 1, field o 4 1))

/-- SET BEACON: line, mode, width. -/
def setBeaconForm : List Byte → Option (Nat × Nat × Nat) :=
  fixedForm 3 (fun o => (field o 0 1, field o 1 1, field o 2 1))

/-- SET NOTICE MASK: selector and set. -/
def setNoticeMaskForm : List Byte → Option (Nat × Nat) :=
  fixedForm 3 (fun o => (field o 0 1, field o 1 2))

/-- The operands of SET CADENCE. -/
structure CadenceOperands where
  base    : Nat
  summary : Nat
  mode    : Nat
  run     : Nat
  force   : Nat
  deriving DecidableEq, Repr

/-- SET CADENCE. -/
def setCadenceForm : List Byte → Option CadenceOperands :=
  fixedForm 6 (fun o => ⟨field o 0 2, field o 2 1, field o 3 1, field o 4 1, field o 5 1⟩)

/-! ### Prefixes (R176) -/

/-- A well-formed prefix item. -/
inductive PrefixItem where
  | slot (n : Nat)
  | staged
  | keep
  deriving DecidableEq, Repr

/-- The code of a prefix. -/
def PrefixItem.code : PrefixItem → Byte
  | .slot _ => slotCode
  | .staged => stagedCode
  | .keep => keepCode

/-- The code names a prefix. -/
def isPrefixCode (code : Byte) : Bool :=
  code == slotCode || code == stagedCode || code == keepCode

/-- A prefix item of the right form (R186). -/
def prefixOf (code : Byte) (operands : List Byte) : Option PrefixItem :=
  if code = slotCode then fixedForm 1 (fun o => .slot (field o 0 1)) operands
  else if code = stagedCode then fixedForm 0 (fun _ => .staged) operands
  else if code = keepCode then fixedForm 0 (fun _ => .keep) operands
  else none

/-- The prefix applies to the command (R176). -/
def PrefixItem.appliesTo (p : PrefixItem) (c : CommandCode) : Bool :=
  match p with
  | .slot _ => [CommandCode.readWindow, .readHistogram, .readSlot].contains c
  | .staged => [CommandCode.readEntry, .readBands].contains c
  | .keep => [CommandCode.readWindow, .readSlot, .readEpisodes, .readTime].contains c

/-- The prefixes before a command can be taken: none twice, and each applies to it (R176). -/
def prefixesTaken (ps : List PrefixItem) (c : CommandCode) : Bool :=
  ps.all (fun p => p.appliesTo c && (ps.filter (fun q => q.code == p.code)).length == 1)

/-- What the prefixes say to a command: the slot, whether the staged copy is read, and the tag under
which KEEP installs it. -/
structure Modifiers where
  slot   : Option Nat
  staged : Bool
  keep   : Option Byte
  deriving DecidableEq, Repr

/-- The slot a prefix names. -/
def PrefixItem.slotNumber : PrefixItem → Option Nat
  | .slot n => some n
  | _ => none

/-- The modifiers of some prefixes in a frame of the given tag. -/
def modifiersOf (tag : Byte) (ps : List PrefixItem) : Modifiers where
  slot := ps.findSome? PrefixItem.slotNumber
  staged := ps.contains .staged
  keep := if ps.contains .keep then some tag else none

/-! ### The items of a control frame (R175, R186) -/

/-- A reply item without data. -/
def bareItem (code : Byte) (r : Result) : ReplyItem := ⟨code, r, .empty⟩

/-- The reply item of prefixes that have no command: it names the last of them. -/
def danglingItem (ps : List PrefixItem) : List ReplyItem :=
  (ps.getLast?).toList.map (fun p => bareItem p.code .malformed)

/-- What the decoder reaches next in a frame: an item that is no prefix, with the prefixes standing
before it and what follows it, or the end of execution. `lead` are the reply items of malformed
prefixes met on the way (log 12). -/
inductive Reached where
  | item (lead : List ReplyItem) (prefixes : List PrefixItem) (code : Byte) (operands : List Byte)
      (rest : List Byte) (taken : Nat)
  | stop (trail : List ReplyItem)
  deriving DecidableEq, Repr

/-- The end of execution with the reply items it gives: dangling prefixes, and MALFORMED under code 00h
where parsing stopped (R175, R188). -/
def stopItems (lead : List ReplyItem) (ps : List PrefixItem) (stopped : Bool) : Reached :=
  .stop (lead ++ danglingItem ps ++ if stopped then [bareItem 0 .malformed] else [])

/-- What the decoder reaches from `rest` with `taken` items behind it and some prefixes standing. Each
item taken counts toward the 16, so 17 rounds suffice. -/
def reachFrom : Nat → List Byte → Nat → List PrefixItem → List ReplyItem → Reached
  | 0, _, _, ps, lead => stopItems lead ps true
  | fuel + 1, rest, taken, ps, lead =>
    match rest with
    | [] => stopItems lead ps false
    | [_] => stopItems lead ps true
    | code :: length :: body =>
      if taken = Config.itemCount ∨ body.length < length.toNat then stopItems lead ps true
      else
        let operands := body.take length.toNat
        let after := body.drop length.toNat
        if isPrefixCode code then
          match prefixOf code operands with
          | some p => reachFrom fuel after (taken + 1) (ps ++ [p]) lead
          | none => reachFrom fuel after (taken + 1) [] (lead ++ [bareItem code .malformed])
        else .item lead ps code operands after (taken + 1)

/-- What the decoder reaches next in the frame in execution. -/
def Executing.reach (e : Executing) : Reached := reachFrom 17 e.rest e.taken [] []

/-- The code names a command. -/
def isCommandCode (code : Byte) : Bool := CommandCode.all.any (fun c => c.byte == code)

end Sys2Proof.Machine
end

