-- ==== Sys2Proof/Machine/CadenceUnit.lean ====
section
/-! DEFINITION. The cadence unit (chapter 8): its timers, the SUMMARY record and what its admission
clears, and the QUERY records. -/

namespace Sys2Proof.Machine

/-! ### The SUMMARY record (R159, R160) -/

/-- The slot accounts: every slot that is not UNBOUND, ascending. -/
def slotAccounts (slots : List SlotRecord) : List SlotAccount :=
  slots.zipIdx.filterMap (fun p =>
    match p.1.link with
    | .unbound => none
    | l => some ⟨p.2, l, p.1.counters, p.1.energy.leq, p.1.energy.count⟩)

/-- The line accounts: every enabled line, in line order. -/
def lineAccounts (lines : List PlantLine) : List LineAccount :=
  lines.zipIdx.filterMap (fun p =>
    if p.1.record.enabled then some ⟨p.2, p.1.summaryRun, p.1.active⟩ else none)

/-- The uncaptured accounts: every index whose counter is not 0, ascending. -/
def uncapturedAccounts (t : EntryTable) (counters : List Nat) : List UncapturedAccount :=
  counters.zipIdx.filterMap (fun p =>
    if p.1 = 0 then none else some ⟨p.2, (t.at p.2).map (·.key), p.1⟩)

/-- The SUMMARY record of the present moment (R159). -/
def State.summaryRecord (s : State) : SummaryRecord where
  moment := s.now
  slots := slotAccounts s.slots
  lines := lineAccounts s.plant.lines
  uncaptured := uncapturedAccounts s.table.active s.episodes.uncaptured
  dropped := s.report.dropped
  fieldErrors := s.ports.fieldErrors
  gatewayErrors := s.ports.gatewayErrors
  forwardOverruns := s.ports.forwardOverruns
  controlOverruns := s.ports.controlOverruns

/-- The counters and the summary energy of a slot cleared. -/
def SlotRecord.clearSummary (r : SlotRecord) : SlotRecord :=
  { r with counters := .zero, energy := .empty }

/-- Every figure a SUMMARY reports is cleared (R160). -/
def State.clearSummary (s : State) : State :=
  { s with
    slots := s.slots.map SlotRecord.clearSummary
    plant := { s.plant with lines := s.plant.lines.map (fun l => { l with summaryRun := 0 }) }
    episodes := { s.episodes with uncaptured := s.episodes.uncaptured.map (fun _ => 0) }
    report := { s.report with dropped := 0 }
    ports := { s.ports with
      fieldErrors := 0, gatewayErrors := 0, forwardOverruns := 0, controlOverruns := 0 } }

/-- The offer of the SUMMARY record: its admission clears what it reports (R160). -/
def State.offerSummary (s : State) : State :=
  if s.queueHasRoom then State.admitRecord (.summary s.summaryRecord) s.clearSummary
  else s.drop

/-- The reply item a query's command gives. -/
def QueryCommand.item (q : QueryCommand) (a : Answer) : ReplyItem :=
  ⟨q.commandCode.byte, a.result, a.data⟩

/-- The QUERY records of the present moment, in list order (R162). -/
def State.queryRecords (s : State) : List QueryRecord :=
  s.cadence.queries.zipIdx.map (fun p => ⟨p.2, p.1, p.1.command.item (s.readQuery p.1.command)⟩)

/-- The offers of the QUERY records, one after another. -/
def State.offerQueries (records : List QueryRecord) (s : State) : State :=
  records.foldl (fun s' r => s'.offer (.query r)) s

/-! ### The timers (R155, R156) -/

/-- The next tick's count makes a base underflow. -/
def Cadence.underflows (c : Cadence) : Bool := c.running && c.second ≤ 1 && c.base ≤ 1

/-- The count of a tick up to the base underflow (R155, steps 1 and 2). -/
def Cadence.count (c : Cadence) : Cadence :=
  if c.running then
    if 1 < c.second then { c with second := c.second - 1 }
    else if 1 < c.base then { c with second := 8, base := c.base - 1 }
    else { c with second := 8, base := c.baseLatch, summary := c.summary - 1 }
  else c

/-- The count of a tick; a summary counter it takes to 0 makes the summary underflow due (R155). -/
def State.countCadence (s : State) : State :=
  let c := s.cadence
  let s := { s with cadence := c.count }
  if c.underflows && s.cadence.summary = 0 then s.addDue .summary else s

/-- The summary underflow: the summary counter reloads, the SUMMARY and QUERY records are offered as one
action, and in ONE_SHOT mode the unit stops (R155 step 3, R156). The readouts are taken before the offers
(R162). -/
def State.summaryUnderflow (s : State) : State :=
  let s := { s with cadence := { s.cadence with summary := s.cadence.summaryLatch } }
  let records := s.queryRecords
  let s := s.asOneAction (fun s' => s'.offerSummary.offerQueries records)
  { s with cadence := { s.cadence with
      running := s.cadence.running && s.cadence.mode == .continuous } }

end Sys2Proof.Machine
end

