-- ==== Sys2Proof/Machine/Commit.lean ====
section
/-! DEFINITION. The commit (section 3.6): the protected difference, the checks of the staged copies, and
the swap with its closures, its carried accounts and the placing of accumulators. -/

namespace Sys2Proof.Machine

/-! ### The protected difference (R53) -/

/-- The entry is of CERTIFIED custody. -/
def LimitEntry.certified (e : LimitEntry) : Bool := e.custody == .certified

/-- An index holds a CERTIFIED entry in a table. -/
def EntryTable.certifiedAt (t : EntryTable) (i : Nat) : Bool := (t.at i).any LimitEntry.certified

/-- Some index with a CERTIFIED entry in either table differs (R53). -/
def LimitTable.certifiedDifference (t : LimitTable) : Bool :=
  (List.range Config.entryCount).any (fun i =>
    (t.active.certifiedAt i || t.staged.certifiedAt i) && t.active.at i != t.staged.at i)

/-- Some protected user band differs (R53). -/
def State.bandDifference (s : State) : Bool :=
  (List.range Config.userBands).any (fun b =>
    s.bandProtected b && s.schedule.activeBands[b]? != s.schedule.stagedBands[b]?)

/-- The staged copies differ from the active ones in a protected item (R53). -/
def State.protectedDifference (s : State) : Bool :=
  s.table.certifiedDifference || s.bandDifference ||
    (s.anyCertified && s.schedule.activeExceptions != s.schedule.stagedExceptions)

/-! ### The checks (R59, R60) -/

/-- The lowest index holding a key held at another index too. -/
def EntryTable.duplicateKey (t : EntryTable) : Option Nat :=
  (t.entries.find? (fun p =>
    t.entries.any (fun q => q.1 != p.1 && q.2.key == p.2.key))).map (·.1)

/-- The metric is EVENTS. -/
def Metric.isEvents : Metric → Bool
  | .events _ => true
  | _ => false

/-- A reference key fails (R59, item 2): no entry, the entry's own key, an entry with a reference key,
or an EVENTS entry. -/
def EntryTable.badReferenceKey (t : EntryTable) (own key : Nat) : Bool :=
  key == own ||
    match t.find key with
    | none => true
    | some (_, r) => r.test.reference.isSome || r.metric.isEvents

/-- The lowest index whose reference fails. -/
def EntryTable.badReference (t : EntryTable) : Option Nat :=
  (t.entries.find? (fun p => p.2.test.reference.any (t.badReferenceKey p.2.key))).map (·.1)

/-- The lowest index whose band mask names an undefined user band. -/
def EntryTable.undefinedBand (t : EntryTable) (bands : List (Option BandRecord)) : Option Nat :=
  (t.entries.find? (fun p => (List.range Config.userBands).any (fun b =>
    p.2.bands.getLsbD b && ((bands[b]?).join).isNone))).map (·.1)

/-- The accumulators an entry needs (R60). -/
def LimitEntry.need (e : LimitEntry) : Nat := if e.window.windowed then (members e.slots).length else 0

/-- The accumulators a table needs. -/
def EntryTable.need (t : EntryTable) : Nat := (t.entries.map (fun p => p.2.need)).sum

/-- The histogram-capable accumulators a table needs. -/
def EntryTable.histogramNeed (t : EntryTable) : Nat :=
  (t.entries.map (fun p => if p.2.metric.isLn then p.2.need else 0)).sum

/-- The first failure of the checks of the staged copies (R59). -/
def State.commitFailure (s : State) : Option (CommitFailure × Option Nat) :=
  let t := s.table.staged
  match t.duplicateKey, t.badReference, t.undefinedBand s.schedule.stagedBands with
  | some i, _, _ => some (.duplicateKey, some i)
  | none, some i, _ => some (.badReference, some i)
  | none, none, some i => some (.bandUndefined, some i)
  | none, none, none =>
    if Config.poolUnits < t.need then some (.poolExhausted, none)
    else if Config.histogramUnits < t.histogramNeed then some (.histogramExhausted, none)
    else none

/-! ### The closures of a swap (R61, R62, R110) -/

/-- What the swap does to an episode of an old entry on a slot: the reason it closes with, or `none` when
it continues. -/
def closureAt (old : LimitEntry) (new : Option LimitEntry) (slot : Nat) : Option CloseReason :=
  match new with
  | none => some .withdrawn
  | some e =>
    if old.sameDefinition e then
      if e.slots.getLsbD slot && e.action.episodes then none else some .withdrawn
    else some .redefined

/-- The closures demanded for one key, before the tables change: the episodes of all its slots that close for one
reason as one demand, oldest first (the model's choice, log 36). -/
def State.closeKey (s : State) (key : Nat) : State :=
  match s.table.active.find key with
  | none => s
  | some (_, old) =>
    let closing := fun (reason : CloseReason) (e : Episode) =>
      e.key == key &&
        closureAt old ((s.table.staged.find key).map (·.2)) e.slot == some reason
    (s.demandClose (closing .withdrawn) .withdrawn).demandClose (closing .redefined) .redefined

/-- The keys of a table by ascending index. -/
def EntryTable.keys (t : EntryTable) : List Nat := t.entries.map (fun p => p.2.key)

/-- The closures of a swap, key by key: the keys of the choice first (log 10). -/
def State.closeKeys (keys : List Nat) (s : State) : State :=
  (keys ++ s.table.active.keys).foldl State.closeKey s

/-! ### What moves with the keys (R61, R63, R83) -/

/-- Where the old table holds the account of a pair that is carried over. -/
def EntryTable.carriedFrom (old : EntryTable) (e : LimitEntry) (slot : Nat) : Option Nat :=
  match old.find e.key with
  | some (i, o) =>
    if o.sameDefinition e && o.slots.getLsbD slot && e.slots.getLsbD slot then some i else none
  | none => none

/-- The result cell of a pair after the swap. -/
def WindowEngine.movedCell (w : WindowEngine) (old new : EntryTable) (i slot : Nat) : ResultCell :=
  match (new.at i).bind (fun e => old.carriedFrom e slot) with
  | some j => w.cellAt j slot
  | none => .empty

/-- The accumulator contents of a pair after the swap; a pair that is not carried is IDLE until the band
has been decided. -/
def WindowEngine.movedAcc (w : WindowEngine) (old : EntryTable) (e : LimitEntry) (slot : Nat) : Acc :=
  match old.carriedFrom e slot with
  | some j => w.accAt j slot
  | none => .idle

/-- The pairs of a table that hold plain units before histogram-capable ones. -/
def EntryTable.plainPairs (t : EntryTable) : List (Nat × Nat) :=
  t.entries.flatMap (fun p =>
    if p.2.window.windowed && !p.2.metric.isLn then (members p.2.slots).map (fun m => (p.1, m)) else [])

/-- Those pairs in the order they take units: the pairs of the choice first, then by index and slot
(log 10). -/
def EntryTable.plainOrder (t : EntryTable) (first : List (Nat × Nat)) : List (Nat × Nat) :=
  let chosen := first.eraseDups.filter (fun p => t.plainPairs.contains p)
  chosen ++ t.plainPairs.filter (fun p => !chosen.contains p)

/-- The pairs that hold plain units: the first 72 (R60). -/
def EntryTable.plainHolders (t : EntryTable) (first : List (Nat × Nat)) : List (Nat × Nat) :=
  (t.plainOrder first).take Config.plainUnits

/-- The unit of a pair after the swap (R60). -/
def WindowEngine.movedUnit (w : WindowEngine) (old new : EntryTable) (plain : List (Nat × Nat))
    (i slot : Nat) : Option PoolUnit :=
  match new.at i with
  | some e =>
    if e.window.windowed && e.slots.getLsbD slot then
      some ⟨!plain.contains (i, slot), w.movedAcc old e slot⟩
    else none
  | none => none

/-- A value for every index and slot. -/
def grid {α : Type} (f : Nat → Nat → α) : List (List α) :=
  (List.range Config.entryCount).map (fun i => (List.range Config.slotCount).map (f i))

/-- The window engine after the swap. -/
def WindowEngine.moved (w : WindowEngine) (old new : EntryTable) (first : List (Nat × Nat)) :
    WindowEngine :=
  let plain := new.plainHolders first
  ⟨grid (w.movedUnit old new plain), grid (w.movedCell old new)⟩

/-- The uncaptured counter of an index after the swap: it moves with its key (R63, R114). -/
def movedCounter (counters : List Nat) (old new : EntryTable) (i : Nat) : Nat :=
  match (new.at i).bind (fun e => old.find e.key) with
  | some (j, _) => counters.getD j 0
  | none => 0

/-- The entry index an episode holds after the swap (R63, R110). -/
def Episode.moved (new : EntryTable) (e : Episode) : Episode :=
  match new.find e.key with
  | some (i, _) => { e with index := i }
  | none => e

/-- The episode table after the swap. -/
def EpisodeTable.moved (t : EpisodeTable) (old new : EntryTable) : EpisodeTable :=
  { t with
    current := t.current.map (Episode.moved new)
    uncaptured := (List.range Config.entryCount).map (movedCounter t.uncaptured old new) }

/-- The staged table becomes active, with everything that moves with the keys. -/
def State.moveKeys (first : List (Nat × Nat)) (s : State) : State :=
  { s with
    table := { s.table with active := s.table.staged }
    windows := s.windows.moved s.table.active s.table.staged first
    episodes := s.episodes.moved s.table.active s.table.staged }

/-- The active band table and exception list take the staged ones (R36). -/
def State.adoptSchedule (s : State) : State :=
  { s with schedule := { s.schedule with
      activeBands := s.schedule.stagedBands, activeExceptions := s.schedule.stagedExceptions } }

/-- The staged band table and exception list set equal to the active ones (R30, R32, R50). -/
def Schedule.reverted (c : Schedule) : Schedule :=
  { c with stagedBands := c.activeBands, stagedExceptions := c.activeExceptions }

/-- The commit ends with a result and a notice (R59, R63). -/
def State.endCommit (result : CommitResult) (n : Notice) (s : State) : State :=
  State.raise n { s with table := { s.table with pending := false, lastResult := some result } }

/-- The swap (R61 to R63): closures under the old table, the exchange, the band decided afresh under the
new tables, and the windows of pairs that start at the swap (log 23). Each staged copy already equals
its new active copy. -/
def State.swap (c : SwapChoice) (s : State) : State :=
  let s := ((s.closeKeys c.keys).moveKeys c.plainFirst).followDemand
  let s := s.adoptSchedule.decideBand false c.bandEndFirst
  (s.openIdles false (s.pairsWhere (fun _ _ => true))).endCommit .done .commitDone

/-- The checks of a pending commit and what they lead to (R59). -/
def State.checkCommit (c : SwapChoice) (s : State) : State :=
  if s.table.pending then
    match s.commitFailure with
    | some (reason, index) => s.endCommit (.failed reason index) .commitFailed
    | none => s.swap c
  else s

end Sys2Proof.Machine
end

