-- ==== Sys2Proof/Machine/TickWork.lean ====
section
/-! DEFINITION. The tick (chapter 2) and the work that falls at it: how each piece is taken, which
pieces fall at a tick, and which of them the tick itself takes (log 1). -/

namespace Sys2Proof.Machine

/-! ### Beacon timers (R139, R140) -/

/-- The pulse count of a tick. -/
def BeaconLine.countPulse (b : BeaconLine) : BeaconLine := { b with pulse := b.pulse - 1 }

/-- The flash count of a tick: at 0 the phase turns and the count returns to 4. -/
def FlashPhase.tick (p : FlashPhase) : FlashPhase :=
  if p.count ≤ 1 then ⟨!p.asserted, Config.flashTicks⟩ else ⟨p.asserted, p.count - 1⟩

/-- The flash count of a line. -/
def BeaconLine.countFlash (b : BeaconLine) : BeaconLine := { b with flash := b.flash.map FlashPhase.tick }

/-! ### Taking a piece of work -/

/-- The recognition of an input (R118). -/
def State.recognise (input : Input) (s : State) : State :=
  match input with
  | .plant line => s.recogniseLine line
  | .mark => s.recogniseMark
  | .certify => s.recogniseCertify

/-- What a piece of work does when it is taken. -/
def State.work (c : TickChoice) (d : Due) (s : State) : State :=
  match d with
  | .runCounts => s.countRuns
  | .windows => s.endWindows
  | .band => s.decideBand true c.bandEndFirst
  | .cadence => s.countCadence
  | .summary => s.summaryUnderflow
  | .verdicts => s.offerVerdicts s.episodes.waiting
  | .mark => s.offerMark
  | .commit => s.checkCommit c.swap
  | .stall slot => s.stallSlot slot
  | .holdOff key slot => s.countHoldOff key slot
  | .maximumLength key slot => s.checkLength key slot
  | .pulse line => s.modifyBeacon line BeaconLine.countPulse
  | .flash line => s.modifyBeacon line BeaconLine.countFlash
  | .recognition input => s.recognise input

/-- A piece of work is taken, once, when it is due. -/
def State.takeDue (c : TickChoice) (d : Due) (s : State) : State :=
  if s.isDue d then (s.clearDue d).work c d else s

/-- A piece of work of a tick is taken; the band decision finds the boundaries of its tick taken
(R80, log 8). -/
def State.takeTick (c : TickChoice) (d : Due) (s : State) : State :=
  match d with
  | .band => (s.takeDue c .windows).takeDue c .band
  | d => s.takeDue c d

/-- Pieces of work taken in an order. -/
def State.takeAll (c : TickChoice) (ds : List Due) (s : State) : State :=
  ds.foldl (fun s' d => s'.takeTick c d) s

/-- Everything due is taken in its order, what that makes due included; `fuel` bounds the pieces. -/
def State.flush (c : TickChoice) : Nat → State → State
  | 0, s => s
  | fuel + 1, s =>
    match s.due with
    | [] => s
    | d :: _ => State.flush c fuel (s.takeTick c d)

/-- Everything that is due is taken and nothing stays due. A piece of work makes at most a summary
underflow and a verdict offer due. -/
def State.finishDue (c : TickChoice) (s : State) : State :=
  { s.flush c (s.due.length + 4) with due := [] }

/-- The choice under which an outstanding commit is taken outside a TICK or COMMIT_CHECKS (log 19). -/
def plainSwap : SwapChoice := ⟨[], [], false⟩

/-- The tick choice that leaves every order to the model. -/
def plainTick : TickChoice := ⟨[], false, plainSwap⟩

/-- What is outstanding of the last tick and sample that reads the site time or the band of its own moment is
taken before the clock is set or started: the underflows of the tick (R156, log 25) and a press of MARK (R118,
R131, log 20). -/
def State.finishStamped (s : State) : State :=
  ((s.takeDue plainTick .cadence).takeDue plainTick .summary).takeDue plainTick (.recognition .mark)

/-! ### The work of a tick -/

/-- The hold-off counts of a tick: every HOLDOFF episode (R104). -/
def State.holdOffsDue (s : State) : List Due :=
  (s.episodes.current.filter (fun e => e.state != .opened)).map (fun e => .holdOff e.key e.slot)

/-- The maximum-length checks that find their length reached (R105). -/
def State.lengthsDue (s : State) : List Due :=
  (s.episodes.current.filter (fun e => s.atMaximum e)).map (fun e => .maximumLength e.key e.slot)

/-- The stall timers that have expired (R13). -/
def State.stallsDue (s : State) : List Due :=
  (s.slots.zipIdx.filter (fun p => p.1.link.expired s.clock.tickCount)).map (fun p => .stall p.2)

/-- The counts of the beacon lines (R139, R140). -/
def beaconsDue : List Due :=
  (List.range Config.beaconLines).flatMap (fun b => [.pulse b, .flash b])

/-- A piece of work that falls at the tick under a condition. -/
def dueWhen (b : Bool) (d : Due) : List Due := if b then [d] else []

/-- The eighth-of-day is a multiple of n while the clock is RUNNING. -/
def Clock.atMultiple (n : Nat) (c : Clock) : Bool := c.running && c.eighth % n == 0

/-- The pieces of work that fall at the present tick. -/
def State.dueAtTick (s : State) : List Due :=
  [.runCounts] ++ s.holdOffsDue ++ s.lengthsDue ++ beaconsDue ++ dueWhen s.cadence.running .cadence ++
    dueWhen s.table.pending .commit ++ s.stallsDue ++
    dueWhen (s.clock.atMultiple 8) .windows ++ dueWhen (s.clock.atMultiple 480) .band ++
    dueWhen (!s.episodes.waiting.isEmpty) .verdicts ++ dueWhen s.plant.markLatch.isSome .mark

/-- The tick count and the site time advance (R21, R22, R24). -/
def Clock.count (c : Clock) : Clock :=
  let c := { c with tickCount := c.tickCount + 1, intervalTrim := c.trim }
  if c.running then
    if c.eighth + 1 < Config.eighthsPerDay then { c with eighth := c.eighth + 1 }
    else if c.day < Config.max16 then { c with eighth := 0, day := c.day + 1 }
    else { c with eighth := 0, day := 0, weekdayOffset := (c.weekdayOffset + 2) % 7 }
  else c

/-- The site clock at a tick, with the stamp of that tick (R21, R22, R24). -/
def Clock.tick (c : Clock) : Clock := { c.count with tickStamp := c.count.stamp }

/-- The tick advances the clock and its pieces of work fall due. -/
def State.advance (s : State) : State :=
  let s := { s with clock := s.clock.tick }
  { s with due := s.dueAtTick }

/-- A hold-off count that does not expire. -/
def EpisodeState.staysHeld : EpisodeState → Bool
  | .holdOff n => 1 < n
  | .opened => true

/-- A flash count that does not turn the phase. -/
def BeaconLine.keepsPhase (b : BeaconLine) : Bool :=
  match b.flash with
  | some p => 1 < p.count
  | none => true

/-- The piece of work is a count that comes to no event of the table: TICK takes it (log 1). -/
def State.isCount (d : Due) (s : State) : Bool :=
  match d with
  | .runCounts => true
  | .cadence => !s.cadence.underflows
  | .holdOff key slot => (s.episodes.find key slot).all (fun e => e.state.staysHeld)
  | .pulse line => (s.beacons[line]?).all (fun b => b.pulse != 1)
  | .flash line => (s.beacons[line]?).all BeaconLine.keepsPhase
  | _ => false

/-- The counts among some pieces of work are taken. -/
def State.takeCounts (ds : List Due) (s : State) : State :=
  ds.foldl (fun s' d => if s'.isCount d then s'.takeDue plainTick d else s') s

/-- A tick: what is still due from before it, the advance, the pieces of the choice in its order, the
counts, the boundaries and the band decision. The rest stays due for the rows of the table that take
it (log 1). -/
def State.tick (c : TickChoice) (s : State) : State :=
  let s := ((s.finishDue c).advance).takeAll c c.order
  ((s.takeCounts s.due).takeTick c .windows).takeTick c .band

end Sys2Proof.Machine
end

