-- ==== Sys2Proof/Machine/Decoder.lean ====
section
/-! DEFINITION. The command decoder (section 9.6): the checks it makes itself, the reply items it writes,
the end of execution, and the installation of standing queries (R161). -/

namespace Sys2Proof.Machine

/-! ### The frame in execution -/

/-- The frame in execution among some transactions. -/
def executingOf : List Transaction → Option Executing
  | [] => none
  | .executing e :: _ => some e
  | _ :: rest => executingOf rest

/-- The frame in execution (R174). -/
def State.executing (s : State) : Option Executing := executingOf s.ports.holding

/-- The frame in execution changed. -/
def mapExecuting (f : Executing → Transaction) (ts : List Transaction) : List Transaction :=
  ts.map (fun t =>
    match t with
    | .executing e => f e
    | t => t)

/-- New contents of reply holding. -/
def State.setHolding (ts : List Transaction) (s : State) : State :=
  { s with ports := { s.ports with holding := ts } }

/-- An item has been taken: what follows it remains, and its reply items are written. -/
def State.writeItems (rest : List Byte) (taken : Nat) (items : List ReplyItem) (s : State) : State :=
  s.setHolding (mapExecuting
    (fun e => .executing { e with rest := rest, taken := taken, items := e.items ++ items })
    s.ports.holding)

/-! ### Commands (R177, R178) -/

/-- A command's body on parsed operands: what it leaves and what it answers. -/
abbrev Body (α : Type) := α → Modifiers → State → State × Answer

/-- A refused command changes nothing (R178). -/
def refuse (r : Result) (s : State) : State × Answer := (s, .refuse r)

/-- The item of a command: its form, its prefixes, then its body (R178, steps 1 and 2). -/
def State.runItem {α : Type} (c : CommandCode) (form : List Byte → Option α) (body : Body α)
    (operands : List Byte) (ps : List PrefixItem) (tag : Byte) (s : State) : State × Answer :=
  match form operands with
  | none => refuse .malformed s
  | some ops => if prefixesTaken ps c then body ops (modifiersOf tag ps) s else refuse .malformed s

/-- A commit whose checks fell at a tick before the item is taken before it (R177, log 19). -/
def State.settleCommit (s : State) : State := s.takeDue plainTick .commit

/-- The decoder reaches a command: when the next item of the frame in execution is one of this command,
it is executed and its reply item written; else nothing happens (log 2, log 3). -/
def State.takeItem {α : Type} (c : CommandCode) (form : List Byte → Option α) (body : Body α)
    (s : State) : State :=
  match s.executing with
  | none => s
  | some e =>
    match e.reach with
    | .item lead ps code operands rest taken =>
      if code = c.byte then
        let done := s.settleCommit.runItem c form body operands ps e.tag
        done.1.writeItems rest taken (lead ++ [⟨code, done.2.result, done.2.data⟩])
      else s
    | .stop _ => s

/-- The decoder reaches an item whose code names no command and no prefix (R175). -/
def State.takeUnknown (s : State) : State :=
  match s.executing.map Executing.reach with
  | some (.item lead _ code _ rest taken) =>
    if isCommandCode code then s
    else s.settleCommit.writeItems rest taken (lead ++ [bareItem code .unknown])
  | _ => s

/-- A QUEUED frame begins its execution (R174). -/
def beginQueued : List Transaction → List Transaction
  | [] => []
  | .queued tag items :: rest => .executing ⟨tag, items, 0, []⟩ :: rest
  | t :: rest => t :: beginQueued rest

/-- The execution ends: the place becomes READY with the pending set of the moment, a QUEUED frame
begins, and an idle transmitter is granted (R177, R171). -/
def State.endFrame (trail : List ReplyItem) (s : State) : State :=
  (s.setHolding (beginQueued (mapExecuting
    (fun e => .ready ⟨e.tag, e.items ++ trail, s.notices.pending⟩) s.ports.holding))).arbitrate

/-- The decoder reaches the end of the frame in execution (R177). -/
def State.takeEnd (s : State) : State :=
  match s.executing.map Executing.reach with
  | some (.stop trail) => s.settleCommit.endFrame trail
  | _ => s

/-! ### The common checks (R178, steps 4 and 6) -/

/-- A busy-checked command while the commit state is PENDING. -/
def State.busy (s : State) : Bool := s.table.pending

/-- A command on a protected item without CERTIFY. -/
def State.deniedFor (touchesProtected : Bool) (s : State) : Bool :=
  touchesProtected && !s.certifyAsserted

/-- A command protected while any active CERTIFIED entry exists (R37, R116). -/
def State.analysisDenied (s : State) : Bool := s.deniedFor s.anyCertified

/-! ### Standing queries (R161) -/

/-- The query list with a query's installing tag renewed. -/
def renewQuery (q : QueryCommand) (tag : Byte) (queries : List Query) : List Query :=
  queries.map (fun x => if x.command = q then { x with tag := tag } else x)

/-- The query list of the cadence unit set. -/
def State.setQueries (queries : List Query) (s : State) : State :=
  { s with cadence := { s.cadence with queries := queries } }

/-- A read that would succeed installed as a standing query (R161). -/
def State.install (q : QueryCommand) (tag : Byte) (a : Answer) (s : State) : State × Answer :=
  if s.cadence.queries.any (fun x => x.command == q) then
    (s.setQueries (renewQuery q tag s.cadence.queries), a)
  else if s.cadence.queries.length < Config.queryCount then
    (s.setQueries (s.cadence.queries ++ [⟨q, tag⟩]), a)
  else refuse .full s

/-- A read of one of the four kinds, installed when KEEP stands before it and the read succeeds. -/
def State.readKept (q : QueryCommand) (m : Modifiers) (s : State) : State × Answer :=
  let a := s.readQuery q
  match m.keep with
  | none => (s, a)
  | some tag => if a.result = .ok then s.install q tag a else (s, a)

end Sys2Proof.Machine
end

