-- ==== Sys2Proof/Machine/SlotCommands.lean ====
section
/-! DEFINITION. The commands of the channel slots and of the plant lines (R16 to R18, R121, R129, R134). -/

namespace Sys2Proof.Machine

/-! ### BIND SLOT, UNBIND SLOT and READ SLOT (R16 to R18) -/

/-- The id is bound to a slot other than the one named. -/
def boundElsewhere (slot id : Nat) (slots : List SlotRecord) : Bool :=
  slots.zipIdx.any (fun p => p.2 != slot && p.1.link.boundId == some id)

/-- What BIND SLOT and UNBIND SLOT do to a slot (R16, R17): its episodes close with UNBOUND, its
accumulators and result cells restart, and its record is cleared with the given link. -/
def State.rebind (slot : Nat) (link : SlotLink) (s : State) : State :=
  ((s.demandClose (fun e => e.slot == slot) .unbound).restartSlot slot).modifySlot slot
    (fun _ => .cleared link)

/-- BIND SLOT (R16). -/
def bindSlotBody : Body (Nat × Nat) := fun ops _ s =>
  if Config.slotCount ≤ ops.1 ∨ 63 < ops.2 ∨ boundElsewhere ops.1 ops.2 s.slots then refuse .range s
  else if s.deniedFor (s.slotProtected ops.1) then refuse .denied s
  else (s.rebind ops.1 (.waiting ops.2), .done)

/-- BIND_SLOT (R16). -/
def execBindSlot (s : State) : Host.Outcome State Fault Refusal :=
  .next (s.takeItem .bindSlot byteByteForm bindSlotBody)

/-- The slot is UNBOUND. -/
def isUnbound (slot : Nat) (slots : List SlotRecord) : Bool :=
  (slots[slot]?).all (fun r => r.link == .unbound)

/-- UNBIND SLOT (R17). -/
def unbindSlotBody : Body Nat := fun slot _ s =>
  if Config.slotCount ≤ slot then refuse .range s
  else if s.deniedFor (s.slotProtected slot) then refuse .denied s
  else if isUnbound slot s.slots then (s, .done)
  else (s.rebind slot .unbound, .done)

/-- UNBIND_SLOT (R17). -/
def execUnbindSlot (s : State) : Host.Outcome State Fault Refusal :=
  .next (s.takeItem .unbindSlot oneByte unbindSlotBody)

/-- READ SLOT (R18). -/
def readSlotBody : Body Unit := fun _ m s => s.readKept (.readSlot m.slot) m

/-- READ_SLOT (R18). -/
def execReadSlot (s : State) : Host.Outcome State Fault Refusal :=
  .next (s.takeItem .readSlot noOperands readSlotBody)

/-! ### LOAD PLANT, READ PLANT and FETCH COINCIDENCE (R121, R129, R134) -/

/-- Plant records written, each acting on the live state of its line (R121). -/
def State.loadPlant (records : List (Nat × PlantRecord)) (s : State) : State :=
  records.foldl (fun s' p => s'.changeLine p.1 (fun l => { l with record := p.2 })) s

/-- LOAD PLANT (R121). -/
def loadPlantBody : Body (List (List Byte)) := fun images _ s =>
  match allOf (images.map plantOfImage) with
  | some records =>
    if 1 ≤ records.length ∧ records.length ≤ Config.plantLines ∧
        distinct (records.map (·.1)) then (s.loadPlant records, .done)
    else refuse .range s
  | none => refuse .range s

/-- LOAD_PLANT (R121). -/
def execLoadPlant (s : State) : Host.Outcome State Fault Refusal :=
  .next (s.takeItem .loadPlant loadPlantForm loadPlantBody)

/-- READ PLANT (R134). -/
def readPlantBody : Body Unit := fun _ _ s => (s, s.readPlant)

/-- READ_PLANT (R134). -/
def execReadPlant (s : State) : Host.Outcome State Fault Refusal :=
  .next (s.takeItem .readPlant noOperands readPlantBody)

/-- The coincidence mask, latch and setting stamp cleared (R129, R130). -/
def State.clearCoincidence (s : State) : State :=
  { s with plant := { s.plant with coincidence := .empty } }

/-- FETCH COINCIDENCE (R129). -/
def fetchCoincidenceBody : Body Unit := fun _ _ s => (s.clearCoincidence, .ok s.coincidenceData)

/-- FETCH_COINCIDENCE (R129). -/
def execFetchCoincidence (s : State) : Host.Outcome State Fault Refusal :=
  .next (s.takeItem .fetchCoincidence noOperands fetchCoincidenceBody)

end Sys2Proof.Machine
end

