-- ==== Sys2Proof/Machine/AnalysisCommands.lean ====
section
/-! DEFINITION. The commands of the window engine and the episode table (R88, R89, R115, R116). -/

namespace Sys2Proof.Machine

/-- READ WINDOW (R88). -/
def readWindowBody : Body Nat := fun key m s => s.readKept (.readWindow key m.slot) m

/-- READ_WINDOW (R88). -/
def execReadWindow (s : State) : Host.Outcome State Fault Refusal :=
  .next (s.takeItem .readWindow twoBytes readWindowBody)

/-- READ HISTOGRAM (R89). -/
def readHistogramBody : Body (Nat × Nat × Nat × Nat) := fun ops m s =>
  (s, s.readHistogram ops.1 ops.2.1 ops.2.2.1 ops.2.2.2 m.slot)

/-- READ_HISTOGRAM (R89). -/
def execReadHistogram (s : State) : Host.Outcome State Fault Refusal :=
  .next (s.takeItem .readHistogram readHistogramForm readHistogramBody)

/-- READ EPISODES (R115). -/
def readEpisodesBody : Body Unit := fun _ m s => s.readKept .readEpisodes m

/-- READ_EPISODES (R115). -/
def execReadEpisodes (s : State) : Host.Outcome State Fault Refusal :=
  .next (s.takeItem .readEpisodes noOperands readEpisodesBody)

/-- The three steps of an accepted RESTART ANALYSIS (R116). -/
def State.restartAnalysis (s : State) : State :=
  ((s.demandClose (fun _ => true) .restart).restartAll).clearCoincidence

/-- RESTART ANALYSIS (R116). -/
def restartAnalysisBody : Body Unit := fun _ _ s =>
  if s.busy then refuse .busy s
  else if s.analysisDenied then refuse .denied s
  else (s.restartAnalysis, .done)

/-- RESTART_ANALYSIS (R116). -/
def execRestartAnalysis (s : State) : Host.Outcome State Fault Refusal :=
  .next (s.takeItem .restartAnalysis noOperands restartAnalysisBody)

end Sys2Proof.Machine
end

