-- ==== Sys2Proof/Machine/BeaconCommands.lean ====
section
/-! DEFINITION. The commands of the beacon driver and the notice unit (R142, R143, R145, R148). -/

namespace Sys2Proof.Machine

/-- The mode of a code. -/
def beaconModeOf : Nat → Option BeaconMode
  | 0 => some .steady
  | 1 => some .pulse
  | 2 => some .flash
  | _ => none

/-- The override of a code. -/
def overrideOf : Nat → Option Override
  | 0 => some .auto
  | 1 => some .forceOn
  | 2 => some .forceOff
  | _ => none

/-- A line with a mode and width set; a change of mode clears its timers and takes the automatic level
afresh (R143). -/
def BeaconLine.set (demanded : Bool) (mode : BeaconMode) (width : Nat) (b : BeaconLine) : BeaconLine :=
  if b.mode = mode then { b with width := width }
  else BeaconLine.follow demanded { b with mode := mode, width := width, pulse := 0, flash := none }

/-- The reply data of SET BEACON and BEACON OVERRIDE (R143). -/
def State.beaconsData (s : State) : ReplyData := .beacons s.now s.beaconReports

/-- SET BEACON (R143). -/
def setBeaconBody : Body (Nat × Nat × Nat) := fun ops _ s =>
  match beaconModeOf ops.2.1 with
  | some mode =>
    if Config.beaconLines ≤ ops.1 ∨ ops.2.2 < 1 ∨ 60 < ops.2.2 then refuse .range s
    else
      let s := s.modifyBeacon ops.1
        (BeaconLine.set (!(s.demand ops.1).isEmpty) mode ops.2.2)
      (s, .ok s.beaconsData)
  | none => refuse .range s

/-- SET_BEACON (R143). -/
def execSetBeacon (s : State) : Host.Outcome State Fault Refusal :=
  .next (s.takeItem .setBeacon setBeaconForm setBeaconBody)

/-- BEACON OVERRIDE (R142). -/
def beaconOverrideBody : Body (Nat × Nat) := fun ops _ s =>
  match overrideOf ops.2 with
  | some value =>
    if Config.beaconLines ≤ ops.1 then refuse .range s
    else
      let s := s.modifyBeacon ops.1 (fun b => { b with override := value })
      (s, .ok s.beaconsData)
  | none => refuse .range s

/-- BEACON_OVERRIDE (R142). -/
def execBeaconOverride (s : State) : Host.Outcome State Fault Refusal :=
  .next (s.takeItem .beaconOverride byteByteForm beaconOverrideBody)

/-- The notice mask set; a pending notice it enables sets the latch (R145, R146). -/
def State.setMask (mask : NoticeSet) (s : State) : State :=
  State.settleLatch { s with notices := { s.notices with mask := mask } }

/-- The mask after SET or CLEAR of a set of notices (R145). -/
def maskAfter (selector : Nat) (named mask : NoticeSet) : Option NoticeSet :=
  match selector with
  | 0 => some (mask &&& ~~~named)
  | 1 => some (mask ||| named)
  | _ => none

/-- SET NOTICE MASK (R145). -/
def setNoticeMaskBody : Body (Nat × Nat) := fun ops _ s =>
  match maskAfter ops.1 (BitVec.ofNat 14 ops.2) s.notices.mask with
  | some mask =>
    if 2 ^ 14 ≤ ops.2 then refuse .range s else (s.setMask mask, .ok (.noticeMask mask))
  | none => refuse .range s

/-- SET_NOTICE_MASK (R145). -/
def execSetNoticeMask (s : State) : Host.Outcome State Fault Refusal :=
  .next (s.takeItem .setNoticeMask setNoticeMaskForm setNoticeMaskBody)

/-- The pending set emptied and the attention latch cleared (R148). -/
def State.clearNotices (s : State) : State :=
  { s with notices := { s.notices with pending := 0, latch := false } }

/-- FETCH NOTICES (R148). -/
def fetchNoticesBody : Body Unit := fun _ _ s => (s.clearNotices, .ok s.noticesData)

/-- FETCH_NOTICES (R148). -/
def execFetchNotices (s : State) : Host.Outcome State Fault Refusal :=
  .next (s.takeItem .fetchNotices noOperands fetchNoticesBody)

end Sys2Proof.Machine
end

