-- ==== Sys2Proof/Machine/CadenceCommands.lean ====
section
/-! DEFINITION. The commands of the cadence unit and READ STATUS (R157, R163, R181). -/

namespace Sys2Proof.Machine

/-- The cadence mode of a code. -/
def cadenceModeOf : Nat → Option CadenceMode
  | 0 => some .continuous
  | 1 => some .oneShot
  | _ => none

/-- A yes-or-no operand of a code. -/
def flagOf : Nat → Option Bool
  | 0 => some false
  | 1 => some true
  | _ => none

/-- The cadence unit after an accepted SET CADENCE (R157). -/
def Cadence.set (base summary : Nat) (mode : CadenceMode) (start force : Bool) (c : Cadence) : Cadence :=
  let load := force || !c.running
  { c with
    baseLatch := base
    summaryLatch := summary
    mode := mode
    base := if load then base else c.base
    summary := if load then summary else c.summary
    second := if force || (start && !c.running) then 8 else c.second
    running := start }

/-- An accepted SET CADENCE. -/
def State.setCadence (base summary : Nat) (mode : CadenceMode) (start force : Bool) (s : State) : State :=
  { s with cadence := s.cadence.set base summary mode start force }

/-- The reply data of SET CADENCE (R157). -/
def State.cadenceData (s : State) : ReplyData := .cadence s.now s.cadence

/-- SET CADENCE (R157): a summary underflow of a base underflow already taken comes first (log 25). -/
def setCadenceBody : Body CadenceOperands := fun ops _ s =>
  match cadenceModeOf ops.mode, flagOf ops.run, flagOf ops.force with
  | some mode, some start, some force =>
    if ops.base < 1 ∨ 3600 < ops.base ∨ ops.summary < 1 ∨ 255 < ops.summary then refuse .range s
    else
      let s := (s.takeDue plainTick .summary).setCadence ops.base ops.summary mode start force
      (s, .ok s.cadenceData)
  | _, _, _ => refuse .range s

/-- SET_CADENCE (R157). -/
def execSetCadence (s : State) : Host.Outcome State Fault Refusal :=
  .next (s.takeItem .setCadence setCadenceForm setCadenceBody)

/-- CANCEL QUERY (R163); FFh is ALL. -/
def cancelQueryBody : Body Nat := fun position _ s =>
  if position = 0xFF then (s.setQueries [], .ok (.queries []))
  else if Config.queryCount ≤ position then refuse .range s
  else if s.cadence.queries.length ≤ position then refuse .notFound s
  else
    let queries := s.cadence.queries.eraseIdx position
    (s.setQueries queries, .ok (.queries queries))

/-- CANCEL_QUERY (R163). -/
def execCancelQuery (s : State) : Host.Outcome State Fault Refusal :=
  .next (s.takeItem .cancelQuery oneByte cancelQueryBody)

/-- READ STATUS (R181). -/
def readStatusBody : Body Unit := fun _ _ s => (s, s.readStatus)

/-- READ_STATUS (R181). -/
def execReadStatus (s : State) : Host.Outcome State Fault Refusal :=
  .next (s.takeItem .readStatus noOperands readStatusBody)

end Sys2Proof.Machine
end

