-- ==== Sys2Proof/Machine/Resets.lean ====
section
/-! DEFINITION. Power-on reset, RESET driven low and line reset: what each block keeps and what it
empties (R19, R20, R65, R90, R117, R135, R136, R149, R154, R158, R164, R173). -/

namespace Sys2Proof.Machine

/-- RESET is driven low: the pins keep their levels from here (R136, R149). -/
def State.holdPins (s : State) : State :=
  match s.held with
  | some _ => s
  | none => { s with held := some ⟨s.outputs, s.notices.latch⟩ }

/-- Recognitions of a sample that has been taken stay events of that moment (log 20). -/
def State.takeRecognitions (s : State) : State :=
  (s.due.filter (fun d => match d with | .recognition _ => true | _ => false)).foldl
    (fun s' d => s'.takeDue plainTick d) s

/-- Slot records after a line reset (R20). -/
def SlotRecord.lineReset (r : SlotRecord) : SlotRecord :=
  .cleared (match r.link.boundId with
    | some id => .waiting id
    | none => .unbound)

/-- A table with the entries of frozen indices alone (R65). -/
def EntryTable.frozenOnly (frozen : BitVec 64) (t : EntryTable) : EntryTable :=
  t.zipIdx.map (fun p => if frozen.getLsbD p.2 then p.1 else none)

/-- The limit table after a line reset (R65). -/
def LimitTable.lineReset (t : LimitTable) : LimitTable :=
  let active := t.active.frozenOnly t.frozen
  ⟨active, active, t.frozen, false, none⟩

/-- The units after a line reset: those of frozen entries, to be restarted (R90). -/
def WindowEngine.lineReset (frozen : BitVec 64) (w : WindowEngine) : WindowEngine :=
  ⟨w.units.zipIdx.map (fun p =>
      if frozen.getLsbD p.2 then p.1 else p.1.map (fun _ => none)),
    WindowEngine.noCells⟩

/-- The episode table after a line reset (R117). -/
def EpisodeTable.lineReset (t : EpisodeTable) : EpisodeTable :=
  { EpisodeTable.powerOn with next := t.next }

/-- The plant monitor after a line reset at a moment (R135). -/
def PlantMonitor.lineReset (at_ : Moment) (p : PlantMonitor) : PlantMonitor :=
  { p with
    lines := p.lines.map (fun l => { l with summaryRun := 0, bandRun := 0 })
    bandStart := at_
    coincidence := .empty
    markLatch := none }

/-- The gateway run being sent ends after the frame in progress (R173), a report record's run too: what R154
says of a record that departed before the line reset is read with R173 (log 33). -/
def cutRun (position : Nat) (run : List Frame) : List Frame := run.take (position + 1)

/-- The ports after a line reset: `position` is that of the frame then being sent (log 14). -/
def Ports.lineReset (straps : BitVec 2) (position : Nat) (p : Ports) : Ports :=
  { Ports.powerOn straps with
    gatewayTx := p.gatewayTx.map (cutRun position)
    fieldTx := p.fieldTx }

/-- The current band decided without an event (R35, line reset). -/
def State.decideQuietly (s : State) : State := { s with clock := { s.clock with band := s.bandNow } }

/-- RESET returns high: the line reset (R20 and the rule of each block). Whatever is still due of a tick
already taken is discarded, the checks of a pending commit included (the model's choice, log 30). The units of
frozen entries are restarted under the band so decided (R69). -/
def State.lineReset (straps : BitVec 2) (position : Nat) (s : State) : State :=
  let s := s.takeRecognitions
  let s : State :=
    { s with
      due := []
      schedule := s.schedule.reverted
      slots := s.slots.map SlotRecord.lineReset
      table := s.table.lineReset
      windows := s.windows.lineReset s.table.frozen
      episodes := s.episodes.lineReset
      plant := s.plant.lineReset s.now
      beacons := List.replicate Config.beaconLines .afterReset
      notices := .afterReset
      report := ⟨[], 0⟩
      cadence := .afterReset
      ports := s.ports.lineReset straps position
      held := none }
  let s := s.decideQuietly
  s.restartAccs (s.pairsWhere (fun _ _ => true))

/-! ### The commands -/

/-- POWER_ON_RESET (R19, R23, R65, R90, R117, R135, R136, R149, R154, R158, R164, R173). The queue of
commands is the model's own and is kept. -/
def execPowerOnReset (straps : BitVec 2) (s : State) : Host.Outcome State Fault Refusal :=
  .next { State.powerOn straps with pending := s.pending }

/-- RESET_ASSERTED (R136, R149). -/
def execResetAsserted (s : State) : Host.Outcome State Fault Refusal := .next s.holdPins

/-- LINE_RESET: RESET returns high after being held low (R20); without that nothing happens (log 17). -/
def execLineReset (straps : BitVec 2) (position : Nat) (s : State) :
    Host.Outcome State Fault Refusal :=
  .next (if s.held.isSome then s.lineReset straps position else s)

end Sys2Proof.Machine
end

