-- ==== Sys2Proof/Machine/Inputs.lean ====
section
/-! DEFINITION. The samplers' commands (R118, R122, R131, R133). -/

namespace Sys2Proof.Machine

/-- SAMPLE (R118): recognitions of the sample before it that are still outstanding are taken first
(log 20). -/
def execSample (pins : Pins) (s : State) : Host.Outcome State Fault Refusal :=
  .next (s.takeRecognitions.samplePins pins)

/-- PLANT_LINE_RECOGNITION (R122). -/
def execPlantLineRecognition (line : Nat) (s : State) : Host.Outcome State Fault Refusal :=
  .next (s.takeDue plainTick (.recognition (.plant line)))

/-- MARK_PRESS (R131). -/
def execMarkPress (s : State) : Host.Outcome State Fault Refusal :=
  .next (s.takeDue plainTick (.recognition .mark))

/-- CERTIFY_CHANGE (R133). -/
def execCertifyChange (s : State) : Host.Outcome State Fault Refusal :=
  .next (s.takeDue plainTick (.recognition .certify))

end Sys2Proof.Machine
end

