-- ==== Sys2Proof/Machine/Links.lean ====
section
/-! DEFINITION. The link ports (sections 9.2 to 9.4): frames received at either port, and the two
transmitters falling idle. -/

namespace Sys2Proof.Machine

/-! ### The field port (R165, R167) -/

/-- The frame is offered to the forward FIFO (R167). -/
def State.offerForward (frame : Frame) (s : State) : State :=
  if s.ports.forward.length < Config.forwardDepth then
    State.arbitrate { s with ports := { s.ports with forward := s.ports.forward ++ [frame] } }
  else
    State.raise .forwardOverrun
      { s with ports := { s.ports with
          forwardOverruns := bumpTo Config.max16 s.ports.forwardOverruns } }

/-- A validated frame at the field port: forwarded, and a SLICE handed to slice intake (R167). -/
def State.takeFieldFrame (kind : FrameKind) (frame : Frame) (s : State) : State :=
  let s := s.offerForward frame
  if kind = .slice then s.intake (sliceOf (payloadOf frame)) else s

/-- A failure at the field port is counted (R165, R172). -/
def State.countFieldError (s : State) : State :=
  { s with ports := { s.ports with fieldErrors := bumpTo Config.max16 s.ports.fieldErrors } }

/-- The bytes received at the field port up to an idle interval (R165, R184). -/
def State.receiveField (bytes : List Byte) (s : State) : State :=
  match delimit bytes with
  | [] => s
  | b :: frame =>
    match validate fieldTakes (b :: frame) with
    | some kind => s.takeFieldFrame kind (b :: frame)
    | none => s.countFieldError

/-! ### The gateway port (R165, R169) -/

/-- The frame is offered to the onward FIFO (R168, R169). -/
def State.offerOnward (frame : Frame) (s : State) : State :=
  if s.ports.onward.length < Config.onwardDepth then
    State.sendOnward { s with ports := { s.ports with onward := s.ports.onward ++ [frame] } }
  else
    State.raise .forwardOverrun
      { s with ports := { s.ports with
          forwardOverruns := bumpTo Config.max16 s.ports.forwardOverruns } }

/-- The place a control frame takes in reply holding: EXECUTING while no other executes, else QUEUED
(R174). -/
def newTransaction (tag : Byte) (items : List Byte) (ts : List Transaction) : Transaction :=
  match executingOf ts with
  | none => .executing ⟨tag, items, 0, []⟩
  | some _ => .queued tag items

/-- The frame is offered to reply holding (R169, R174): its tag is payload byte 1, and its items follow;
a payload of one byte has tag 0 and no items (R186). -/
def State.offerExecution (payload : List Byte) (s : State) : State :=
  if s.ports.holding.length < Config.replyPlaces then
    s.setHolding (s.ports.holding ++
      [newTransaction (payload.getD 1 0) (payload.drop 2) s.ports.holding])
  else
    State.raise .controlOverrun
      { s with ports := { s.ports with
          controlOverruns := bumpTo Config.max16 s.ports.controlOverruns } }

/-- The target of a CONTROL payload; an empty payload has none (R186). -/
def targetOf (payload : List Byte) : Option Nat := payload.head?.map (·.toNat)

/-- The broadcast target (section 9.3). -/
def broadcast : Nat := 7

/-- The frame is executed here (R169). -/
def State.executesHere (payload : List Byte) (s : State) : Bool :=
  targetOf payload == some s.ports.strap.toNat || targetOf payload == some broadcast

/-- The frame is passed onward (R169). -/
def State.passesOnward (payload : List Byte) (s : State) : Bool :=
  targetOf payload != some s.ports.strap.toNat

/-- A validated CONTROL frame by its target, the onward path first (log 16). -/
def State.takeControlFrame (frame : Frame) (s : State) : State :=
  let payload := payloadOf frame
  let here := s.executesHere payload
  let s := if s.passesOnward payload then s.offerOnward frame else s
  if here then s.offerExecution payload else s

/-- A failure at the gateway port is counted (R165, R172). -/
def State.countGatewayError (s : State) : State :=
  { s with ports := { s.ports with gatewayErrors := bumpTo Config.max16 s.ports.gatewayErrors } }

/-- The bytes received at the gateway port up to an idle interval (R165, R184). -/
def State.receiveGateway (bytes : List Byte) (s : State) : State :=
  match delimit bytes with
  | [] => s
  | b :: frame =>
    match validate gatewayTakes (b :: frame) with
    | some _ => s.takeControlFrame (b :: frame)
    | none => s.countGatewayError

/-! ### The transmitters (R168, R170, R171) -/

/-- The gateway-port transmitter falls idle and the arbiter grants; with `offerNow` the offer of waiting
verdicts that a departure makes due belongs to the step (R113, log 15). -/
def State.gatewayDone (offerNow : Bool) (s : State) : State :=
  match s.ports.gatewayTx with
  | none => s
  | some _ =>
    let s := State.arbitrate { s with ports := { s.ports with gatewayTx := none } }
    if offerNow then s.takeDue plainTick .verdicts else s

/-- The field-port transmitter falls idle and the head of the onward FIFO departs. -/
def State.fieldDone (s : State) : State :=
  match s.ports.fieldTx with
  | none => s
  | some _ => State.sendOnward { s with ports := { s.ports with fieldTx := none } }

/-! ### The commands -/

/-- FIELD_PORT_FRAME (R165, R167). -/
def execFieldPortFrame (bytes : List Byte) (s : State) : Host.Outcome State Fault Refusal :=
  .next (s.receiveField bytes)

/-- CONTROL_FRAME (R165, R169). -/
def execControlFrame (bytes : List Byte) (s : State) : Host.Outcome State Fault Refusal :=
  .next (s.receiveGateway bytes)

/-- GATEWAY_TX_DONE (R170, R171). -/
def execGatewayTxDone (offerNow : Bool) (s : State) : Host.Outcome State Fault Refusal :=
  .next (s.gatewayDone offerNow)

/-- FIELD_TX_DONE (R168). -/
def execFieldTxDone (s : State) : Host.Outcome State Fault Refusal := .next s.fieldDone

/-- UNKNOWN_ITEM (R175). -/
def execUnknownItem (s : State) : Host.Outcome State Fault Refusal := .next s.takeUnknown

/-- CONTROL_FRAME_END (R177). -/
def execControlFrameEnd (s : State) : Host.Outcome State Fault Refusal := .next s.takeEnd

end Sys2Proof.Machine
end

