-- ==== Sys2Proof/Machine/ScheduleCommands.lean ====
section
/-! DEFINITION. The commands of site time and the schedule (R22, R26 to R28, R31, R33, R38). -/

namespace Sys2Proof.Machine

/-! ### LOAD BANDS and LOAD EXCEPTIONS (R31, R33) -/

/-- Band records written into the staged band table. -/
def State.stageBands (records : List (Nat × Option BandRecord)) (s : State) : State :=
  { s with schedule := { s.schedule with
      stagedBands := records.foldl (fun t p => t.set p.1 p.2) s.schedule.stagedBands } }

/-- LOAD BANDS (R33). -/
def loadBandsBody : Body (List (List Byte)) := fun images _ s =>
  match allOf (images.map bandOfImage) with
  | some records =>
    if 1 ≤ records.length ∧ records.length ≤ Config.userBands ∧ distinct (records.map (·.1)) then
      if s.busy then refuse .busy s
      else if s.deniedFor (records.any (fun p => s.bandProtected p.1)) then refuse .denied s
      else (s.stageBands records, .done)
    else refuse .range s
  | none => refuse .range s

/-- LOAD_BANDS (R33). -/
def execLoadBands (s : State) : Host.Outcome State Fault Refusal :=
  .next (s.takeItem .loadBands loadBandsForm loadBandsBody)

/-- The day numbers ascend, none twice. -/
def ascending : List Nat → Bool
  | a :: b :: rest => a < b && ascending (b :: rest)
  | _ => true

/-- The staged exception list replaced. -/
def State.stageExceptions (records : List ExceptionRecord) (s : State) : State :=
  { s with schedule := { s.schedule with stagedExceptions := records } }

/-- LOAD EXCEPTIONS (R31). -/
def loadExceptionsBody : Body (List (List Byte)) := fun images _ s =>
  match allOf (images.map exceptionOfImage) with
  | some records =>
    if records.length ≤ Config.exceptionCount ∧ ascending (records.map (·.day)) then
      if s.busy then refuse .busy s
      else if s.analysisDenied then refuse .denied s
      else (s.stageExceptions records, .done)
    else refuse .range s
  | none => refuse .range s

/-- LOAD_EXCEPTIONS (R31). -/
def execLoadExceptions (s : State) : Host.Outcome State Fault Refusal :=
  .next (s.takeItem .loadExceptions loadExceptionsForm loadExceptionsBody)

/-- READ BANDS (R38). -/
def readBandsBody : Body Unit := fun _ m s => (s, s.readBands m.staged)

/-- READ_BANDS (R38). -/
def execReadBands (s : State) : Host.Outcome State Fault Refusal :=
  .next (s.takeItem .readBands noOperands readBandsBody)

/-! ### SET TIME, START TIME, READ TIME and TRIM (R22, R26 to R28) -/

/-- The weekday offset that makes a day the given weekday (R26, step 1). -/
def offsetFor (day weekday : Nat) : Nat := (weekday + 7 - day % 7) % 7

/-- The clock loaded and STOPPED (R26, step 1). -/
def Clock.load (day eighth weekday : Nat) (c : Clock) : Clock :=
  { c with state := .stopped, day := day, eighth := eighth, weekdayOffset := offsetFor day weekday }

/-- The five steps of an accepted SET TIME (R26). -/
def State.loadTime (day eighth weekday : Nat) (s : State) : State :=
  let s : State := { s with clock := s.clock.load day eighth weekday }
  let s := (s.demandClose (fun _ => true) .timeSet).discardWindows
  (s.decideBand false false).raise .clockStopped

/-- SET TIME (R26). The underflows of a tick and a press of a sample already taken keep their stamps (log 25, log
20); a stall of that tick taken later finds no episode left (log 35). -/
def setTimeBody : Body (Nat × Nat × Nat) := fun ops _ s =>
  if Config.eighthsPerDay ≤ ops.2.1 ∨ 6 < ops.2.2 then refuse .range s
  else if s.analysisDenied then refuse .denied s
  else (s.finishStamped.loadTime ops.1 ops.2.1 ops.2.2, .done)

/-- SET_TIME (R26). -/
def execSetTime (s : State) : Host.Outcome State Fault Refusal :=
  .next (s.takeItem .setTime setTimeForm setTimeBody)

/-- A STOPPED clock starts (R27): the band is decided afresh, and IDLE accumulators open at the START
TIME event (R70). -/
def State.startClock (s : State) : State :=
  let s := State.decideBand false false { s with clock := { s.clock with state := .running } }
  s.openIdles false (s.pairsWhere (fun _ _ => true))

/-- START TIME (R27). The underflows of a tick and a press of a sample already taken keep their stamps (log 25,
log 20); a hold-off or maximum length of that tick taken later carries the stamp of the tick (R104 to R106), a
stall the moment it is taken (log 35). -/
def startTimeBody : Body Unit := fun _ _ s =>
  match s.clock.state with
  | .unset => refuse .range s
  | .stopped => if s.analysisDenied then refuse .denied s else (s.finishStamped.startClock, .done)
  | .running => if s.analysisDenied then refuse .denied s else (s, .done)

/-- START_TIME (R27). -/
def execStartTime (s : State) : Host.Outcome State Fault Refusal :=
  .next (s.takeItem .startTime noOperands startTimeBody)

/-- READ TIME (R28). -/
def readTimeBody : Body Unit := fun _ m s => s.readKept .readTime m

/-- READ_TIME (R28). -/
def execReadTime (s : State) : Host.Outcome State Fault Refusal :=
  .next (s.takeItem .readTime noOperands readTimeBody)

/-- TRIM (R22). -/
def trimBody : Body Int := fun trim _ s =>
  if trim < -128 ∨ 127 < trim then refuse .range s
  else if s.analysisDenied then refuse .denied s
  else ({ s with clock := { s.clock with trim := trim } }, .done)

/-- TRIM (R22). -/
def execTrim (s : State) : Host.Outcome State Fault Refusal :=
  .next (s.takeItem .trim trimForm trimBody)

end Sys2Proof.Machine
end

