-- ==== Sys2Proof/Machine/TableCommands.lean ====
section
/-! DEFINITION. The commands of the limit table (R48 to R57, R64). -/

namespace Sys2Proof.Machine

/-- The staged table replaced. -/
def State.setStaged (t : EntryTable) (s : State) : State :=
  { s with table := { s.table with staged := t } }

/-! ### LOAD ENTRIES (R48) -/

/-- The index the k-th entry is written to: the writing wraps within a page of eight. -/
def pageIndex (start k : Nat) : Nat := 8 * (start / 8) + (start + k) % 8

/-- The write set of `count` entries. -/
def writeSet (start count : Nat) : List Nat := (List.range count).map (pageIndex start)

/-- The entries written into a table. -/
def EntryTable.write (start : Nat) (entries : List LimitEntry) (t : EntryTable) : EntryTable :=
  entries.zipIdx.foldl (fun t' p => t'.set (pageIndex start p.2) (some p.1)) t

/-- LOAD ENTRIES on entries in range: busy, frozen, authority, then the write. -/
def State.writeEntries (start : Nat) (entries : List LimitEntry) (s : State) : State × Answer :=
  let indices := writeSet start entries.length
  if s.busy then refuse .busy s
  else if indices.any (s.table.frozen.getLsbD ·) then refuse .frozen s
  else if s.deniedFor (indices.any s.table.staged.certifiedAt || entries.any LimitEntry.certified) then
    refuse .denied s
  else (s.setStaged (s.table.staged.write start entries), .done)

/-- LOAD ENTRIES (R48). -/
def loadEntriesBody : Body (Nat × List (List Byte)) := fun ops _ s =>
  match allOf (ops.2.map LimitEntry.ofImage) with
  | some entries =>
    if ops.1 < Config.entryCount ∧ 1 ≤ entries.length ∧ entries.length ≤ 8 then
      s.writeEntries ops.1 entries
    else refuse .range s
  | none => refuse .range s

/-- LOAD_ENTRIES (R48). -/
def execLoadEntries (s : State) : Host.Outcome State Fault Refusal :=
  .next (s.takeItem .loadEntries loadEntriesForm loadEntriesBody)

/-! ### REMOVE ENTRY (R49) -/

/-- REMOVE ENTRY (R49). -/
def removeEntryBody : Body Nat := fun index _ s =>
  if Config.entryCount ≤ index then refuse .range s
  else if s.busy then refuse .busy s
  else if s.table.frozen.getLsbD index then refuse .frozen s
  else if s.deniedFor (s.table.staged.certifiedAt index) then refuse .denied s
  else (s.setStaged (s.table.staged.set index none), .done)

/-- REMOVE_ENTRY (R49). -/
def execRemoveEntry (s : State) : Host.Outcome State Fault Refusal :=
  .next (s.takeItem .removeEntry oneByte removeEntryBody)

/-! ### REVERT STAGING (R50) -/

/-- The staged copies set equal to the active ones. -/
def State.revert (s : State) : State :=
  { s with
    table := { s.table with staged := s.table.active }
    schedule := s.schedule.reverted }

/-- REVERT STAGING (R50). -/
def revertStagingBody : Body Unit := fun _ _ s =>
  if s.busy then refuse .busy s else (s.revert, .done)

/-- REVERT_STAGING (R50). -/
def execRevertStaging (s : State) : Host.Outcome State Fault Refusal :=
  .next (s.takeItem .revertStaging noOperands revertStagingBody)

/-! ### COMMIT and CLEAR COMMIT RESULT (R57, R64) -/

/-- COMMIT (R57). -/
def commitBody : Body Unit := fun _ _ s =>
  if s.busy then refuse .busy s
  else if s.deniedFor s.protectedDifference then refuse .denied s
  else ({ s with table := { s.table with pending := true, lastResult := none } }, .done)

/-- COMMIT (R57). -/
def execCommit (s : State) : Host.Outcome State Fault Refusal :=
  .next (s.takeItem .commit noOperands commitBody)

/-- CLEAR COMMIT RESULT (R64). -/
def clearCommitResultBody : Body Unit := fun _ _ s =>
  if s.busy then refuse .busy s
  else ({ s with table := { s.table with lastResult := none } }, .done)

/-- CLEAR_COMMIT_RESULT (R64). -/
def execClearCommitResult (s : State) : Host.Outcome State Fault Refusal :=
  .next (s.takeItem .clearCommitResult noOperands clearCommitResultBody)

/-! ### FREEZE ENTRY (R54) -/

/-- The index becomes frozen and its staged copy takes the active entry. -/
def LimitTable.freeze (i : Nat) (t : LimitTable) : LimitTable :=
  { t with frozen := setInsert t.frozen i, staged := t.staged.set i (t.active.at i) }

/-- FREEZE ENTRY (R54). -/
def freezeEntryBody : Body Nat := fun key _ s =>
  if key = 0 then refuse .range s
  else if s.busy then refuse .busy s
  else if s.deniedFor true then refuse .denied s
  else
    match s.table.active.find key with
    | some (i, e) =>
      if e.certified then ({ s with table := s.table.freeze i }, .done) else refuse .notFound s
    | none => refuse .notFound s

/-- FREEZE_ENTRY (R54). -/
def execFreezeEntry (s : State) : Host.Outcome State Fault Refusal :=
  .next (s.takeItem .freezeEntry twoBytes freezeEntryBody)

/-! ### PROBE ENTRY and READ ENTRY (R51, R56) -/

/-- PROBE ENTRY (R56). -/
def probeEntryBody : Body Nat := fun index _ s => (s, s.probeEntry index)

/-- PROBE_ENTRY (R56). -/
def execProbeEntry (s : State) : Host.Outcome State Fault Refusal :=
  .next (s.takeItem .probeEntry oneByte probeEntryBody)

/-- READ ENTRY (R51). -/
def readEntryBody : Body Nat := fun index m s => (s, s.readEntry index m.staged)

/-- READ_ENTRY (R51). -/
def execReadEntry (s : State) : Host.Outcome State Fault Refusal :=
  .next (s.takeItem .readEntry oneByte readEntryBody)

end Sys2Proof.Machine
end

