-- ==== Sys2Proof/Machine/Ticks.lean ====
section
/-! DEFINITION. TICK and the rows of the table that are parts of a tick: each takes its piece of work
when it is due, and changes nothing otherwise (log 1, log 2). -/

namespace Sys2Proof.Machine

/-- TICK (R21). -/
def execTick (choice : TickChoice) (s : State) : Host.Outcome State Fault Refusal :=
  .next (s.tick choice)

/-- COMMIT_CHECKS (R59, R63). -/
def execCommitChecks (choice : SwapChoice) (s : State) : Host.Outcome State Fault Refusal :=
  .next (s.takeDue { plainTick with swap := choice } .commit)

/-- STALL_TIMER_EXPIRY (R13). -/
def execStallTimerExpiry (slot : Nat) (s : State) : Host.Outcome State Fault Refusal :=
  .next (s.takeDue plainTick (.stall slot))

/-- HOLD_OFF_EXPIRY (R104). -/
def execHoldOffExpiry (key slot : Nat) (s : State) : Host.Outcome State Fault Refusal :=
  .next (s.takeDue plainTick (.holdOff key slot))

/-- MAXIMUM_LENGTH (R105, R106). -/
def execMaximumLength (key slot : Nat) (s : State) : Host.Outcome State Fault Refusal :=
  .next (s.takeDue plainTick (.maximumLength key slot))

/-- PULSE_END (R139). -/
def execPulseEnd (line : Nat) (s : State) : Host.Outcome State Fault Refusal :=
  .next (s.takeDue plainTick (.pulse line))

/-- FLASH_TURN (R140). -/
def execFlashTurn (line : Nat) (s : State) : Host.Outcome State Fault Refusal :=
  .next (s.takeDue plainTick (.flash line))

/-- BASE_UNDERFLOW (R155). -/
def execBaseUnderflow (s : State) : Host.Outcome State Fault Refusal :=
  .next (s.takeDue plainTick .cadence)

/-- SUMMARY_UNDERFLOW (R156). -/
def execSummaryUnderflow (s : State) : Host.Outcome State Fault Refusal :=
  .next (s.takeDue plainTick .summary)

/-- WAITING_VERDICT_OFFER (R113). -/
def execWaitingVerdictOffer (s : State) : Host.Outcome State Fault Refusal :=
  .next (s.takeDue plainTick .verdicts)

/-- MARK_RECORD_OFFER (R132). -/
def execMarkRecordOffer (s : State) : Host.Outcome State Fault Refusal :=
  .next (s.takeDue plainTick .mark)

end Sys2Proof.Machine
end

