-- ==== Sys2Proof/Machine/Dispatch.lean ====
section
/-! DEFINITION. The meaning of each command, one arm per row of spec/opcode_table.json. -/

namespace Sys2Proof.Machine

def exec (i : Instr) (s : State) : Host.Outcome State Fault Refusal :=
  match i with
  | .powerOnReset straps => Sys2Proof.Machine.execPowerOnReset straps s
  | .resetAsserted => Sys2Proof.Machine.execResetAsserted s
  | .lineReset straps position => Sys2Proof.Machine.execLineReset straps position s
  | .tick choice => Sys2Proof.Machine.execTick choice s
  | .fieldPortFrame bytes => Sys2Proof.Machine.execFieldPortFrame bytes s
  | .controlFrame bytes => Sys2Proof.Machine.execControlFrame bytes s
  | .unknownItem => Sys2Proof.Machine.execUnknownItem s
  | .controlFrameEnd => Sys2Proof.Machine.execControlFrameEnd s
  | .loadEntries => Sys2Proof.Machine.execLoadEntries s
  | .removeEntry => Sys2Proof.Machine.execRemoveEntry s
  | .revertStaging => Sys2Proof.Machine.execRevertStaging s
  | .commit => Sys2Proof.Machine.execCommit s
  | .clearCommitResult => Sys2Proof.Machine.execClearCommitResult s
  | .freezeEntry => Sys2Proof.Machine.execFreezeEntry s
  | .probeEntry => Sys2Proof.Machine.execProbeEntry s
  | .readEntry => Sys2Proof.Machine.execReadEntry s
  | .loadBands => Sys2Proof.Machine.execLoadBands s
  | .loadExceptions => Sys2Proof.Machine.execLoadExceptions s
  | .readBands => Sys2Proof.Machine.execReadBands s
  | .setTime => Sys2Proof.Machine.execSetTime s
  | .startTime => Sys2Proof.Machine.execStartTime s
  | .readTime => Sys2Proof.Machine.execReadTime s
  | .trim => Sys2Proof.Machine.execTrim s
  | .bindSlot => Sys2Proof.Machine.execBindSlot s
  | .unbindSlot => Sys2Proof.Machine.execUnbindSlot s
  | .readSlot => Sys2Proof.Machine.execReadSlot s
  | .loadPlant => Sys2Proof.Machine.execLoadPlant s
  | .readPlant => Sys2Proof.Machine.execReadPlant s
  | .fetchCoincidence => Sys2Proof.Machine.execFetchCoincidence s
  | .readWindow => Sys2Proof.Machine.execReadWindow s
  | .readHistogram => Sys2Proof.Machine.execReadHistogram s
  | .readEpisodes => Sys2Proof.Machine.execReadEpisodes s
  | .restartAnalysis => Sys2Proof.Machine.execRestartAnalysis s
  | .setBeacon => Sys2Proof.Machine.execSetBeacon s
  | .beaconOverride => Sys2Proof.Machine.execBeaconOverride s
  | .setNoticeMask => Sys2Proof.Machine.execSetNoticeMask s
  | .fetchNotices => Sys2Proof.Machine.execFetchNotices s
  | .setCadence => Sys2Proof.Machine.execSetCadence s
  | .cancelQuery => Sys2Proof.Machine.execCancelQuery s
  | .readStatus => Sys2Proof.Machine.execReadStatus s
  | .gatewayTxDone offerNow => Sys2Proof.Machine.execGatewayTxDone offerNow s
  | .fieldTxDone => Sys2Proof.Machine.execFieldTxDone s
  | .plantLineRecognition line => Sys2Proof.Machine.execPlantLineRecognition line s
  | .markPress => Sys2Proof.Machine.execMarkPress s
  | .certifyChange => Sys2Proof.Machine.execCertifyChange s
  | .commitChecks choice => Sys2Proof.Machine.execCommitChecks choice s
  | .stallTimerExpiry slot => Sys2Proof.Machine.execStallTimerExpiry slot s
  | .holdOffExpiry key slot => Sys2Proof.Machine.execHoldOffExpiry key slot s
  | .maximumLength key slot => Sys2Proof.Machine.execMaximumLength key slot s
  | .pulseEnd line => Sys2Proof.Machine.execPulseEnd line s
  | .flashTurn line => Sys2Proof.Machine.execFlashTurn line s
  | .baseUnderflow => Sys2Proof.Machine.execBaseUnderflow s
  | .summaryUnderflow => Sys2Proof.Machine.execSummaryUnderflow s
  | .waitingVerdictOffer => Sys2Proof.Machine.execWaitingVerdictOffer s
  | .markRecordOffer => Sys2Proof.Machine.execMarkRecordOffer s
  | .sample pins => Sys2Proof.Machine.execSample pins s

end Sys2Proof.Machine
end

