-- ==== Sys2Proof/WellFormed.lean ====
section
/-! DEFINITION. Well-formed commands: every number an operand carries names something the part has
(section 5.6; the bound of a position in a run is the model's, log 29). The meanings are total and do not rely on
it. -/

namespace Sys2Proof

/-- The input exists (R118). -/
def Input.wf : Input → Bool
  | .plant line => line < Config.plantLines
  | .mark => true
  | .certify => true

/-- The key and slot are in range (section 5.6). -/
def keySlotWf (key slot : Nat) : Bool :=
  1 ≤ key && key ≤ Config.max16 && slot < Config.slotCount

/-- The work names slots, lines and keys the part has. -/
def Due.wf : Due → Bool
  | .stall slot => slot < Config.slotCount
  | .holdOff key slot => keySlotWf key slot
  | .maximumLength key slot => keySlotWf key slot
  | .pulse line => line < Config.beaconLines
  | .flash line => line < Config.beaconLines
  | .recognition input => input.wf
  | _ => true

/-- The keys and pairs of the choice exist. -/
def SwapChoice.wf (c : SwapChoice) : Bool :=
  c.keys.all (fun k => 1 ≤ k && k ≤ Config.max16) &&
    c.plainFirst.all (fun p => p.1 < Config.entryCount && p.2 < Config.slotCount)

/-- The order and the swap choice are well formed. -/
def TickChoice.wf (c : TickChoice) : Bool :=
  c.order.all Due.wf && c.swap.wf

/-- The operands of the command are in range. -/
def Instr.wf : Instr → Bool
  | .lineReset _ position => position < 128
  | .tick choice => choice.wf
  | .plantLineRecognition line => line < Config.plantLines
  | .commitChecks choice => choice.wf
  | .stallTimerExpiry slot => slot < Config.slotCount
  | .holdOffExpiry key slot => keySlotWf key slot
  | .maximumLength key slot => keySlotWf key slot
  | .pulseEnd line => line < Config.beaconLines
  | .flashTurn line => line < Config.beaconLines
  | _ => true

/-- A well-formed command. -/
abbrev Instr.WellFormed (i : Instr) : Prop := i.wf = true

end Sys2Proof
end

