-- ==== Sys2Proof/Laws/PerInstr.lean ====
section
/-! SUPPORT. Operand bounds, one lemma per command: what a well-formed command's operands name exists. -/

namespace Sys2Proof.Laws.OperandBounds

/-- The numbers a well-formed command carries name slots, lines, keys and run positions the part has. -/
def Statement (i : Instr) : Prop :=
  i.WellFormed →
    match i with
    | .lineReset _ position => position < 128
    | .tick choice =>
      (∀ d, d ∈ choice.order → d.wf = true) ∧
        (∀ k, k ∈ choice.swap.keys → 1 ≤ k ∧ k ≤ Config.max16) ∧
        ∀ p, p ∈ choice.swap.plainFirst → p.1 < Config.entryCount ∧ p.2 < Config.slotCount
    | .plantLineRecognition line => line < Config.plantLines
    | .commitChecks choice =>
      (∀ k, k ∈ choice.keys → 1 ≤ k ∧ k ≤ Config.max16) ∧
        ∀ p, p ∈ choice.plainFirst → p.1 < Config.entryCount ∧ p.2 < Config.slotCount
    | .stallTimerExpiry slot => slot < Config.slotCount
    | .holdOffExpiry key slot => 1 ≤ key ∧ key ≤ Config.max16 ∧ slot < Config.slotCount
    | .maximumLength key slot => 1 ≤ key ∧ key ≤ Config.max16 ∧ slot < Config.slotCount
    | .pulseEnd line => line < Config.beaconLines
    | .flashTurn line => line < Config.beaconLines
    | _ => True

theorem powerOnReset (a : BitVec 2) : Statement (.powerOnReset a) := fun _ => trivial

theorem resetAsserted : Statement .resetAsserted := fun _ => trivial

theorem lineReset (a : BitVec 2) (b : Nat) : Statement (.lineReset a b) := fun h => of_decide_eq_true h

theorem tick (a : TickChoice) : Statement (.tick a) := by
  intro h
  simp only [Instr.WellFormed, Instr.wf, TickChoice.wf, SwapChoice.wf, Bool.and_eq_true, List.all_eq_true,
    decide_eq_true_eq] at h
  exact ⟨h.1, h.2.1, h.2.2⟩

theorem fieldPortFrame (a : List Byte) : Statement (.fieldPortFrame a) := fun _ => trivial

theorem controlFrame (a : List Byte) : Statement (.controlFrame a) := fun _ => trivial

theorem unknownItem : Statement .unknownItem := fun _ => trivial

theorem controlFrameEnd : Statement .controlFrameEnd := fun _ => trivial

theorem loadEntries : Statement .loadEntries := fun _ => trivial

theorem removeEntry : Statement .removeEntry := fun _ => trivial

theorem revertStaging : Statement .revertStaging := fun _ => trivial

theorem commit : Statement .commit := fun _ => trivial

theorem clearCommitResult : Statement .clearCommitResult := fun _ => trivial

theorem freezeEntry : Statement .freezeEntry := fun _ => trivial

theorem probeEntry : Statement .probeEntry := fun _ => trivial

theorem readEntry : Statement .readEntry := fun _ => trivial

theorem loadBands : Statement .loadBands := fun _ => trivial

theorem loadExceptions : Statement .loadExceptions := fun _ => trivial

theorem readBands : Statement .readBands := fun _ => trivial

theorem setTime : Statement .setTime := fun _ => trivial

theorem startTime : Statement .startTime := fun _ => trivial

theorem readTime : Statement .readTime := fun _ => trivial

theorem trim : Statement .trim := fun _ => trivial

theorem bindSlot : Statement .bindSlot := fun _ => trivial

theorem unbindSlot : Statement .unbindSlot := fun _ => trivial

theorem readSlot : Statement .readSlot := fun _ => trivial

theorem loadPlant : Statement .loadPlant := fun _ => trivial

theorem readPlant : Statement .readPlant := fun _ => trivial

theorem fetchCoincidence : Statement .fetchCoincidence := fun _ => trivial

theorem readWindow : Statement .readWindow := fun _ => trivial

theorem readHistogram : Statement .readHistogram := fun _ => trivial

theorem readEpisodes : Statement .readEpisodes := fun _ => trivial

theorem restartAnalysis : Statement .restartAnalysis := fun _ => trivial

theorem setBeacon : Statement .setBeacon := fun _ => trivial

theorem beaconOverride : Statement .beaconOverride := fun _ => trivial

theorem setNoticeMask : Statement .setNoticeMask := fun _ => trivial

theorem fetchNotices : Statement .fetchNotices := fun _ => trivial

theorem setCadence : Statement .setCadence := fun _ => trivial

theorem cancelQuery : Statement .cancelQuery := fun _ => trivial

theorem readStatus : Statement .readStatus := fun _ => trivial

theorem gatewayTxDone (a : Bool) : Statement (.gatewayTxDone a) := fun _ => trivial

theorem fieldTxDone : Statement .fieldTxDone := fun _ => trivial

theorem plantLineRecognition (a : Nat) : Statement (.plantLineRecognition a) := fun h => of_decide_eq_true h

theorem markPress : Statement .markPress := fun _ => trivial

theorem certifyChange : Statement .certifyChange := fun _ => trivial

theorem commitChecks (a : SwapChoice) : Statement (.commitChecks a) := by
  intro h
  simp only [Instr.WellFormed, Instr.wf, SwapChoice.wf, Bool.and_eq_true, List.all_eq_true,
    decide_eq_true_eq] at h
  exact h

theorem stallTimerExpiry (a : Nat) : Statement (.stallTimerExpiry a) := fun h => of_decide_eq_true h

theorem holdOffExpiry (a : Nat) (b : Nat) : Statement (.holdOffExpiry a b) := by
  intro h
  simp only [Instr.WellFormed, Instr.wf, keySlotWf, Bool.and_eq_true, decide_eq_true_eq] at h
  exact ⟨h.1.1, h.1.2, h.2⟩

theorem maximumLength (a : Nat) (b : Nat) : Statement (.maximumLength a b) := by
  intro h
  simp only [Instr.WellFormed, Instr.wf, keySlotWf, Bool.and_eq_true, decide_eq_true_eq] at h
  exact ⟨h.1.1, h.1.2, h.2⟩

theorem pulseEnd (a : Nat) : Statement (.pulseEnd a) := fun h => of_decide_eq_true h

theorem flashTurn (a : Nat) : Statement (.flashTurn a) := fun h => of_decide_eq_true h

theorem baseUnderflow : Statement .baseUnderflow := fun _ => trivial

theorem summaryUnderflow : Statement .summaryUnderflow := fun _ => trivial

theorem waitingVerdictOffer : Statement .waitingVerdictOffer := fun _ => trivial

theorem markRecordOffer : Statement .markRecordOffer := fun _ => trivial

theorem sample (a : Pins) : Statement (.sample a) := fun _ => trivial

end Sys2Proof.Laws.OperandBounds
end

