-- ==== Sys2Proof/Safety.lean ====
section
/-! DEFINITION. The words statements use: what a state must satisfy (the capacities of the queues, the
legal values of the clock, frozen entries, the pool, the episodes and the latches), where the decoder stands,
and what openings, closes, admissions and the pieces of a tick are made of. -/

namespace Sys2Proof.Machine

/-! ### Invariants -/

/-- The link's queues, its counters and the report queue stay within their sizes (R150, R154, R167, R169,
R170, R172, R174). -/
structure State.LinkBounds (s : State) : Prop where
  queue    : s.report.queue.length ≤ Config.queueDepth
  dropped  : s.report.dropped ≤ Config.max16
  forward  : s.ports.forward.length ≤ Config.forwardDepth
  onward   : s.ports.onward.length ≤ Config.onwardDepth
  holding  : s.ports.holding.length ≤ Config.replyPlaces
  starve   : s.ports.starve ≤ Config.starveLimit
  fieldErrors     : s.ports.fieldErrors ≤ Config.max16
  gatewayErrors   : s.ports.gatewayErrors ≤ Config.max16
  forwardOverruns : s.ports.forwardOverruns ≤ Config.max16
  controlOverruns : s.ports.controlOverruns ≤ Config.max16

/-- The 32 episode records hold every current and every waiting episode (R91, R113). -/
def State.RecordBound (s : State) : Prop := s.episodes.used ≤ Config.episodeRecords

/-- Every capacity the manual gives: the link's, the episode records, the standing-query list. -/
structure State.Capacities (s : State) : Prop where
  links   : s.LinkBounds
  records : s.RecordBound
  queries : s.cadence.queries.length ≤ Config.queryCount

/-- The clock's fields are in their ranges (chapter 2, block table), and in UNSET the site time is that
of power-on (R23). -/
structure Clock.Legal (c : Clock) : Prop where
  eighth   : c.eighth < Config.eighthsPerDay
  day      : c.day ≤ Config.max16
  offset   : c.weekdayOffset < 7
  trimLow  : -128 ≤ c.trim
  trimHigh : c.trim ≤ 127
  unset    : c.state = .unset → c.day = 0 ∧ c.eighth = 0

/-- The current band is UNTIMED exactly while the clock is not RUNNING (R34), and the band tables have
their fourteen records (R32). -/
structure State.BandLegal (s : State) : Prop where
  untimed : s.clock.band = Config.untimed ↔ s.clock.running = false
  band    : s.clock.band ≤ Config.untimed
  active  : s.schedule.activeBands.length = Config.userBands
  staged  : s.schedule.stagedBands.length = Config.userBands

/-- Both limit tables have 64 indices, and at a frozen index they hold the same (R47, R55). -/
structure LimitTable.FrozenEqual (t : LimitTable) : Prop where
  active : t.active.length = Config.entryCount
  staged : t.staged.length = Config.entryCount
  equal  : ∀ i, t.frozen.getLsbD i = true → t.staged.at i = t.active.at i

/-! ### Where the decoder stands -/

/-- An item of the frame in execution as the decoder reaches it: the frame's tag, the reply items of
malformed prefixes on the way, the prefixes before the item, its code and operands, and what follows. -/
structure ItemView where
  tag      : Byte
  lead     : List ReplyItem
  prefixes : List PrefixItem
  code     : Byte
  operands : List Byte
  rest     : List Byte
  taken    : Nat
  deriving DecidableEq, Repr

/-- The decoder of the state reaches the item next. -/
def State.Reaches (s : State) (v : ItemView) : Prop :=
  ∃ e, s.executing = some e ∧ e.tag = v.tag ∧
    e.reach = .item v.lead v.prefixes v.code v.operands v.rest v.taken

/-- The decoder of the state reaches the end of its frame next, with these trailing reply items. -/
def State.ReachesEnd (s : State) (trail : List ReplyItem) : Prop :=
  ∃ e, s.executing = some e ∧ e.reach = .stop trail

/-- The item is one of the command, with prefixes that apply to it and stand once each (R176). -/
def ItemView.isOf (v : ItemView) (c : CommandCode) : Prop :=
  v.code = c.byte ∧ prefixesTaken v.prefixes c = true

/-- What the prefixes of the item say. -/
def ItemView.modifiers (v : ItemView) : Modifiers := modifiersOf v.tag v.prefixes

/-- The bytes of a prefix item: code, operand length, operand (R176, R186). -/
def PrefixItem.bytes : PrefixItem → List Byte
  | .slot n => [0x01, 0x01, BitVec.ofNat 8 n]
  | .staged => [0x02, 0x00]
  | .keep => [0x03, 0x00]

/-- The reply item MALFORMED of a code. -/
def malformedItem (code : Byte) : ReplyItem := ⟨code, .malformed, .empty⟩

/-- The state with the item taken and its reply item written. -/
def State.answered (v : ItemView) (r : Result) (d : ReplyData) (s : State) : State :=
  s.writeItems v.rest v.taken (v.lead ++ [⟨v.code, r, d⟩])

/-- The state with the item refused. -/
def State.refused (v : ItemView) (r : Result) (s : State) : State := s.answered v r .empty

/-- The queue command that stands for each command of section 9.8. -/
def CommandCode.instr : CommandCode → Instr
  | .loadEntries => .loadEntries | .removeEntry => .removeEntry
  | .revertStaging => .revertStaging | .commit => .commit
  | .clearCommitResult => .clearCommitResult | .freezeEntry => .freezeEntry
  | .probeEntry => .probeEntry | .readEntry => .readEntry | .loadBands => .loadBands
  | .loadExceptions => .loadExceptions | .readBands => .readBands | .setTime => .setTime
  | .startTime => .startTime | .readTime => .readTime | .trim => .trim | .bindSlot => .bindSlot
  | .unbindSlot => .unbindSlot | .readSlot => .readSlot | .loadPlant => .loadPlant
  | .readPlant => .readPlant | .fetchCoincidence => .fetchCoincidence | .readWindow => .readWindow
  | .readHistogram => .readHistogram | .readEpisodes => .readEpisodes
  | .restartAnalysis => .restartAnalysis | .setBeacon => .setBeacon
  | .beaconOverride => .beaconOverride | .setNoticeMask => .setNoticeMask
  | .fetchNotices => .fetchNotices | .setCadence => .setCadence | .cancelQuery => .cancelQuery
  | .readStatus => .readStatus

/-- The operand bytes have the form the table of operand layouts gives the command (R186). -/
def CommandCode.formOk (c : CommandCode) (o : List Byte) : Prop :=
  match c with
  | .loadEntries => 2 ≤ o.length ∧ o.length = 2 + 28 * (o.getD 1 0).toNat
  | .loadBands => 1 ≤ o.length ∧ o.length = 1 + 8 * (o.getD 0 0).toNat
  | .loadExceptions => 1 ≤ o.length ∧ o.length = 1 + 3 * (o.getD 0 0).toNat
  | .loadPlant => 1 ≤ o.length ∧ o.length = 1 + 6 * (o.getD 0 0).toNat
  | .removeEntry | .readEntry | .probeEntry | .unbindSlot | .cancelQuery => o.length = 1
  | .freezeEntry | .readWindow | .trim | .bindSlot | .beaconOverride => o.length = 2
  | .setTime | .setCadence => o.length = 6
  | .readHistogram => o.length = 5
  | .setBeacon | .setNoticeMask => o.length = 3
  | _ => o.length = 0

/-- The decoder reaches an item of the command, of its form and with prefixes that apply (R178, steps 1
and 2). -/
structure State.Takes (c : CommandCode) (v : ItemView) (s : State) : Prop where
  reaches  : s.Reaches v
  code     : v.code = c.byte
  form     : c.formOk v.operands
  prefixes : prefixesTaken v.prefixes c = true

/-- The user band is defined in the active table, its mask holds the day type, and its minutes hold the
present one (R34). -/
def State.BandHolds (s : State) (band : Nat) : Prop :=
  ∃ r : BandRecord, s.schedule.activeBands[band]? = some (some r) ∧
    r.days.getLsbD s.dayType.code = true ∧ r.start ≤ s.clock.eighth / 480 ∧ s.clock.eighth / 480 < r.stop

/-- The index is the least with the property. -/
def IsLowest (P : Nat → Prop) (i : Nat) : Prop := P i ∧ ∀ j, j < i → ¬P j

/-! ### What a notice or a record offered may change -/

/-- The notice is pending. -/
def State.notified (n : Notice) (s : State) : Prop := s.notices.pending.getLsbD n.bit = true

/-- From `s` to `t` notices were raised, records offered and the gateway port granted, and nothing else
changed. While the gateway-port transmitter is busy no grant is made and the report queue grows at its
tail alone (R144, R146, R151, R171). -/
structure State.Told (s t : State) : Prop where
  whole : t = { s with due := t.due, notices := t.notices, report := t.report, ports := t.ports }
  ports : t.ports = { s.ports with forward := t.ports.forward, holding := t.ports.holding,
                                   starve := t.ports.starve, gatewayTx := t.ports.gatewayTx }
  mask  : t.notices.mask = s.notices.mask
  kept  : ∀ i, s.notices.pending.getLsbD i = true → t.notices.pending.getLsbD i = true
  due   : ∀ d, d ∈ t.due → d ∈ s.due ∨ d = .verdicts
  busy  : s.ports.gatewayTx ≠ none →
            t.ports = s.ports ∧ t.due = s.due ∧ ∃ more, t.report.queue = s.report.queue ++ more

/-- From `s` to `t` the attention latch sets, and the ATTENTION record of the moment, with the pending set and
mask of `s`, is offered: it follows the records in the queue while the transmitter is busy, departs at once
where it is idle and nothing waits, and is dropped and counted where the queue is full. QUEUE_HIGH or
REPORT_DROPPED then join the pending set (R146, R147, R151, R152). -/
structure State.Alerted (s t : State) : Prop where
  told  : State.Told s t
  latch : t.notices.latch = true
  busy  : s.report.queue.length < Config.queueDepth → s.ports.gatewayTx ≠ none →
            t.report.queue = s.report.queue ++
              [⟨s.clock.tickCount, .attention ⟨s.now, s.notices.pending, s.notices.mask⟩⟩] ∧
            t.report.dropped = s.report.dropped
  idle  : s.report.queue = [] → s.ports.gatewayTx = none → s.ports.forward = [] →
            (∀ r, .ready r ∉ s.ports.holding) → t.report = s.report ∧
              t.ports = { s.ports with starve := 0, gatewayTx := some (runOf .report s.ports.strap
                (Record.content ⟨s.clock.tickCount, .attention ⟨s.now, s.notices.pending, s.notices.mask⟩⟩)) }
  full  : Config.queueDepth ≤ s.report.queue.length →
            t = { s with
              notices := ⟨setInsert s.notices.pending Notice.reportDropped.bit, s.notices.mask, true⟩
              report := { s.report with dropped := min (s.report.dropped + 1) Config.max16 } }
  high  : s.report.queue.length < Config.queueDepth →
            t.notices.pending = if s.report.queue.length + 1 = Config.queueHigh
              then setInsert s.notices.pending Notice.queueHigh.bit else s.notices.pending

/-- From `s` to `t` a record is admitted to a queue with room. It joins the tail with the entry tick of the
moment (R150, R151); QUEUE_HIGH joins the pending set where the depth goes from 39 to 40, and no other notice
does (R152). While the transmitter is busy nothing else changes, save what a latch that then sets brings about
(R146). On an idle transmitter with nothing else waiting it departs at once, with what a departure brings
about (R153, R171). -/
structure State.Admitted (body : RecordBody) (s t : State) : Prop where
  told  : State.Told s t
  queue : s.ports.gatewayTx ≠ none → ∃ more,
            t.report.queue = s.report.queue ++ ⟨s.clock.tickCount, body⟩ :: more
  high  : t.notices.pending = if s.report.queue.length + 1 = 40
            then setInsert s.notices.pending Notice.queueHigh.bit else s.notices.pending
  busy  : s.ports.gatewayTx ≠ none → ∀ w : State,
            w = { s with report := { s.report with queue := s.report.queue ++ [⟨s.clock.tickCount, body⟩] }
                         notices := { s.notices with pending := t.notices.pending } } →
            (s.report.queue.length + 1 ≠ 40 ∨ s.notices.latch = true ∨
              w.notices.pending &&& w.notices.mask = 0 → t = w) ∧
            (s.report.queue.length + 1 = 40 → s.notices.latch = false →
              w.notices.pending &&& w.notices.mask ≠ 0 → State.Alerted w t)
  idle  : s.ports.gatewayTx = none → s.report.queue = [] → s.ports.forward = [] →
            (∀ r, .ready r ∉ s.ports.holding) →
            t = { s with
              due := t.due
              ports := { s.ports with starve := 0, gatewayTx := some (runOf .report s.ports.strap
                (Record.content ⟨s.clock.tickCount, body⟩)) } } ∧
            (s.episodes.waiting = [] → t.due = s.due) ∧
            (s.episodes.waiting ≠ [] → .verdicts ∈ t.due ∧ ∀ d, d ∈ s.due → d ∈ t.due)

/-- The waiting verdicts are offered oldest first until the list is empty or the queue is full (R113). -/
inductive State.OffersWaiting : State → State → Prop where
  | ends (s : State) : s.episodes.waiting = [] ∨ 48 ≤ s.report.queue.length → State.OffersWaiting s s
  | offer (s u t : State) (v : Verdict) (rest : List Verdict) : s.episodes.waiting = v :: rest →
      s.report.queue.length < 48 →
      State.Admitted (.verdict v) { s with episodes := { s.episodes with waiting := rest } } u →
      State.OffersWaiting u t → State.OffersWaiting s t

/-! ### The window engine's pool, the episodes and the latches (R66, R74, R93, R128, R146) -/

/-- The pool holds its 96 units: exactly the windowed pairs of the active table hold one, at most 72 plain and
24 histogram-capable ones, an LN entry's histogram-capable, and none is open while the clock is not RUNNING.
-/
structure State.PoolLegal (s : State) : Prop where
  rows  : s.windows.units.length = Config.entryCount
  slots : ∀ row, row ∈ s.windows.units → row.length = Config.slotCount
  plain : s.windows.inUse false ≤ Config.plainUnits
  hist  : s.windows.inUse true ≤ Config.histogramUnits
  pairs : ∀ i slot, i < Config.entryCount → slot < Config.slotCount →
            ((s.windows.unitAt i slot).isSome ↔ ∃ e, s.table.active.at i = some e ∧ e.window ≠ .slice ∧
              e.slots.getLsbD slot = true)
  ln    : ∀ i slot e u, s.table.active.at i = some e → (∃ n, e.metric = .ln n) →
            s.windows.unitAt i slot = some u → u.histogram = true
  idle  : s.clock.running = false → ∀ i slot u, s.windows.unitAt i slot = some u → u.acc = .idle

/-- A key and a slot have at most one current episode, on a slot of the twelve (R93). -/
structure State.EpisodesLegal (s : State) : Prop where
  one   : (s.episodes.current.map (fun e => (e.key, e.slot))).Nodup
  slots : ∀ e, e ∈ s.episodes.current → e.slot < Config.slotCount

/-- The coincidence mask is empty or holds two slots or more, its latch is set and its stamp present exactly
when it is not empty (R128), and a clear attention latch means that no pending notice is enabled (R146). -/
structure State.LatchesLegal (s : State) : Prop where
  two       : s.plant.coincidence.mask ≠ 0 → ∃ a b, a ≠ b ∧
                s.plant.coincidence.mask.getLsbD a = true ∧ s.plant.coincidence.mask.getLsbD b = true
  latch     : s.plant.coincidence.latch = true ↔ s.plant.coincidence.mask ≠ 0
  stamp     : s.plant.coincidence.setting.isSome ↔ s.plant.coincidence.mask ≠ 0
  attention : s.notices.latch = false → s.notices.pending &&& s.notices.mask = 0

/-! ### What the due work and the episodes name (log 29) -/

/-- The key is one an entry can have (R39). -/
def keyExists (key : Nat) : Prop := 1 ≤ key ∧ key ≤ Config.max16

/-- What the work names exists: a slot of the twelve, a key an entry can have, one of the 4 beacon lines or
one of the 8 plant lines. -/
def dueExists : Due → Prop
  | .stall slot => slot < Config.slotCount
  | .holdOff key slot => keyExists key ∧ slot < Config.slotCount
  | .maximumLength key slot => keyExists key ∧ slot < Config.slotCount
  | .pulse line => line < Config.beaconLines
  | .flash line => line < Config.beaconLines
  | .recognition (.plant line) => line < Config.plantLines
  | _ => True

/-- What the due work and the current episodes name exists, and both tables hold keys an entry can have. -/
structure State.NamesExist (s : State) : Prop where
  due      : ∀ d, d ∈ s.due → dueExists d
  slots    : s.slots.length = Config.slotCount
  active   : ∀ i e, s.table.active.at i = some e → keyExists e.key
  staged   : ∀ i e, s.table.staged.at i = some e → keyExists e.key
  episodes : ∀ e, e ∈ s.episodes.current → keyExists e.key ∧ e.slot < Config.slotCount

/-! ### Openings and closes -/

/-- A plant line is a candidate for an episode opened at a tick: enabled, and active or stopped within its
linger (R124). -/
def State.Candidate (s : State) (openTick : Tick) (i : Nat) (l : PlantLine) : Prop :=
  s.plant.lines[i]? = some l ∧ l.record.enabled = true ∧
    (l.active = true ∨
      ∃ t, l.deactivationTick = some t ∧ (openTick - t).toNat ≤ 8 * l.record.linger)

/-- The active entry of the key names the beacon line (R137). -/
def State.Names (s : State) (key line : Nat) : Prop :=
  ∃ i e, s.table.active.find key = some (i, e) ∧ (e.action = .episode ∨ e.action = .both) ∧
    e.beacon = some line

/-- The beacon lines of `t` are those of `s` after the demand has become that of `t` (R137, R140). -/
def State.Follows (s t : State) : Prop :=
  ∀ (i : Nat) (b : BeaconLine), s.beacons[i]? = some b →
    t.beacons[i]? = some (b.follow (!(t.demand i).isEmpty))

/-- The verdicts of the named current episodes, oldest first, closed with a reason at this moment (R108,
R112). -/
def State.verdictsOf (named : Episode → Bool) (reason : CloseReason) (s : State) : List Verdict :=
  (s.episodes.current.filter named).map (fun e => e.verdict s.table.active reason s.now)

/-- Verdicts offered one after another (R111, R113). -/
def State.offerEach (vs : List Verdict) (s : State) : State :=
  vs.foldl (fun s' v => s'.offerVerdict v) s

/-! ### The pieces of a tick (log 1) What falls to the blocks at a tick or sample is a list of pieces of work.
Most have a row of the table; the run counts, the boundaries and the band decision are the tick's own. -/

/-- The piece falls at the tick that has advanced the clock to that of `s`. -/
def State.FallsDue (s : State) : Due → Prop
  | .runCounts => True
  | .windows => s.clock.state = .running ∧ s.clock.eighth % 8 = 0
  | .band => s.clock.state = .running ∧ s.clock.eighth % 480 = 0
  | .cadence => s.cadence.running = true
  | .summary => False
  | .verdicts => s.episodes.waiting ≠ []
  | .mark => s.plant.markLatch ≠ none
  | .commit => s.table.pending = true
  | .stall slot => ∃ r id e last, s.slots[slot]? = some r ∧ r.link = .live id e last ∧
      16 ≤ (s.clock.tickCount - last).toNat
  | .holdOff key slot => ∃ e n, e ∈ s.episodes.current ∧ e.key = key ∧ e.slot = slot ∧ e.state = .holdOff n
  | .maximumLength key slot => ∃ e p, e ∈ s.episodes.current ∧ e.key = key ∧ e.slot = slot ∧
      s.table.active.find key = some p ∧ 480 * p.2.maxLength ≤ (s.clock.tickCount - e.openTick).toNat
  | .pulse line => line < 4
  | .flash line => line < 4
  | .recognition _ => False

/-- The piece is a count that comes to no event: no hold-off ends, no pulse, no flash phase, no base period.
-/
def State.CountsOn (s : State) : Due → Prop
  | .runCounts => True
  | .cadence => s.cadence.running = false ∨ 1 < s.cadence.second ∨ 1 < s.cadence.base
  | .holdOff key slot => ∀ e n, s.episodes.find key slot = some e → e.state = .holdOff n → 1 < n
  | .pulse line => ∀ b : BeaconLine, s.beacons[line]? = some b → b.pulse ≠ 1
  | .flash line => ∀ (b : BeaconLine) (p : FlashPhase), s.beacons[line]? = some b → b.flash = some p →
      1 < p.count
  | _ => False

/-- The run counts of the tick are taken, once (R123). -/
def State.RunsCounted (s t : State) : Prop :=
  (.runCounts ∉ s.due → t = s) ∧
  (.runCounts ∈ s.due → t = { s with
    due := s.due.filter (fun d => d != .runCounts)
    plant := { s.plant with lines := s.plant.lines.map (fun l => { l with
      summaryRun := if l.active then min (l.summaryRun + 1) 4294967295 else l.summaryRun
      bandRun := if l.active then min (l.bandRun + 1) 4294967295 else l.bandRun }) } })

/-- The FIXED boundaries and step ends of the tick are taken, once, as one evaluation event (R71, R73, R85).
-/
def State.BoundariesTaken (s t : State) : Prop :=
  (.windows ∉ s.due → t = s) ∧
  (.windows ∈ s.due → ∀ u : State, u = { s with due := s.due.filter (fun d => d != .windows) } →
    (s.clock.state ≠ .running → t = u) ∧
    (s.clock.state = .running →
      t = (s.evaluationPairs [s.clock.band]).foldl (fun x p => x.endWindow p) u))

/-- The band decision of the tick is taken, once (R35). -/
def State.BandDecided (bandEndFirst : Bool) (s t : State) : Prop :=
  (.band ∉ s.due → t = s) ∧
  (.band ∈ s.due →
    t = State.decideBand true bandEndFirst { s with due := s.due.filter (fun d => d != .band) })

/-- One piece is taken: by its row of the table where it has one. The band decision finds the boundaries of
its tick taken (R80, log 8). -/
def State.PieceTaken (choice : TickChoice) (d : Due) (s t : State) : Prop :=
  match d with
  | .runCounts => State.RunsCounted s t
  | .windows => State.BoundariesTaken s t
  | .band => ∃ u, State.BoundariesTaken s u ∧ State.BandDecided choice.bandEndFirst u t
  | .cadence => exec .baseUnderflow s = .next t
  | .summary => exec .summaryUnderflow s = .next t
  | .verdicts => exec .waitingVerdictOffer s = .next t
  | .mark => exec .markRecordOffer s = .next t
  | .commit => exec (.commitChecks choice.swap) s = .next t
  | .stall slot => exec (.stallTimerExpiry slot) s = .next t
  | .holdOff key slot => exec (.holdOffExpiry key slot) s = .next t
  | .maximumLength key slot => exec (.maximumLength key slot) s = .next t
  | .pulse line => exec (.pulseEnd line) s = .next t
  | .flash line => exec (.flashTurn line) s = .next t
  | .recognition (.plant line) => exec (.plantLineRecognition line) s = .next t
  | .recognition .mark => exec .markPress s = .next t
  | .recognition .certify => exec .certifyChange s = .next t

/-- Some pieces are taken, one after another. -/
inductive State.PiecesTaken (choice : TickChoice) : List Due → State → State → Prop where
  | ends (s : State) : State.PiecesTaken choice [] s s
  | piece (d : Due) (rest : List Due) (s u t : State) : State.PieceTaken choice d s u →
      State.PiecesTaken choice rest u t → State.PiecesTaken choice (d :: rest) s t

/-- Everything outstanding is taken in its order, what that makes due included, until nothing is due. -/
inductive State.OutstandingTaken (choice : TickChoice) : State → State → Prop where
  | ends (s : State) : s.due = [] → State.OutstandingTaken choice s s
  | piece (d : Due) (rest : List Due) (s u t : State) : s.due = d :: rest →
      State.PieceTaken choice d s u → State.OutstandingTaken choice u t → State.OutstandingTaken choice s t

/-! ### Energies (overview section 5.3) -/

/-- The energy of a code. -/
noncomputable def codeEnergy (code : Nat) : ℝ := (10 : ℝ) ^ ((code : ℝ) / 100)

/-- The sum of the energies of slices of these levels, as the model holds it (log 6). -/
def EnergySum.ofLevels (levels : List Nat) : EnergySum :=
  levels.foldl (fun e level => EnergySum.add level e) []

/-- The code is the equivalent level of slices of these levels: the largest whose energy does not exceed their
mean energy. -/
def IsEquivalentLevel (levels : List Nat) (code : Nat) : Prop :=
  (levels.length : ℝ) * codeEnergy code ≤ (levels.map codeEnergy).sum ∧
    ∀ c, (levels.length : ℝ) * codeEnergy c ≤ (levels.map codeEnergy).sum → c ≤ code

/-- The slices counted in a bin and in those above it. -/
def slicesFrom (bin : Nat) (bins : Counts) : Nat := ((bins.filter (fun p => bin ≤ p.1)).map (·.2)).sum

/-- The value is the largest of those present in a list, absent where none is. -/
def IsLargestOf (values : List (Option Nat)) (value : Option Nat) : Prop :=
  (value = none ↔ ∀ x, x ∈ values → x = none) ∧
    ∀ m, value = some m → some m ∈ values ∧ ∀ n, some n ∈ values → n ≤ m

/-- What the step records of a ring come to, taken together (R77, R78). -/
structure Tally.IsTotal (steps : List Tally) (all : Tally) : Prop where
  counted  : all.counted = (steps.map (·.counted)).sum
  excluded : all.excluded = (steps.map (·.excluded)).sum
  energy   : ∀ levels : Tally → List Nat, (∀ t, t ∈ steps → t.energy = EnergySum.ofLevels (levels t)) →
    all.energy = EnergySum.ofLevels (steps.flatMap levels)
  maxFast  : IsLargestOf (steps.map (·.maxFast)) all.maxFast
  maxPeak  : IsLargestOf (steps.map (·.maxPeak)) all.maxPeak
  events   : (∀ t, t ∈ steps → t.events ≤ 65535) → all.events = min (steps.map (·.events)).sum 65535
  bins     : ∀ b, slicesFrom b all.bins = (steps.map (fun t => slicesFrom b t.bins)).sum
  overload : all.overload = steps.any (·.overload)
  cut      : all.cut = steps.any (·.cut)

/-! ### The limit table in words (R37, R39, R40, R53, R59) -/

/-- Some active entry is of CERTIFIED custody. -/
def State.CertifiedActive (s : State) : Prop :=
  ∃ i e, s.table.active.at i = some e ∧ e.custody = .certified

/-- An index holds a CERTIFIED entry. -/
def EntryTable.Certified (t : EntryTable) (i : Nat) : Prop :=
  ∃ e, t.at i = some e ∧ e.custody = .certified

/-- A user band is protected (R37). -/
def State.Protected (s : State) (band : Nat) : Prop :=
  ∃ i e, s.table.active.at i = some e ∧ e.custody = .certified ∧ e.bands.getLsbD band = true

/-- The staged copies differ from the active ones in a protected item (R53). -/
def State.DiffersProtected (s : State) : Prop :=
  (∃ i, i < 64 ∧ (s.table.active.Certified i ∨ s.table.staged.Certified i) ∧
      s.table.active.at i ≠ s.table.staged.at i) ∨
    (∃ b, b < 14 ∧ s.Protected b ∧ s.schedule.activeBands[b]? ≠ s.schedule.stagedBands[b]?) ∨
      (s.CertifiedActive ∧ s.schedule.activeExceptions ≠ s.schedule.stagedExceptions)

/-- The key at the index is held at another index too (R59, item 1). -/
def EntryTable.Duplicate (t : EntryTable) (i : Nat) : Prop :=
  ∃ e j f, t.at i = some e ∧ j ≠ i ∧ t.at j = some f ∧ f.key = e.key

/-- The key is held at some index. -/
def EntryTable.Holds (t : EntryTable) (key : Nat) : Prop := ∃ i e, t.at i = some e ∧ e.key = key

/-- The reference key of the entry at the index fails (R59, item 2). -/
def EntryTable.BadReference (t : EntryTable) (i : Nat) : Prop :=
  ∃ e key, t.at i = some e ∧ e.test = .excess key ∧
    (key = e.key ∨ ¬t.Holds key ∨
      ∃ j r, t.at j = some r ∧ r.key = key ∧
        ((∃ k, r.test = .excess k) ∨ ∃ aux, r.metric = .events aux))

/-- The entry at the index names an undefined user band (R59, item 3). -/
def EntryTable.UndefinedBand (t : EntryTable) (bands : List (Option BandRecord)) (i : Nat) : Prop :=
  ∃ e b, t.at i = some e ∧ b < 14 ∧ e.bands.getLsbD b = true ∧ ∀ r, bands[b]? ≠ some (some r)

/-- The fields of an entry are in the ranges of R39 and its combination is one R40 allows. -/
structure LimitEntry.Valid (e : LimitEntry) : Prop where
  key         : 1 ≤ e.key ∧ e.key ≤ 65535
  slots       : e.slots ≠ 0
  bands       : e.bands ≠ 0
  percentile  : ∀ n, e.metric = .ln n → 1 ≤ n ∧ n ≤ 99
  aux         : ∀ a, e.metric = .events a → a ≤ 1600
  fixed       : ∀ m, e.window = .fixed m → 1 ≤ m ∧ m ∣ 1440
  rolling     : ∀ s k, e.window = .rolling s k → 1 ≤ s ∧ s ∣ 3600 ∧ 2 ≤ k ∧ k ≤ 16
  reference   : ∀ k, e.test = .excess k → 1 ≤ k ∧ k ≤ 65535
  threshold   : e.threshold ≤ if e.test = .countGe then 65535 else 1600
  minCoverage : 50 ≤ e.minCoverage ∧ e.minCoverage ≤ 100
  beacon      : ∀ b, e.beacon = some b → b ≤ 3 ∧ (e.action = .episode ∨ e.action = .both)
  holdOff     : e.holdOff ≤ 600
  maxLength   : 1 ≤ e.maxLength ∧ e.maxLength ≤ 240
  lnWindow    : ∀ n, e.metric = .ln n → e.window = .band ∨ ∃ m, e.window = .fixed m
  sliceMetric : e.window = .slice → e.metric = .leq ∨ e.metric = .lmax ∨ e.metric = .lpeak
  countMetric : e.test = .countGe → ∃ a, e.metric = .events a
  eventsTest  : ∀ a, e.metric = .events a →
                  e.test = .countGe ∨ e.test = .invalid ∨ e.test = .always

/-! ### Items of the reading data (R189) -/

/-- At the offset stands an item that may be absent: its flag byte, then its bytes, zero when it is absent. -/
def IsOptional (data : List Byte) (offset width : Nat) (item : Option Nat) : Prop :=
  field data offset 1 = (if item.isSome then 1 else 0) ∧
    field data (offset + 1) width = item.getD 0 % 256 ^ width

/-- At the offset stands a stamp with its tick that may be absent. -/
def IsOptionalMoment (data : List Byte) (offset : Nat) (item : Option Moment) : Prop :=
  field data offset 1 = (if item.isSome then 1 else 0) ∧
    (data.drop (offset + 1)).take 10 = (match item with
      | some moment => moment.bytes
      | none => List.replicate 10 0)

/-! ### Frames (R165, R169, R184) -/

/-- A validated frame of the field port: an envelope with a payload of its length, of a kind the port
takes. -/
def FieldFrame (kind : FrameKind) (payload : List Byte) (frame : Frame) : Prop :=
  frame = envelope kind payload ∧ kind ≠ .control ∧ payload.length ≤ 248 ∧
    (kind = .slice → payload.length = 9)

/-- A validated frame of the gateway port. -/
def GatewayFrame (payload : List Byte) (frame : Frame) : Prop :=
  frame = envelope .control payload ∧ payload.length ≤ 248

/-- Bytes without a start marker. -/
def Unmarked (bytes : List Byte) : Prop := ∀ b, b ∈ bytes → b ≠ 0x7E

end Sys2Proof.Machine
end

