-- ==== Sys2Proof/Certificates/Slice0/Obligations.lean ====
section
/-! DEFINITION. The statements about the model, family by family. Each item command is stated for every
state whose decoder reaches an item of it (`State.Takes`); a commit whose checks are outstanding is taken
before the item (`State.settleCommit`, the model's log 19), so the rules are judged on the state it leaves. -/

open Sys2Proof Sys2Proof.Machine

/-! ### The step and the invariants -/

/-- A step takes the command at the front of the queue and executes it on the rest; on an empty queue the
block idles (the model's choice, log 4). -/
def Obligations.StepRunsFrontCommand : Prop :=
  (∀ (c : Instr) (rest : List Instr) (s : State), s.pending = c :: rest →
     step s = exec c { s with pending := rest }) ∧
  (∀ s : State, s.pending = [] → step s = .next s)

/-- Every command answers a next state and leaves the queue. Only POWER_ON_RESET and LINE_RESET, which read
the straps (R173), change the strap address; only they and RESET_ASSERTED change what the pins are held at
(R136, R149). That RESET_ASSERTED reads no strap is the model's reading (log 26). -/
def Obligations.EveryCommandAnswersNext : Prop :=
  ∀ (c : Instr) (s : State), ∃ t, exec c s = .next t ∧ t.pending = s.pending ∧
    ((∀ a, c ≠ .powerOnReset a) → (∀ a p, c ≠ .lineReset a p) →
      t.ports.strap = s.ports.strap ∧ (c ≠ .resetAsserted → t.held = s.held))

/-- The state after power-on reset meets every invariant stated below. State.reset is that state with both
straps read as 0: the manual gives no default strap address, and the value is the model's choice (log 5). -/
def Obligations.ResetMeetsInvariants : Prop :=
  State.reset = State.powerOn 0 ∧
    ∀ straps, (State.powerOn straps).Capacities ∧ (State.powerOn straps).clock.Legal ∧
      (State.powerOn straps).BandLegal ∧ (State.powerOn straps).table.FrozenEqual ∧
      (State.powerOn straps).PoolLegal ∧ (State.powerOn straps).EpisodesLegal ∧
      (State.powerOn straps).LatchesLegal ∧ (State.powerOn straps).NamesExist

/-- Every step keeps the sizes of the report queue, the FIFOs, reply holding, the starve count, the link
counters, the episode records and the standing-query list. -/
def Obligations.StepKeepsCapacities : Prop :=
  ∀ s t : State, s.Capacities → step s = .next t → t.Capacities

/-- Every step keeps the clock in its ranges and the band UNTIMED exactly while the clock is not RUNNING. -/
def Obligations.StepKeepsClockAndBandLegal : Prop :=
  ∀ s t : State, s.clock.Legal → s.BandLegal → step s = .next t → t.clock.Legal ∧ t.BandLegal

/-- Every step keeps both limit tables at 64 indices and equal at every frozen index, and a frozen index
keeps its mark and its entry in both tables through every step that takes no power-on reset (R54, R55). -/
def Obligations.StepKeepsFrozenEntries : Prop :=
  ∀ s t : State, s.table.FrozenEqual → step s = .next t → t.table.FrozenEqual ∧
    ((∀ a rest, s.pending ≠ .powerOnReset a :: rest) → ∀ i, s.table.frozen.getLsbD i = true →
      t.table.frozen.getLsbD i = true ∧ t.table.active.at i = s.table.active.at i ∧
        t.table.staged.at i = s.table.staged.at i)

/-- Every step keeps the pool: exactly the windowed pairs of the active table hold a unit, at most 72 plain
and 24 histogram-capable ones, an LN entry's histogram-capable (R66); while the clock is not RUNNING every
unit is IDLE (R74). -/
def Obligations.StepKeepsPool : Prop :=
  ∀ s t : State, s.PoolLegal → step s = .next t → t.PoolLegal

/-- Every step keeps at most one current episode for each key and slot (R93), the coincidence mask empty or
of two slots or more with its latch set and its stamp present exactly when it is not empty (R128), and no
enabled notice pending while the attention latch is clear (R146). -/
def Obligations.StepKeepsEpisodesAndLatches : Prop :=
  ∀ s t : State, s.EpisodesLegal → s.LatchesLegal → step s = .next t →
    t.EpisodesLegal ∧ t.LatchesLegal

/-- Every step keeps what the due work and the current episodes name: slots of the twelve, keys that an entry
can have, lines the part has (R13, R93, R118, R136). So an operand that names nothing picks nothing (the
model's choice, log 29): a row of a tick or sample with such an operand changes nothing, and TICK and
COMMIT_CHECKS do the same with and without such a piece, key or pair among their orders. A LINE_RESET whose
position lies at the last frame of the run being sent or beyond it keeps the run whole, whichever it is. -/
def Obligations.OperandsThatNameNothing : Prop :=
  (∀ s t : State, s.NamesExist → step s = .next t → t.NamesExist) ∧
  (∀ s : State, s.NamesExist →
     (∀ line, 8 ≤ line → exec (.plantLineRecognition line) s = .next s) ∧
     (∀ slot, 12 ≤ slot → exec (.stallTimerExpiry slot) s = .next s) ∧
     (∀ key slot, key = 0 ∨ 65535 < key ∨ 12 ≤ slot →
       exec (.holdOffExpiry key slot) s = .next s ∧ exec (.maximumLength key slot) s = .next s) ∧
     (∀ line, 4 ≤ line → exec (.pulseEnd line) s = .next s ∧ exec (.flashTurn line) s = .next s) ∧
     (∀ before d after first swap, ¬dueExists d →
       exec (.tick ⟨before ++ d :: after, first, swap⟩) s = exec (.tick ⟨before ++ after, first, swap⟩) s) ∧
     (∀ before key after plain order first1 first2, key = 0 ∨ 65535 < key →
       exec (.commitChecks ⟨before ++ key :: after, plain, first1⟩) s =
         exec (.commitChecks ⟨before ++ after, plain, first1⟩) s ∧
       exec (.tick ⟨order, first2, ⟨before ++ key :: after, plain, first1⟩⟩) s =
         exec (.tick ⟨order, first2, ⟨before ++ after, plain, first1⟩⟩) s) ∧
     (s.table.FrozenEqual →
       ∀ before (pair : Nat × Nat) after keys order first1 first2, 64 ≤ pair.1 ∨ 12 ≤ pair.2 →
         exec (.commitChecks ⟨keys, before ++ pair :: after, first1⟩) s =
           exec (.commitChecks ⟨keys, before ++ after, first1⟩) s ∧
         exec (.tick ⟨order, first2, ⟨keys, before ++ pair :: after, first1⟩⟩) s =
           exec (.tick ⟨order, first2, ⟨keys, before ++ after, first1⟩⟩) s)) ∧
  (∀ (straps : BitVec 2) (p q : Nat) (s : State),
     (∀ run, s.takeRecognitions.ports.gatewayTx = some run → run.length ≤ p + 1 ∧ run.length ≤ q + 1) →
     exec (.lineReset straps p) s = exec (.lineReset straps q) s)

/-! ### Resets -/

/-- POWER_ON_RESET: every block at its power-on values. It is taken in every state and leaves no pin held (the
model's choice, log 17); the strap address read is its operand (log 5). RESET_ASSERTED: from then on the pins
keep their levels, whatever happens to the state behind them (R136, R149); while RESET is low already it
changes nothing (the model's choice, log 17). While RESET is high the pin of a beacon line is its output
(R141), and ATTN is driven exactly while the attention latch is set (R146); while it is low the pins are as
held (R136, R149). -/
def Obligations.PowerOnAndResetAsserted : Prop :=
  (∀ (straps : BitVec 2) (s : State), ∃ t, exec (.powerOnReset straps) s = .next t ∧
     t.pending = s.pending ∧ t.due = [] ∧ t.held = none ∧
     t.clock = ⟨0, 0, 0, .unset, 0, 0, 0, 15, ⟨0, 0, .unset⟩⟩ ∧
     t.schedule = ⟨List.replicate 14 none, List.replicate 14 none, [], []⟩ ∧
     t.slots = List.replicate 12 ⟨.unbound, none, ⟨0, 0, 0, 0, 0, 0, 0⟩, ⟨[], 0⟩⟩ ∧
     t.table = ⟨List.replicate 64 none, List.replicate 64 none, 0, false, none⟩ ∧
     t.windows.units = List.replicate 64 (List.replicate 12 none) ∧
     t.windows.cells =
       List.replicate 64 (List.replicate 12 ⟨none, none, none, none, none, none, none, none, none⟩) ∧
     t.episodes = ⟨[], [], 1, List.replicate 64 0⟩ ∧
     t.plant = ⟨List.replicate 8 ⟨⟨.low, 0⟩, ⟨false, .high, 4, 7, 0⟩, false, none, none, 0, 0⟩,
       ⟨.high, 0⟩, ⟨.high, 0⟩, ⟨⟨0, 0, .unset⟩, 0⟩, ⟨0, false, none⟩, none⟩ ∧
     t.beacons = List.replicate 4 ⟨.steady, 5, .auto, 0, none⟩ ∧ t.notices = ⟨0, 0, false⟩ ∧
     t.report = ⟨[], 0⟩ ∧ t.cadence = ⟨8, 60, 60, 15, 15, .continuous, true, []⟩ ∧
     t.ports = ⟨[], [], [], 0, none, none, 0, 0, 0, 0, straps⟩) ∧
  (∀ s : State,
     (s.held = none → exec .resetAsserted s = .next { s with held := some ⟨s.outputs, s.notices.latch⟩ } ∧
       ∀ u : State, u.held = some ⟨s.outputs, s.notices.latch⟩ →
         (∀ line, u.beaconPin line = s.beaconPin line) ∧ u.attnPin = s.attnPin) ∧
     (s.held ≠ none → exec .resetAsserted s = .next s)) ∧
  (∀ s : State,
     (s.held = none → (s.attnPin = true ↔ s.notices.latch = true) ∧
       ∀ (line : Nat) (b : BeaconLine), s.beacons[line]? = some b → s.beaconPin line = (match b.override with
         | .auto => b.automatic (!(s.demand line).isEmpty)
         | .forceOn => true
         | .forceOff => false)) ∧
     (∀ h : HeldPins, s.held = some h → s.attnPin = h.attnLow ∧
       ∀ line level, h.beacons[line]? = some level → s.beaconPin line = level))

/-- LINE_RESET: what each block keeps and what it takes; the site clock runs on and the band is decided
afresh (R23, R35), the active schedule stays (R30, R32), the standing queries are emptied (R164).
Recognitions of the last sample that are still outstanding are events of the time before it (the model's log
20); what is still due of a tick is discarded (the model's choice, log 30); the run being sent ends after
the frame at the position of the operand, and is kept whole for a position beyond it (the model's choice,
logs 14 and 29); without RESET held low nothing happens (the model's choice, log 17). -/
def Obligations.LineReset : Prop :=
  (∀ s : State, State.PiecesTaken plainTick (s.due.filter (fun d => match d with
      | .recognition _ => true
      | _ => false)) s s.takeRecognitions) ∧
  ∀ (straps : BitVec 2) (position : Nat) (s : State),
    (s.held = none → exec (.lineReset straps position) s = .next s) ∧
    (s.held ≠ none → ∃ t, exec (.lineReset straps position) s = .next t ∧
      t.pending = s.pending ∧ t.due = [] ∧ t.held = none ∧
      t.clock = { s.clock with band := t.bandNow } ∧
      t.schedule = ⟨s.schedule.activeBands, s.schedule.activeBands, s.schedule.activeExceptions,
        s.schedule.activeExceptions⟩ ∧
      t.slots = s.slots.map (fun r => ⟨match r.link.boundId with
        | some id => .waiting id
        | none => .unbound, none, ⟨0, 0, 0, 0, 0, 0, 0⟩, ⟨[], 0⟩⟩) ∧
      (∀ i, t.table.active.at i = if s.table.frozen.getLsbD i then s.table.active.at i else none) ∧
      t.table.staged = t.table.active ∧ t.table.frozen = s.table.frozen ∧ t.table.pending = false ∧
      t.table.lastResult = none ∧
      t.windows.cells =
        List.replicate 64 (List.replicate 12 ⟨none, none, none, none, none, none, none, none, none⟩) ∧
      (∀ i slot, s.table.frozen.getLsbD i = false → t.windows.unitAt i slot = none) ∧
      (∀ i slot e u, t.table.active.at i = some e → e.slots.getLsbD slot = true →
        s.windows.unitAt i slot = some u → t.windows.unitAt i slot =
          some ⟨u.histogram, if e.activeIn t.clock.band && t.clock.running then e.openAcc t.now false
            else .idle⟩) ∧
      t.episodes = ⟨[], [], s.episodes.next, List.replicate 64 0⟩ ∧
      t.plant = { s.takeRecognitions.plant with
        lines := s.takeRecognitions.plant.lines.map (fun l => { l with summaryRun := 0, bandRun := 0 })
        bandStart := s.now
        coincidence := ⟨0, false, none⟩
        markLatch := none } ∧
      t.beacons = List.replicate 4 ⟨.steady, 5, .auto, 0, none⟩ ∧ t.notices = ⟨0, 0, false⟩ ∧
      t.report = ⟨[], 0⟩ ∧ t.cadence = ⟨8, 60, 60, 15, 15, .continuous, true, []⟩ ∧
      t.ports = ⟨[], [], [], 0, s.takeRecognitions.ports.gatewayTx.map (·.take (position + 1)),
        s.ports.fieldTx, 0, 0, 0, 0, straps⟩)

/-! ### The tick -/

/-- TICK: the tick count advances by one, and while the clock is RUNNING the site time by one eighth, past
midnight to the next day and past day 65535 to day 0 with the weekday going on by one (R21, R24). The stamp of
the tick is the site time it leaves, and the stamp of a moment its day, its eighth-of-day and the clock state
(R25). -/
def Obligations.TickAdvancesClock : Prop :=
  (∀ s : State, s.now = ⟨⟨s.clock.day, s.clock.eighth, s.clock.state⟩, s.clock.tickCount⟩) ∧
  ∀ (choice : TickChoice) (s : State), ∃ t, exec (.tick choice) s = .next t ∧
    t.clock.tickCount = s.clock.tickCount + 1 ∧ t.clock.state = s.clock.state ∧
    t.clock.trim = s.clock.trim ∧ t.clock.intervalTrim = s.clock.trim ∧
    t.clock.tickStamp = ⟨t.clock.day, t.clock.eighth, t.clock.state⟩ ∧
    (s.clock.state ≠ .running → t.clock.day = s.clock.day ∧ t.clock.eighth = s.clock.eighth ∧
      t.clock.weekdayOffset = s.clock.weekdayOffset) ∧
    (s.clock.state = .running →
      (s.clock.eighth + 1 < 691200 → t.clock.day = s.clock.day ∧
        t.clock.eighth = s.clock.eighth + 1 ∧ t.clock.weekdayOffset = s.clock.weekdayOffset) ∧
      (691200 ≤ s.clock.eighth + 1 → t.clock.eighth = 0 ∧
        (s.clock.day < 65535 → t.clock.day = s.clock.day + 1 ∧
          t.clock.weekdayOffset = s.clock.weekdayOffset) ∧
        (65535 ≤ s.clock.day → t.clock.day = 0 ∧
          t.clock.weekdayOffset = (s.clock.weekdayOffset + 2) % 7)))

/-- TICK in any state and with any order asked (the model's division of a tick, log 1): the outstanding work
of the tick before it is taken first, each piece as its own row takes it and with what that makes due, until
none is left; then the tick count and the site time advance and the pieces of this tick fall due; the pieces
asked for are taken in the order asked; then the counts that come to no event, the boundaries and the band
decision, which finds the boundaries of its tick taken (R80, log 8). TICK with nothing outstanding before it
and no order asked for: first come the counts that come to no event, the run counts of the active lines
(R123), the hold-offs above one tick (R104), the pulses and flash phases (R139, R140) and the cadence counters
(R155); then, at a whole second of a RUNNING clock, the FIXED boundaries and step ends in the order of an
evaluation event (R71, R73, R85), and at a whole minute the band decision (R35). The work of the other rows
falls due: the checks of a pending commit (R59), the expired stall timers (R13), the offers of waiting
verdicts and of a mark (R113, R132), the maximum lengths reached (R105), the hold-offs, pulses, flash phases
and base periods that end. -/
def Obligations.TickDuties : Prop :=
  (∀ (choice : TickChoice) (s : State), ∃ (w a x y t : State) (counts : List Due),
     State.OutstandingTaken choice s w ∧
     a = { w with clock := w.clock.tick, due := a.due } ∧ (∀ d, d ∈ a.due ↔ a.FallsDue d) ∧
     State.PiecesTaken choice choice.order a x ∧
     (∀ d, d ∈ counts ↔ d ∈ x.due ∧ x.CountsOn d) ∧ State.PiecesTaken choice counts x y ∧
     State.PiecesTaken choice [.windows, .band] y t ∧ exec (.tick choice) s = .next t) ∧
  (∀ (first : Bool) (swap : SwapChoice) (s : State), s.due = [] →
    ∃ w t : State, exec (.tick ⟨[], first, swap⟩) s = .next t ∧
      w = { s with due := w.due, clock := s.clock.tick, cadence := w.cadence, beacons := w.beacons
                   plant := { s.plant with lines := w.plant.lines }
                   episodes := { s.episodes with current := w.episodes.current } } ∧
      w.plant.lines.length = s.plant.lines.length ∧
      (∀ (i : Nat) (l : PlantLine), s.plant.lines[i]? = some l → w.plant.lines[i]? = some { l with
        summaryRun := if l.active then min (l.summaryRun + 1) 4294967295 else l.summaryRun
        bandRun := if l.active then min (l.bandRun + 1) 4294967295 else l.bandRun }) ∧
      ((s.episodes.current.map (fun e => (e.key, e.slot))).Nodup →
        w.episodes.current = s.episodes.current.map (fun e => { e with state := match e.state with
          | .holdOff n => if 1 < n then .holdOff (n - 1) else .holdOff n
          | .opened => .opened }) ∧
        ∀ e n, e ∈ s.episodes.current → e.state = .holdOff n → n ≤ 1 → .holdOff e.key e.slot ∈ w.due) ∧
      w.beacons.length = s.beacons.length ∧
      (∀ (i : Nat) (b : BeaconLine), i < 4 → s.beacons[i]? = some b → w.beacons[i]? = some { b with
          pulse := if b.pulse = 1 then 1 else b.pulse - 1
          flash := b.flash.map (fun p => if 1 < p.count then ⟨p.asserted, p.count - 1⟩ else p) } ∧
        (b.pulse = 1 → .pulse i ∈ t.due) ∧ (∀ p, b.flash = some p → p.count ≤ 1 → .flash i ∈ t.due)) ∧
      (s.cadence.running = false → w.cadence = s.cadence) ∧
      (s.cadence.running = true →
        (1 < s.cadence.second → w.cadence = { s.cadence with second := s.cadence.second - 1 }) ∧
        (s.cadence.second ≤ 1 → 1 < s.cadence.base →
          w.cadence = { s.cadence with second := 8, base := s.cadence.base - 1 }) ∧
        (s.cadence.second ≤ 1 → s.cadence.base ≤ 1 → w.cadence = s.cadence ∧ .cadence ∈ t.due)) ∧
      (¬(w.clock.state = .running ∧ w.clock.eighth % 8 = 0) → t = w) ∧
      (w.clock.state = .running → w.clock.eighth % 8 = 0 → ∀ x : State,
        x = (w.evaluationPairs [w.clock.band]).foldl (fun x' p => x'.endWindow p) w →
        (w.clock.eighth % 480 ≠ 0 → t = x) ∧
        (w.clock.eighth % 480 = 0 →
          t = State.decideBand true first { x with due := x.due.filter (fun d => d != .band) })) ∧
      (∀ (i : Nat) (l : PlantLine), s.plant.lines[i]? = some l → ∃ m : PlantLine, t.plant.lines[i]? = some m ∧
        m.active = l.active ∧
        m.summaryRun = if l.active then min (l.summaryRun + 1) 4294967295 else l.summaryRun) ∧
      (t.clock.state = .running → t.clock.eighth % 480 = 0 → t.clock.band = t.bandNow) ∧
      (¬(t.clock.state = .running ∧ t.clock.eighth % 480 = 0) → t.clock.band = s.clock.band) ∧
      (s.table.pending = true → .commit ∈ t.due ∧ t.table = s.table) ∧
      (s.plant.markLatch.isSome → .mark ∈ t.due) ∧
      (s.episodes.waiting ≠ [] → .verdicts ∈ t.due) ∧
      (∀ i r id e last, s.slots[i]? = some r → r.link = .live id e last →
        16 ≤ (t.clock.tickCount - last).toNat → .stall i ∈ t.due) ∧
      (∀ ep p, ep ∈ s.episodes.current → s.table.active.find ep.key = some p →
        480 * p.2.maxLength ≤ (t.clock.tickCount - ep.openTick).toNat →
        .maximumLength ep.key ep.slot ∈ t.due))

/-! ### The commit -/

/-- The first failing check names the commit's failure and the lowest index at fault (R59, R60). COMMIT_CHECKS
on staged copies that fail: the result FAILED with its reason, the notice COMMIT_FAILED, and nothing else
(R59). A table needs an accumulator for each slot of the mask of each FIXED, BAND and ROLLING entry, and a
histogram-capable one for each such slot of an LN entry (R60). -/
def Obligations.FailedCommit : Prop :=
  (∀ (t : EntryTable) (slots : LimitEntry → Nat),
     (∀ e, slots e = ((List.range 12).filter (fun n => e.slots.getLsbD n)).length) →
     t.need = (t.map (fun x => match x with
       | some e => if e.window = .slice then 0 else slots e
       | none => 0)).sum ∧
     t.histogramNeed = (t.map (fun x => match x with
       | some e => (match e.metric with
         | .ln _ => if e.window = .slice then 0 else slots e
         | _ => 0)
       | none => 0)).sum) ∧
  (∀ s : State,
     (∀ i, IsLowest s.table.staged.Duplicate i → s.commitFailure = some (.duplicateKey, some i)) ∧
     ((∀ i, ¬s.table.staged.Duplicate i) →
       (∀ i, IsLowest s.table.staged.BadReference i → s.commitFailure = some (.badReference, some i)) ∧
       ((∀ i, ¬s.table.staged.BadReference i) →
         (∀ i, IsLowest (s.table.staged.UndefinedBand s.schedule.stagedBands) i →
           s.commitFailure = some (.bandUndefined, some i)) ∧
         ((∀ i, ¬s.table.staged.UndefinedBand s.schedule.stagedBands i) →
           s.commitFailure =
             if 96 < s.table.staged.need then some (.poolExhausted, none)
             else if 24 < s.table.staged.histogramNeed then some (.histogramExhausted, none)
             else none)))) ∧
  (∀ (choice : SwapChoice) (s : State) (reason : CommitFailure) (index : Option Nat),
     .commit ∈ s.due → s.table.pending = true → s.commitFailure = some (reason, index) →
     ∃ t, exec (.commitChecks choice) s = .next t ∧ t.notified .commitFailed ∧
       t = State.raise .commitFailed { s with
         due := s.due.filter (fun d => d != .commit)
         table := { s.table with pending := false, lastResult := some (.failed reason index) } })

/-- COMMIT_CHECKS on staged copies that pass: the swap makes the staged copies active, decides the band under
them, leaves exactly the windowed pairs of the new table holding units, and raises COMMIT_DONE (R36, R63,
R66). The pairs of LN entries hold histogram-capable units, and another pair holds one only where all 72 plain
units are held (R67). The beacon lines keep mode, width and override; each FLASH line has a phase exactly
where its demand under the new table is not empty, the phase it had or one begun afresh; and a pulse runs on,
or restarts at full width at an opening of the band change (R137, R139, R140). The units in use of a kind are
those that a pair of the table holds (R66). -/
def Obligations.CommitSwaps : Prop :=
  (∀ (w : WindowEngine) (kind : Bool), w.inUse kind =
     (w.units.flatten.filter (fun u => match u with
       | some x => x.histogram == kind
       | none => false)).length) ∧
  ∀ (choice : SwapChoice) (s : State), .commit ∈ s.due → s.table.pending = true →
    s.commitFailure = none →
    ∃ t, exec (.commitChecks choice) s = .next t ∧ t.notified .commitDone ∧
      t.table = ⟨s.table.staged, s.table.staged, s.table.frozen, false, some .done⟩ ∧
      t.schedule = ⟨s.schedule.stagedBands, s.schedule.stagedBands, s.schedule.stagedExceptions,
        s.schedule.stagedExceptions⟩ ∧
      t.clock = { s.clock with band := t.bandNow } ∧
      (∀ i slot, i < 64 → slot < 12 →
        ((t.windows.unitAt i slot).isSome ↔ ∃ e, s.table.staged.at i = some e ∧ e.window ≠ .slice ∧
          e.slots.getLsbD slot = true)) ∧
      (s.table.FrozenEqual → t.windows.inUse false ≤ 72 ∧
        ∀ i slot e x, s.table.staged.at i = some e → t.windows.unitAt i slot = some x →
          ((∃ n, e.metric = .ln n) → x.histogram = true) ∧
          ((∀ n, e.metric ≠ .ln n) → x.histogram = true → t.windows.inUse false = 72)) ∧
      (∀ (i : Nat) (b : BeaconLine), s.beacons[i]? = some b → ∃ c : BeaconLine, t.beacons[i]? = some c ∧
        c.mode = b.mode ∧ c.width = b.width ∧ c.override = b.override ∧
        (c.flash.isSome ↔ b.mode = .flash ∧ t.demand i ≠ []) ∧
        (c.flash = none ∨ c.flash = b.flash ∨ c.flash = some ⟨true, 4⟩) ∧
        (c.pulse = b.pulse ∨ t.clock.band ≠ s.clock.band ∧ b.mode = .pulse ∧ c.pulse = 8 * b.width)) ∧
      t.slots = s.slots ∧ t.cadence = s.cadence ∧ t.held = s.held ∧
      t.plant.mark = s.plant.mark ∧ t.plant.certify = s.plant.certify ∧
      t.plant.markLatch = s.plant.markLatch ∧
      t.ports.strap = s.ports.strap ∧ t.ports.onward = s.ports.onward ∧
      (∀ (i : Nat) (l : PlantLine), s.plant.lines[i]? = some l → ∃ m : PlantLine,
        t.plant.lines[i]? = some m ∧ m = { l with bandRun := m.bandRun })

/-- What the swap of COMMIT_CHECKS does to the accounts of each key (R61 to R63, R83, R110). Episodes whose
key is withdrawn or redefined, or whose slot or action falls away, close under the old table and each yields
one verdict, WITHDRAWN or REDEFINED; in what order their verdicts come is left open here (the model's choice,
logs 10 and 36). The beacon lines follow the closes, and then the demand under the new table (R137). A pair
carried over keeps its result cell and its unit's contents under its new index; the cell of any other pair, a
redefined key's among them, is restarted and its unit IDLE. Every uncaptured counter moves with its key. From
that state the band is decided, so a swap that changes the band makes its band-change event there (the order
within a swap is the model's reading, log 23), and that event is never one decided at a minute tick, even in a
swap at a minute tick (R36, R70; the model's reading, log 28); after it every unit still IDLE opens a window
where its entry is active and the clock RUNNING (R70), and COMMIT_DONE is raised (R63); in a swap that leaves
the band as it was, cells, contents and episodes stay so. -/
def Obligations.SwapCarriesAccounts : Prop :=
  (∀ (choice : SwapChoice) (s t : State), .commit ∈ s.due → s.table.pending = true →
    s.commitFailure = none → exec (.commitChecks choice) s = .next t →
    ∃ (vs : List Verdict) (closing : Episode → Option CloseReason) (x y w b z : State),
      b = w.decideBand false choice.bandEndFirst ∧
      z = { b with windows := { b.windows with units := z.windows.units } } ∧
      (∀ i e slot a, s.table.staged.at i = some e → e.slots.getLsbD slot = true →
        b.windows.unitAt i slot = some a → z.windows.unitAt i slot = some ⟨a.histogram,
          if a.acc = .idle ∧ e.bands.getLsbD b.clock.band = true ∧ b.clock.state = .running
            then e.openAcc b.now false else a.acc⟩) ∧
      (∀ i slot, (∀ e, s.table.staged.at i = some e → e.slots.getLsbD slot = false) →
        z.windows.unitAt i slot = b.windows.unitAt i slot) ∧
      t = State.raise .commitDone
        { z with table := { z.table with pending := false, lastResult := some .done } } ∧
      (∀ e, closing e = (s.table.active.find e.key).bind (fun p =>
        closureAt p.2 ((s.table.staged.find e.key).map (·.2)) e.slot)) ∧
      vs.Perm (s.episodes.current.filterMap (fun e => (closing e).map (fun reason =>
        e.verdict s.table.active reason s.now))) ∧
      x = State.offerEach vs { s with due := s.due.filter (fun d => d != .commit) } ∧
      y = { x with
        episodes := { x.episodes with current := s.episodes.current.filter (fun e => (closing e).isNone) }
        beacons := y.beacons } ∧
      ((∀ e, e ∈ s.episodes.current → closing e = none) → y.beacons = s.beacons) ∧
      ((∃ e, e ∈ s.episodes.current ∧ closing e ≠ none) → State.Follows s y) ∧
      State.Follows y w ∧
      w = { y with
        table := { s.table with active := s.table.staged }
        schedule := { s.schedule with activeBands := s.schedule.stagedBands
                                      activeExceptions := s.schedule.stagedExceptions }
        windows := w.windows
        beacons := w.beacons
        episodes := { y.episodes with current := w.episodes.current, uncaptured := w.episodes.uncaptured } } ∧
      w.episodes.current = y.episodes.current.map (fun e =>
        match s.table.staged.find e.key with
        | some (i, _) => { e with index := i }
        | none => e) ∧
      (∀ i slot, i < 64 → slot < 12 →
        (∀ e, s.table.staged.at i = some e →
          (∀ j old, s.table.active.find e.key = some (j, old) →
            (old.metric = e.metric → old.window = e.window → old.bands = e.bands →
              old.slots.getLsbD slot = true → e.slots.getLsbD slot = true →
              w.windows.cellAt i slot = s.windows.cellAt j slot ∧
              (e.window ≠ .slice → w.windows.accAt i slot = s.windows.accAt j slot)) ∧
            (old.metric ≠ e.metric ∨ old.window ≠ e.window ∨ old.bands ≠ e.bands ∨
                old.slots.getLsbD slot = false ∨ e.slots.getLsbD slot = false →
              w.windows.cellAt i slot = .empty ∧ w.windows.accAt i slot = .idle)) ∧
          (s.table.active.find e.key = none →
            w.windows.cellAt i slot = .empty ∧ w.windows.accAt i slot = .idle)) ∧
        (s.table.staged.at i = none →
          w.windows.cellAt i slot = .empty ∧ w.windows.unitAt i slot = none)) ∧
      w.episodes.uncaptured.length = 64 ∧
      (∀ i, i < 64 →
        (∀ e j old, s.table.staged.at i = some e → s.table.active.find e.key = some (j, old) →
          w.episodes.uncaptured[i]? = some (s.episodes.uncaptured.getD j 0)) ∧
        (∀ e, s.table.staged.at i = some e → s.table.active.find e.key = none →
          w.episodes.uncaptured[i]? = some 0) ∧
        (s.table.staged.at i = none → w.episodes.uncaptured[i]? = some 0))) ∧
  (∀ (old : LimitEntry) (slot : Nat), closureAt old none slot = some .withdrawn ∧
    ∀ e : LimitEntry,
      (old.metric ≠ e.metric ∨ old.window ≠ e.window ∨ old.bands ≠ e.bands →
        closureAt old (some e) slot = some .redefined) ∧
      (old.metric = e.metric → old.window = e.window → old.bands = e.bands →
        (e.slots.getLsbD slot = true → e.action = .episode ∨ e.action = .both →
          closureAt old (some e) slot = none) ∧
        (e.slots.getLsbD slot = false ∨ ¬(e.action = .episode ∨ e.action = .both) →
          closureAt old (some e) slot = some .withdrawn))) ∧
  (∀ (choice : SwapChoice) (s t : State), .commit ∈ s.due → s.table.pending = true →
    s.commitFailure = none → exec (.commitChecks choice) s = .next t → t.clock.band = s.clock.band →
    (∀ i slot e j old, i < 64 → slot < 12 → s.table.staged.at i = some e →
      s.table.active.find e.key = some (j, old) → old.metric = e.metric → old.window = e.window →
      old.bands = e.bands → old.slots.getLsbD slot = true → e.slots.getLsbD slot = true →
        t.windows.cellAt i slot = s.windows.cellAt j slot ∧
        (e.window ≠ .slice → s.windows.accAt j slot ≠ .idle →
          t.windows.accAt i slot = s.windows.accAt j slot)) ∧
    (∀ i slot e, i < 64 → slot < 12 → s.table.staged.at i = some e →
      s.table.active.find e.key = none → t.windows.cellAt i slot = .empty) ∧
    (∀ i slot, i < 64 → slot < 12 → s.table.staged.at i = none → t.windows.cellAt i slot = .empty) ∧
    (∀ ep j old, ep ∈ s.episodes.current → s.table.active.find ep.key = some (j, old) →
      (∀ i e, s.table.staged.find ep.key = some (i, e) → old.metric = e.metric →
        old.window = e.window → old.bands = e.bands → e.slots.getLsbD ep.slot = true →
        (e.action = .episode ∨ e.action = .both) → { ep with index := i } ∈ t.episodes.current) ∧
      ((∀ i e, s.table.staged.find ep.key = some (i, e) → old.metric ≠ e.metric ∨
        old.window ≠ e.window ∨ old.bands ≠ e.bands ∨ e.slots.getLsbD ep.slot = false ∨
        ¬(e.action = .episode ∨ e.action = .both)) →
        ∀ x, x ∈ t.episodes.current → ¬(x.key = ep.key ∧ x.slot = ep.slot))))

/-! ### The pieces of a tick -/

/-- STALL_TIMER_EXPIRY: a LIVE slot that has waited 16 ticks stalls and SLOT_STALLED is raised; each of its
episodes closes STALLED, oldest first, and its verdict is offered (R108, R111); its windows stay as they are.
A slot that a slice has reached first stays as it is (R13). That its verdicts carry the moment the row is
taken, also where the clock has been started since the tick, is the model's choice (log 35). -/
def Obligations.StallTimerExpiry : Prop :=
  ∀ (slot : Nat) (s : State) (r : SlotRecord), .stall slot ∈ s.due → s.slots[slot]? = some r →
    (∀ id e last, r.link = .live id e last → 16 ≤ (s.clock.tickCount - last).toNat →
      ∃ w t : State, exec (.stallTimerExpiry slot) s = .next t ∧ t.notified .slotStalled ∧
        t = w.offerEach (s.verdictsOf (fun ep => ep.slot == slot) .stalled) ∧
        w = State.raise .slotStalled { s with
          due := s.due.filter (fun d => d != .stall slot)
          slots := t.slots
          episodes := { s.episodes with current := t.episodes.current }
          beacons := w.beacons } ∧
        ((∀ ep, ep ∈ s.episodes.current → ep.slot ≠ slot) → w.beacons = s.beacons) ∧
        ((∃ ep, ep ∈ s.episodes.current ∧ ep.slot = slot) → State.Follows s w) ∧
        t.slots = s.slots.set slot { r with
          link := .stalled id e last
          counters := { r.counters with stalls := min (r.counters.stalls + 1) 65535 } } ∧
        t.episodes.current = s.episodes.current.filter (fun ep => ep.slot != slot) ∧
        t.episodes.next = s.episodes.next ∧ t.episodes.uncaptured = s.episodes.uncaptured ∧
        t.windows = s.windows ∧ t.clock = s.clock ∧ t.schedule = s.schedule ∧ t.table = s.table ∧
        t.plant = s.plant ∧ t.cadence = s.cadence ∧ t.held = s.held) ∧
    ((∀ id e last, r.link = .live id e last → (s.clock.tickCount - last).toNat < 16) →
      exec (.stallTimerExpiry slot) s =
        .next { s with due := s.due.filter (fun d => d != .stall slot) })

/-- A closure demand that names episodes by key and slot takes exactly the named ones out; the beacon lines
follow the demand; and each named episode yields one verdict, oldest first, with the reason of the demand
and the stamp and tick of its moment (R108, R111, R112). Verdicts offered one after another join the waiting
list in their order where one waits or the report queue is full; with none waiting, the latch set and the
transmitter busy, those that find room join the queue in their order and the others wait (R113). -/
def Obligations.ClosureDemands : Prop :=
  (∀ (named : Episode → Bool) (reason : CloseReason) (s : State),
     (∀ a b : Episode, a.key = b.key → a.slot = b.slot → named a = named b) →
     ∃ u : State, s.demandClose named reason = u.offerEach (s.verdictsOf named reason) ∧
       u = { s with
         episodes := { s.episodes with current := s.episodes.current.filter (fun e => !named e) }
         beacons := u.beacons } ∧
       ((∀ e, e ∈ s.episodes.current → named e = false) → u = s) ∧
       ((∃ e, e ∈ s.episodes.current ∧ named e = true) → State.Follows s u)) ∧
  (∀ (named : Episode → Bool) (reason : CloseReason) (s : State) (k : Nat) (e : Episode),
     (s.episodes.current.filter named)[k]? = some e →
     ∃ v : Verdict, (s.verdictsOf named reason)[k]? = some v ∧ v.number = e.number ∧ v.key = e.key ∧
       v.index = e.index ∧ v.slot = e.slot ∧ v.reason = reason ∧ v.close = s.now ∧ v.start = e.start ∧
       v.lastTrue = e.lastTrue ∧ v.openTick = e.openTick ∧
       v.duration = s.clock.tickCount - e.openTick ∧ v.peak = e.peak ∧ v.leq = e.energy.leq ∧
       v.sliceCount = e.energy.count ∧ v.reentries = e.reentries ∧ v.primary = e.primary ∧
       v.everActive = e.everActive ∧ v.coincident = e.coincident ∧
       v.continuationOf = e.continuationOf ∧ v.suspect = e.suspect ∧ v.truncated = e.truncated ∧
       (v.clockNotRunning = true ↔ e.clockNotRunning = true ∨ s.clock.state ≠ .running) ∧
       ∀ i x, s.table.active.find e.key = some (i, x) →
         v.judged = some ⟨x.metric, x.window, x.test, x.negate, x.threshold⟩) ∧
  (∀ (vs : List Verdict) (s : State),
     (s.episodes.waiting ≠ [] ∨ 48 ≤ s.report.queue.length → s.offerEach vs =
       { s with episodes := { s.episodes with waiting := s.episodes.waiting ++ vs } }) ∧
     (s.episodes.waiting = [] → s.notices.latch = true → s.ports.gatewayTx ≠ none →
       (s.offerEach vs).report.queue = s.report.queue ++ (vs.take (48 - s.report.queue.length)).map
         (fun v => ⟨s.clock.tickCount, .verdict v⟩) ∧
       (s.offerEach vs).episodes.waiting = vs.drop (48 - s.report.queue.length)))

/-- HOLD_OFF_EXPIRY: a hold-off of more than one tick counts down; at its last tick the episode leaves the
current ones and its verdict, closed QUIET with the stamp and tick of the tick, is offered, also where the
clock has been started since; the beacon lines follow the demand (R104, R108, R111). -/
def Obligations.HoldOffExpiry : Prop :=
  ∀ (key slot : Nat) (s : State), .holdOff key slot ∈ s.due →
    (∀ e n, s.episodes.find key slot = some e → e.state = .holdOff n → 1 < n →
      ∃ current, exec (.holdOffExpiry key slot) s =
        .next { s with due := s.due.filter (fun d => d != .holdOff key slot)
                       episodes := { s.episodes with current := current } } ∧
        current.find? (Episode.of key slot) = some { e with state := .holdOff (n - 1) } ∧
        current.eraseP (Episode.of key slot) = s.episodes.current.eraseP (Episode.of key slot)) ∧
    (∀ e n, s.episodes.find key slot = some e → e.state = .holdOff n → n ≤ 1 →
      ∃ t : State, exec (.holdOffExpiry key slot) s = .next (t.offerVerdict
          (e.verdict s.table.active .quiet ⟨s.clock.tickStamp, s.clock.tickCount⟩)) ∧
        t = { s with
          due := s.due.filter (fun d => d != .holdOff key slot)
          episodes := { s.episodes with current := s.episodes.current.eraseP (Episode.of key slot) }
          beacons := t.beacons } ∧
        ∀ (i : Nat) (b : BeaconLine), s.beacons[i]? = some b →
          t.beacons[i]? = some (b.follow (!(t.demand i).isEmpty))) ∧
    (∀ e, s.episodes.find key slot = some e → e.state = .opened →
      exec (.holdOffExpiry key slot) s =
        .next { s with due := s.due.filter (fun d => d != .holdOff key slot) }) ∧
    (s.episodes.find key slot = none →
      exec (.holdOffExpiry key slot) s =
        .next { s with due := s.due.filter (fun d => d != .holdOff key slot) })

/-- MAXIMUM_LENGTH: an OPEN episode at its maximum length closes CONTINUED and its verdict is offered; then,
with a record free, its continuation opens with the next number, the predecessor's close as its start, and
nothing counted yet, or else it is counted uncaptured. A HOLDOFF one closes QUIET; a shorter one stays. In
every close the beacon lines follow the demand (R137). Closes and continuation carry the stamp and tick of the
tick, also where the clock has been started since (R105, R106). -/
def Obligations.MaximumLength : Prop :=
  ∀ (key slot : Nat) (s : State) (e : Episode) (p : Nat × LimitEntry),
    .maximumLength key slot ∈ s.due → s.episodes.find key slot = some e →
    s.table.active.find key = some p →
    ∀ (at_ : Moment) (w : State), at_ = ⟨s.clock.tickStamp, s.clock.tickCount⟩ →
    w = State.offerVerdict (e.verdict s.table.active .continued at_) { s with
      due := s.due.filter (fun d => d != .maximumLength key slot)
      episodes := { s.episodes with current := s.episodes.current.eraseP (Episode.of key slot) } } →
    ((s.clock.tickCount - e.openTick).toNat < 480 * p.2.maxLength →
      exec (.maximumLength key slot) s =
        .next { s with due := s.due.filter (fun d => d != .maximumLength key slot) }) ∧
    (480 * p.2.maxLength ≤ (s.clock.tickCount - e.openTick).toNat → e.state = .opened →
      s.episodes.current.length + s.episodes.waiting.length < 32 ∨
        (s.episodes.waiting = [] ∧ s.report.queue.length < 48 ∧ s.episodes.current.length ≤ 32) →
      ∃ t c, exec (.maximumLength key slot) s = .next t ∧
        t = w.openEpisode ⟨e.key, e.index, e.slot, s.clock.tickCount, at_, at_, none,
          some e.number, false⟩ ∧
        t.notified .episodeOpened ∧
        t.episodes.next = (if s.episodes.next < 65535 then s.episodes.next + 1 else 1) ∧
        t.episodes.current.getLast? = some c ∧
        t.episodes.current.length = s.episodes.current.length ∧
        c.number = s.episodes.next ∧ c.key = e.key ∧ c.index = e.index ∧ c.slot = e.slot ∧
        c.state = .opened ∧ c.openTick = s.clock.tickCount ∧ c.start = at_ ∧ c.lastTrue = at_ ∧
        c.peak = none ∧ c.energy = ⟨[], 0⟩ ∧ c.reentries = 0 ∧ c.continuationOf = some e.number ∧
        c.suspect = false ∧ c.truncated = false ∧
        (c.clockNotRunning = true ↔ s.clock.tickStamp.clock ≠ .running) ∧
        t.clock = s.clock ∧ t.table = s.table ∧ t.slots = s.slots ∧ t.windows = s.windows ∧
        t.cadence = s.cadence ∧ t.plant.lines = s.plant.lines) ∧
    (480 * p.2.maxLength ≤ (s.clock.tickCount - e.openTick).toNat → e.state = .opened →
      ¬(s.episodes.current.length + s.episodes.waiting.length < 32 ∨
        (s.episodes.waiting = [] ∧ s.report.queue.length < 48 ∧ s.episodes.current.length ≤ 32)) →
      ∃ t : State, exec (.maximumLength key slot) s = .next t ∧ t.notified .episodeOverflow ∧
        t = State.raise .episodeOverflow { w with
          beacons := t.beacons
          episodes := { w.episodes with uncaptured := t.episodes.uncaptured } } ∧ State.Follows w t ∧
        t.episodes.current = s.episodes.current.eraseP (Episode.of key slot) ∧
        t.episodes.next = s.episodes.next ∧
        t.episodes.uncaptured = s.episodes.uncaptured.modify e.index (fun n => min (n + 1) 65535) ∧
        t.clock = s.clock ∧ t.table = s.table ∧ t.slots = s.slots ∧ t.windows = s.windows ∧
        t.cadence = s.cadence ∧ t.plant = s.plant) ∧
    (480 * p.2.maxLength ≤ (s.clock.tickCount - e.openTick).toNat → ∀ n, e.state = .holdOff n →
      ∃ t : State, exec (.maximumLength key slot) s = .next (t.offerVerdict
          (e.verdict s.table.active .quiet at_)) ∧
        t = { s with
          due := s.due.filter (fun d => d != .maximumLength key slot)
          episodes := { s.episodes with current := s.episodes.current.eraseP (Episode.of key slot) }
          beacons := t.beacons } ∧ State.Follows s t)

/-- What an opening does, a continuation's too. The record takes the next number and its candidates as
ever-active lines; the primary line is the candidate of lowest priority figure, the lowest-numbered among
equals (R124, R125). The slots of the current episodes on other slots are its coincident slots, those
episodes gain its slot, and the coincidence mask gains them all, the latch setting with the stamp of the
moment and COINCIDENCE when the mask was empty (R127, R128). The beacon lines follow the demand, and an
opening that is no continuation starts the pulse of a PULSE line its entry names (R137, R139).
EPISODE_OPENED is raised (R94, R96, R106). -/
def Obligations.Openings : Prop :=
  ∀ (o : Opening) (s t : State), t = s.openEpisode o →
    ∃ (e : Episode) (others : SlotMask),
      (∀ n, n < 12 → (others.getLsbD n = true ↔
        n ≠ o.slot ∧ ∃ x, x ∈ s.episodes.current ∧ x.slot = n)) ∧
      e = { e with
        number := s.episodes.next, key := o.key, index := o.index, slot := o.slot, state := .opened
        openTick := o.openTick, start := o.start, lastTrue := o.lastTrue, peak := o.peak
        energy := ⟨[], 0⟩, reentries := 0, coincident := others, continuationOf := o.continuationOf
        suspect := false, truncated := o.truncated } ∧
      (e.clockNotRunning = true ↔ o.lastTrue.stamp.clock ≠ .running) ∧
      (∀ i, i < 8 → (e.everActive.getLsbD i = true ↔ ∃ l, s.Candidate o.openTick i l)) ∧
      (e.primary = none ↔ ∀ i l, ¬s.Candidate o.openTick i l) ∧
      (∀ i, e.primary = some i → ∃ l, s.Candidate o.openTick i l ∧ ∀ j m, s.Candidate o.openTick j m →
        l.record.priority < m.record.priority ∨ l.record.priority = m.record.priority ∧ i ≤ j) ∧
      t.episodes = { s.episodes with
        current := s.episodes.current.map (fun x =>
          if x.slot = o.slot then x else { x with coincident := setInsert x.coincident o.slot }) ++ [e]
        next := if s.episodes.next < 65535 then s.episodes.next + 1 else 1 } ∧
      t.notified .episodeOpened ∧
      (∀ w : State, w = { s with episodes := t.episodes, beacons := t.beacons, plant := t.plant } →
        t = State.raise .episodeOpened (if others ≠ 0 ∧ s.plant.coincidence.mask = 0
          then w.raise .coincidence else w)) ∧
      (others = 0 → t.plant = s.plant) ∧
      (others ≠ 0 → s.plant.coincidence.mask = 0 → t.notified .coincidence ∧
        t.plant = { s.plant with coincidence := ⟨setInsert others o.slot, true, some o.lastTrue⟩ }) ∧
      (others ≠ 0 → s.plant.coincidence.mask ≠ 0 → t.plant = { s.plant with
        coincidence := { s.plant.coincidence with
          mask := s.plant.coincidence.mask ||| setInsert others o.slot } }) ∧
      (∀ (i : Nat) (b : BeaconLine), s.beacons[i]? = some b →
        (o.continuationOf = none → s.Names o.key i → b.mode = .pulse →
          t.beacons[i]? = some { b.follow (!(t.demand i).isEmpty) with pulse := 8 * b.width }) ∧
        (o.continuationOf ≠ none ∨ ¬s.Names o.key i ∨ b.mode ≠ .pulse →
          t.beacons[i]? = some (b.follow (!(t.demand i).isEmpty))))

/-- PULSE_END and FLASH_TURN: the pulse remaining of a line decreases by one, ending the pulse at 0; the
flash count decreases by one, and at 0 the phase turns with a count of 4 (R139, R140). A FLASH line begins a
phase, asserted for 4 ticks, when its demand has become non-empty, keeps it while it stays so, and has none
without demand (R140). BASE_UNDERFLOW takes the count of the tick: the second count, at its end the base
counter, at its end the base latch with one off the summary counter; a summary counter at 0 makes the
summary underflow due (R155). A stopped unit does not count. -/
def Obligations.BeaconAndCadenceTimers : Prop :=
  (∀ (line : Nat) (s : State) (b : BeaconLine), s.beacons[line]? = some b →
     (.pulse line ∈ s.due → exec (.pulseEnd line) s =
       .next { s with due := s.due.filter (fun d => d != .pulse line)
                      beacons := s.beacons.set line { b with pulse := b.pulse - 1 } }) ∧
     (.flash line ∈ s.due → ∀ level n, b.flash = some ⟨level, n⟩ → exec (.flashTurn line) s =
       .next { s with due := s.due.filter (fun d => d != .flash line)
                      beacons := s.beacons.set line
                        { b with flash := some (if n ≤ 1 then ⟨!level, 4⟩ else ⟨level, n - 1⟩) } }) ∧
     (.flash line ∈ s.due → b.flash = none → exec (.flashTurn line) s =
       .next { s with due := s.due.filter (fun d => d != .flash line) }) ∧
     (b.mode = .pulse → ∀ demanded, (b.automatic demanded = true ↔ 0 < b.pulse)) ∧
     (b.mode = .steady → ∀ demanded, b.automatic demanded = demanded) ∧
     (b.mode = .flash → ∀ demanded, (b.automatic demanded = true ↔ ∃ n, b.flash = some ⟨true, n⟩)) ∧
     (∀ demanded, b.follow demanded = { b with flash := (b.follow demanded).flash }) ∧
     (b.mode = .flash → b.flash = none → (b.follow true).flash = some ⟨true, 4⟩) ∧
     (b.mode = .flash → b.flash ≠ none → b.follow true = b) ∧
     (∀ demanded, b.mode ≠ .flash ∨ demanded = false → (b.follow demanded).flash = none)) ∧
  (∀ s : State, .cadence ∈ s.due → .summary ∉ s.due →
     (s.cadence.running = false → exec .baseUnderflow s =
       .next { s with due := s.due.filter (fun d => d != .cadence) }) ∧
     (s.cadence.running = true →
       (1 < s.cadence.second → exec .baseUnderflow s =
         .next { s with due := s.due.filter (fun d => d != .cadence)
                        cadence := { s.cadence with second := s.cadence.second - 1 } }) ∧
       (s.cadence.second ≤ 1 → 1 < s.cadence.base → exec .baseUnderflow s =
         .next { s with due := s.due.filter (fun d => d != .cadence)
                        cadence := { s.cadence with second := 8, base := s.cadence.base - 1 } }) ∧
       (s.cadence.second ≤ 1 → s.cadence.base ≤ 1 → exec .baseUnderflow s =
         .next { s with due := s.due.filter (fun d => d != .cadence) ++
                          (if s.cadence.summary ≤ 1 then [.summary] else [])
                        cadence := { s.cadence with second := 8, base := s.cadence.baseLatch,
                                                    summary := s.cadence.summary - 1 } })))

/-- SUMMARY_UNDERFLOW: the summary counter reloads, and ONE_SHOT stops the unit. With room, the SUMMARY's
admission clears what it reports (R160). With the gateway-port transmitter busy, the SUMMARY record and one
QUERY record for each query, read before any of them is offered, join the queue in order; QUEUE_HIGH is
pending where the depth reaches 40 on the way (R152), those that find no room are dropped and counted, and a
latch that this sets offers its ATTENTION record behind them (R151, R156, R162; that it follows is log 34). On
an idle transmitter with nothing waiting and no notice to set the latch for, the SUMMARY record departs at
once and the QUERY records wait (R171). With the queue full all are dropped and counted, nothing is cleared,
and the queue and the ports stay as they are (R151, R160). The SUMMARY record holds the moment, an account of
each slot that is not UNBOUND, of each enabled line and of each index whose uncaptured counter is not 0, each
list ascending, the dropped-report count and the four counters of the ports (R159). -/
def Obligations.SummaryUnderflow : Prop :=
  ∀ s : State, .summary ∈ s.due →
    (∃ t, exec .summaryUnderflow s = .next t ∧
      t.cadence = { s.cadence with
        summary := s.cadence.summaryLatch
        running := s.cadence.running && s.cadence.mode == .continuous } ∧
      t.clock = s.clock ∧ t.schedule = s.schedule ∧ t.table = s.table ∧ t.windows = s.windows ∧
      t.beacons = s.beacons ∧ t.held = s.held ∧ t.episodes.current = s.episodes.current ∧
      t.episodes.waiting = s.episodes.waiting ∧ t.episodes.next = s.episodes.next ∧
      (s.report.queue.length < 48 →
        t.slots = s.slots.map (fun r => { r with
          counters := ⟨0, 0, 0, 0, 0, 0, 0⟩, energy := ⟨[], 0⟩ }) ∧
        t.plant = { s.plant with lines := s.plant.lines.map (fun l => { l with summaryRun := 0 }) } ∧
        t.episodes.uncaptured = s.episodes.uncaptured.map (fun _ => 0) ∧
        t.ports.fieldErrors = 0 ∧ t.ports.gatewayErrors = 0 ∧ t.ports.forwardOverruns = 0 ∧
        t.ports.controlOverruns = 0) ∧
      (48 ≤ s.report.queue.length → t.slots = s.slots ∧ t.plant = s.plant ∧
        t.episodes.uncaptured = s.episodes.uncaptured ∧ t.notified .reportDropped ∧
        t.report.queue = s.report.queue ∧ t.ports = s.ports ∧
        t.due = s.due.filter (fun d => d != .summary) ∧
        t.report.dropped = min (s.report.dropped + 1 + s.cadence.queries.length +
          if s.notices.latch = false ∧ t.notices.latch = true then 1 else 0) 65535)) ∧
    (∃ r : SummaryRecord, s.summaryRecord = r ∧ r.moment = s.now ∧ r.dropped = s.report.dropped ∧
      r.fieldErrors = s.ports.fieldErrors ∧ r.gatewayErrors = s.ports.gatewayErrors ∧
      r.forwardOverruns = s.ports.forwardOverruns ∧ r.controlOverruns = s.ports.controlOverruns ∧
      (r.slots.map (·.slot)).Pairwise (· < ·) ∧
      (∀ a, a ∈ r.slots ↔ ∃ q : SlotRecord, s.slots[a.slot]? = some q ∧ q.link ≠ .unbound ∧
        a = ⟨a.slot, q.link, q.counters, q.energy.leq, q.energy.count⟩) ∧
      (r.lines.map (·.line)).Pairwise (· < ·) ∧
      (∀ a, a ∈ r.lines ↔ ∃ l : PlantLine, s.plant.lines[a.line]? = some l ∧ l.record.enabled = true ∧
        a = ⟨a.line, l.summaryRun, l.active⟩) ∧
      (r.uncaptured.map (·.index)).Pairwise (· < ·) ∧
      (∀ a, a ∈ r.uncaptured ↔ ∃ n : Nat, s.episodes.uncaptured[a.index]? = some n ∧ n ≠ 0 ∧
        a = ⟨a.index, (s.table.active.at a.index).map (·.key), n⟩)) ∧
    (∀ (offered : List Record) (base : State),
      offered = s.cadence.queries.zipIdx.map (fun p => ⟨s.clock.tickCount, .query ⟨p.2, p.1,
        ⟨p.1.command.commandCode.byte, (s.readQuery p.1.command).result,
          (s.readQuery p.1.command).data⟩⟩⟩) →
      base = { s with
        due := s.due.filter (fun d => d != .summary)
        cadence := { s.cadence with summary := s.cadence.summaryLatch
                                    running := s.cadence.running && s.cadence.mode == .continuous }
        slots := s.slots.map (fun r => { r with counters := ⟨0, 0, 0, 0, 0, 0, 0⟩, energy := ⟨[], 0⟩ })
        plant := { s.plant with lines := s.plant.lines.map (fun l => { l with summaryRun := 0 }) }
        episodes := { s.episodes with uncaptured := s.episodes.uncaptured.map (fun _ => 0) }
        ports := { s.ports with
          fieldErrors := 0, gatewayErrors := 0, forwardOverruns := 0, controlOverruns := 0 } } →
      (s.ports.gatewayTx ≠ none → s.report.queue.length < 48 → ∀ (room : Nat) (high after : NoticeSet) (u : State),
        room = 47 - s.report.queue.length →
        high = (if s.report.queue.length < 40 ∧ 40 ≤ s.report.queue.length + 1 + min offered.length room
          then setInsert s.notices.pending Notice.queueHigh.bit else s.notices.pending) →
        after = (if room < offered.length then setInsert high Notice.reportDropped.bit else high) →
        u = { base with
          report := ⟨s.report.queue ++ ⟨s.clock.tickCount, .summary s.summaryRecord⟩ :: offered.take room,
            min (offered.length - room) 65535⟩
          notices := { s.notices with pending := after } } →
        ∃ t, exec .summaryUnderflow s = .next t ∧
          (s.notices.latch = true ∨ u.notices.pending &&& u.notices.mask = 0 → t = u) ∧
          (s.notices.latch = false → u.notices.pending &&& u.notices.mask ≠ 0 → State.Alerted u t)) ∧
      (s.ports.gatewayTx = none → s.report.queue = [] → s.ports.forward = [] →
        (∀ r, .ready r ∉ s.ports.holding) → offered.length ≤ 4 →
        s.notices.latch = true ∨ s.notices.pending &&& s.notices.mask = 0 →
        ∃ t, exec .summaryUnderflow s = .next t ∧
          t = { base with
            due := t.due
            report := ⟨offered, 0⟩
            ports := { base.ports with starve := 0, gatewayTx := some (runOf .report s.ports.strap
              (Record.content ⟨s.clock.tickCount, .summary s.summaryRecord⟩)) } } ∧
          (s.episodes.waiting = [] → t.due = base.due) ∧
          (s.episodes.waiting ≠ [] → .verdicts ∈ t.due ∧ ∀ d, d ∈ base.due → d ∈ t.due)))

/-- A verdict that has been formed stands in the waiting list's tail when the list was not empty or the report
queue full; otherwise it has been admitted, and while the gateway-port transmitter is busy it follows the
records that stood in the queue (R113). WAITING_VERDICT_OFFER: the waiting verdicts are offered oldest first
until the list is empty or the queue refuses one; with the latch set and the transmitter busy exactly those
that find room join the queue, in their order (R113). MARK_RECORD_OFFER: with room in the queue the mark latch
empties and the MARK record enters the queue; without room the latch stays full (R132). Each record admitted
joins the queue as State.Admitted says, QUEUE_HIGH and the departure on an idle transmitter with it (R152,
R171). -/
def Obligations.VerdictAndMarkOffers : Prop :=
  (∀ s : State, .verdicts ∈ s.due →
     (∃ t, exec .waitingVerdictOffer s = .next t ∧
       State.OffersWaiting { s with due := s.due.filter (fun d => d != .verdicts) } t ∧
       t.episodes = { s.episodes with waiting := t.episodes.waiting } ∧
       (∃ sent, s.episodes.waiting = sent ++ t.episodes.waiting) ∧
       (t.episodes.waiting = [] ∨ 48 ≤ t.report.queue.length) ∧
       t.clock = s.clock ∧ t.schedule = s.schedule ∧ t.slots = s.slots ∧ t.table = s.table ∧
       t.windows = s.windows ∧ t.plant = s.plant ∧ t.beacons = s.beacons ∧ t.cadence = s.cadence ∧
       t.held = s.held) ∧
     (s.ports.gatewayTx ≠ none → s.notices.latch = true →
       ∃ t, exec .waitingVerdictOffer s = .next t ∧
         t.episodes.waiting = s.episodes.waiting.drop (48 - s.report.queue.length) ∧
         t.report.queue = s.report.queue ++
           (s.episodes.waiting.take (48 - s.report.queue.length)).map
             (fun v => ⟨s.clock.tickCount, .verdict v⟩))) ∧
  (∀ (s : State) (m : Mark), .mark ∈ s.due → s.plant.markLatch = some m →
     (s.report.queue.length < 48 → ∃ t, exec .markRecordOffer s = .next t ∧
       State.Admitted (.mark m) { s with due := s.due.filter (fun d => d != .mark)
                                         plant := { s.plant with markLatch := none } } t) ∧
     (48 ≤ s.report.queue.length → exec .markRecordOffer s =
       .next { s with due := s.due.filter (fun d => d != .mark) })) ∧
  (∀ (v : Verdict) (s : State),
     (s.episodes.waiting ≠ [] ∨ 48 ≤ s.report.queue.length →
       s.offerVerdict v =
         { s with episodes := { s.episodes with waiting := s.episodes.waiting ++ [v] } }) ∧
     (s.episodes.waiting = [] → s.report.queue.length < 48 →
       (s.offerVerdict v).episodes = s.episodes ∧ State.Admitted (.verdict v) s (s.offerVerdict v)))

/-! ### The samplers -/

/-- SAMPLE that finds recognitions of the sample before it outstanding takes them first, each as its own row
takes it (the model's division into rows, log 20). With none outstanding each sampler's run length returns to
0 on its recognised level and advances on the other, where a plant line's pin is high exactly while its bit of
the operand is set; a run that reaches the input's debounce figure makes its recognition due, but a release of
MARK is recognised at once (R118, R131; the division into rows is log 20). -/
def Obligations.SampleAdvancesSamplers : Prop :=
  (∀ (pins : Pins) (s : State), ∃ w : State, State.PiecesTaken plainTick (s.due.filter (fun d => match d with
       | .recognition _ => true
       | _ => false)) s w ∧
     (∀ input, .recognition input ∉ w.due) ∧ exec (.sample pins) s = exec (.sample pins) w) ∧
  (∀ (pins : Pins) (line : Nat), pinOf pins line = if pins.plant.getLsbD line then .high else .low) ∧
  ∀ (pins : Pins) (s : State), (∀ input, .recognition input ∉ s.due) → s.plant.lines.length = 8 →
    ∃ t, exec (.sample pins) s = .next t ∧
      t = { s with due := t.due, plant := { s.plant with lines := t.plant.lines
                                                         mark := t.plant.mark
                                                         certify := t.plant.certify } } ∧
      t.plant.lines.length = 8 ∧
      (∀ (i : Nat) (l : PlantLine), s.plant.lines[i]? = some l → ∀ pin, pin = pinOf pins i →
        t.plant.lines[i]? = some { l with sampler :=
          if pin = l.sampler.level then ⟨l.sampler.level, 0⟩
          else ⟨l.sampler.level, l.sampler.run + 1⟩ } ∧
        (.recognition (.plant i) ∈ t.due ↔
          pin ≠ l.sampler.level ∧ l.record.debounce ≤ l.sampler.run + 1)) ∧
      (pins.mark = s.plant.mark.level → t.plant.mark = ⟨s.plant.mark.level, 0⟩) ∧
      (pins.mark ≠ s.plant.mark.level → s.plant.mark.run + 1 < 4 →
        t.plant.mark = ⟨s.plant.mark.level, s.plant.mark.run + 1⟩) ∧
      (pins.mark = .high → s.plant.mark.level = .low → 4 ≤ s.plant.mark.run + 1 →
        t.plant.mark = ⟨.high, 0⟩) ∧
      (pins.mark = .low → s.plant.mark.level = .high → 4 ≤ s.plant.mark.run + 1 →
        t.plant.mark = ⟨.high, s.plant.mark.run + 1⟩) ∧
      (.recognition .mark ∈ t.due ↔
        pins.mark = .low ∧ s.plant.mark.level = .high ∧ 4 ≤ s.plant.mark.run + 1) ∧
      t.plant.certify = (if pins.certify = s.plant.certify.level then ⟨s.plant.certify.level, 0⟩
        else ⟨s.plant.certify.level, s.plant.certify.run + 1⟩) ∧
      (.recognition .certify ∈ t.due ↔
        pins.certify ≠ s.plant.certify.level ∧ 16 ≤ s.plant.certify.run + 1) ∧
      (∀ d, (∀ input, d ≠ .recognition input) → (d ∈ t.due ↔ d ∈ s.due))

/-- PLANT_LINE_RECOGNITION: the recognised level turns and the run length returns to 0. A line that becomes
active takes its activation tick, and joins the ever-active lines of every current episode when it is
enabled; one that becomes inactive takes its deactivation tick (R119, R122, R126). MARK_PRESS: the press
turns the recognised level; an empty latch takes the mark with its stamp, band and the LIVE slots' latest
levels, and MARK_TAKEN is raised; a full latch ignores the press (R131). CERTIFY_CHANGE turns the recognised
level and raises CERTIFY_CHANGED (R133). -/
def Obligations.PlantMarkAndCertifyRecognitions : Prop :=
  (∀ (line : Nat) (s : State) (l : PlantLine), .recognition (.plant line) ∈ s.due →
     s.plant.lines[line]? = some l →
     ∀ (level : Level) (m : PlantLine), level ≠ l.sampler.level →
       m = { l with
         sampler := ⟨level, 0⟩
         active := level == l.record.activeLevel
         activationTick := if level = l.record.activeLevel ∧ l.active = false
           then some s.clock.tickCount else l.activationTick
         deactivationTick := if level ≠ l.record.activeLevel ∧ l.active = true
           then some s.clock.tickCount else l.deactivationTick } →
       exec (.plantLineRecognition line) s =
         .next { s with
           due := s.due.filter (fun d => d != .recognition (.plant line))
           plant := { s.plant with lines := s.plant.lines.set line m }
           episodes := { s.episodes with current := s.episodes.current.map (fun e =>
             if l.record.enabled = true ∧ l.active = false ∧ level = l.record.activeLevel
             then { e with everActive := setInsert e.everActive line } else e) } }) ∧
  (∀ s : State,
     (.recognition .mark ∈ s.due → s.plant.markLatch = none →
       ∃ t, exec .markPress s = .next t ∧ t.notified .markTaken ∧
         t = State.raise .markTaken { s with
           due := s.due.filter (fun d => d != .recognition .mark)
           plant := { s.plant with
             mark := ⟨otherLevel s.plant.mark.level, 0⟩
             markLatch := some ⟨s.now, s.clock.band, liveLevels s.slots⟩ } }) ∧
     (.recognition .mark ∈ s.due → s.plant.markLatch ≠ none → exec .markPress s =
       .next { s with due := s.due.filter (fun d => d != .recognition .mark)
                      plant := { s.plant with mark := ⟨otherLevel s.plant.mark.level, 0⟩ } }) ∧
     (.recognition .certify ∈ s.due → ∃ t, exec .certifyChange s = .next t ∧
       t.notified .certifyChanged ∧ t.certifyAsserted = !s.certifyAsserted ∧
       t = State.raise .certifyChanged { s with
         due := s.due.filter (fun d => d != .recognition .certify)
         plant := { s.plant with certify := ⟨otherLevel s.plant.certify.level, 0⟩ } }) ∧
     ((liveLevels s.slots).map (·.1)).Pairwise (· < ·) ∧
     (∀ i x, (i, x) ∈ liveLevels s.slots ↔
       ∃ r id e last, s.slots[i]? = some r ∧ r.link = .live id e last ∧ x = r.latest)) ∧
  (otherLevel .low = .high ∧ otherLevel .high = .low)

/-! ### The field port -/

/-- FIELD_PORT_FRAME: bytes without a marker do nothing; a frame that is no validated frame of the port
counts a check error and nothing else; a validated one joins the forward FIFO, or is lost from it with an
overrun and its notice (R165, R167, R184). A SLICE goes to slice intake whether or not it was forwarded (R1,
R167), with the channel, the sequence, the three codes and the two flags of its nine bytes (R185). -/
def Obligations.FieldPortFrame : Prop :=
  (∀ channel sequence level1 level0 fast1 fast0 peak1 peak0 flags : Byte,
     sliceOf [channel, sequence, level1, level0, fast1, fast0, peak1, peak0, flags] =
       { channel := channel.toNat
         sequence := sequence.toNat
         level := 256 * level1.toNat + level0.toNat
         fast := 256 * fast1.toNat + fast0.toNat
         peak := 256 * peak1.toNat + peak0.toNat
         overload := flags.getLsbD 0
         calibrating := flags.getLsbD 1 }) ∧
  ∀ (junk : List Byte) (s : State), Unmarked junk →
    exec (.fieldPortFrame junk) s = .next s ∧
    (∀ frame : Frame, frame.head? = some 0x7E →
      (¬∃ kind payload, FieldFrame kind payload frame) →
      exec (.fieldPortFrame (junk ++ frame)) s = .next { s with ports := { s.ports with
        fieldErrors := min (s.ports.fieldErrors + 1) 65535 } }) ∧
    (∀ kind payload frame, FieldFrame kind payload frame → ∃ u : State,
      exec (.fieldPortFrame (junk ++ frame)) s =
        .next (if kind = .slice then u.intake (sliceOf payload) else u) ∧
      (s.ports.forward.length < 8 →
        (s.ports.gatewayTx ≠ none →
          u = { s with ports := { s.ports with forward := s.ports.forward ++ [frame] } }) ∧
        (s.ports.gatewayTx = none → s.ports.forward = [] → (∀ r, .ready r ∉ s.ports.holding) →
          s.report.queue = [] →
          u = { s with ports := { s.ports with gatewayTx := some [frame] } })) ∧
      (8 ≤ s.ports.forward.length → u.notified .forwardOverrun ∧
        u = State.raise .forwardOverrun { s with ports := { s.ports with
          forwardOverruns := min (s.ports.forwardOverruns + 1) 65535 } }))

/-- Slice intake judges a slice for the slot its channel id is bound to: the range check first, then the
sequence; what each judgement does to the slot's link and counters (R1, R2, R5 to R9, R12, R14), and what an
accepted slice that is not CALIBRATING adds to the slot's own account (R10, R15). An accepted slice is
handed on from the state the judgement left; a resync has first raised its notice and made its demand on the
window engine (R9, R10). Other slots, the clock, the schedule, the limit table, the plant lines and the
cadence unit are unchanged. -/
def Obligations.SliceJudged : Prop :=
  (∀ l : SlotLink, l.boundId = match l with
     | .unbound => none | .waiting id => some id | .live id _ _ => some id | .stalled id _ _ => some id) ∧
  ∀ (x : Slice) (s : State),
    ((∀ (i : Nat) (r : SlotRecord), s.slots[i]? = some r → r.link.boundId ≠ some x.channel) →
      s.intake x = s) ∧
    (∀ (i : Nat) (r : SlotRecord), s.slots[i]? = some r → r.link.boundId = some x.channel →
      (∀ (j : Nat) (q : SlotRecord), j < i → s.slots[j]? = some q → q.link.boundId ≠ some x.channel) →
      (¬(x.level ≤ 1400 ∧ x.fast ≤ 1400 ∧ x.peak ≤ 1600) →
        s.intake x = { s with slots := s.slots.set i { r with counters := { r.counters with
          rejected := min (r.counters.rejected + 1) 65535
          range := min (r.counters.range + 1) 65535 } } }) ∧
      (x.level ≤ 1400 ∧ x.fast ≤ 1400 ∧ x.peak ≤ 1600 →
        (∀ id e last, r.link = .live id e last → 224 ≤ (x.sequence + 256 - e) % 256 →
          s.intake x = { s with slots := s.slots.set i { r with counters := { r.counters with
            rejected := min (r.counters.rejected + 1) 65535 } } }) ∧
        ((∀ id e last, r.link = .live id e last → (x.sequence + 256 - e) % 256 < 224) →
          ∃ q : SlotRecord, (s.intake x).slots = s.slots.set i q ∧
            q.link = .live x.channel ((x.sequence + 1) % 256) s.clock.tickCount ∧
            q.latest = (if x.calibrating then r.latest else some x.level) ∧
            q.energy = (if x.calibrating then r.energy else r.energy.add x.level) ∧
            q.counters.accepted = min (r.counters.accepted + 1) 65535 ∧
            q.counters.rejected = r.counters.rejected ∧ q.counters.range = r.counters.range ∧
            q.counters.stalls = r.counters.stalls ∧
            q.counters.excluded = (if x.calibrating then min (r.counters.excluded + 1) 65535
              else r.counters.excluded) ∧
            (∀ d, d = (match r.link with
                | .live _ e _ => (x.sequence + 256 - e) % 256
                | _ => 0) →
              q.counters.missing = (if 1 ≤ d ∧ d ≤ 31 then min (r.counters.missing + d) 65535
                else r.counters.missing) ∧
              q.counters.resyncs = (if 32 ≤ d then min (r.counters.resyncs + 1) 65535
                else r.counters.resyncs) ∧
              (32 ≤ d → (s.intake x).notified .slotResync) ∧
              ∃ u : State, s.intake x = u.handOn i x ∧ ∀ p : SlotRecord,
                p = { r with link := q.link, counters := q.counters } →
                (d < 32 → u = { s with slots := s.slots.set i p }) ∧
                (32 ≤ d → ∃ w : State, w.notified .slotResync ∧
                  w = State.raise .slotResync { s with slots := s.slots.set i p } ∧
                  u = w.resyncWindows i)) ∧
            (s.intake x).clock = s.clock ∧ (s.intake x).schedule = s.schedule ∧
            (s.intake x).table = s.table ∧ (s.intake x).plant.lines = s.plant.lines ∧
            (s.intake x).cadence = s.cadence ∧ (s.intake x).held = s.held)))

/-- An accepted slice goes into the accumulators of its slot; a CALIBRATING one goes no further (R10, R12).
Any other then makes the SLICE evaluations of its slot's active SLICE entries, in the order of an evaluation
event, with its own figure as metric, coverage 100 and its arrival as span start and close (R86, R85); after
them its energy and its OVERLOAD go to every current episode of the slot (R102), and its level to the slot's
account (R10, R15). A resync of a slot marks the open windows of its units TRUNCATED and begins their rings
anew with one step, partial off a step boundary (R82); units of other slots stay. -/
def Obligations.SliceHandedOn : Prop :=
  (∀ (slot : Nat) (x : Slice) (s : State),
     (x.calibrating = true → s.handOn slot x = s.integrate slot x) ∧
     (x.calibrating = false → ∃ w : State,
       w = (((s.integrate slot x).evaluationPairs [s.clock.band]).filter (fun p =>
           p.2.2 == slot && p.2.1.window == .slice && p.2.1.activeIn s.clock.band)).foldl
         (fun w' p => w'.evaluate p.1 slot p.2.1
           { metric := (match p.2.1.metric with
               | .leq => some x.level
               | .lmax => some x.fast
               | .lpeak => some x.peak
               | _ => none)
             coverage := 100, counted := 1, excluded := 0, expected := 1
             spanStart := s.now, close := s.now, truncated := false, overload := x.overload } false)
         (s.integrate slot x) ∧
       s.handOn slot x = { w with
         slots := w.slots.modify slot (fun r =>
           { r with energy := r.energy.add x.level, latest := some x.level })
         episodes := { w.episodes with current := w.episodes.current.map (fun e =>
           if e.slot = slot then
             { e with energy := e.energy.add x.level, suspect := e.suspect || x.overload } else e) } })) ∧
  (∀ (slot i : Nat) (s : State) (e : LimitEntry), s.table.active.at i = some e →
     e.slots.getLsbD slot = true → ∃ t : State, s.resyncWindows slot = t ∧
       t = { s with windows := { s.windows with units := t.windows.units } } ∧
       (∀ w, s.windows.accAt i slot = .window w →
         t.windows.accAt i slot = .window { w with cut := true }) ∧
       (∀ steps step k, s.windows.accAt i slot = .ring steps → e.window = .rolling step k →
         t.windows.accAt i slot = .ring
           [⟨s.now, 0, 0, [], none, none, 0, [], false, s.clock.eighth % (8 * step) != 0⟩]) ∧
       (s.windows.accAt i slot = .idle → t.windows.accAt i slot = .idle) ∧
       (∀ j n, n ≠ slot → t.windows.unitAt j n = s.windows.unitAt j n))

/-! ### The gateway port -/

/-- CONTROL_FRAME: no marker, nothing; a frame that fails validation counts a check error; a validated one
is offered to the onward FIFO unless it is for this analyser alone, and to reply holding when it is for this
analyser or broadcast, each path on its own room (R165, R169, R174, R186; onward first is log 16). -/
def Obligations.ControlFrame : Prop :=
  ∀ (junk : List Byte) (s : State), Unmarked junk →
    exec (.controlFrame junk) s = .next s ∧
    (∀ frame : Frame, frame.head? = some 0x7E → (¬∃ payload, GatewayFrame payload frame) →
      exec (.controlFrame (junk ++ frame)) s = .next { s with ports := { s.ports with
        gatewayErrors := min (s.ports.gatewayErrors + 1) 65535 } }) ∧
    (∀ payload frame, GatewayFrame payload frame →
      ∃ u v : State, exec (.controlFrame (junk ++ frame)) s = .next v ∧
        (payload.head?.map BitVec.toNat = some s.ports.strap.toNat → u = s) ∧
        (payload.head?.map BitVec.toNat ≠ some s.ports.strap.toNat →
          (s.ports.onward.length < 4 → s.ports.fieldTx ≠ none →
            u = { s with ports := { s.ports with onward := s.ports.onward ++ [frame] } }) ∧
          (s.ports.onward = [] → s.ports.fieldTx = none →
            u = { s with ports := { s.ports with fieldTx := some frame } }) ∧
          (4 ≤ s.ports.onward.length → u.notified .forwardOverrun ∧
            u = State.raise .forwardOverrun { s with ports := { s.ports with
              forwardOverruns := min (s.ports.forwardOverruns + 1) 65535 } })) ∧
        (payload.head?.map BitVec.toNat ≠ some s.ports.strap.toNat →
          payload.head?.map BitVec.toNat ≠ some 7 → v = u) ∧
        (payload.head?.map BitVec.toNat = some s.ports.strap.toNat ∨
            payload.head?.map BitVec.toNat = some 7 →
          (u.ports.holding.length < 2 →
            ((∀ e, .executing e ∉ u.ports.holding) →
              v = { u with ports := { u.ports with holding := u.ports.holding ++
                [.executing ⟨payload.getD 1 0, payload.drop 2, 0, []⟩] } }) ∧
            ((∃ e, .executing e ∈ u.ports.holding) →
              v = { u with ports := { u.ports with holding := u.ports.holding ++
                [.queued (payload.getD 1 0) (payload.drop 2)] } })) ∧
          (2 ≤ u.ports.holding.length → v.notified .controlOverrun ∧
            v = State.raise .controlOverrun { u with ports := { u.ports with
              controlOverruns := min (u.ports.controlOverruns + 1) 65535 } })))

/-- GATEWAY_TX_DONE: the arbiter's order. A READY reply, the earliest first; else a forwarded frame, unless
a report has waited through 8 of them; else the head report, whose departure makes the offer of waiting
verdicts due; else the transmitter idles (R153, R170, R171). With the offer taken in the same step the
outcome is that offer's (log 15). FIELD_TX_DONE: the head of the onward FIFO departs, or the transmitter
idles (R168). Either command on an idle transmitter changes nothing (the model's choice, log 2). -/
def Obligations.Transmitters : Prop :=
  (∀ (s : State), (s.ports.gatewayTx = none → ∀ now, exec (.gatewayTxDone now) s = .next s) ∧
     (s.ports.gatewayTx ≠ none → ∃ t, exec (.gatewayTxDone false) s = .next t ∧
       exec (.gatewayTxDone true) s = exec .waitingVerdictOffer t ∧
       (∀ before r after, s.ports.holding = before ++ .ready r :: after →
         (∀ q, .ready q ∉ before) →
         t = { s with ports := { s.ports with holding := before ++ after
                                              gatewayTx := some (runOf .reply s.ports.strap r.content) } }) ∧
       ((∀ q, .ready q ∉ s.ports.holding) →
         (∀ f fs, s.ports.forward = f :: fs → s.report.queue = [] →
           t = { s with ports := { s.ports with forward := fs, gatewayTx := some [f] } }) ∧
         (∀ f fs, s.ports.forward = f :: fs → s.report.queue ≠ [] → s.ports.starve < 8 →
           t = { s with ports := { s.ports with forward := fs, starve := s.ports.starve + 1
                                                gatewayTx := some [f] } }) ∧
         (∀ r rs, s.report.queue = r :: rs → s.ports.forward = [] ∨ 8 ≤ s.ports.starve →
           t = { s with
             due := t.due
             report := { s.report with queue := rs }
             ports := { s.ports with starve := 0
                                     gatewayTx := some (runOf .report s.ports.strap r.content) } } ∧
           (s.episodes.waiting = [] → t.due = s.due) ∧
           (s.episodes.waiting ≠ [] → .verdicts ∈ t.due ∧ ∀ d, d ∈ s.due → d ∈ t.due)) ∧
         (s.ports.forward = [] → s.report.queue = [] →
           t = { s with ports := { s.ports with gatewayTx := none } })))) ∧
  (∀ s : State, (s.ports.fieldTx = none → exec .fieldTxDone s = .next s) ∧
     (s.ports.fieldTx ≠ none →
       (s.ports.onward = [] →
         exec .fieldTxDone s = .next { s with ports := { s.ports with fieldTx := none } }) ∧
       (∀ f fs, s.ports.onward = f :: fs → exec .fieldTxDone s =
         .next { s with ports := { s.ports with onward := fs, fieldTx := some f } })))

/-! ### The decoder -/

/-- The items of a frame as the decoder reaches them: a code byte, a length byte and that many operand bytes
(R186). After well-formed prefixes it reaches the item behind them with those prefixes standing; each counts
as an item. The end of the frame stops it, and so do an item whose length runs past the end and a 17th item,
with one further reply item MALFORMED under code 00h; prefixes with no command behind them give one reply item
MALFORMED that names the last of them (R175, R176). A malformed prefix gives a reply item MALFORMED of its
own, the prefixes before it are used up, and the next item starts afresh (the model's choice, log 12).
UNKNOWN_ITEM: an item whose code names none of the 32 commands gives a reply item UNKNOWN and the decoder goes
on; an item of a command is left for its own row (log 2). An item of a command that has not its form, or
before which a prefix stands twice or one that does not apply to it, is MALFORMED: its reply item carries no
data and nothing else happens (R175, R176, R178). Every item taken writes its reply item, behind those of
malformed prefixes before it, to the frame in execution, and the decoder goes on behind it (R174, R177, R179).
A commit whose checks are outstanding is taken first, as COMMIT_CHECKS with every order left to the model
takes it (the model's choice, log 19). -/
def Obligations.UnknownAndMalformedItems : Prop :=
  (∀ s : State, (.commit ∉ s.due → s.settleCommit = s) ∧
     (.commit ∈ s.due → exec (.commitChecks ⟨[], [], false⟩) s = .next s.settleCommit)) ∧
  (∀ (v : ItemView) (r : Result) (d : ReplyData) (s t : State), t = s.answered v r d →
     t = { s with ports := { s.ports with holding := t.ports.holding } } ∧
     t.ports.holding.length = s.ports.holding.length ∧
     (∀ (k : Nat) (x : Transaction), s.ports.holding[k]? = some x → t.ports.holding[k]? = some (match x with
       | .executing e => .executing ⟨e.tag, v.rest, v.taken, e.items ++ v.lead ++ [⟨v.code, r, d⟩]⟩
       | other => other)) ∧
     s.refused v r = s.answered v r .empty) ∧
  ((∀ (s : State) (e : Executing), s.executing = some e ↔ ∃ before after,
       s.ports.holding = before ++ .executing e :: after ∧ ∀ f, .executing f ∉ before) ∧
   (∀ c, (∀ n, PrefixItem.appliesTo (.slot n) c = true ↔ c = .readWindow ∨ c = .readHistogram ∨ c = .readSlot) ∧
     (PrefixItem.appliesTo .staged c = true ↔ c = .readEntry ∨ c = .readBands) ∧
     (PrefixItem.appliesTo .keep c = true ↔
       c = .readWindow ∨ c = .readSlot ∨ c = .readEpisodes ∨ c = .readTime) ∧
     ∀ ps, prefixesTaken ps c = true ↔ ∀ p, p ∈ ps →
       p.appliesTo c = true ∧ (ps.filter (fun q => q.code == p.code)).length = 1) ∧
   (∀ p : PrefixItem, p.bytes.head? = some p.code) ∧
   (∀ v : ItemView, (∀ n, v.modifiers.slot = some n → .slot n ∈ v.prefixes) ∧
     (v.modifiers.slot = none ↔ ∀ n, .slot n ∉ v.prefixes))) ∧
  (∀ (s : State) (v : ItemView), s.Reaches v →
     ((∀ c : CommandCode, v.code ≠ c.byte) →
       exec .unknownItem s = .next (s.settleCommit.refused v .unknown)) ∧
     (∀ c : CommandCode, v.code = c.byte → exec .unknownItem s = .next s)) ∧
  (∀ (c : CommandCode) (s : State) (v : ItemView), s.Reaches v → v.code = c.byte →
     (¬c.formOk v.operands ∨ ∃ p, p ∈ v.prefixes ∧
       (p.appliesTo c = false ∨ 2 ≤ (v.prefixes.filter (fun q => q.code == p.code)).length)) →
     exec c.instr s = .next (s.settleCommit.refused v .malformed)) ∧
  (CommandCode.all.map CommandCode.byte =
     [0x20, 0x21, 0x22, 0x23, 0x24, 0x25, 0x26, 0x27, 0x30, 0x31, 0x32, 0x38, 0x39, 0x3A, 0x3B, 0x40,
      0x41, 0x42, 0x48, 0x49, 0x4A, 0x50, 0x51, 0x58, 0x59, 0x60, 0x61, 0x68, 0x69, 0x70, 0x71, 0x78] ∧
   ∀ c : CommandCode, c ∈ CommandCode.all) ∧
  (∀ (tag : Byte) (taken : Nat) (written : List ReplyItem) (ps : List PrefixItem)
     (reach : List Byte → Reached) (dangling : List ReplyItem),
     (∀ n, .slot n ∈ ps → n < 256) →
     (∀ tail, reach tail = Executing.reach ⟨tag, ps.flatMap PrefixItem.bytes ++ tail, taken, written⟩) →
     (ps = [] → dangling = []) →
     (∀ qs p, ps = qs ++ [p] → dangling = [malformedItem p.code]) →
     (taken + ps.length ≤ 16 →
       reach [] = .stop dangling ∧
       (∀ code, reach [code] = .stop (dangling ++ [malformedItem 0x00])) ∧
       (∀ code length body, body.length < length.toNat →
         reach (code :: length :: body) = .stop (dangling ++ [malformedItem 0x00]))) ∧
     (taken + ps.length = 16 → ∀ tail, tail ≠ [] →
       reach tail = .stop (dangling ++ [malformedItem 0x00])) ∧
     (taken + ps.length < 16 → ∀ (code length : Byte) (operands after : List Byte),
       operands.length = length.toNat →
       (code ≠ 0x01 → code ≠ 0x02 → code ≠ 0x03 → reach (code :: length :: (operands ++ after)) =
         .item [] ps code operands after (taken + ps.length + 1)) ∧
       (code = 0x01 ∧ operands.length ≠ 1 ∨ (code = 0x02 ∨ code = 0x03) ∧ operands.length ≠ 0 →
         ∀ next, next = Executing.reach ⟨tag, after, taken + ps.length + 1, written⟩ →
         (∀ trail, next = .stop trail →
           reach (code :: length :: (operands ++ after)) = .stop (malformedItem code :: trail)) ∧
         (∀ lead qs c o rest n, next = .item lead qs c o rest n →
           reach (code :: length :: (operands ++ after)) =
             .item (malformedItem code :: lead) qs c o rest n))))

/-- CONTROL_FRAME_END while the gateway-port transmitter is busy: the place becomes READY with the reply
items written and the pending notice set of the moment, and a frame QUEUED behind it begins (R174, R177,
R179). On an idle transmitter with no other reply READY the reply is granted at once (R171). Where the decoder
stops, and with which reply items, UnknownAndMalformedItems says. -/
def Obligations.ControlFrameEnd : Prop :=
  ∀ (s : State) (trail : List ReplyItem) (e : Executing) (before after : List Transaction),
    s.executing = some e → e.reach = .stop trail →
    s.settleCommit.ports.holding = before ++ .executing e :: after →
    (∀ x, x ∈ before ∨ x ∈ after → ∀ f, x ≠ .executing f) →
    (∀ tag items, .queued tag items ∉ before) →
    ∀ (reply : Reply), reply = ⟨e.tag, e.items ++ trail, s.settleCommit.notices.pending⟩ →
    (s.settleCommit.ports.gatewayTx ≠ none → exec .controlFrameEnd s =
      .next { s.settleCommit with ports := { s.settleCommit.ports with
        holding := before ++ .ready reply :: beginQueued after } }) ∧
    (s.settleCommit.ports.gatewayTx = none → (∀ q, .ready q ∉ before) → exec .controlFrameEnd s =
      .next { s.settleCommit with ports := { s.settleCommit.ports with
        holding := before ++ beginQueued after
        gatewayTx := some (runOf .reply s.settleCommit.ports.strap reply.content) } }) ∧
    (beginQueued [] = [] ∧
      (∀ tag items rest, beginQueued (.queued tag items :: rest) = .executing ⟨tag, items, 0, []⟩ :: rest) ∧
      ∀ x rest, (∀ tag items, x ≠ .queued tag items) → beginQueued (x :: rest) = x :: beginQueued rest)

/-- Commands that come at no moment of theirs change nothing (the model's choice, log 2): an item command
when the decoder reaches no item of it, a row of a tick or sample when its work is not due. -/
def Obligations.OffMoment : Prop :=
  ∀ s : State,
    (∀ c : CommandCode, (∀ v, s.Reaches v → v.code ≠ c.byte) → exec c.instr s = .next s) ∧
    ((∀ v, ¬s.Reaches v) → exec .unknownItem s = .next s) ∧
    ((∀ trail, ¬s.ReachesEnd trail) → exec .controlFrameEnd s = .next s) ∧
    (∀ choice, .commit ∉ s.due → exec (.commitChecks choice) s = .next s) ∧
    (∀ slot, .stall slot ∉ s.due → exec (.stallTimerExpiry slot) s = .next s) ∧
    (∀ key slot, .holdOff key slot ∉ s.due → exec (.holdOffExpiry key slot) s = .next s) ∧
    (∀ key slot, .maximumLength key slot ∉ s.due → exec (.maximumLength key slot) s = .next s) ∧
    (∀ line, .pulse line ∉ s.due → exec (.pulseEnd line) s = .next s) ∧
    (∀ line, .flash line ∉ s.due → exec (.flashTurn line) s = .next s) ∧
    (.cadence ∉ s.due → exec .baseUnderflow s = .next s) ∧
    (.summary ∉ s.due → exec .summaryUnderflow s = .next s) ∧
    (.verdicts ∉ s.due → exec .waitingVerdictOffer s = .next s) ∧
    (.mark ∉ s.due → exec .markRecordOffer s = .next s) ∧
    (∀ line, .recognition (.plant line) ∉ s.due → exec (.plantLineRecognition line) s = .next s) ∧
    (.recognition .mark ∉ s.due → exec .markPress s = .next s) ∧
    (.recognition .certify ∉ s.due → exec .certifyChange s = .next s)

/-! ### Authority -/

/-- What the commands' authority is judged on: the debounced CERTIFY line and the active limit table, and for
COMMIT the differences of R53 between the staged and the active copies (R16, R37, R52, R53, R119). A table
holds an entry or none at each index (R47), and the entry of a key is that of the lowest index with the key.
-/
def Obligations.AuthorityFollowsActiveTable : Prop :=
  (∀ t : EntryTable, (∀ i e, t.at i = some e ↔ t[i]? = some (some e)) ∧
     ∀ key, (t.find key = none ↔ ∀ i e, t.at i = some e → e.key ≠ key) ∧
       ∀ i e, t.find key = some (i, e) ↔
         t.at i = some e ∧ IsLowest (fun j => ∃ x, t.at j = some x ∧ x.key = key) i) ∧
  ∀ s : State, (s.certifyAsserted = true ↔ s.plant.certify.level = .low) ∧
    (s.anyCertified = true ↔ s.CertifiedActive) ∧
    (∀ band, s.bandProtected band = true ↔ s.Protected band) ∧
    (∀ slot, s.slotProtected slot = true ↔
      ∃ i e, s.table.active.at i = some e ∧ e.custody = .certified ∧ e.slots.getLsbD slot = true) ∧
    (s.protectedDifference = true ↔ s.DiffersProtected)

/-! ### The limit table -/

/-- LOAD ENTRIES: the checks in the order range, busy, frozen, authority, each refusing it whole; else every
entry is written within the page of its start index, and no other index (R48). -/
def Obligations.LoadEntries : Prop :=
  ∀ (s : State) (v : ItemView) (start count : Nat) (images : List (List Byte)),
    s.Takes .loadEntries v → s.table.FrozenEqual →
    start = field v.operands 0 1 → count = field v.operands 1 1 →
    images = recordsOf 28 count (v.operands.drop 2) →
    ∀ (u : State) (index : Nat → Nat), u = s.settleCommit →
      (∀ k, index k = 8 * (start / 8) + (start + k) % 8) →
    ((63 < start ∨ count = 0 ∨ 8 < count ∨ (∃ x, x ∈ images ∧ LimitEntry.ofImage x = none)) →
      exec .loadEntries s = .next (u.refused v .range)) ∧
    (∀ entries : List LimitEntry, images.map LimitEntry.ofImage = entries.map some →
      start ≤ 63 → 1 ≤ count → count ≤ 8 →
      (u.table.pending = true → exec .loadEntries s = .next (u.refused v .busy)) ∧
      (u.table.pending = false → (∃ k, k < count ∧ u.table.frozen.getLsbD (index k) = true) →
        exec .loadEntries s = .next (u.refused v .frozen)) ∧
      (u.table.pending = false → (∀ k, k < count → u.table.frozen.getLsbD (index k) = false) →
        (u.certifyAsserted = false ∧ ((∃ k, k < count ∧ u.table.staged.Certified (index k)) ∨
            ∃ e, e ∈ entries ∧ e.custody = .certified) →
          exec .loadEntries s = .next (u.refused v .denied)) ∧
        (u.certifyAsserted = true ∨ ((∀ k, k < count → ¬u.table.staged.Certified (index k)) ∧
            ∀ e, e ∈ entries → e.custody = .site) →
          ∃ staged : EntryTable, exec .loadEntries s = .next (State.answered v .ok .empty
              { u with table := { u.table with staged := staged } }) ∧
            staged.length = 64 ∧
            (∀ (k : Nat) (e : LimitEntry), entries[k]? = some e → staged.at (index k) = some e) ∧
            ∀ i, (∀ k, k < count → i ≠ index k) → staged.at i = u.table.staged.at i)))

/-- REMOVE ENTRY: range, busy, frozen, authority; else the staged index becomes empty (R49). FREEZE ENTRY:
key 0 is out of range; busy; denied without CERTIFY; NOT_FOUND unless an active entry of CERTIFIED custody
has the key; else its index is frozen and the staged index takes the active entry (R54). PROBE ENTRY: the
index modulo 64 and the first of FROZEN, EMPTY, NEEDS_CERTIFY and WRITABLE that holds; it changes nothing
(R56). READ ENTRY: RANGE above index 63; else the index, whether it is frozen, and its entry in the active
table, or in the staged one under a STAGED prefix; for an entry of the active table also whether it is active
in the current band. It changes nothing (R51). That this item is absent for an empty index of the active table
is the model's choice (log 37). -/
def Obligations.RemoveFreezeProbeAndReadEntry : Prop :=
  ((∀ (s : State) (v : ItemView) (i : Nat) (u : State), s.Takes .removeEntry v →
      i = field v.operands 0 1 → u = s.settleCommit →
      exec .removeEntry s = .next (
        if 63 < i then u.refused v .range
        else if u.table.pending then u.refused v .busy
        else if u.table.frozen.getLsbD i then u.refused v .frozen
        else if (u.table.staged.at i).any (fun e => e.custody == .certified) && !u.certifyAsserted then
          u.refused v .denied
        else State.answered v .ok .empty
          { u with table := { u.table with staged := u.table.staged.set i none } })) ∧
   (∀ (s : State) (v : ItemView) (key : Nat) (u : State), s.Takes .freezeEntry v →
      key = field v.operands 0 2 → u = s.settleCommit →
      (key = 0 → exec .freezeEntry s = .next (u.refused v .range)) ∧
      (key ≠ 0 → u.table.pending = true → exec .freezeEntry s = .next (u.refused v .busy)) ∧
      (key ≠ 0 → u.table.pending = false → u.certifyAsserted = false →
        exec .freezeEntry s = .next (u.refused v .denied)) ∧
      (key ≠ 0 → u.table.pending = false → u.certifyAsserted = true →
        ((∀ i e, u.table.active.find key = some (i, e) → e.custody = .site) →
          exec .freezeEntry s = .next (u.refused v .notFound)) ∧
        (∀ i e, u.table.active.find key = some (i, e) → e.custody = .certified →
          exec .freezeEntry s = .next (State.answered v .ok .empty
            { u with table := { u.table with frozen := u.table.frozen ||| BitVec.twoPow 64 i
                                             staged := u.table.staged.set i (some e) } }))))) ∧
  ((∀ (s : State) (v : ItemView) (i : Nat) (u : State), s.Takes .probeEntry v →
      i = field v.operands 0 1 % 64 → u = s.settleCommit →
      exec .probeEntry s = .next (u.answered v .ok (.probe i
        (if u.table.frozen.getLsbD i then .frozen
         else match u.table.staged.at i with
          | none => .empty
          | some e => if e.custody = .certified ∧ u.certifyAsserted = false then .needsCertify
            else .writable)))) ∧
   (∀ (s : State) (v : ItemView) (i : Nat) (u : State), s.Takes .readEntry v →
      i = field v.operands 0 1 → u = s.settleCommit →
      exec .readEntry s = .next (
        if 63 < i then u.refused v .range
        else if .staged ∈ v.prefixes then
          u.answered v .ok (.entry i (u.table.frozen.getLsbD i) (u.table.staged.at i) none)
        else
          u.answered v .ok (.entry i (u.table.frozen.getLsbD i) (u.table.active.at i)
            ((u.table.active.at i).map (fun e => e.bands.getLsbD u.clock.band))))))

/-- COMMIT: busy while one is pending, denied where the staged copies differ in a protected item and CERTIFY
is not asserted; else the commit state becomes PENDING and the last result absent (R57). CLEAR COMMIT
RESULT: busy while pending; else the last commit result is absent (R64). REVERT STAGING carries no operands:
busy while a commit is pending; else, whatever CERTIFY is, all three staged copies take the active ones,
index by index and band by band, and nothing else changes: no frozen mark, no notice. A frozen index holds
the same entry in both tables (R50). A commit whose checks are outstanding is taken before the item (the
model's choice, log 19). -/
def Obligations.CommitRevertAndClearResult : Prop :=
  (∀ (s : State) (v : ItemView) (u : State), u = s.settleCommit →
     (s.Takes .commit v → exec .commit s = .next (
       if u.table.pending then u.refused v .busy
       else if u.protectedDifference && !u.certifyAsserted then u.refused v .denied
       else State.answered v .ok .empty
         { u with table := { u.table with pending := true, lastResult := none } })) ∧
     (s.Takes .clearCommitResult v → exec .clearCommitResult s = .next (
       if u.table.pending then u.refused v .busy
       else State.answered v .ok .empty { u with table := { u.table with lastResult := none } }))) ∧
  (∀ (s : State) (v : ItemView), s.Takes .revertStaging v → v.operands = [] ∧
     ∀ u : State, u = s.settleCommit →
       (u.table.pending = true → exec .revertStaging s = .next (u.refused v .busy)) ∧
       (u.table.pending = false → exec .revertStaging s = .next (State.answered v .ok .empty
         { u with table := { u.table with staged := u.table.active }
                  schedule := { u.schedule with stagedBands := u.schedule.activeBands
                                                stagedExceptions := u.schedule.activeExceptions } })) ∧
       (s.table.FrozenEqual → ∀ i, u.table.frozen.getLsbD i = true →
         u.table.staged.at i = u.table.active.at i))

/-- A field of an image is the bytes at its offset, most significant first (R183), and the images of an item
stand one after another (R187). The image of every entry within R39 and R40 reads as that entry, and every
image that reads as an entry reads as one within them: what LOAD ENTRIES takes and READ ENTRY sends are the
same layout, its fields at the bytes of the table of load images. An image that reads as an entry is that
entry's image but for the reserved bits 3 to 7 of its flag byte, which do not matter; a conditional field
absent and not zero, a reference key 0 under EXCESS, a beacon-line flag under NONE or REPORT, and slot-mask
bits 12 to 15 are refused (R183, R187). Band, exception and plant images: the bytes of their fields, the
ranges that refuse one, an undefined band whatever its bytes 2 to 7, and the reserved bits of the day-type
mask and the plant flags (R33, R31, R121, R187). -/
def Obligations.LoadImages : Prop :=
  (∀ (o : List Byte) (k : Nat) (a b c : Byte), o[k]? = some a →
     field o k 1 = a.toNat ∧ (o[k + 1]? = some b →
       field o k 2 = 256 * a.toNat + b.toNat ∧ (o[k + 2]? = some c →
         field o k 3 = 65536 * a.toNat + 256 * b.toNat + c.toNat))) ∧
  (∀ (size count : Nat) (o : List Byte), (recordsOf size count o).length = count ∧
     ∀ k, k < count → (recordsOf size count o)[k]? = some ((o.drop (size * k)).take size)) ∧
  ((∀ e : LimitEntry, e.Valid → e.image.length = 28 ∧ LimitEntry.ofImage e.image = some e) ∧
     (∀ (o : List Byte) (e : LimitEntry), o.length = 28 → LimitEntry.ofImage o = some e → e.Valid ∧
       e.image = o.set 17 (o.getD 17 0 &&& 0x07))) ∧
  (∀ (e : LimitEntry) (at_ : Nat → Nat → Nat), e.Valid → at_ = field e.image →
     at_ 0 2 = e.key ∧ at_ 2 2 = e.slots.toNat ∧ at_ 4 2 = e.bands.toNat ∧
     at_ 6 1 = (match e.metric with
       | .leq => 1 | .lmax => 2 | .lpeak => 3 | .ln _ => 4 | .events _ => 5) ∧
     at_ 7 1 = (match e.metric with
       | .ln n => n
       | _ => 0) ∧
     at_ 8 2 = (match e.metric with
       | .events aux => aux
       | _ => 0) ∧
     at_ 10 1 = (match e.window with
       | .slice => 1 | .fixed _ => 2 | .band => 3 | .rolling _ _ => 4) ∧
     at_ 11 2 = (match e.window with
       | .fixed minutes => minutes
       | _ => 0) ∧
     at_ 13 2 = (match e.window with
       | .rolling step _ => step
       | _ => 0) ∧
     at_ 15 1 = (match e.window with
       | .rolling _ k => k
       | _ => 0) ∧
     at_ 16 1 = (match e.test with
       | .gt => 1 | .rise => 2 | .excess _ => 3 | .countGe => 4 | .invalid => 5 | .always => 6) ∧
     at_ 17 1 = (if e.negate then 1 else 0) + (if e.custody = .certified then 2 else 0) +
       (if e.beacon.isSome then 4 else 0) ∧
     at_ 18 2 = e.threshold ∧
     at_ 20 2 = (match e.test with
       | .excess key => key
       | _ => 0) ∧
     at_ 22 1 = e.minCoverage ∧
     at_ 23 1 = (match e.action with
       | .none => 0 | .report => 1 | .episode => 2 | .both => 3) ∧
     at_ 24 1 = e.beacon.getD 0 ∧ at_ 25 2 = e.holdOff ∧ at_ 27 1 = e.maxLength) ∧
  (∀ (o : List Byte) (at_ : Nat → Nat → Nat), o.length = 28 → at_ = field o →
     (4096 ≤ at_ 2 2 ∨ (at_ 6 1 ≠ 4 ∧ at_ 7 1 ≠ 0) ∨ (at_ 6 1 ≠ 5 ∧ at_ 8 2 ≠ 0) ∨
         (at_ 10 1 ≠ 2 ∧ at_ 11 2 ≠ 0) ∨ (at_ 10 1 ≠ 4 ∧ (at_ 13 2 ≠ 0 ∨ at_ 15 1 ≠ 0)) ∨
         (at_ 16 1 ≠ 3 ∧ at_ 20 2 ≠ 0) ∨ (at_ 16 1 = 3 ∧ at_ 20 2 = 0) ∨
         ((o.getD 17 0).getLsbD 2 = false ∧ at_ 24 1 ≠ 0) ∨
         ((o.getD 17 0).getLsbD 2 = true ∧ at_ 23 1 ≤ 1) →
       LimitEntry.ofImage o = none) ∧
     ∀ flags : Byte, flags &&& 0x07 = o.getD 17 0 &&& 0x07 →
       LimitEntry.ofImage (o.set 17 flags) = LimitEntry.ofImage o) ∧
  ((∀ band, band < 14 → bandImage band none = BitVec.ofNat 8 band :: List.replicate 7 0 ∧
     ∀ b : BandRecord, b.days ≠ 0 → b.start ≤ 1439 → b.stop ≤ 1440 → b.start < b.stop →
       (bandImage band (some b)).length = 8 ∧ bandOfImage (bandImage band (some b)) = some (band, some b)) ∧
   (∀ (o : List Byte) (at_ : Nat → Nat → Nat) (days : BitVec 9), o.length = 8 → at_ = field o →
     days = BitVec.ofNat 9 (at_ 2 2) →
     (14 ≤ at_ 0 1 ∨ 2 ≤ at_ 1 1 → bandOfImage o = none) ∧
     (at_ 0 1 < 14 → at_ 1 1 = 0 → bandOfImage o = some (at_ 0 1, none)) ∧
     (at_ 0 1 < 14 → at_ 1 1 = 1 → bandOfImage o =
       if days ≠ 0 ∧ at_ 4 2 ≤ 1439 ∧ at_ 6 2 ≤ 1440 ∧ at_ 4 2 < at_ 6 2
         then some (at_ 0 1, some ⟨days, at_ 4 2, at_ 6 2⟩) else none)) ∧
   (∀ x : ExceptionRecord, x.day ≤ 65535 → x.image.length = 3 ∧ exceptionOfImage x.image = some x) ∧
   (∀ o : List Byte, o.length = 3 →
     exceptionOfImage o =
       ([DayType.mon, .tue, .wed, .thu, .fri, .sat, .sun, .holiday, .special][field o 2 1]?).map
         (fun d => ⟨field o 0 2, d⟩)) ∧
   (∀ (line : Nat) (r : PlantRecord), line < 8 → 2 ≤ r.debounce → r.debounce ≤ 15 → r.priority ≤ 7 →
     r.linger ≤ 60 → r.image line = [BitVec.ofNat 8 line, if r.enabled then 0x01 else 0x00,
         if r.activeLevel = .high then 0x01 else 0x00, BitVec.ofNat 8 r.debounce, BitVec.ofNat 8 r.priority,
         BitVec.ofNat 8 r.linger] ∧
       plantOfImage (r.image line) = some (line, r)) ∧
   (∀ (o : List Byte) (at_ : Nat → Nat → Nat), o.length = 6 → at_ = field o →
     plantOfImage o = if at_ 0 1 < 8 ∧ at_ 2 1 ≤ 1 ∧ 2 ≤ at_ 3 1 ∧ at_ 3 1 ≤ 15 ∧ at_ 4 1 ≤ 7 ∧ at_ 5 1 ≤ 60
       then some (at_ 0 1, ⟨(o.getD 1 0).getLsbD 0, if at_ 2 1 = 0 then .low else .high, at_ 3 1, at_ 4 1,
         at_ 5 1⟩)
       else none))

/-- What the part sends (R183, R184, R188). The codes of metrics, window types, tests and close reasons, and
the bit of each notice in a set of notices, are those of section 10.2. An envelope is the marker, the kind,
the length, the payload and the check over kind, length and payload, its register shifted as its generator
says. A content goes in frames of 246 bytes and a remainder, in order from position 0, each behind the strap
address and a run byte whose bit 7 marks the last. A report record opens with its kind and entry tick; a
stamp, and the contents of VERDICT, WINDOW, SUMMARY, MARK, QUERY and ATTENTION records, have their fields at
the offsets of their tables, absent ones as those tables say. A verdict of a key that no table holds carries
zeros for the entry's fields (the model's choice, log 22). A reply is its tag, the count of its items, the
items and the pending set; an item is its code, result, data length and data. -/
def Obligations.RecordLayouts : Prop :=
  ((∀ m : Metric, m.code = match m with
       | .leq => 1 | .lmax => 2 | .lpeak => 3 | .ln _ => 4 | .events _ => 5) ∧
   (∀ w : WindowType, w.code = match w with
       | .slice => 1 | .fixed _ => 2 | .band => 3 | .rolling _ _ => 4) ∧
   (∀ t : Test, t.code = match t with
       | .gt => 1 | .rise => 2 | .excess _ => 3 | .countGe => 4 | .invalid => 5 | .always => 6) ∧
   (∀ r : CloseReason, r.code = match r with
       | .quiet => 1 | .continued => 2 | .bandEnd => 3 | .withdrawn => 4 | .redefined => 5 | .stalled => 6
       | .unbound => 7 | .timeSet => 8 | .restart => 9) ∧
   (∀ n : Notice, n.bit = match n with
       | .commitDone => 0 | .commitFailed => 1 | .episodeOpened => 2 | .episodeOverflow => 3 | .queueHigh => 4
       | .reportDropped => 5 | .coincidence => 6 | .slotStalled => 7 | .slotResync => 8 | .clockStopped => 9
       | .markTaken => 10 | .certifyChanged => 11 | .forwardOverrun => 12 | .controlOverrun => 13)) ∧
  ((∀ (kind : FrameKind) (payload : List Byte) (kindByte length : Byte) (check : BitVec 16),
     kindByte = (match kind with
       | .slice => 0x01 | .transit => 0x02 | .control => 0x03 | .reply => 0x04 | .report => 0x05) →
     length = BitVec.ofNat 8 payload.length → check = checkOf (kindByte :: length :: payload) →
     envelope kind payload =
       0x7E :: kindByte :: length :: (payload ++ [check.extractLsb' 8 8, check.extractLsb' 0 8])) ∧
   checkOf [] = 0xFFFF ∧
   (∀ bytes b, checkOf (bytes ++ [b]) = crcShifts 8 (checkOf bytes ^^^ (b.setWidth 16 <<< 8))) ∧
   (∀ n c, crcShifts 0 c = c ∧ crcShifts (n + 1) c =
     crcShifts n ((c <<< 1) ^^^ (if c.getLsbD 15 then 0x1021 else 0)))) ∧
  (∀ (kind : FrameKind) (strap : BitVec 2) (content : List Byte) (n : Nat), content ≠ [] →
     n = (content.length + 245) / 246 → n ≤ 128 →
     (runOf kind strap content).length = n ∧
     ∀ k, k < n → (runOf kind strap content)[k]? = some (envelope kind
       (strap.setWidth 8 :: BitVec.ofNat 8 (if k + 1 = n then 128 + k else k) ::
         (content.drop (246 * k)).take 246))) ∧
  (∀ (t : Tick) (body : RecordBody),
     field (Record.content ⟨t, body⟩) 0 1 = (match body with
       | .verdict _ => 1 | .window _ => 2 | .summary _ => 3 | .mark _ => 4 | .query _ => 5
       | .attention _ => 6) ∧
     field (Record.content ⟨t, body⟩) 1 4 = t.toNat ∧
     (Record.content ⟨t, body⟩).drop 5 = (match body with
       | .verdict v => v.bytes | .window r => r.bytes | .summary r => r.bytes | .mark m => m.bytes
       | .query r => r.bytes | .attention r => r.bytes)) ∧
  (∀ m : Moment, m.bytes.length = 10 ∧ field m.bytes 0 2 = m.stamp.day % 65536 ∧
     field m.bytes 2 3 = m.stamp.eighth % 16777216 ∧
     field m.bytes 5 1 = (match m.stamp.clock with
       | .unset => 0 | .stopped => 1 | .running => 2) ∧
     field m.bytes 6 4 = m.tick.toNat) ∧
  (∀ v : Verdict,
     v.bytes.length = 67 ∧ field v.bytes 0 2 = v.number % 65536 ∧ field v.bytes 2 2 = v.key % 65536 ∧
     field v.bytes 4 1 = v.index % 256 ∧ field v.bytes 5 1 = v.slot % 256 ∧
     field v.bytes 6 2 = v.continuationOf.getD 0 % 65536 ∧
     (∀ j, v.judged = some j → field v.bytes 8 1 = j.metric.code ∧ field v.bytes 9 1 = j.window.code ∧
       field v.bytes 10 1 = j.test.code ∧ field v.bytes 12 2 = j.threshold % 65536 ∧
       (v.bytes.getD 66 0).getLsbD 0 = j.negate) ∧
     (v.judged = none → field v.bytes 8 3 = 0 ∧ field v.bytes 12 2 = 0 ∧
       (v.bytes.getD 66 0).getLsbD 0 = false) ∧
     field v.bytes 11 1 = v.reason.code ∧ (v.bytes.drop 14).take 10 = v.start.bytes ∧
     (v.bytes.drop 24).take 10 = v.lastTrue.bytes ∧ (v.bytes.drop 34).take 10 = v.close.bytes ∧
     field v.bytes 44 4 = v.openTick.toNat ∧ field v.bytes 48 4 = v.duration.toNat ∧
     field v.bytes 52 2 = v.peak.getD 0 % 65536 ∧ field v.bytes 54 2 = v.leq.getD 0xFFFF % 65536 ∧
     field v.bytes 56 4 = v.sliceCount % 4294967296 ∧ field v.bytes 60 2 = v.reentries % 65536 ∧
     field v.bytes 62 1 = v.primary.getD 0xFF % 256 ∧ field v.bytes 63 1 = v.everActive.toNat ∧
     field v.bytes 64 2 = v.coincident.toNat ∧ (v.bytes.getD 66 0).getLsbD 1 = v.suspect ∧
     (v.bytes.getD 66 0).getLsbD 2 = v.clockNotRunning ∧ (v.bytes.getD 66 0).getLsbD 3 = v.truncated ∧
     (v.bytes.getD 66 0).getLsbD 4 = v.peak.isSome ∧ field v.bytes 66 1 < 32) ∧
  (∀ r : WindowRecord,
     r.bytes.length = 47 ∧ field r.bytes 0 2 = r.key % 65536 ∧ field r.bytes 2 1 = r.index % 256 ∧
     field r.bytes 3 1 = r.slot % 256 ∧ field r.bytes 4 1 = r.window.code ∧ field r.bytes 5 1 = r.metric.code ∧
     field r.bytes 6 1 = r.test.code ∧
     (r.bytes.getD 7 0).getLsbD 0 = r.truncated ∧ (r.bytes.getD 7 0).getLsbD 1 = r.overload ∧
     (r.bytes.getD 7 0).getLsbD 2 = r.reference.isSome ∧ (r.bytes.getD 7 0).getLsbD 3 = r.value.isSome ∧
     field r.bytes 7 1 < 16 ∧
     (r.bytes.drop 8).take 10 = r.spanStart.bytes ∧ (r.bytes.drop 18).take 10 = r.close.bytes ∧
     field r.bytes 28 2 = r.value.getD 0 % 65536 ∧ field r.bytes 30 2 = r.threshold % 65536 ∧
     field r.bytes 32 2 = r.reference.getD 0 % 65536 ∧ field r.bytes 34 4 = r.counted % 4294967296 ∧
     field r.bytes 38 4 = r.excluded % 4294967296 ∧ field r.bytes 42 4 = r.expected % 4294967296 ∧
     field r.bytes 46 1 = r.coverage % 256) ∧
  ((∀ r : SummaryRecord,
     r.bytes.take 10 = r.moment.bytes ∧
     field r.bytes 10 2 = r.dropped % 65536 ∧ field r.bytes 12 2 = r.fieldErrors % 65536 ∧
     field r.bytes 14 2 = r.gatewayErrors % 65536 ∧ field r.bytes 16 2 = r.forwardOverruns % 65536 ∧
     field r.bytes 18 2 = r.controlOverruns % 65536 ∧
     r.bytes.drop 20 = BitVec.ofNat 8 r.slots.length :: (r.slots.flatMap SlotAccount.bytes ++
       BitVec.ofNat 8 r.lines.length :: (r.lines.flatMap LineAccount.bytes ++
         BitVec.ofNat 8 r.uncaptured.length :: r.uncaptured.flatMap UncapturedAccount.bytes))) ∧
   (∀ a : SlotAccount,
     a.bytes.length = 23 ∧ field a.bytes 0 1 = a.slot % 256 ∧
     field a.bytes 1 1 = (match a.link with
       | .unbound => 0 | .waiting _ => 1 | .live _ _ _ => 2 | .stalled _ _ _ => 3) ∧
     (∀ id, a.link.boundId = some id → field a.bytes 2 1 = id % 256) ∧
     field a.bytes 3 2 = a.counters.accepted % 65536 ∧ field a.bytes 5 2 = a.counters.missing % 65536 ∧
     field a.bytes 7 2 = a.counters.rejected % 65536 ∧ field a.bytes 9 2 = a.counters.range % 65536 ∧
     field a.bytes 11 2 = a.counters.excluded % 65536 ∧ field a.bytes 13 2 = a.counters.resyncs % 65536 ∧
     field a.bytes 15 2 = a.counters.stalls % 65536 ∧ field a.bytes 17 2 = a.leq.getD 0xFFFF % 65536 ∧
     field a.bytes 19 4 = a.count % 4294967296) ∧
   (∀ a : LineAccount,
     a.bytes.length = 6 ∧ field a.bytes 0 1 = a.line % 256 ∧ field a.bytes 1 4 = a.run % 4294967296 ∧
     field a.bytes 5 1 = if a.active then 1 else 0) ∧
   (∀ a : UncapturedAccount,
     a.bytes.length = 5 ∧ field a.bytes 0 1 = a.index % 256 ∧ field a.bytes 1 2 = a.key.getD 0 % 65536 ∧
     field a.bytes 3 2 = a.count % 65536)) ∧
  ((∀ m : Mark,
     m.bytes.take 10 = m.moment.bytes ∧
     field m.bytes 10 1 = m.band % 256 ∧ field m.bytes 11 1 = m.levels.length % 256 ∧
     m.bytes.length = 12 + 3 * m.levels.length ∧
     ∀ k slot level, m.levels[k]? = some (slot, level) → field m.bytes (12 + 3 * k) 1 = slot % 256 ∧
       field m.bytes (13 + 3 * k) 2 = level.getD 0xFFFF % 65536) ∧
   (∀ r : QueryRecord,
     field r.bytes 0 1 = r.position % 256 ∧ r.bytes[1]? = some r.query.command.commandCode.byte ∧
     (∀ key slot, r.query.command = .readWindow key slot → field r.bytes 2 2 = key % 65536) ∧
     ((∀ key slot, r.query.command ≠ .readWindow key slot) → field r.bytes 2 2 = 0) ∧
     field r.bytes 4 1 = r.query.command.slotField.getD 0xFF % 256 ∧ r.bytes[5]? = some r.query.tag ∧
     r.bytes.drop 6 = r.item.bytes) ∧
   (∀ r : AttentionRecord,
     r.bytes.length = 14 ∧ r.bytes.take 10 = r.moment.bytes ∧ field r.bytes 10 2 = r.pending.toNat ∧
     field r.bytes 12 2 = r.mask.toNat)) ∧
  ((∀ r : Reply, r.content = r.tag :: BitVec.ofNat 8 r.items.length :: (r.items.flatMap ReplyItem.bytes ++
     [(r.pending.toNat / 256 : Nat), r.pending.toNat].map (BitVec.ofNat 8))) ∧
   (∀ i : ReplyItem, i.bytes[0]? = some i.code ∧
     field i.bytes 1 1 = (match i.result with
       | .ok => 0 | .busy => 1 | .denied => 2 | .frozen => 3 | .range => 4 | .malformed => 5 | .unknown => 6
       | .notFound => 7 | .full => 8) ∧
     field i.bytes 2 2 = i.data.bytes.length % 65536 ∧ i.bytes.drop 4 = i.data.bytes) ∧
   ReplyData.bytes .empty = [])

/-! ### The schedule and the clock -/

/-- LOAD BANDS: out of range whole, busy, denied where a named band is protected; else the named staged
records take their values and the others stay (R33). LOAD EXCEPTIONS: out of range, busy, denied; else the
staged list is the list carried (R31). -/
def Obligations.LoadBandsAndExceptions : Prop :=
  (∀ (s : State) (v : ItemView) (images : List (List Byte)) (u : State), s.Takes .loadBands v →
     s.BandLegal → images = recordsOf 8 (field v.operands 0 1) (v.operands.drop 1) →
     u = s.settleCommit →
     ((∃ x, x ∈ images ∧ bandOfImage x = none) → exec .loadBands s = .next (u.refused v .range)) ∧
     (∀ records : List (Nat × Option BandRecord), images.map bandOfImage = records.map some →
       (records = [] ∨ 14 < records.length ∨ ¬(records.map (·.1)).Nodup →
         exec .loadBands s = .next (u.refused v .range)) ∧
       (records ≠ [] → records.length ≤ 14 → (records.map (·.1)).Nodup →
         (u.table.pending = true → exec .loadBands s = .next (u.refused v .busy)) ∧
         (u.table.pending = false → u.certifyAsserted = false →
           (∃ p, p ∈ records ∧ u.bandProtected p.1 = true) →
           exec .loadBands s = .next (u.refused v .denied)) ∧
         (u.table.pending = false →
           u.certifyAsserted = true ∨ (∀ p, p ∈ records → u.bandProtected p.1 = false) →
           ∃ staged : List (Option BandRecord), exec .loadBands s = .next (State.answered v .ok .empty
               { u with schedule := { u.schedule with stagedBands := staged } }) ∧
             staged.length = 14 ∧ (∀ p, p ∈ records → staged[p.1]? = some p.2) ∧
             ∀ b, (∀ p, p ∈ records → p.1 ≠ b) → staged[b]? = u.schedule.stagedBands[b]?)))) ∧
  (∀ (s : State) (v : ItemView) (images : List (List Byte)) (u : State), s.Takes .loadExceptions v →
     images = recordsOf 3 (field v.operands 0 1) (v.operands.drop 1) → u = s.settleCommit →
     ((∃ x, x ∈ images ∧ exceptionOfImage x = none) →
       exec .loadExceptions s = .next (u.refused v .range)) ∧
     (∀ records : List ExceptionRecord, images.map exceptionOfImage = records.map some →
       (24 < records.length ∨ ¬(records.map (·.day)).Pairwise (· < ·) →
         exec .loadExceptions s = .next (u.refused v .range)) ∧
       (records.length ≤ 24 → (records.map (·.day)).Pairwise (· < ·) →
         exec .loadExceptions s = .next (
           if u.table.pending then u.refused v .busy
           else if u.anyCertified && !u.certifyAsserted then u.refused v .denied
           else State.answered v .ok .empty
             { u with schedule := { u.schedule with stagedExceptions := records } }))))

/-- The weekday of a day number is the day number plus the weekday offset modulo 7, 0 Monday and 6 Sunday. The
day type of the present day is that of the day's record in the active exception list, or else its weekday;
bands are matched by it, READ TIME reports it, and the staged list has no effect on it (R29). -/
def Obligations.DayTypes : Prop :=
  ∀ s : State,
    (∀ before x after, s.schedule.activeExceptions = before ++ x :: after → x.day = s.clock.day →
      (∀ y, y ∈ before → y.day ≠ s.clock.day) → s.dayType = x.dayType) ∧
    ((∀ x, x ∈ s.schedule.activeExceptions → x.day ≠ s.clock.day) →
      some s.dayType =
        [DayType.mon, .tue, .wed, .thu, .fri, .sat, .sun][(s.clock.day + s.clock.weekdayOffset) % 7]?) ∧
    (∀ b, s.clock.state = .running → s.bandNow = b → b < 14 → ∃ r : BandRecord,
      s.schedule.activeBands[b]? = some (some r) ∧ r.days.getLsbD s.dayType.code = true) ∧
    s.readQuery .readTime = ⟨.ok, .time s.now ((s.clock.day + s.clock.weekdayOffset) % 7) s.dayType
      s.clock.band s.clock.trim⟩ ∧
    ∀ staged, State.dayType { s with schedule := { s.schedule with stagedExceptions := staged } } = s.dayType

/-- SET TIME: out of range, denied; else the clock is STOPPED at the values carried with the weekday carried;
every current episode closes TIME_SET with the loaded time, oldest first, and its verdict is offered (R108,
R112); every window is discarded without evaluation, the band is UNTIMED, and CLOCK_STOPPED is raised; the
tick count, the trim, the schedule, the tables, the slots and every result cell stay (R26, R81). Where the
band was another, that is a band-change event: every line's band run ticks become 0 and the band start the
loaded time; the rest of the plant monitor stays in any case (R35, R123). Underflows of a tick and a press of
a sample already taken come before it, with their stamps (the model's reading, logs 25 and 20): each is taken
as its own row takes it. -/
def Obligations.SetTime : Prop :=
  (∀ s : State, exec .baseUnderflow s = .next (s.takeDue plainTick .cadence) ∧
     exec .summaryUnderflow s = .next (s.takeDue plainTick .summary) ∧
     exec .markPress s = .next (s.takeDue plainTick (.recognition .mark))) ∧
  ∀ (s : State) (v : ItemView) (day eighth weekday : Nat) (u : State), s.Takes .setTime v →
    day = field v.operands 0 2 → eighth = field v.operands 2 3 →
    weekday = field v.operands 5 1 → u = s.settleCommit →
    (691199 < eighth ∨ 6 < weekday → exec .setTime s = .next (u.refused v .range)) ∧
    (eighth ≤ 691199 → weekday ≤ 6 → u.anyCertified = true → u.certifyAsserted = false →
      exec .setTime s = .next (u.refused v .denied)) ∧
    (eighth ≤ 691199 → weekday ≤ 6 → u.anyCertified = false ∨ u.certifyAsserted = true →
      ∀ w : State, w = ((u.takeDue plainTick .cadence).takeDue plainTick .summary).takeDue plainTick
          (.recognition .mark) →
      ∃ x t : State, exec .setTime s = .next (t.answered v .ok .empty) ∧ t.notified .clockStopped ∧
        x = { w with
          clock := t.clock
          episodes := { w.episodes with current := [] }
          beacons := t.beacons } ∧
        t = State.raise .clockStopped { x.offerEach (w.episodes.current.map (fun e =>
            e.verdict w.table.active .timeSet ⟨⟨day, eighth, .stopped⟩, w.clock.tickCount⟩)) with
          windows := t.windows, plant := t.plant } ∧
        (w.episodes.current = [] → t.beacons = w.beacons) ∧
        (w.episodes.current ≠ [] → State.Follows w t) ∧
        t.clock = { w.clock with
          state := .stopped
          day := day
          eighth := eighth
          weekdayOffset := t.clock.weekdayOffset
          band := 15 } ∧
        t.clock.weekdayOffset < 7 ∧ (day + t.clock.weekdayOffset) % 7 = weekday ∧
        t.episodes.current = [] ∧ t.episodes.next = w.episodes.next ∧
        t.episodes.uncaptured = w.episodes.uncaptured ∧ t.windows.cells = w.windows.cells ∧
        (∀ i slot, t.windows.unitAt i slot =
          (w.windows.unitAt i slot).map (fun x => ⟨x.histogram, .idle⟩)) ∧
        t.schedule = w.schedule ∧ t.slots = w.slots ∧ t.table = w.table ∧ t.cadence = w.cadence ∧
        t.held = w.held ∧ t.plant = (if w.clock.band = 15 then w.plant
          else { w.plant with
            lines := w.plant.lines.map (fun l => { l with bandRun := 0 })
            bandStart := ⟨⟨day, eighth, .stopped⟩, w.clock.tickCount⟩ }))

/-- START TIME: out of range while UNSET, denied, no effect while RUNNING; a STOPPED clock runs at once from
the loaded time: the band is decided for it, with its band-change event (R27, R35, R109, R123), and then every
IDLE unit of an entry active in it opens its window, and nothing else changes (R70). Underflows of a tick and
a press of a sample already taken come before it (the model's reading, logs 25 and 20). TRIM: out of range
outside -128 to 127, denied; else the trim alone takes the value, and the tick interval in progress keeps the
trim it began under (R22). What a unit opens with at a moment starts there with nothing counted; a FIXED
window or a step is cut short where the moment is off its boundary, and a BAND window unless a band change
decided at a minute tick opens it (R70). -/
def Obligations.StartTimeAndTrim : Prop :=
  (∀ (e : LimitEntry) (m : Moment) (minute : Bool) (begun : Bool → Tally),
     (∀ cut, begun cut = ⟨m, 0, 0, [], none, none, 0, [], false, cut⟩) →
     (e.window = .slice → e.openAcc m minute = .idle) ∧
     (∀ n, e.window = .fixed n → e.openAcc m minute = .window (begun (m.stamp.eighth % (480 * n) != 0))) ∧
     (e.window = .band → e.openAcc m minute = .window (begun (!minute))) ∧
     (∀ step k, e.window = .rolling step k →
       e.openAcc m minute = .ring [begun (m.stamp.eighth % (8 * step) != 0)]) ∧
     (∀ band, e.activeIn band = e.bands.getLsbD band) ∧
     ∀ c : Clock, c.running = true ↔ c.state = .running) ∧
  (∀ (s : State) (v : ItemView) (u : State), s.Takes .startTime v → u = s.settleCommit →
     (u.clock.state = .unset → exec .startTime s = .next (u.refused v .range)) ∧
     (u.clock.state ≠ .unset → u.anyCertified = true → u.certifyAsserted = false →
       exec .startTime s = .next (u.refused v .denied)) ∧
     (u.clock.state = .running → u.anyCertified = false ∨ u.certifyAsserted = true →
       exec .startTime s = .next (u.answered v .ok .empty)) ∧
     (u.clock.state = .stopped → u.anyCertified = false ∨ u.certifyAsserted = true →
       ∀ w : State, w = ((u.takeDue plainTick .cadence).takeDue plainTick .summary).takeDue plainTick
           (.recognition .mark) →
       ∃ x t : State, exec .startTime s = .next (t.answered v .ok .empty) ∧
         x = State.decideBand false false { w with clock := { w.clock with state := .running } } ∧
         t = { x with windows := { x.windows with units := t.windows.units } } ∧
         t.clock = { w.clock with state := .running, band := t.bandNow } ∧
         (∀ i e slot a, t.table.active.at i = some e → e.slots.getLsbD slot = true →
           x.windows.unitAt i slot = some a → t.windows.unitAt i slot = some ⟨a.histogram,
             if a.acc = .idle ∧ e.bands.getLsbD t.clock.band = true then e.openAcc t.now false else a.acc⟩) ∧
         (∀ i slot, (∀ e, t.table.active.at i = some e → e.slots.getLsbD slot = false) →
           t.windows.unitAt i slot = x.windows.unitAt i slot) ∧
         (∀ i e slot, t.table.active.at i = some e → e.slots.getLsbD slot = true →
           e.window ≠ .slice → e.activeIn t.clock.band = true →
           (w.windows.unitAt i slot).isSome → t.windows.accAt i slot ≠ .idle) ∧
         t.schedule = w.schedule ∧ t.slots = w.slots ∧ t.table = w.table ∧ t.cadence = w.cadence ∧
         t.held = w.held)) ∧
  (∀ (s : State) (v : ItemView) (trim : Int) (u : State), s.Takes .trim v →
     trim = (BitVec.ofNat 16 (field v.operands 0 2)).toInt → u = s.settleCommit →
     exec .trim s = .next (
       if trim < -128 ∨ 127 < trim then u.refused v .range
       else if u.anyCertified && !u.certifyAsserted then u.refused v .denied
       else State.answered v .ok .empty { u with clock := { u.clock with trim := trim } }))

/-! ### Slots and plant lines -/

/-- BIND SLOT and UNBIND SLOT: out of range, denied on a protected slot; UNBIND SLOT of an UNBOUND slot
changes nothing; else the slot's record takes its new values, each of its episodes closes UNBOUND, oldest
first, and its verdict is offered (R108, R111), its result cells and accumulators restart, and the other
slots stay (R16, R17, R69). -/
def Obligations.BindAndUnbindSlot : Prop :=
  ∀ (s : State) (v : ItemView) (u : State), u = s.settleCommit →
    ∀ slot, slot = field v.operands 0 1 →
    (s.Takes .bindSlot v → ∀ id, id = field v.operands 1 1 →
      (11 < slot ∨ 63 < id ∨ (∃ (i : Nat) (r : SlotRecord), i ≠ slot ∧ u.slots[i]? = some r ∧
          r.link.boundId = some id) → exec .bindSlot s = .next (u.refused v .range)) ∧
      (slot ≤ 11 → id ≤ 63 → (∀ (i : Nat) (r : SlotRecord), i ≠ slot → u.slots[i]? = some r →
          r.link.boundId ≠ some id) →
        (u.slotProtected slot = true → u.certifyAsserted = false →
          exec .bindSlot s = .next (u.refused v .denied)) ∧
        (u.slotProtected slot = false ∨ u.certifyAsserted = true →
          ∃ t, exec .bindSlot s = .next (State.answered v .ok .empty t) ∧
            t = u.rebind slot (.waiting id)))) ∧
    (s.Takes .unbindSlot v →
      (11 < slot → exec .unbindSlot s = .next (u.refused v .range)) ∧
      (slot ≤ 11 → u.slotProtected slot = true → u.certifyAsserted = false →
        exec .unbindSlot s = .next (u.refused v .denied)) ∧
      (∀ r : SlotRecord, slot ≤ 11 → u.slots[slot]? = some r →
        u.slotProtected slot = false ∨ u.certifyAsserted = true →
        (r.link = .unbound → exec .unbindSlot s = .next (u.answered v .ok .empty)) ∧
        (r.link ≠ .unbound → ∃ t, exec .unbindSlot s = .next (State.answered v .ok .empty t) ∧
          t = u.rebind slot .unbound))) ∧
    (∀ link t, t = u.rebind slot link →
      (∃ x : State, x = { u with
          episodes := { u.episodes with current := t.episodes.current }, beacons := t.beacons } ∧
        t = { x.offerEach (u.verdictsOf (fun ep => ep.slot == slot) .unbound) with
          slots := t.slots, windows := t.windows } ∧
        ((∀ ep, ep ∈ u.episodes.current → ep.slot ≠ slot) → t.beacons = u.beacons) ∧
        ((∃ ep, ep ∈ u.episodes.current ∧ ep.slot = slot) → State.Follows u t)) ∧
      (∀ r : SlotRecord, u.slots[slot]? = some r →
        t.slots = u.slots.set slot ⟨link, none, ⟨0, 0, 0, 0, 0, 0, 0⟩, ⟨[], 0⟩⟩) ∧
      t.episodes.current = u.episodes.current.filter (fun ep => ep.slot != slot) ∧
      t.episodes.next = u.episodes.next ∧
      (∀ i c, gridAt t.windows.cells i slot = some c → c = .empty) ∧
      (∀ i n, n ≠ slot → t.windows.cellAt i n = u.windows.cellAt i n ∧
        t.windows.unitAt i n = u.windows.unitAt i n) ∧
      (∀ i e x, u.table.active.at i = some e → e.slots.getLsbD slot = true →
        u.windows.unitAt i slot = some x → t.windows.unitAt i slot = some ⟨x.histogram,
          if e.activeIn u.clock.band && u.clock.running then e.openAcc u.now false else .idle⟩) ∧
      t.clock = u.clock ∧ t.schedule = u.schedule ∧ t.table = u.table ∧ t.plant = u.plant ∧
      t.cadence = u.cadence ∧ t.held = u.held)

/-- LOAD PLANT: out of range whole; else the named lines alone change: a line's record is replaced, its
active flag follows the new active level with the tick of the change, and its sampler and run counts stay
(R121, R122). Of the current episodes only the ever-active lines change: each gains exactly the named lines
that are enabled and active now and were not both before (R121, R126). -/
def Obligations.LoadPlant : Prop :=
  ∀ (s : State) (v : ItemView) (images : List (List Byte)) (u : State), s.Takes .loadPlant v →
    images = recordsOf 6 (field v.operands 0 1) (v.operands.drop 1) → u = s.settleCommit →
    ((∃ x, x ∈ images ∧ plantOfImage x = none) → exec .loadPlant s = .next (u.refused v .range)) ∧
    (∀ records : List (Nat × PlantRecord), images.map plantOfImage = records.map some →
      (records = [] ∨ 8 < records.length ∨ ¬(records.map (·.1)).Nodup →
        exec .loadPlant s = .next (u.refused v .range)) ∧
      (records ≠ [] → records.length ≤ 8 → (records.map (·.1)).Nodup →
        ∃ t : State, exec .loadPlant s = .next (t.answered v .ok .empty) ∧
          t = { u with plant := { u.plant with lines := t.plant.lines }
                       episodes := { u.episodes with current := t.episodes.current } } ∧
          t.episodes.current.length = u.episodes.current.length ∧
          (∀ (k : Nat) (e : Episode), u.episodes.current[k]? = some e → ∃ lines : LineSet,
            t.episodes.current[k]? = some { e with everActive := lines } ∧
            ∀ i, i < 8 → (lines.getLsbD i = true ↔ e.everActive.getLsbD i = true ∨
              ∃ r l, (i, r) ∈ records ∧ u.plant.lines[i]? = some l ∧ r.enabled = true ∧
                l.sampler.level = r.activeLevel ∧ ¬(l.record.enabled = true ∧ l.active = true))) ∧
          (∀ p (l : PlantLine), p ∈ records → u.plant.lines[p.1]? = some l →
            t.plant.lines[p.1]? = some { l with
              record := p.2
              active := l.sampler.level == p.2.activeLevel
              activationTick := (if l.sampler.level = p.2.activeLevel ∧ l.active = false
                then some u.clock.tickCount else l.activationTick)
              deactivationTick := (if l.sampler.level ≠ p.2.activeLevel ∧ l.active = true
                then some u.clock.tickCount else l.deactivationTick) }) ∧
          (∀ i, (∀ p, p ∈ records → p.1 ≠ i) → t.plant.lines[i]? = u.plant.lines[i]?)))

/-! ### Reads -/

/-- READ BANDS, READ PLANT and READ STATUS report the state of the moment and change nothing (R38, R134,
R181). FETCH COINCIDENCE reports the mask and the setting stamp of the moment, then clears the mask, the
latch and the stamp (R129). FETCH NOTICES reports the pending set, the mask and the latch, then empties the
pending set and clears the latch (R148). -/
def Obligations.SystemReadsAndFetches : Prop :=
  (∀ (s : State) (v : ItemView) (u : State), u = s.settleCommit →
     (s.Takes .readBands v → exec .readBands s = .next (u.answered v .ok (
       if .staged ∈ v.prefixes then
         .bands u.schedule.stagedBands ((List.range 14).map u.bandProtected)
           u.schedule.stagedExceptions u.clock.band
       else
         .bands u.schedule.activeBands ((List.range 14).map u.bandProtected)
           u.schedule.activeExceptions u.clock.band))) ∧
     (s.Takes .readPlant v → exec .readPlant s = .next (u.answered v .ok
       (.plant u.now u.clock.band u.plant.bandStart u.plant.lines (u.plant.mark.level == .low)
         (u.plant.certify.level == .low) (u.plant.markLatch.map (fun m => m.moment.tick))
         u.plant.coincidence.latch))) ∧
     (s.Takes .readStatus v → ∃ r, exec .readStatus s = .next (u.answered v .ok (.status r)) ∧
       r.moment = u.now ∧ r.strap = u.ports.strap ∧ r.commitPending = u.table.pending ∧
       r.lastResult = u.table.lastResult ∧ r.clock = u.clock.state ∧ r.band = u.clock.band ∧
       r.plainInUse = u.windows.inUse false ∧ r.histInUse = u.windows.inUse true ∧
       r.depth = u.report.queue.length ∧
       r.opened + r.holdOff = u.episodes.current.length ∧
       r.opened = (u.episodes.current.filter (fun e => e.state == .opened)).length ∧
       r.closedWaiting = u.episodes.waiting.length ∧ r.certify = u.certifyAsserted ∧
       r.queries = u.cadence.queries.length ∧ r.beacons = u.beaconReports ∧
       r.latch = u.notices.latch ∧ r.fieldErrors = u.ports.fieldErrors ∧
       r.gatewayErrors = u.ports.gatewayErrors ∧ r.forwardOverruns = u.ports.forwardOverruns ∧
       r.controlOverruns = u.ports.controlOverruns ∧ r.forwardFill = u.ports.forward.length ∧
       r.onwardFill = u.ports.onward.length ∧ r.replyFill = u.ports.holding.length)) ∧
  (∀ (s : State) (v : ItemView) (u : State), u = s.settleCommit →
     (s.Takes .fetchCoincidence v → exec .fetchCoincidence s = .next (State.answered v .ok
       (.coincidence u.now u.plant.coincidence.mask u.plant.coincidence.setting)
       { u with plant := { u.plant with coincidence := ⟨0, false, none⟩ } })) ∧
     (s.Takes .fetchNotices v → exec .fetchNotices s = .next (State.answered v .ok
       (.notices u.now u.notices.pending u.notices.mask u.notices.latch)
       { u with notices := ⟨0, u.notices.mask, false⟩ })))

/-- READ HISTOGRAM: out of range first, NOT_FOUND, RANGE for an entry that is not LN; else the bins named
with their counts in the open window, or zero counts; it changes nothing (R89). Figures the manual works
out: the bins READ HISTOGRAM returns by its table of R89, and for every operand in range only bins of the
histogram from the start bin on; the check of an envelope over the nine bytes 31h to 39h, 29B1h; the stamp
of day 1203, eighth 547000, RUNNING, 04h B3h 08h 58h B8h 02h (R183, R184). -/
def Obligations.ReadHistogramAndWorkedFigures : Prop :=
  (∀ (s : State) (v : ItemView) (key start count wrap : Nat) (u : State), s.Takes .readHistogram v →
     key = field v.operands 0 2 → start = field v.operands 2 1 → count = field v.operands 3 1 →
     wrap = field v.operands 4 1 → u = s.settleCommit →
     ((∀ n, .slot n ∈ v.prefixes → 11 < n) ∨ key = 0 ∨ 119 < start ∨ count < 1 ∨ 32 < count ∨
       wrap ∉ [0, 8, 16, 32] → exec .readHistogram s = .next (u.refused v .range)) ∧
     (∀ n, .slot n ∈ v.prefixes → n ≤ 11 → key ≠ 0 → start ≤ 119 → 1 ≤ count → count ≤ 32 →
       wrap ∈ [0, 8, 16, 32] →
       (u.table.active.find key = none → exec .readHistogram s = .next (u.refused v .notFound)) ∧
       (∀ i e, u.table.active.find key = some (i, e) →
         (e.slots.getLsbD n = false → exec .readHistogram s = .next (u.refused v .notFound)) ∧
         (e.slots.getLsbD n = true → (∀ p, e.metric ≠ .ln p) →
           exec .readHistogram s = .next (u.refused v .range)) ∧
         (e.slots.getLsbD n = true → (∃ p, e.metric = .ln p) →
           (∀ w, u.windows.accAt i n = .window w → exec .readHistogram s =
             .next (u.answered v .ok (.histogram u.now n true (some w.start) w.counted
               ((histogramBins start count wrap).map (fun b => (b, Counts.at w.bins b)))))) ∧
           (u.windows.accAt i n = .idle → exec .readHistogram s =
             .next (u.answered v .ok (.histogram u.now n false none 0
               ((histogramBins start count wrap).map (fun b => (b, 0)))))))))) ∧
  ((histogramBins 118 4 0 = [118, 119] ∧ histogramBins 118 4 8 = [118, 119, 112, 113] ∧
      histogramBins 100 24 32 = (List.range 20).map (· + 100) ++ [96, 97, 98, 99] ∧
      histogramBins 5 10 8 = [5, 6, 7, 0, 1, 2, 3, 4, 5, 6] ∧
      ∀ start count wrap, start ≤ 119 → 1 ≤ count → wrap ∈ [0, 8, 16, 32] →
        (histogramBins start count wrap).head? = some start ∧
          (∀ b, b ∈ histogramBins start count wrap → b ≤ 119) ∧
          (wrap ≠ 0 → (histogramBins start count wrap).length = count ∧
            ∀ b, b ∈ histogramBins start count wrap → b / wrap = start / wrap) ∧
          (∀ k b, (histogramBins start count wrap)[k]? = some b → k + 1 < count →
            (histogramBins start count wrap)[k + 1]? =
              if wrap = 0 then (if b < 119 then some (b + 1) else none)
              else if (b + 1) % wrap = 0 ∨ b = 119 then some (b / wrap * wrap) else some (b + 1))) ∧
   (∀ (bins : Counts) (b n : Nat), (bins.map (·.1)).Nodup → ((b, n) ∈ bins → Counts.at bins b = n) ∧
     ((∀ m, (b, m) ∉ bins) → Counts.at bins b = 0)) ∧
   (checkOf [0x31, 0x32, 0x33, 0x34, 0x35, 0x36, 0x37, 0x38, 0x39] = 0x29B1#16 ∧
      (Stamp.bytes ⟨1203, 547000, .running⟩) = [0x04, 0xB3, 0x08, 0x58, 0xB8, 0x02]))

/-- READ TIME, READ SLOT, READ WINDOW and READ EPISODES: without KEEP the command answers its readout and
changes nothing; a KEEP on a read that fails installs nothing; on one that succeeds it renews the tag of the
query already installed, or adds the query while fewer than 4 are installed, or is refused with FULL (R161).
-/
def Obligations.KeptReads : Prop :=
  (∀ q : QueryCommand, q.commandCode = (match q with
       | .readWindow _ _ => .readWindow | .readSlot _ => .readSlot | .readEpisodes => .readEpisodes
       | .readTime => .readTime) ∧
     q.slotField = (match q with
       | .readWindow _ slot => slot | .readSlot slot => slot | .readEpisodes => none | .readTime => none)) ∧
  ∀ (s : State) (v : ItemView) (q : QueryCommand) (u : State), u = s.settleCommit →
    s.Takes q.commandCode v →
    q.slotField = v.modifiers.slot → (∀ key slot, q = .readWindow key slot → key = field v.operands 0 2) →
    ∀ (a : Answer), a = u.readQuery q →
    (.keep ∉ v.prefixes ∨ a.result ≠ .ok →
      exec q.commandCode.instr s = .next (u.answered v a.result a.data)) ∧
    (.keep ∈ v.prefixes → a.result = .ok →
      ((∃ x, x ∈ u.cadence.queries ∧ x.command = q) → exec q.commandCode.instr s =
        .next (State.answered v .ok a.data { u with cadence := { u.cadence with
          queries := u.cadence.queries.map (fun x => if x.command = q then ⟨q, v.tag⟩ else x) } })) ∧
      ((∀ x, x ∈ u.cadence.queries → x.command ≠ q) →
        (u.cadence.queries.length < 4 → exec q.commandCode.instr s =
          .next (State.answered v .ok a.data { u with cadence := { u.cadence with
            queries := u.cadence.queries ++ [⟨q, v.tag⟩] } })) ∧
        (4 ≤ u.cadence.queries.length →
          exec q.commandCode.instr s = .next (u.refused v .full))))

/-- What the four reads report: READ TIME the clock with the weekday, day type, band and trim (R28); READ SLOT
every slot or the one named, RANGE above slot 11 (R18); READ WINDOW RANGE for key 0 or a slot above 11,
NOT_FOUND for a key or slot the active table does not hold, else for each slot the result cell, the state of
the accumulator, and the figures so far of an OPEN one, a ring's over the records it holds (R88, R77); READ
EPISODES every current episode in opening order (R115). The layout of the data of every read: the parts of one
slot, line, window, episode and beacon line, a standing query and a commit result, then the items of each
command's rule in its order (R189, R18, R28, R38, R51, R56, R88, R89, R115, R129, R134, R143, R145, R148,
R157, R163, R181). An item that may be absent stands behind a flag byte and is zero when it is absent, or
carries its sentinel. The small points that R189 leaves to its general sentences are the model's reading (logs
13, 32 and 37). -/
def Obligations.Readouts : Prop :=
  (∀ s : State,
     s.readQuery .readTime = ⟨.ok, .time s.now ((s.clock.day + s.clock.weekdayOffset) % 7) s.dayType
       s.clock.band s.clock.trim⟩ ∧
     (∀ n, 11 < n → s.readQuery (.readSlot (some n)) = ⟨.range, .empty⟩) ∧
     (∀ (n : Nat) (r : SlotRecord), n ≤ 11 → s.slots[n]? = some r →
       s.readQuery (.readSlot (some n)) = ⟨.ok, .slots s.now [⟨n, r.link,
         (match r.link with
           | .live _ _ last => some (s.clock.tickCount - last)
           | .stalled _ _ last => some (s.clock.tickCount - last)
           | _ => none), r.latest, r.counters, r.energy.leq, r.energy.count⟩]⟩) ∧
     (∃ reports, s.readQuery (.readSlot none) = ⟨.ok, .slots s.now reports⟩ ∧
       reports.length = s.slots.length ∧
       ∀ (n : Nat) (r : SlotRecord), s.slots[n]? = some r →
         reports[n]? = some ⟨n, r.link, (match r.link with
           | .live _ _ last => some (s.clock.tickCount - last)
           | .stalled _ _ last => some (s.clock.tickCount - last)
           | _ => none), r.latest, r.counters, r.energy.leq, r.energy.count⟩) ∧
     (∀ mask : SlotMask, (members mask).Pairwise (· < ·) ∧
       ∀ n, n ∈ members mask ↔ mask.getLsbD n = true) ∧
     (∀ slot, s.readQuery (.readWindow 0 slot) = ⟨.range, .empty⟩) ∧
     (∀ key n, 11 < n → s.readQuery (.readWindow key (some n)) = ⟨.range, .empty⟩) ∧
     (∀ key slot, key ≠ 0 → (∀ n, slot = some n → n ≤ 11) →
       (s.table.active.find key = none → s.readQuery (.readWindow key slot) = ⟨.notFound, .empty⟩) ∧
       (∀ i e, s.table.active.find key = some (i, e) →
         (∀ n, slot = some n → e.slots.getLsbD n = false →
           s.readQuery (.readWindow key slot) = ⟨.notFound, .empty⟩) ∧
         (∀ n, slot = some n → e.slots.getLsbD n = true → s.readQuery (.readWindow key slot) =
           ⟨.ok, .windows s.now i (e.bands.getLsbD s.clock.band) [s.windowReport i e n]⟩) ∧
         (slot = none → e.slots ≠ 0 → s.readQuery (.readWindow key slot) =
           ⟨.ok, .windows s.now i (e.bands.getLsbD s.clock.band)
             ((members e.slots).map (s.windowReport i e))⟩))) ∧
     (∀ i e n, ∃ report : WindowReport, s.windowReport i e n = report ∧ report.cell = s.windows.cellAt i n ∧
       (e.window = .slice → report.accOpen = none ∧ report.figures = none) ∧
       (e.window ≠ .slice → s.windows.accAt i n = .idle →
         report.accOpen = some false ∧ report.figures = none) ∧
       (∀ w, e.window = .band ∨ (∃ m, e.window = .fixed m) → s.windows.accAt i n = .window w →
         ∀ expected : Nat, expected = (s.clock.tickCount - w.start.tick).toNat →
         report.accOpen = some true ∧ report.figures = some ⟨some w.start, none, none, w.counted, w.excluded,
           expected, coveragePercent w.counted expected, e.metric.over w, w.cut, w.overload⟩) ∧
       (∀ step k first rest, e.window = .rolling step k → s.windows.accAt i n = .ring (first :: rest) →
         ∃ all : Tally, ringTally (first :: rest) = some all ∧
           all.counted = ((first :: rest).map (·.counted)).sum ∧
           all.excluded = ((first :: rest).map (·.excluded)).sum ∧
           all.cut = (first :: rest).any (·.cut) ∧ all.overload = (first :: rest).any (·.overload) ∧
           report.accOpen = some true ∧ report.figures = some ⟨none, some (rest.length + 1), some first.start,
             all.counted, all.excluded, 8 * k * step, coveragePercent all.counted (8 * k * step),
             e.metric.over all, all.cut, all.overload⟩)) ∧
     s.readQuery .readEpisodes = ⟨.ok, .episodes s.now s.episodes.waiting.length
       (s.episodes.current.map (fun e => ⟨e, e.energy.leq⟩))⟩) ∧
  ((∀ l : SlotLink, l.code = match l with
       | .unbound => 0 | .waiting _ => 1 | .live _ _ _ => 2 | .stalled _ _ _ => 3) ∧
   (∀ e : EpisodeState, e.code = match e with
       | .opened => 1 | .holdOff _ => 2) ∧
   (∀ d : DayType, d.code = match d with
       | .mon => 0 | .tue => 1 | .wed => 2 | .thu => 3 | .fri => 4 | .sat => 5 | .sun => 6 | .holiday => 7
       | .special => 8) ∧
   (∀ o : TestOutcome, o.code = match o with
       | .isTrue => 1 | .isFalse => 2 | .undetermined => 3) ∧
   (∀ p : Comparison, p.code = match p with
       | .notAbove => 0 | .above => 1) ∧
   (∀ m : BeaconMode, m.code = match m with
       | .steady => 0 | .pulse => 1 | .flash => 2) ∧
   (∀ o : Override, o.code = match o with
       | .auto => 0 | .forceOn => 1 | .forceOff => 2) ∧
   (∀ a : ProbeAnswer, a.code = match a with
       | .frozen => 1 | .empty => 2 | .needsCertify => 3 | .writable => 4) ∧
   (∀ m : CadenceMode, m.code = match m with
       | .continuous => 0 | .oneShot => 1) ∧
   (∀ c : CommitFailure, c.code = match c with
       | .duplicateKey => 1 | .badReference => 2 | .bandUndefined => 3 | .poolExhausted => 4
       | .histogramExhausted => 5) ∧
   (∀ c : ClockState, c.code = match c with
       | .unset => 0 | .stopped => 1 | .running => 2)) ∧
  ((∀ r : SlotReport, ∃ o, r.bytes = o ∧ o.length = 33 ∧
     field o 0 1 = r.slot % 256 ∧ field o 1 1 = r.link.code ∧
     IsOptional o 2 1 (match r.link with
       | .unbound => none | .waiting id => some id | .live id _ _ => some id | .stalled id _ _ => some id) ∧
     IsOptional o 4 1 (match r.link with
       | .live _ expected _ => some expected | .stalled _ expected _ => some expected | _ => none) ∧
     IsOptional o 6 4 (r.elapsed.map (·.toNat)) ∧ field o 11 2 = r.latest.getD 0xFFFF % 65536 ∧
     field o 13 2 = r.counters.accepted % 65536 ∧ field o 15 2 = r.counters.missing % 65536 ∧
     field o 17 2 = r.counters.rejected % 65536 ∧ field o 19 2 = r.counters.range % 65536 ∧
     field o 21 2 = r.counters.excluded % 65536 ∧ field o 23 2 = r.counters.resyncs % 65536 ∧
     field o 25 2 = r.counters.stalls % 65536 ∧ field o 27 2 = r.leq.getD 0xFFFF % 65536 ∧
     field o 29 4 = r.count % 4294967296) ∧
   (∀ (n : Nat) (l : PlantLine), ∃ o, l.bytes n = o ∧ o.length = 26 ∧ o.take 6 = l.record.image n ∧
     field o 6 1 = (if l.sampler.level = .high then 1 else 0) ∧ field o 7 1 = (if l.active then 1 else 0) ∧
     IsOptional o 8 4 (l.activationTick.map (·.toNat)) ∧
     IsOptional o 13 4 (l.deactivationTick.map (·.toNat)) ∧
     field o 18 4 = l.summaryRun % 4294967296 ∧ field o 22 4 = l.bandRun % 4294967296) ∧
   (∀ r : WindowReport, ∃ o, r.bytes = o ∧ o.length = 88 ∧
     IsOptional o 0 1 (r.cell.outcome.map (·.code)) ∧ IsOptional o 2 2 r.cell.metric ∧
     IsOptional o 5 1 r.cell.coverage ∧ IsOptionalMoment o 7 r.cell.spanStart ∧
     IsOptionalMoment o 18 r.cell.close ∧ IsOptional o 29 1 (r.cell.truncated.map Bool.toNat) ∧
     IsOptional o 31 1 (r.cell.overload.map Bool.toNat) ∧ IsOptional o 33 1 (r.cell.previous.map (·.code)) ∧
     IsOptional o 35 2 r.cell.valid ∧ IsOptional o 38 1 (r.accOpen.map Bool.toNat) ∧
     IsOptionalMoment o 40 (r.figures.bind (·.start)) ∧ IsOptional o 51 1 (r.figures.bind (·.records)) ∧
     IsOptionalMoment o 53 (r.figures.bind (·.oldest)) ∧ IsOptional o 64 4 (r.figures.map (·.counted)) ∧
     IsOptional o 69 4 (r.figures.map (·.excluded)) ∧ IsOptional o 74 4 (r.figures.map (·.expected)) ∧
     IsOptional o 79 1 (r.figures.map (·.coverage)) ∧ IsOptional o 81 2 (r.figures.bind (·.metric)) ∧
     IsOptional o 84 1 (r.figures.map (·.truncated.toNat)) ∧
     IsOptional o 86 1 (r.figures.map (·.overload.toNat))) ∧
   (∀ (e : Episode) (leq : Option Nat), ∃ o, EpisodeReport.bytes ⟨e, leq⟩ = o ∧ o.length = 56 ∧
     field o 0 2 = e.number % 65536 ∧ field o 2 2 = e.key % 65536 ∧ field o 4 1 = e.index % 256 ∧
     field o 5 1 = e.slot % 256 ∧ field o 6 1 = e.state.code ∧ field o 7 4 = e.openTick.toNat ∧
     (o.drop 11).take 10 = e.start.bytes ∧ (o.drop 21).take 10 = e.lastTrue.bytes ∧
     IsOptional o 31 4 (match e.state with
       | .holdOff n => some n
       | .opened => none) ∧
     IsOptional o 36 2 e.peak ∧ field o 39 2 = leq.getD 0xFFFF % 65536 ∧
     field o 41 4 = e.energy.count % 4294967296 ∧ field o 45 2 = e.reentries % 65536 ∧
     field o 47 1 = e.primary.getD 0xFF % 256 ∧ field o 48 1 = e.everActive.toNat ∧
     field o 49 2 = e.coincident.toNat ∧ field o 51 2 = e.continuationOf.getD 0 % 65536 ∧
     field o 53 1 = e.suspect.toNat ∧ field o 54 1 = e.clockNotRunning.toNat ∧
     field o 55 1 = e.truncated.toNat) ∧
   (∀ r : BeaconReport, ∃ o, r.bytes = o ∧ o.length = 10 ∧ field o 0 1 = r.mode.code ∧
     field o 1 1 = r.width % 256 ∧ field o 2 1 = r.override.code ∧ field o 3 1 = r.demand % 256 ∧
     field o 4 4 = r.pulse % 4294967296 ∧ field o 8 1 = r.automatic.toNat ∧ field o 9 1 = r.output.toNat) ∧
   (∀ (n : Nat) (q : Query), ∃ o, q.bytes n = o ∧ o.length = 6 ∧ field o 0 1 = n % 256 ∧
     o[1]? = some q.command.commandCode.byte ∧ o[5]? = some q.tag ∧ ∀ (key : Nat) (slot : Option Nat),
       (q.command = .readWindow key slot → field o 2 2 = key % 65536 ∧ field o 4 1 = slot.getD 0xFF % 256) ∧
       (q.command = .readSlot slot → field o 2 2 = 0 ∧ field o 4 1 = slot.getD 0xFF % 256) ∧
       (q.command = .readEpisodes ∨ q.command = .readTime → field o 2 2 = 0 ∧ field o 4 1 = 0xFF)) ∧
   (∀ qs, queryListBytes qs =
     BitVec.ofNat 8 qs.length :: qs.zipIdx.flatMap (fun p => p.1.bytes p.2)) ∧
   (commitResultBytes none = [0x00, 0x00, 0xFF] ∧ commitResultBytes (some .done) = [0x01, 0x00, 0xFF] ∧
     ∀ reason index, commitResultBytes (some (.failed reason index)) =
       [0x02, BitVec.ofNat 8 reason.code, BitVec.ofNat 8 (index.getD 0xFF)])) ∧
  ((∀ index frozen held active, ∃ o, ReplyData.bytes (.entry index frozen held active) = o ∧ o.length = 34 ∧
     field o 0 1 = index % 256 ∧ field o 1 1 = held.isNone.toNat ∧ field o 2 1 = frozen.toNat ∧
     field o 3 1 = held.isSome.toNat ∧ (o.drop 4).take 28 = (match held with
       | some e => e.image
       | none => List.replicate 28 0) ∧
     IsOptional o 32 1 (active.map Bool.toNat)) ∧
   (∀ index answer, ReplyData.bytes (.probe index answer) =
     [BitVec.ofNat 8 index, BitVec.ofNat 8 answer.code]) ∧
   (∀ records isProtected exceptions band, ReplyData.bytes (.bands records isProtected exceptions band) =
     records.zipIdx.flatMap (fun p => bandImage p.2 p.1) ++
       (isProtected.map (fun b => if b then 0x01 else 0x00) ++ BitVec.ofNat 8 exceptions.length ::
         (exceptions.flatMap ExceptionRecord.image ++ [BitVec.ofNat 8 band]))) ∧
   (∀ moment weekday dayType band trim, ∃ o, ReplyData.bytes (.time moment weekday dayType band trim) = o ∧
     o.length = 15 ∧ o.take 10 = moment.bytes ∧ field o 10 1 = weekday % 256 ∧ field o 11 1 = dayType.code ∧
     field o 12 1 = band % 256 ∧ (field o 13 2 : Int) = trim % 65536) ∧
   (∀ moment reports, ReplyData.bytes (.slots moment reports) =
     moment.bytes ++ reports.flatMap SlotReport.bytes) ∧
   (∀ moment band bandStart lines pressed asserted mark latch, ∃ tail,
     ReplyData.bytes (.plant moment band bandStart lines pressed asserted mark latch) =
       moment.bytes ++ BitVec.ofNat 8 band :: (bandStart.bytes ++
         (lines.zipIdx.flatMap (fun p => p.1.bytes p.2) ++ tail)) ∧
     tail.length = 9 ∧ field tail 0 1 = pressed.toNat ∧ field tail 1 1 = asserted.toNat ∧
     field tail 2 1 = mark.isSome.toNat ∧ IsOptional tail 3 4 (mark.map (·.toNat)) ∧
     field tail 8 1 = latch.toNat) ∧
   (∀ moment mask setting, ∃ o, ReplyData.bytes (.coincidence moment mask setting) = o ∧ o.length = 23 ∧
     o.take 10 = moment.bytes ∧ field o 10 2 = mask.toNat ∧ IsOptionalMoment o 12 setting) ∧
   (∀ moment index active reports, ReplyData.bytes (.windows moment index active reports) =
     moment.bytes ++ BitVec.ofNat 8 index :: (if active then 0x01 else 0x00) ::
       reports.flatMap WindowReport.bytes) ∧
   (∀ moment slot isOpen start counted bins, ∃ o,
     ReplyData.bytes (.histogram moment slot isOpen start counted bins) = o ∧ o.take 10 = moment.bytes ∧
     field o 10 1 = slot % 256 ∧ field o 11 1 = isOpen.toNat ∧ IsOptionalMoment o 12 start ∧
     field o 23 4 = counted % 4294967296 ∧ field o 27 1 = bins.length % 256 ∧
     o.length = 28 + 5 * bins.length ∧ ∀ k bin n, bins[k]? = some (bin, n) →
       field o (28 + 5 * k) 1 = bin % 256 ∧ field o (29 + 5 * k) 4 = n % 4294967296) ∧
   (∀ moment waiting reports, ReplyData.bytes (.episodes moment waiting reports) =
     moment.bytes ++ BitVec.ofNat 8 waiting :: BitVec.ofNat 8 reports.length ::
       reports.flatMap EpisodeReport.bytes) ∧
   (∀ moment lines, ReplyData.bytes (.beacons moment lines) =
     moment.bytes ++ lines.flatMap BeaconReport.bytes) ∧
   (∀ mask, ∃ o, ReplyData.bytes (.noticeMask mask) = o ∧ o.length = 2 ∧ field o 0 2 = mask.toNat) ∧
   (∀ moment waiting mask latch, ∃ o, ReplyData.bytes (.notices moment waiting mask latch) = o ∧ o.length = 15 ∧
     o.take 10 = moment.bytes ∧ field o 10 2 = waiting.toNat ∧ field o 12 2 = mask.toNat ∧
     field o 14 1 = latch.toNat) ∧
   (∀ moment c, ∃ o, ReplyData.bytes (.cadence moment c) = o ∧ o.take 10 = moment.bytes ∧
     field o 10 2 = c.baseLatch % 65536 ∧ field o 12 1 = c.summaryLatch % 256 ∧
     field o 13 2 = c.base % 65536 ∧ field o 15 1 = c.summary % 256 ∧ field o 16 1 = c.second % 256 ∧
     field o 17 1 = c.mode.code ∧ field o 18 1 = c.running.toNat ∧ o.drop 19 = queryListBytes c.queries) ∧
   (∀ qs, ReplyData.bytes (.queries qs) = queryListBytes qs) ∧
   (∀ r : StatusReport, ∃ o tail, ReplyData.bytes (.status r) = o ∧ o.take 10 = r.moment.bytes ∧
     field o 10 1 = r.strap.toNat ∧ field o 11 1 = r.commitPending.toNat ∧
     (o.drop 12).take 3 = commitResultBytes r.lastResult ∧ field o 15 1 = r.clock.code ∧
     field o 16 1 = r.band % 256 ∧ field o 17 1 = r.plainInUse % 256 ∧ field o 18 1 = r.histInUse % 256 ∧
     field o 19 1 = r.depth % 256 ∧ field o 20 1 = r.opened % 256 ∧ field o 21 1 = r.holdOff % 256 ∧
     field o 22 1 = r.closedWaiting % 256 ∧ field o 23 1 = r.certify.toNat ∧ field o 24 1 = r.queries % 256 ∧
     o.drop 25 = r.beacons.flatMap (fun b => [BitVec.ofNat 8 b.override.code,
       if b.automatic then 0x01 else 0x00, if b.output then 0x01 else 0x00]) ++ tail ∧
     tail.length = 12 ∧ field tail 0 1 = r.latch.toNat ∧ field tail 1 2 = r.fieldErrors % 65536 ∧
     field tail 3 2 = r.gatewayErrors % 65536 ∧ field tail 5 2 = r.forwardOverruns % 65536 ∧
     field tail 7 2 = r.controlOverruns % 65536 ∧ field tail 9 1 = r.forwardFill % 256 ∧
     field tail 10 1 = r.onwardFill % 256 ∧ field tail 11 1 = r.replyFill % 256))

/-! ### The analysis -/

/-- RESTART ANALYSIS: busy, denied; else every current episode closes RESTART, oldest first, and its verdict
is offered (R108, R111), every result cell is absent, every unit in use restarts under the current band, and
the coincidence is cleared; the tables, schedule, clock, slots, cadence, next number and uncaptured counters
stay (R116, R90). -/
def Obligations.RestartAnalysis : Prop :=
  ∀ (s : State) (v : ItemView) (u : State), s.Takes .restartAnalysis v → u = s.settleCommit →
    (u.table.pending = true → exec .restartAnalysis s = .next (u.refused v .busy)) ∧
    (u.table.pending = false → u.anyCertified = true → u.certifyAsserted = false →
      exec .restartAnalysis s = .next (u.refused v .denied)) ∧
    (u.table.pending = false → u.anyCertified = false ∨ u.certifyAsserted = true →
      ∃ x t : State, exec .restartAnalysis s = .next (t.answered v .ok .empty) ∧
        x = { u with episodes := { u.episodes with current := [] }, beacons := t.beacons } ∧
        t = { x.offerEach (u.verdictsOf (fun _ => true) .restart) with
          windows := t.windows, plant := t.plant } ∧
        (u.episodes.current ≠ [] → State.Follows u t) ∧
        (u.episodes.current = [] → t.beacons = u.beacons) ∧
        t.episodes.current = [] ∧ t.episodes.next = u.episodes.next ∧
        t.episodes.uncaptured = u.episodes.uncaptured ∧
        t.windows.cells = List.replicate 64 (List.replicate 12 .empty) ∧
        (∀ i e slot x, u.table.active.at i = some e → e.slots.getLsbD slot = true →
          u.windows.unitAt i slot = some x → t.windows.unitAt i slot = some ⟨x.histogram,
            if e.activeIn u.clock.band && u.clock.running then e.openAcc u.now false else .idle⟩) ∧
        t.plant = { u.plant with coincidence := ⟨0, false, none⟩ } ∧
        t.clock = u.clock ∧ t.schedule = u.schedule ∧ t.slots = u.slots ∧ t.table = u.table ∧
        t.cadence = u.cadence ∧ t.held = u.held)

/-- The outcome of a test before negation, on a metric that is present or absent, and of an INVALID entry
over the one slice of a SLICE window (R43). -/
def Obligations.TestsGiveOutcomes : Prop :=
  ∀ (e : LimitEntry) (r : Reading) (previous : Option Comparison) (reference : Option Nat),
    (e.test = .always → e.rawOutcome r previous reference = .isTrue) ∧
    (e.test = .invalid → (e.rawOutcome r previous reference = .isTrue ↔ r.coverage < e.minCoverage) ∧
      (e.rawOutcome r previous reference = .isFalse ↔ e.minCoverage ≤ r.coverage)) ∧
    (e.test ≠ .always → e.test ≠ .invalid → r.coverage < e.minCoverage ∨ r.metric = none →
      e.rawOutcome r previous reference = .undetermined) ∧
    (∀ m, r.metric = some m → e.minCoverage ≤ r.coverage →
      (e.test = .gt → (e.rawOutcome r previous reference = .isTrue ↔ e.threshold < m) ∧
        (e.rawOutcome r previous reference = .isFalse ↔ m ≤ e.threshold)) ∧
      (e.test = .countGe → (e.rawOutcome r previous reference = .isTrue ↔ e.threshold ≤ m) ∧
        (e.rawOutcome r previous reference = .isFalse ↔ m < e.threshold)) ∧
      (e.test = .rise → (e.rawOutcome r previous reference = .isTrue ↔
          e.threshold < m ∧ previous ≠ some .above) ∧
        (e.rawOutcome r previous reference = .isFalse ↔
          ¬(e.threshold < m ∧ previous ≠ some .above))) ∧
      (∀ key, e.test = .excess key →
        (reference = none → e.rawOutcome r previous reference = .undetermined) ∧
        (∀ x, reference = some x →
          (e.rawOutcome r previous reference = .isTrue ↔ (e.threshold : Int) < (m : Int) - x) ∧
          (e.rawOutcome r previous reference = .isFalse ↔ (m : Int) - x ≤ e.threshold)))) ∧
    (e.test = .invalid → e.minCoverage ≤ 100 → ∀ (x : Slice) (arrival : Moment),
      (Reading.ofSlice e x arrival).coverage = 100 ∧
        e.rawOutcome (Reading.ofSlice e x arrival) previous reference = .isFalse)

/-- The final outcome of an evaluation and what acts on it. A negate entry turns TRUE into FALSE and FALSE
into TRUE and leaves UNDETERMINED (R44). The evaluation changes its own result cell and no other: its fields,
the comparison where the outcome is determined, and the valid metric where the metric is valid (R45, R84);
that a determined evaluation without a metric, as INVALID and ALWAYS can make, records NOT_ABOVE is the
model's reading (log 11). The episode table receives every final outcome of an EPISODE or BOTH entry with the
evaluation's figures, and treats FALSE and UNDETERMINED alike; then a TRUE one of a REPORT or BOTH entry
offers its WINDOW record; nothing else acts, and of a NONE entry nothing but the cell changes (R85, R87). A
WINDOW or QUERY record offered joins the queue as State.Admitted says, QUEUE_HIGH and the departure on an idle
transmitter with it (R151, R152, R171), or with the queue full is dropped and counted (R151); of the other
kinds SummaryUnderflow, VerdictAndMarkOffers and NoticesAndMask say what an offer does. The reference value of
an EXCESS test is the latest valid metric of the entry of the reference key on the same slot; it is absent
where the active table holds no such entry or the entry does not name the slot (R46). -/
def Obligations.FinalOutcomeActs : Prop :=
  (∀ (i slot : Nat) (e : LimitEntry) (r : Reading) (closing : Bool) (s : State) (cell : ResultCell)
     (raw final : TestOutcome) (reference : Option Nat),
     gridAt s.windows.cells i slot = some cell → reference = s.referenceValue e slot →
     raw = e.rawOutcome r cell.previous reference →
     final = (match raw with
       | .undetermined => .undetermined
       | .isTrue => if e.negate then .isFalse else .isTrue
       | .isFalse => if e.negate then .isTrue else .isFalse) →
     ∃ u w t : State, s.evaluate i slot e r closing = t ∧
       u = { s with windows := { s.windows with cells := t.windows.cells } } ∧
       t.windows.units = s.windows.units ∧
       (∀ j n, (j, n) ≠ (i, slot) → t.windows.cellAt j n = s.windows.cellAt j n) ∧
       (e.action = .none → t = u) ∧
       u.windows.cellAt i slot =
         { outcome := some final, metric := r.metric, coverage := some r.coverage
           spanStart := some r.spanStart, close := some r.close, truncated := some r.truncated
           overload := some r.overload
           previous := if raw = .undetermined then cell.previous else some (match r.metric with
             | some m => if e.threshold < m then .above else .notAbove
             | none => .notAbove)
           valid := if r.metric.isSome ∧ e.minCoverage ≤ r.coverage then r.metric else cell.valid } ∧
       (e.action = .none ∨ e.action = .report → w = u) ∧
       (e.action = .episode ∨ e.action = .both → w = u.applyOutcome
         ⟨e.key, i, slot, e.holdOff, final, r.metric, r.spanStart, r.close, r.truncated, closing⟩) ∧
       (e.action = .report ∨ e.action = .both → final = .isTrue → t = w.offer (.window
         { key := e.key, index := i, slot := slot, window := e.window, metric := e.metric
           test := e.test, spanStart := r.spanStart, close := r.close, value := r.metric
           threshold := e.threshold, reference := reference, counted := r.counted
           excluded := r.excluded, expected := r.expected, coverage := r.coverage
           truncated := r.truncated, overload := r.overload })) ∧
       (¬((e.action = .report ∨ e.action = .both) ∧ final = .isTrue) → t = w) ∧
       (e.test = .invalid → e.negate = true → (final = .isTrue ↔ e.minCoverage ≤ r.coverage)) ∧
       (e.test = .always → e.negate = true → final = .isFalse)) ∧
  (∀ (h : Handed) (s : State), h.outcome = .undetermined →
     s.applyOutcome h = s.applyOutcome { h with outcome := .isFalse }) ∧
  (∀ (e : LimitEntry) (slot : Nat) (s : State),
     ((∀ key, e.test ≠ .excess key) → s.referenceValue e slot = none) ∧
     (∀ key, e.test = .excess key →
       ((∀ i x, s.table.active.at i = some x → x.key ≠ key) → s.referenceValue e slot = none) ∧
       ∀ i x, s.table.active.at i = some x →
         IsLowest (fun j => ∃ y, s.table.active.at j = some y ∧ y.key = key) i →
         s.referenceValue e slot =
           if x.slots.getLsbD slot = true then (s.windows.cellAt i slot).valid else none)) ∧
  (∀ (body : RecordBody) (s : State), (∃ r, body = .window r) ∨ (∃ q, body = .query q) →
     (s.report.queue.length < 48 → State.Admitted body s (s.offer body)) ∧
     (48 ≤ s.report.queue.length → (s.offer body).notified .reportDropped ∧
       s.offer body = State.raise .reportDropped { s with report := { s.report with
         dropped := min (s.report.dropped + 1) 65535 } }))

/-- A slice into the accumulators of its slot: an OPEN window, or the step in progress of an OPEN ring, counts
it with its energy, its maxima, its event and its bin, or counts it as excluded when it is CALIBRATING; a
saturated window takes no more. Nothing but the units of that slot changes (R68, R75, R76). What a metric is
over what has been counted (R42, R78): absent when nothing was; LEQ the largest code whose energy, 10^(c/100),
does not exceed the mean energy of the counted slices; LMAX and LPEAK the maxima held; LN the lower edge of
the highest bin with N percent of the histogram in it and above; EVENTS the events figure. The equivalent
level of a slot's or an episode's account likewise, with its count stopping at its top (R15, R102). Energy
sums are held as log 6 says; for slices of level 1400 at most, and no more of them than a full ring can count,
the equivalent level is exact. The step records of a ring taken together start at the first one's start, and
sum its counted and excluded slices, energies, bins and events, these to 65535 at most; the maxima are the
largest over them, and a mark on one is a mark on all (R77, R78). -/
def Obligations.SliceIntegrated : Prop :=
  (∀ (slot i : Nat) (x : Slice) (s : State) (e : LimitEntry), s.table.active.at i = some e →
     e.slots.getLsbD slot = true →
     ∀ taken : Tally → Tally,
       (∀ t, x.calibrating = true → taken t = { t with excluded := min (t.excluded + 1) 4294967295 }) →
       (∀ t, x.calibrating = false → 4294967295 ≤ t.counted → taken t = t) →
       (∀ t, x.calibrating = false → t.counted < 4294967295 → taken t = { t with
         counted := t.counted + 1
         energy := EnergySum.add x.level t.energy
         maxFast := some (max (t.maxFast.getD x.fast) x.fast)
         maxPeak := some (max (t.maxPeak.getD x.peak) x.peak)
         events := (match e.metric with
           | .events aux => if aux ≤ x.peak then min (t.events + 1) 65535 else t.events
           | _ => t.events)
         bins := (match e.metric with
           | .ln _ => Counts.bump (min ((x.level - 200) / 10) 119) 1 t.bins
           | _ => t.bins)
         overload := t.overload || x.overload }) →
       ∃ t, s.integrate slot x = t ∧
         t = { s with windows := { s.windows with units := t.windows.units } } ∧
         (∀ w, s.windows.accAt i slot = .window w → t.windows.accAt i slot = .window (taken w)) ∧
         (∀ steps w, s.windows.accAt i slot = .ring (steps ++ [w]) →
           t.windows.accAt i slot = .ring (steps ++ [taken w])) ∧
         (s.windows.accAt i slot = .idle → t.windows.accAt i slot = .idle) ∧
         (∀ j n, n ≠ slot → t.windows.unitAt j n = s.windows.unitAt j n)) ∧
  (∀ (m : Metric) (t : Tally),
     (t.counted = 0 → m.over t = none) ∧
     (t.counted ≠ 0 →
       (m = .leq → ∀ levels, t.energy = EnergySum.ofLevels levels → t.counted = levels.length →
         levels.length ≤ 2 ^ 36 → (∀ l, l ∈ levels → l ≤ 1400) →
         ∃ code, m.over t = some code ∧ IsEquivalentLevel levels code) ∧
       (m = .lmax → m.over t = t.maxFast) ∧
       (m = .lpeak → m.over t = t.maxPeak) ∧
       (∀ n, m = .ln n → 1 ≤ n → n ≤ 99 →
         (slicesFrom 0 t.bins = 0 → m.over t = none) ∧
         (slicesFrom 0 t.bins ≠ 0 → ∃ b, m.over t = some (200 + 10 * b) ∧ b ≤ 119 ∧
           n * slicesFrom 0 t.bins ≤ 100 * slicesFrom b t.bins ∧
           ∀ c, c ≤ 119 → n * slicesFrom 0 t.bins ≤ 100 * slicesFrom c t.bins → c ≤ b)) ∧
       (∀ aux, m = .events aux → m.over t = some t.events))) ∧
  (∀ (a : EnergyAccount) (levels : List Nat), a.sum = EnergySum.ofLevels levels → a.count = levels.length →
     (levels = [] → a.leq = none) ∧
     (levels ≠ [] → levels.length ≤ 2 ^ 36 → (∀ l, l ∈ levels → l ≤ 1400) →
       ∃ code, a.leq = some code ∧ IsEquivalentLevel levels code) ∧
     ∀ l, (levels.length < 4294967295 → (a.add l).sum = EnergySum.ofLevels (levels ++ [l]) ∧
         (a.add l).count = (levels ++ [l]).length) ∧
       (4294967295 ≤ levels.length → a.add l = a)) ∧
  (∀ (levels : List Nat) (l : Nat),
     EnergySum.add l (EnergySum.ofLevels levels) = EnergySum.ofLevels (levels ++ [l])) ∧
  (∀ (b k n : Nat) (bins : Counts),
     slicesFrom b (Counts.bump k n bins) = slicesFrom b bins + if b ≤ k then n else 0) ∧
  (∀ (first : Tally) (rest : List Tally), ∃ all, ringTally (first :: rest) = some all ∧
     all.start = first.start ∧ Tally.IsTotal (first :: rest) all)

/-- A FIXED boundary closes a window that began before it: a new one opens there, or none where the entry is
not active, and the window's figures make one evaluation, not a closing one, which records them in the result
cell and hands the outcome on (R71, R77, R84, R85, R87). A ROLLING step end drops the oldest of K records,
begins a step, and evaluates the ring as it stood, its step records taken together (R73, R77, R85). Off their
boundaries, and for a window or step that began at this very tick, nothing happens. No other unit or cell
changes. A pair holds a unit and a result cell, or a restarted one, by index and slot (R66, R69, R84), and new
contents go to the unit of one pair. -/
def Obligations.BoundaryEndsWindows : Prop :=
  (∀ (w : WindowEngine) (i slot : Nat),
     (∀ x, w.unitAt i slot = some x ↔ ∃ row, w.units[i]? = some row ∧ row[slot]? = some (some x)) ∧
     (∀ x, w.unitAt i slot = some x → w.accAt i slot = x.acc) ∧
     (w.unitAt i slot = none → w.accAt i slot = .idle) ∧
     (∀ c, gridAt w.cells i slot = some c ↔ ∃ row, w.cells[i]? = some row ∧ row[slot]? = some c) ∧
     (∀ c, gridAt w.cells i slot = some c → w.cellAt i slot = c) ∧
     (gridAt w.cells i slot = none → w.cellAt i slot = .empty) ∧
     ResultCell.empty = ⟨none, none, none, none, none, none, none, none, none⟩) ∧
  (∀ (i slot : Nat) (a : Acc) (s t : State), t = s.setAcc i slot a →
     t = { s with windows := { s.windows with units := t.windows.units } } ∧
     t.windows.unitAt i slot = (s.windows.unitAt i slot).map (fun x => ⟨x.histogram, a⟩) ∧
     ∀ j n, (j, n) ≠ (i, slot) → t.windows.unitAt j n = s.windows.unitAt j n) ∧
  ∀ (i slot : Nat) (e : LimitEntry) (s : State), (gridAt s.windows.cells i slot).isSome = true →
    ∃ t, s.endWindow (i, e, slot) = t ∧
    (∀ j n, (j, n) ≠ (i, slot) → t.windows.unitAt j n = s.windows.unitAt j n ∧
      t.windows.cellAt j n = s.windows.cellAt j n) ∧
    (∀ m w, e.window = .fixed m → s.windows.accAt i slot = .window w →
      (s.clock.eighth % (480 * m) ≠ 0 ∨ w.start.tick = s.clock.tickCount → t = s) ∧
      (s.clock.eighth % (480 * m) = 0 → w.start.tick ≠ s.clock.tickCount →
        t.windows.accAt i slot = (if e.bands.getLsbD s.clock.band
          then .window ⟨s.now, 0, 0, [], none, none, 0, [], false, false⟩ else .idle) ∧
        (∀ expected : Nat, expected = (s.clock.tickCount - w.start.tick).toNat →
          t = State.evaluate i slot e ⟨e.metric.over w, coveragePercent w.counted expected, w.counted,
              w.excluded, expected, w.start, s.now, w.cut, w.overload⟩ false
            (s.setAcc i slot (if e.bands.getLsbD s.clock.band
              then .window ⟨s.now, 0, 0, [], none, none, 0, [], false, false⟩ else .idle))) ∧
        ∀ c, t.windows.cellAt i slot = c →
          c.metric = e.metric.over w ∧ c.spanStart = some w.start ∧ c.close = some s.now ∧
          c.truncated = some w.cut ∧ c.overload = some w.overload ∧
          c.coverage =
            some (min 100 (100 * w.counted / (s.clock.tickCount - w.start.tick).toNat)))) ∧
    (∀ step k steps w, e.window = .rolling step k → s.windows.accAt i slot = .ring (steps ++ [w]) →
      (s.clock.eighth % (8 * step) ≠ 0 ∨ w.start.tick = s.clock.tickCount → t = s) ∧
      (s.clock.eighth % (8 * step) = 0 → w.start.tick ≠ s.clock.tickCount →
        t.windows.accAt i slot = .ring ((if steps.length + 1 < k then steps ++ [w]
          else (steps ++ [w]).drop 1) ++ [⟨s.now, 0, 0, [], none, none, 0, [], false, false⟩]) ∧
        (∀ all, ringTally (steps ++ [w]) = some all →
          t = State.evaluate i slot e ⟨e.metric.over all, coveragePercent all.counted (8 * k * step),
              all.counted, all.excluded, 8 * k * step, all.start, s.now, all.cut, all.overload⟩ false
            (s.setAcc i slot (.ring ((if steps.length + 1 < k then steps ++ [w]
              else (steps ++ [w]).drop 1) ++ [⟨s.now, 0, 0, [], none, none, 0, [], false, false⟩])))) ∧
        ∀ c all, t.windows.cellAt i slot = c → ringTally (steps ++ [w]) = some all →
          c.metric = e.metric.over all ∧ c.spanStart = some all.start ∧ c.close = some s.now ∧
          c.truncated = some all.cut ∧ c.overload = some all.overload ∧
          (0 < step → 0 < k →
            c.coverage = some (min 100 (100 * all.counted / (8 * k * step)))))) ∧
    (s.windows.accAt i slot = .idle → t = s)

/-- The band a decision finds: UNTIMED while the clock is not RUNNING; else the lowest defined band whose mask
holds the day type and whose minutes hold the present one, or OTHER (R34). A decision that finds the band held
leaves the state as it is (R35). One that finds another makes a band-change event: the window engine takes
every pair in the order of an evaluation event, referred entries first, then index and slot (R85; the bands
that make an entry active there are log 9); the current episodes of keys not active in the new band close
BAND_END (R109), before or after the windows as the choice says (R100, log 10); the band run ticks become 0
and the band start the moment (R123). Of a pair: an open BAND window closes with its evaluation, which is no
closing evaluation even where its entry becomes inactive (R79, log 31), and a new one opens where the entry is
active and the clock RUNNING, TRUNCATED unless the event was decided at a minute tick (R72); a FIXED window of
an entry no longer active closes TRUNCATED with the closing-evaluation mark, or is discarded if it began at
this very minute tick, and a ring is emptied (R79, R80); an IDLE unit of an entry become active opens (R70);
every other pair stays. A decision at a minute tick is one that finds the FIXED boundaries and ROLLING step
ends of its tick taken, as TICK takes them before it (TickDuties); that order is the model's (log 8): R80
leaves it open and gives one outcome for both. So where a boundary or a step end falls at that tick, the
window has been closed and evaluated there as at its boundary, and the ring's step end taken and evaluated,
before the clauses on a pair apply: they find the window that began at this tick and discard it, and empty the
ring that is left. They do not state what R80 gives where the deactivation is taken first, the boundary's
close and the step end's evaluation by the decision itself, an order this model never takes. -/
def Obligations.BandChange : Prop :=
  (∀ s : State, (s.clock.state ≠ .running → s.bandNow = 15) ∧
     (s.clock.state = .running → (∀ b, IsLowest s.BandHolds b → s.bandNow = b) ∧
       ((∀ b, ¬s.BandHolds b) → s.bandNow = 14)) ∧
     ∀ minute first, (s.decideBand minute first).clock = { s.clock with band := s.bandNow }) ∧
  (∀ (minute first : Bool) (s : State),
     (s.bandNow = s.clock.band → s.decideBand minute first = s) ∧
     (s.bandNow ≠ s.clock.band → ∀ (u w : State) (outside : Episode → Bool) (order : State → State),
       u = { s with clock := { s.clock with band := s.bandNow } } →
       (∀ e, outside e = true ↔ ∀ i x, s.table.active.find e.key = some (i, x) →
         x.bands.getLsbD s.bandNow = false) →
       (∀ x, order x = (u.evaluationPairs [s.clock.band, s.bandNow]).foldl
         (fun x' p => x'.bandWindow s.clock.band minute p) x) →
       (first = true → w = order (u.demandClose outside .bandEnd)) →
       (first = false → w = (order u).demandClose outside .bandEnd) →
       s.decideBand minute first = { w with plant := { w.plant with
         lines := w.plant.lines.map (fun l => { l with bandRun := 0 }), bandStart := s.now } })) ∧
  (∀ (bands : List Nat) (s : State) (referred : Nat → Prop),
     (∀ key, referred key ↔ ∃ i e, s.table.active.at i = some e ∧ e.test = .excess key ∧
       ∃ b, b ∈ bands ∧ e.bands.getLsbD b = true) →
     (∀ i e slot, (i, e, slot) ∈ s.evaluationPairs bands ↔
       s.table.active.at i = some e ∧ e.slots.getLsbD slot = true) ∧
     (s.evaluationPairs bands).Pairwise (fun p q =>
       (referred p.2.1.key ∧ ¬referred q.2.1.key) ∨ ((referred p.2.1.key ↔ referred q.2.1.key) ∧
         (p.1 < q.1 ∨ p.1 = q.1 ∧ p.2.2 < q.2.2)))) ∧
  (∀ (old i slot : Nat) (minute : Bool) (e : LimitEntry) (s t : State) (active : Bool),
     t = s.bandWindow old minute (i, e, slot) → active = e.bands.getLsbD s.clock.band →
     (∀ c, e.window = .band → s.windows.accAt i slot = .window c → ∀ expected : Nat,
       expected = (s.clock.tickCount - c.start.tick).toNat →
       t = State.evaluate i slot e ⟨e.metric.over c, coveragePercent c.counted expected, c.counted,
           c.excluded, expected, c.start, s.now, c.cut, c.overload⟩ false
         (s.setAcc i slot (if active && s.clock.running
           then .window ⟨s.now, 0, 0, [], none, none, 0, [], false, !minute⟩ else .idle))) ∧
     (∀ m c, e.window = .fixed m → s.windows.accAt i slot = .window c → ∀ expected : Nat,
       expected = (s.clock.tickCount - c.start.tick).toNat →
       (active = true → t = s) ∧
       (active = false → minute = true → c.start.tick = s.clock.tickCount → t = s.setAcc i slot .idle) ∧
       (active = false → minute = false ∨ c.start.tick ≠ s.clock.tickCount →
         t = State.evaluate i slot e ⟨e.metric.over c, coveragePercent c.counted expected, c.counted,
           c.excluded, expected, c.start, s.now, true, c.overload⟩ true (s.setAcc i slot .idle))) ∧
     (∀ step k steps, e.window = .rolling step k → s.windows.accAt i slot = .ring steps →
       t = if active then s else s.setAcc i slot .idle) ∧
     (s.windows.accAt i slot = .idle →
       (e.bands.getLsbD old = true ∨ active = false ∨ s.clock.running = false → t = s) ∧
       (e.bands.getLsbD old = false → active = true → s.clock.running = true →
         (∀ m, e.window = .fixed m → t = s.setAcc i slot (.window
           ⟨s.now, 0, 0, [], none, none, 0, [], false, s.clock.eighth % (480 * m) != 0⟩)) ∧
         (e.window = .band → t = s.setAcc i slot (.window
           ⟨s.now, 0, 0, [], none, none, 0, [], false, !minute⟩)) ∧
         (∀ step k, e.window = .rolling step k → t = s.setAcc i slot (.ring
           [⟨s.now, 0, 0, [], none, none, 0, [], false, s.clock.eighth % (8 * step) != 0⟩])))) ∧
     (e.window = .slice →
       t = { s with windows := { s.windows with units := t.windows.units } } ∧
       ∀ j n, t.windows.unitAt j n = s.windows.unitAt j n)) ∧
  (∀ counted expected : Nat, coveragePercent counted expected =
     if expected = 0 then (if counted = 0 then 0 else 100) else min 100 (100 * counted / expected))

/-- What an outcome does to the current episode of its key and slot (R95 to R99): none and TRUE opens one,
except for a closing evaluation (R100), or counts it uncaptured when no record is free (R101); OPEN and TRUE
extends it; OPEN and not true moves it to HOLDOFF, its count set from the entry's hold-off, or with hold-off 0
closes it QUIET at the moment handed and offers its verdict; HOLDOFF and TRUE re-enters it; HOLDOFF and not
true leaves it counting. The record takes TRUNCATED from the evaluation in every case (R103). But for a close
nothing else changes, save that an episode that enters HOLDOFF is not counted down at a tick whose counts were
still due (R104). The current episode of a key and slot is the first of them among the current ones, and they
have at most one (R93). -/
def Obligations.OutcomesAct : Prop :=
  (∀ (key slot : Nat) (t : EpisodeTable) (f : Episode → Episode),
     (∀ e, Episode.of key slot e = true ↔ e.key = key ∧ e.slot = slot) ∧
     (t.find key slot = none ↔ ∀ e, e ∈ t.current → ¬(e.key = key ∧ e.slot = slot)) ∧
     ((∀ e, e ∈ t.current → ¬(e.key = key ∧ e.slot = slot)) → modifyEpisode key slot f t.current = t.current) ∧
     ∀ before e after, t.current = before ++ e :: after → e.key = key ∧ e.slot = slot →
       (∀ x, x ∈ before → ¬(x.key = key ∧ x.slot = slot)) →
       t.find key slot = some e ∧ modifyEpisode key slot f t.current = before ++ f e :: after) ∧
  ∀ (h : Handed) (s : State),
    (s.episodes.find h.key h.slot = none →
      (h.outcome ≠ .isTrue ∨ h.closing = true → s.applyOutcome h = s) ∧
      (h.outcome = .isTrue → h.closing = false →
        s.episodes.current.length + s.episodes.waiting.length < 32 →
        s.applyOutcome h = s.openEpisode ⟨h.key, h.index, h.slot, h.close.tick, h.spanStart, h.close,
          h.metric, none, h.truncated⟩ ∧
        ∃ e, (s.applyOutcome h).episodes.current.getLast? = some e ∧
          (s.applyOutcome h).notified .episodeOpened ∧
          (s.applyOutcome h).episodes.current.length = s.episodes.current.length + 1 ∧
          (s.applyOutcome h).episodes.next = (if s.episodes.next < 65535 then s.episodes.next + 1 else 1) ∧
          e.number = s.episodes.next ∧ e.key = h.key ∧ e.index = h.index ∧ e.slot = h.slot ∧
          e.state = .opened ∧ e.openTick = h.close.tick ∧ e.start = h.spanStart ∧
          e.lastTrue = h.close ∧ e.peak = h.metric ∧ e.energy = ⟨[], 0⟩ ∧ e.reentries = 0 ∧
          e.continuationOf = none ∧ e.suspect = false ∧ e.truncated = h.truncated ∧
          (e.clockNotRunning = true ↔ h.close.stamp.clock ≠ .running)) ∧
      (h.outcome = .isTrue → h.closing = false →
        32 ≤ s.episodes.current.length + s.episodes.waiting.length →
        (s.applyOutcome h).notified .episodeOverflow ∧
        s.applyOutcome h = State.raise .episodeOverflow { s with episodes := { s.episodes with
          uncaptured := s.episodes.uncaptured.modify h.index (fun n => min (n + 1) 65535) } })) ∧
    (∀ e, s.episodes.find h.key h.slot = some e →
      ∃ f : Episode → Episode,
        (h.holdOff ≠ 0 ∨ h.outcome = .isTrue ∨ e.state ≠ .opened →
          s.applyOutcome h = { s with
            due := if e.state = .opened ∧ h.outcome ≠ .isTrue
              then s.due.filter (fun d => d != .holdOff h.key h.slot) else s.due
            episodes := { s.episodes with
              current := modifyEpisode h.key h.slot f s.episodes.current } }) ∧
        (e.state = .opened → h.outcome = .isTrue →
          f e = { e with lastTrue := h.close
                         peak := (match e.peak, h.metric with
                           | some x, some y => some (max x y)
                           | none, some y => some y
                           | p, none => p)
                         truncated := e.truncated || h.truncated }) ∧
        (e.state = .opened → h.outcome ≠ .isTrue → h.holdOff ≠ 0 →
          f e = { e with state := .holdOff (8 * h.holdOff), truncated := e.truncated || h.truncated }) ∧
        (∀ n, e.state = .holdOff n → h.outcome = .isTrue →
          f e = { e with state := .opened
                         reentries := min (e.reentries + 1) 65535
                         lastTrue := h.close
                         peak := (match e.peak, h.metric with
                           | some x, some y => some (max x y)
                           | none, some y => some y
                           | p, none => p)
                         truncated := e.truncated || h.truncated }) ∧
        (∀ n, e.state = .holdOff n → h.outcome ≠ .isTrue →
          f e = { e with truncated := e.truncated || h.truncated }) ∧
        (e.state = .opened → h.outcome ≠ .isTrue → h.holdOff = 0 →
          (s.applyOutcome h).episodes.current = s.episodes.current.eraseP (Episode.of h.key h.slot) ∧
          (s.applyOutcome h).episodes.next = s.episodes.next ∧
          ∃ w : State, s.applyOutcome h = w.offerVerdict
              (Episode.verdict { e with truncated := e.truncated || h.truncated } s.table.active .quiet
                h.close) ∧
            w = { s with
              episodes := { s.episodes with
                current := s.episodes.current.eraseP (Episode.of h.key h.slot) }
              beacons := w.beacons } ∧ State.Follows s w))

/-! ### Beacons, notices and the cadence unit -/

/-- SET BEACON: out of range; else the line takes mode and width, keeping its timers in the same mode and
clearing them with a flash phase begun afresh on a change. It answers all four lines as they stand after the
command (R143). BEACON OVERRIDE carries a line and a value: out of range, changing nothing else; otherwise OK,
the override takes the value and the output follows it at once, whether or not a commit is pending and
whatever CERTIFY is; an override equal to the one in force changes nothing (R142, R141); no prefix applies,
and one makes the item MALFORMED (R176). A commit whose checks are outstanding is taken before the item (the
model's choice, log 19). The demand of a line is the current episodes whose active entry names it (R137), so a
STEADY line in AUTO is asserted exactly while there is one (R138). A line is reported with its mode, width,
override, demand count, pulse remaining, automatic level and output (R143). -/
def Obligations.SetBeaconAndOverride : Prop :=
  (∀ (s : State) (v : ItemView) (u : State) (line code width : Nat), s.Takes .setBeacon v →
     u = s.settleCommit → line = field v.operands 0 1 → code = field v.operands 1 1 →
     width = field v.operands 2 1 →
     (3 < line ∨ 2 < code ∨ width < 1 ∨ 60 < width →
       exec .setBeacon s = .next (u.refused v .range)) ∧
     (∀ mode b, line ≤ 3 → beaconModeOf code = some mode → 1 ≤ width → width ≤ 60 →
       u.beacons[line]? = some b →
       ∀ t : State, t = { u with beacons := u.beacons.set line (if b.mode = mode
           then { b with width := width }
           else { b with mode := mode, width := width, pulse := 0
                         flash := if mode = .flash ∧ u.demand line ≠ [] then some ⟨true, 4⟩
                           else none }) } →
         exec .setBeacon s = .next (t.answered v .ok (.beacons t.now t.beaconReports)))) ∧
  (∀ (s : State) (v : ItemView), s.Reaches v → v.code = CommandCode.beaconOverride.byte →
     v.operands.length = 2 → ∀ (u : State) (line code : Nat), u = s.settleCommit →
     line = field v.operands 0 1 → code = field v.operands 1 1 →
     (v.prefixes ≠ [] → exec .beaconOverride s = .next (u.refused v .malformed)) ∧
     (v.prefixes = [] → 3 < line ∨ 2 < code →
       exec .beaconOverride s = .next (u.refused v .range)) ∧
     (∀ value b, v.prefixes = [] → line ≤ 3 →
       (code = 0 ∧ value = .auto) ∨ (code = 1 ∧ value = .forceOn) ∨ (code = 2 ∧ value = .forceOff) →
       u.beacons[line]? = some b →
       ∀ t : State, t = { u with beacons := u.beacons.set line { b with override := value } } →
         exec .beaconOverride s = .next (t.answered v .ok (.beacons t.now t.beaconReports)) ∧
         t.outputs[line]? = some (match value with
           | .auto => b.automatic (!(u.demand line).isEmpty)
           | .forceOn => true
           | .forceOff => false) ∧
         (b.override = value → t = u))) ∧
  (∀ (s : State) (line : Nat),
     (∀ number, number ∈ s.demand line ↔
       ∃ e, e ∈ s.episodes.current ∧ e.number = number ∧ s.Names e.key line) ∧
     (∀ named : Episode → Bool, (∀ e, named e = true ↔ s.Names e.key line) →
       s.demand line = (s.episodes.current.filter named).map (·.number)) ∧
     ∀ (b : BeaconLine) (demanded output : Bool), s.beacons[line]? = some b →
       (demanded = true ↔ ∃ e, e ∈ s.episodes.current ∧ s.Names e.key line) →
       output = (match b.override with
         | .auto => b.automatic demanded
         | .forceOn => true
         | .forceOff => false) →
       s.outputs[line]? = some output ∧
       s.beaconReports[line]? = some ⟨b.mode, b.width, b.override, (s.demand line).length, b.pulse,
         b.automatic demanded, output⟩ ∧
       (b.mode = .steady → b.override = .auto →
         (output = true ↔ ∃ e, e ∈ s.episodes.current ∧ s.Names e.key line))) ∧
  (∀ s : State, s.outputs.length = s.beacons.length ∧ s.beaconReports.length = s.beacons.length) ∧
  (∀ code, beaconModeOf code = match code with
     | 0 => some .steady | 1 => some .pulse | 2 => some .flash | _ => none)

/-- SET NOTICE MASK: out of range for another selector or a set beyond the fourteen; else the named notices
are enabled or disabled and the mask reported; a clear attention latch sets exactly where a pending notice is
then enabled (R145, R146). A notice raised is pending; an enabled one sets a latch that was clear; one raised
while the latch is set, or disabled, changes nothing else (R144, R146). Each time the latch sets, the
ATTENTION record of the moment is offered, as State.Alerted says, and what its admission or drop raises is not
in it (R147, R151, R152). -/
def Obligations.NoticesAndMask : Prop :=
  (∀ (w : Nat) (set : BitVec w) (i j : Nat),
     (setInsert set i).getLsbD j = true ↔ set.getLsbD j = true ∨ i = j ∧ i < w) ∧
  (∀ (s : State) (v : ItemView) (u : State) (selector named : Nat), s.Takes .setNoticeMask v →
     u = s.settleCommit → selector = field v.operands 0 1 → named = field v.operands 1 2 →
     (1 < selector ∨ 2 ^ 14 ≤ named → exec .setNoticeMask s = .next (u.refused v .range)) ∧
     (selector ≤ 1 → named < 2 ^ 14 → ∀ (mask : NoticeSet) (w : State),
       (∀ i, i < 14 → mask.getLsbD i = (if named.testBit i then selector == 1
         else u.notices.mask.getLsbD i)) →
       w = { u with notices := { u.notices with mask := mask } } →
       ∃ t : State, exec .setNoticeMask s = .next (t.answered v .ok (.noticeMask mask)) ∧
         (u.notices.latch = true ∨ (∀ i, u.notices.pending.getLsbD i = true → mask.getLsbD i = false) →
           t = w) ∧
         (u.notices.latch = false → (∃ i, u.notices.pending.getLsbD i = true ∧ mask.getLsbD i = true) →
           State.Alerted w t))) ∧
  (∀ (n : Notice) (s w : State),
     w = { s with notices := { s.notices with pending := setInsert s.notices.pending n.bit } } →
     (s.raise n).notified n ∧ State.Told s (s.raise n) ∧
     (s.notices.latch = true ∨ (s.notices.mask.getLsbD n.bit = false ∧
         ∀ i, s.notices.pending.getLsbD i = true → s.notices.mask.getLsbD i = false) →
       s.raise n = w) ∧
     (s.notices.latch = false → s.notices.mask.getLsbD n.bit = true → State.Alerted w (s.raise n)))

/-- SET CADENCE: out of range; else latches and mode take the values carried; the counters load on a force
or into a stopped unit, the second count on a force or a start (R157). An outstanding summary underflow of
the tick is taken before it (log 25). CANCEL QUERY: out of range, NOT_FOUND, one position, or all (R163). -/
def Obligations.SetCadenceAndCancelQuery : Prop :=
  ∀ (s : State) (v : ItemView),
    (s.Takes .setCadence v → ∀ (u : State) (base summary mode run force : Nat),
      u = s.settleCommit → base = field v.operands 0 2 → summary = field v.operands 2 1 →
      mode = field v.operands 3 1 → run = field v.operands 4 1 → force = field v.operands 5 1 →
      (base < 1 ∨ 3600 < base ∨ summary < 1 ∨ 255 < summary ∨ 1 < mode ∨ 1 < run ∨ 1 < force →
        exec .setCadence s = .next (u.refused v .range)) ∧
      (1 ≤ base → base ≤ 3600 → 1 ≤ summary → summary ≤ 255 → mode ≤ 1 → run ≤ 1 → force ≤ 1 →
        ∀ w t : State, w = u.takeDue plainTick .summary →
          t = { w with cadence := {
            second := if force = 1 ∨ (run = 1 ∧ w.cadence.running = false) then 8
              else w.cadence.second
            baseLatch := base
            base := if force = 1 ∨ w.cadence.running = false then base else w.cadence.base
            summaryLatch := summary
            summary := if force = 1 ∨ w.cadence.running = false then summary else w.cadence.summary
            mode := if mode = 0 then .continuous else .oneShot
            running := run == 1
            queries := w.cadence.queries } } →
          exec .setCadence s = .next (t.answered v .ok (.cadence t.now t.cadence)))) ∧
    (s.Takes .cancelQuery v → ∀ (u : State) (position : Nat), u = s.settleCommit →
      position = field v.operands 0 1 →
      exec .cancelQuery s = .next (
        if position = 255 then State.answered v .ok (.queries [])
          { u with cadence := { u.cadence with queries := [] } }
        else if 3 < position then u.refused v .range
        else if u.cadence.queries.length ≤ position then u.refused v .notFound
        else State.answered v .ok (.queries (u.cadence.queries.eraseIdx position))
          { u with cadence := { u.cadence with
            queries := u.cadence.queries.eraseIdx position } }))
end

