-- ==== Sys2Proof/Laws/State.lean ====
section
/-! SUPPORT. What each update of the state leaves as it was, one lemma per field, and what the primitive
updates put in the field they change. -/

namespace Sys2Proof.Machine

@[simp] theorem State.setAcc_pending (i slot : Nat) (a : Acc) (s : State) : (s.setAcc i slot a).pending = s.pending := rfl
@[simp] theorem State.setAcc_due (i slot : Nat) (a : Acc) (s : State) : (s.setAcc i slot a).due = s.due := rfl
@[simp] theorem State.setAcc_clock (i slot : Nat) (a : Acc) (s : State) : (s.setAcc i slot a).clock = s.clock := rfl
@[simp] theorem State.setAcc_schedule (i slot : Nat) (a : Acc) (s : State) : (s.setAcc i slot a).schedule = s.schedule := rfl
@[simp] theorem State.setAcc_slots (i slot : Nat) (a : Acc) (s : State) : (s.setAcc i slot a).slots = s.slots := rfl
@[simp] theorem State.setAcc_table (i slot : Nat) (a : Acc) (s : State) : (s.setAcc i slot a).table = s.table := rfl
@[simp] theorem State.setAcc_episodes (i slot : Nat) (a : Acc) (s : State) : (s.setAcc i slot a).episodes = s.episodes := rfl
@[simp] theorem State.setAcc_plant (i slot : Nat) (a : Acc) (s : State) : (s.setAcc i slot a).plant = s.plant := rfl
@[simp] theorem State.setAcc_beacons (i slot : Nat) (a : Acc) (s : State) : (s.setAcc i slot a).beacons = s.beacons := rfl
@[simp] theorem State.setAcc_notices (i slot : Nat) (a : Acc) (s : State) : (s.setAcc i slot a).notices = s.notices := rfl
@[simp] theorem State.setAcc_report (i slot : Nat) (a : Acc) (s : State) : (s.setAcc i slot a).report = s.report := rfl
@[simp] theorem State.setAcc_cadence (i slot : Nat) (a : Acc) (s : State) : (s.setAcc i slot a).cadence = s.cadence := rfl
@[simp] theorem State.setAcc_ports (i slot : Nat) (a : Acc) (s : State) : (s.setAcc i slot a).ports = s.ports := rfl
@[simp] theorem State.setAcc_held (i slot : Nat) (a : Acc) (s : State) : (s.setAcc i slot a).held = s.held := rfl

@[simp] theorem State.setCell_pending (i slot : Nat) (c : ResultCell) (s : State) : (s.setCell i slot c).pending = s.pending := rfl
@[simp] theorem State.setCell_due (i slot : Nat) (c : ResultCell) (s : State) : (s.setCell i slot c).due = s.due := rfl
@[simp] theorem State.setCell_clock (i slot : Nat) (c : ResultCell) (s : State) : (s.setCell i slot c).clock = s.clock := rfl
@[simp] theorem State.setCell_schedule (i slot : Nat) (c : ResultCell) (s : State) : (s.setCell i slot c).schedule = s.schedule := rfl
@[simp] theorem State.setCell_slots (i slot : Nat) (c : ResultCell) (s : State) : (s.setCell i slot c).slots = s.slots := rfl
@[simp] theorem State.setCell_table (i slot : Nat) (c : ResultCell) (s : State) : (s.setCell i slot c).table = s.table := rfl
@[simp] theorem State.setCell_episodes (i slot : Nat) (c : ResultCell) (s : State) : (s.setCell i slot c).episodes = s.episodes := rfl
@[simp] theorem State.setCell_plant (i slot : Nat) (c : ResultCell) (s : State) : (s.setCell i slot c).plant = s.plant := rfl
@[simp] theorem State.setCell_beacons (i slot : Nat) (c : ResultCell) (s : State) : (s.setCell i slot c).beacons = s.beacons := rfl
@[simp] theorem State.setCell_notices (i slot : Nat) (c : ResultCell) (s : State) : (s.setCell i slot c).notices = s.notices := rfl
@[simp] theorem State.setCell_report (i slot : Nat) (c : ResultCell) (s : State) : (s.setCell i slot c).report = s.report := rfl
@[simp] theorem State.setCell_cadence (i slot : Nat) (c : ResultCell) (s : State) : (s.setCell i slot c).cadence = s.cadence := rfl
@[simp] theorem State.setCell_ports (i slot : Nat) (c : ResultCell) (s : State) : (s.setCell i slot c).ports = s.ports := rfl
@[simp] theorem State.setCell_held (i slot : Nat) (c : ResultCell) (s : State) : (s.setCell i slot c).held = s.held := rfl

@[simp] theorem State.modifySlot_pending (n : Nat) (f : SlotRecord → SlotRecord) (s : State) : (s.modifySlot n f).pending = s.pending := rfl
@[simp] theorem State.modifySlot_due (n : Nat) (f : SlotRecord → SlotRecord) (s : State) : (s.modifySlot n f).due = s.due := rfl
@[simp] theorem State.modifySlot_clock (n : Nat) (f : SlotRecord → SlotRecord) (s : State) : (s.modifySlot n f).clock = s.clock := rfl
@[simp] theorem State.modifySlot_schedule (n : Nat) (f : SlotRecord → SlotRecord) (s : State) : (s.modifySlot n f).schedule = s.schedule := rfl
@[simp] theorem State.modifySlot_table (n : Nat) (f : SlotRecord → SlotRecord) (s : State) : (s.modifySlot n f).table = s.table := rfl
@[simp] theorem State.modifySlot_windows (n : Nat) (f : SlotRecord → SlotRecord) (s : State) : (s.modifySlot n f).windows = s.windows := rfl
@[simp] theorem State.modifySlot_episodes (n : Nat) (f : SlotRecord → SlotRecord) (s : State) : (s.modifySlot n f).episodes = s.episodes := rfl
@[simp] theorem State.modifySlot_plant (n : Nat) (f : SlotRecord → SlotRecord) (s : State) : (s.modifySlot n f).plant = s.plant := rfl
@[simp] theorem State.modifySlot_beacons (n : Nat) (f : SlotRecord → SlotRecord) (s : State) : (s.modifySlot n f).beacons = s.beacons := rfl
@[simp] theorem State.modifySlot_notices (n : Nat) (f : SlotRecord → SlotRecord) (s : State) : (s.modifySlot n f).notices = s.notices := rfl
@[simp] theorem State.modifySlot_report (n : Nat) (f : SlotRecord → SlotRecord) (s : State) : (s.modifySlot n f).report = s.report := rfl
@[simp] theorem State.modifySlot_cadence (n : Nat) (f : SlotRecord → SlotRecord) (s : State) : (s.modifySlot n f).cadence = s.cadence := rfl
@[simp] theorem State.modifySlot_ports (n : Nat) (f : SlotRecord → SlotRecord) (s : State) : (s.modifySlot n f).ports = s.ports := rfl
@[simp] theorem State.modifySlot_held (n : Nat) (f : SlotRecord → SlotRecord) (s : State) : (s.modifySlot n f).held = s.held := rfl

@[simp] theorem State.modifyLine_pending (n : Nat) (f : PlantLine → PlantLine) (s : State) : (s.modifyLine n f).pending = s.pending := rfl
@[simp] theorem State.modifyLine_due (n : Nat) (f : PlantLine → PlantLine) (s : State) : (s.modifyLine n f).due = s.due := rfl
@[simp] theorem State.modifyLine_clock (n : Nat) (f : PlantLine → PlantLine) (s : State) : (s.modifyLine n f).clock = s.clock := rfl
@[simp] theorem State.modifyLine_schedule (n : Nat) (f : PlantLine → PlantLine) (s : State) : (s.modifyLine n f).schedule = s.schedule := rfl
@[simp] theorem State.modifyLine_slots (n : Nat) (f : PlantLine → PlantLine) (s : State) : (s.modifyLine n f).slots = s.slots := rfl
@[simp] theorem State.modifyLine_table (n : Nat) (f : PlantLine → PlantLine) (s : State) : (s.modifyLine n f).table = s.table := rfl
@[simp] theorem State.modifyLine_windows (n : Nat) (f : PlantLine → PlantLine) (s : State) : (s.modifyLine n f).windows = s.windows := rfl
@[simp] theorem State.modifyLine_episodes (n : Nat) (f : PlantLine → PlantLine) (s : State) : (s.modifyLine n f).episodes = s.episodes := rfl
@[simp] theorem State.modifyLine_beacons (n : Nat) (f : PlantLine → PlantLine) (s : State) : (s.modifyLine n f).beacons = s.beacons := rfl
@[simp] theorem State.modifyLine_notices (n : Nat) (f : PlantLine → PlantLine) (s : State) : (s.modifyLine n f).notices = s.notices := rfl
@[simp] theorem State.modifyLine_report (n : Nat) (f : PlantLine → PlantLine) (s : State) : (s.modifyLine n f).report = s.report := rfl
@[simp] theorem State.modifyLine_cadence (n : Nat) (f : PlantLine → PlantLine) (s : State) : (s.modifyLine n f).cadence = s.cadence := rfl
@[simp] theorem State.modifyLine_ports (n : Nat) (f : PlantLine → PlantLine) (s : State) : (s.modifyLine n f).ports = s.ports := rfl
@[simp] theorem State.modifyLine_held (n : Nat) (f : PlantLine → PlantLine) (s : State) : (s.modifyLine n f).held = s.held := rfl

@[simp] theorem State.modifyBeacon_pending (n : Nat) (f : BeaconLine → BeaconLine) (s : State) : (s.modifyBeacon n f).pending = s.pending := rfl
@[simp] theorem State.modifyBeacon_due (n : Nat) (f : BeaconLine → BeaconLine) (s : State) : (s.modifyBeacon n f).due = s.due := rfl
@[simp] theorem State.modifyBeacon_clock (n : Nat) (f : BeaconLine → BeaconLine) (s : State) : (s.modifyBeacon n f).clock = s.clock := rfl
@[simp] theorem State.modifyBeacon_schedule (n : Nat) (f : BeaconLine → BeaconLine) (s : State) : (s.modifyBeacon n f).schedule = s.schedule := rfl
@[simp] theorem State.modifyBeacon_slots (n : Nat) (f : BeaconLine → BeaconLine) (s : State) : (s.modifyBeacon n f).slots = s.slots := rfl
@[simp] theorem State.modifyBeacon_table (n : Nat) (f : BeaconLine → BeaconLine) (s : State) : (s.modifyBeacon n f).table = s.table := rfl
@[simp] theorem State.modifyBeacon_windows (n : Nat) (f : BeaconLine → BeaconLine) (s : State) : (s.modifyBeacon n f).windows = s.windows := rfl
@[simp] theorem State.modifyBeacon_episodes (n : Nat) (f : BeaconLine → BeaconLine) (s : State) : (s.modifyBeacon n f).episodes = s.episodes := rfl
@[simp] theorem State.modifyBeacon_plant (n : Nat) (f : BeaconLine → BeaconLine) (s : State) : (s.modifyBeacon n f).plant = s.plant := rfl
@[simp] theorem State.modifyBeacon_notices (n : Nat) (f : BeaconLine → BeaconLine) (s : State) : (s.modifyBeacon n f).notices = s.notices := rfl
@[simp] theorem State.modifyBeacon_report (n : Nat) (f : BeaconLine → BeaconLine) (s : State) : (s.modifyBeacon n f).report = s.report := rfl
@[simp] theorem State.modifyBeacon_cadence (n : Nat) (f : BeaconLine → BeaconLine) (s : State) : (s.modifyBeacon n f).cadence = s.cadence := rfl
@[simp] theorem State.modifyBeacon_ports (n : Nat) (f : BeaconLine → BeaconLine) (s : State) : (s.modifyBeacon n f).ports = s.ports := rfl
@[simp] theorem State.modifyBeacon_held (n : Nat) (f : BeaconLine → BeaconLine) (s : State) : (s.modifyBeacon n f).held = s.held := rfl

@[simp] theorem State.clearDue_pending (d : Due) (s : State) : (s.clearDue d).pending = s.pending := rfl
@[simp] theorem State.clearDue_clock (d : Due) (s : State) : (s.clearDue d).clock = s.clock := rfl
@[simp] theorem State.clearDue_schedule (d : Due) (s : State) : (s.clearDue d).schedule = s.schedule := rfl
@[simp] theorem State.clearDue_slots (d : Due) (s : State) : (s.clearDue d).slots = s.slots := rfl
@[simp] theorem State.clearDue_table (d : Due) (s : State) : (s.clearDue d).table = s.table := rfl
@[simp] theorem State.clearDue_windows (d : Due) (s : State) : (s.clearDue d).windows = s.windows := rfl
@[simp] theorem State.clearDue_episodes (d : Due) (s : State) : (s.clearDue d).episodes = s.episodes := rfl
@[simp] theorem State.clearDue_plant (d : Due) (s : State) : (s.clearDue d).plant = s.plant := rfl
@[simp] theorem State.clearDue_beacons (d : Due) (s : State) : (s.clearDue d).beacons = s.beacons := rfl
@[simp] theorem State.clearDue_notices (d : Due) (s : State) : (s.clearDue d).notices = s.notices := rfl
@[simp] theorem State.clearDue_report (d : Due) (s : State) : (s.clearDue d).report = s.report := rfl
@[simp] theorem State.clearDue_cadence (d : Due) (s : State) : (s.clearDue d).cadence = s.cadence := rfl
@[simp] theorem State.clearDue_ports (d : Due) (s : State) : (s.clearDue d).ports = s.ports := rfl
@[simp] theorem State.clearDue_held (d : Due) (s : State) : (s.clearDue d).held = s.held := rfl

@[simp] theorem State.grantReply_pending (r : Reply) (ts : List Transaction) (s : State) : (s.grantReply r ts).pending = s.pending := rfl
@[simp] theorem State.grantReply_due (r : Reply) (ts : List Transaction) (s : State) : (s.grantReply r ts).due = s.due := rfl
@[simp] theorem State.grantReply_clock (r : Reply) (ts : List Transaction) (s : State) : (s.grantReply r ts).clock = s.clock := rfl
@[simp] theorem State.grantReply_schedule (r : Reply) (ts : List Transaction) (s : State) : (s.grantReply r ts).schedule = s.schedule := rfl
@[simp] theorem State.grantReply_slots (r : Reply) (ts : List Transaction) (s : State) : (s.grantReply r ts).slots = s.slots := rfl
@[simp] theorem State.grantReply_table (r : Reply) (ts : List Transaction) (s : State) : (s.grantReply r ts).table = s.table := rfl
@[simp] theorem State.grantReply_windows (r : Reply) (ts : List Transaction) (s : State) : (s.grantReply r ts).windows = s.windows := rfl
@[simp] theorem State.grantReply_episodes (r : Reply) (ts : List Transaction) (s : State) : (s.grantReply r ts).episodes = s.episodes := rfl
@[simp] theorem State.grantReply_plant (r : Reply) (ts : List Transaction) (s : State) : (s.grantReply r ts).plant = s.plant := rfl
@[simp] theorem State.grantReply_beacons (r : Reply) (ts : List Transaction) (s : State) : (s.grantReply r ts).beacons = s.beacons := rfl
@[simp] theorem State.grantReply_notices (r : Reply) (ts : List Transaction) (s : State) : (s.grantReply r ts).notices = s.notices := rfl
@[simp] theorem State.grantReply_report (r : Reply) (ts : List Transaction) (s : State) : (s.grantReply r ts).report = s.report := rfl
@[simp] theorem State.grantReply_cadence (r : Reply) (ts : List Transaction) (s : State) : (s.grantReply r ts).cadence = s.cadence := rfl
@[simp] theorem State.grantReply_held (r : Reply) (ts : List Transaction) (s : State) : (s.grantReply r ts).held = s.held := rfl

@[simp] theorem State.grantForward_pending (f : Frame) (fs : List Frame) (s : State) : (s.grantForward f fs).pending = s.pending := rfl
@[simp] theorem State.grantForward_due (f : Frame) (fs : List Frame) (s : State) : (s.grantForward f fs).due = s.due := rfl
@[simp] theorem State.grantForward_clock (f : Frame) (fs : List Frame) (s : State) : (s.grantForward f fs).clock = s.clock := rfl
@[simp] theorem State.grantForward_schedule (f : Frame) (fs : List Frame) (s : State) : (s.grantForward f fs).schedule = s.schedule := rfl
@[simp] theorem State.grantForward_slots (f : Frame) (fs : List Frame) (s : State) : (s.grantForward f fs).slots = s.slots := rfl
@[simp] theorem State.grantForward_table (f : Frame) (fs : List Frame) (s : State) : (s.grantForward f fs).table = s.table := rfl
@[simp] theorem State.grantForward_windows (f : Frame) (fs : List Frame) (s : State) : (s.grantForward f fs).windows = s.windows := rfl
@[simp] theorem State.grantForward_episodes (f : Frame) (fs : List Frame) (s : State) : (s.grantForward f fs).episodes = s.episodes := rfl
@[simp] theorem State.grantForward_plant (f : Frame) (fs : List Frame) (s : State) : (s.grantForward f fs).plant = s.plant := rfl
@[simp] theorem State.grantForward_beacons (f : Frame) (fs : List Frame) (s : State) : (s.grantForward f fs).beacons = s.beacons := rfl
@[simp] theorem State.grantForward_notices (f : Frame) (fs : List Frame) (s : State) : (s.grantForward f fs).notices = s.notices := rfl
@[simp] theorem State.grantForward_report (f : Frame) (fs : List Frame) (s : State) : (s.grantForward f fs).report = s.report := rfl
@[simp] theorem State.grantForward_cadence (f : Frame) (fs : List Frame) (s : State) : (s.grantForward f fs).cadence = s.cadence := rfl
@[simp] theorem State.grantForward_held (f : Frame) (fs : List Frame) (s : State) : (s.grantForward f fs).held = s.held := rfl

@[simp] theorem State.enqueue_pending (b : RecordBody) (s : State) : (s.enqueue b).pending = s.pending := rfl
@[simp] theorem State.enqueue_due (b : RecordBody) (s : State) : (s.enqueue b).due = s.due := rfl
@[simp] theorem State.enqueue_clock (b : RecordBody) (s : State) : (s.enqueue b).clock = s.clock := rfl
@[simp] theorem State.enqueue_schedule (b : RecordBody) (s : State) : (s.enqueue b).schedule = s.schedule := rfl
@[simp] theorem State.enqueue_slots (b : RecordBody) (s : State) : (s.enqueue b).slots = s.slots := rfl
@[simp] theorem State.enqueue_table (b : RecordBody) (s : State) : (s.enqueue b).table = s.table := rfl
@[simp] theorem State.enqueue_windows (b : RecordBody) (s : State) : (s.enqueue b).windows = s.windows := rfl
@[simp] theorem State.enqueue_episodes (b : RecordBody) (s : State) : (s.enqueue b).episodes = s.episodes := rfl
@[simp] theorem State.enqueue_plant (b : RecordBody) (s : State) : (s.enqueue b).plant = s.plant := rfl
@[simp] theorem State.enqueue_beacons (b : RecordBody) (s : State) : (s.enqueue b).beacons = s.beacons := rfl
@[simp] theorem State.enqueue_notices (b : RecordBody) (s : State) : (s.enqueue b).notices = s.notices := rfl
@[simp] theorem State.enqueue_cadence (b : RecordBody) (s : State) : (s.enqueue b).cadence = s.cadence := rfl
@[simp] theorem State.enqueue_ports (b : RecordBody) (s : State) : (s.enqueue b).ports = s.ports := rfl
@[simp] theorem State.enqueue_held (b : RecordBody) (s : State) : (s.enqueue b).held = s.held := rfl

@[simp] theorem State.countDrop_pending (s : State) : s.countDrop.pending = s.pending := rfl
@[simp] theorem State.countDrop_due (s : State) : s.countDrop.due = s.due := rfl
@[simp] theorem State.countDrop_clock (s : State) : s.countDrop.clock = s.clock := rfl
@[simp] theorem State.countDrop_schedule (s : State) : s.countDrop.schedule = s.schedule := rfl
@[simp] theorem State.countDrop_slots (s : State) : s.countDrop.slots = s.slots := rfl
@[simp] theorem State.countDrop_table (s : State) : s.countDrop.table = s.table := rfl
@[simp] theorem State.countDrop_windows (s : State) : s.countDrop.windows = s.windows := rfl
@[simp] theorem State.countDrop_episodes (s : State) : s.countDrop.episodes = s.episodes := rfl
@[simp] theorem State.countDrop_plant (s : State) : s.countDrop.plant = s.plant := rfl
@[simp] theorem State.countDrop_beacons (s : State) : s.countDrop.beacons = s.beacons := rfl
@[simp] theorem State.countDrop_notices (s : State) : s.countDrop.notices = s.notices := rfl
@[simp] theorem State.countDrop_cadence (s : State) : s.countDrop.cadence = s.cadence := rfl
@[simp] theorem State.countDrop_ports (s : State) : s.countDrop.ports = s.ports := rfl
@[simp] theorem State.countDrop_held (s : State) : s.countDrop.held = s.held := rfl

@[simp] theorem State.joinNotice_pending (n : Notice) (s : State) : (s.joinNotice n).pending = s.pending := rfl
@[simp] theorem State.joinNotice_due (n : Notice) (s : State) : (s.joinNotice n).due = s.due := rfl
@[simp] theorem State.joinNotice_clock (n : Notice) (s : State) : (s.joinNotice n).clock = s.clock := rfl
@[simp] theorem State.joinNotice_schedule (n : Notice) (s : State) : (s.joinNotice n).schedule = s.schedule := rfl
@[simp] theorem State.joinNotice_slots (n : Notice) (s : State) : (s.joinNotice n).slots = s.slots := rfl
@[simp] theorem State.joinNotice_table (n : Notice) (s : State) : (s.joinNotice n).table = s.table := rfl
@[simp] theorem State.joinNotice_windows (n : Notice) (s : State) : (s.joinNotice n).windows = s.windows := rfl
@[simp] theorem State.joinNotice_episodes (n : Notice) (s : State) : (s.joinNotice n).episodes = s.episodes := rfl
@[simp] theorem State.joinNotice_plant (n : Notice) (s : State) : (s.joinNotice n).plant = s.plant := rfl
@[simp] theorem State.joinNotice_beacons (n : Notice) (s : State) : (s.joinNotice n).beacons = s.beacons := rfl
@[simp] theorem State.joinNotice_report (n : Notice) (s : State) : (s.joinNotice n).report = s.report := rfl
@[simp] theorem State.joinNotice_cadence (n : Notice) (s : State) : (s.joinNotice n).cadence = s.cadence := rfl
@[simp] theorem State.joinNotice_ports (n : Notice) (s : State) : (s.joinNotice n).ports = s.ports := rfl
@[simp] theorem State.joinNotice_held (n : Notice) (s : State) : (s.joinNotice n).held = s.held := rfl

@[simp] theorem State.followDemand_pending (s : State) : s.followDemand.pending = s.pending := rfl
@[simp] theorem State.followDemand_due (s : State) : s.followDemand.due = s.due := rfl
@[simp] theorem State.followDemand_clock (s : State) : s.followDemand.clock = s.clock := rfl
@[simp] theorem State.followDemand_schedule (s : State) : s.followDemand.schedule = s.schedule := rfl
@[simp] theorem State.followDemand_slots (s : State) : s.followDemand.slots = s.slots := rfl
@[simp] theorem State.followDemand_table (s : State) : s.followDemand.table = s.table := rfl
@[simp] theorem State.followDemand_windows (s : State) : s.followDemand.windows = s.windows := rfl
@[simp] theorem State.followDemand_episodes (s : State) : s.followDemand.episodes = s.episodes := rfl
@[simp] theorem State.followDemand_plant (s : State) : s.followDemand.plant = s.plant := rfl
@[simp] theorem State.followDemand_notices (s : State) : s.followDemand.notices = s.notices := rfl
@[simp] theorem State.followDemand_report (s : State) : s.followDemand.report = s.report := rfl
@[simp] theorem State.followDemand_cadence (s : State) : s.followDemand.cadence = s.cadence := rfl
@[simp] theorem State.followDemand_ports (s : State) : s.followDemand.ports = s.ports := rfl
@[simp] theorem State.followDemand_held (s : State) : s.followDemand.held = s.held := rfl

@[simp] theorem State.startPulses_pending (key : Nat) (s : State) : (s.startPulses key).pending = s.pending := rfl
@[simp] theorem State.startPulses_due (key : Nat) (s : State) : (s.startPulses key).due = s.due := rfl
@[simp] theorem State.startPulses_clock (key : Nat) (s : State) : (s.startPulses key).clock = s.clock := rfl
@[simp] theorem State.startPulses_schedule (key : Nat) (s : State) : (s.startPulses key).schedule = s.schedule := rfl
@[simp] theorem State.startPulses_slots (key : Nat) (s : State) : (s.startPulses key).slots = s.slots := rfl
@[simp] theorem State.startPulses_table (key : Nat) (s : State) : (s.startPulses key).table = s.table := rfl
@[simp] theorem State.startPulses_windows (key : Nat) (s : State) : (s.startPulses key).windows = s.windows := rfl
@[simp] theorem State.startPulses_episodes (key : Nat) (s : State) : (s.startPulses key).episodes = s.episodes := rfl
@[simp] theorem State.startPulses_plant (key : Nat) (s : State) : (s.startPulses key).plant = s.plant := rfl
@[simp] theorem State.startPulses_notices (key : Nat) (s : State) : (s.startPulses key).notices = s.notices := rfl
@[simp] theorem State.startPulses_report (key : Nat) (s : State) : (s.startPulses key).report = s.report := rfl
@[simp] theorem State.startPulses_cadence (key : Nat) (s : State) : (s.startPulses key).cadence = s.cadence := rfl
@[simp] theorem State.startPulses_ports (key : Nat) (s : State) : (s.startPulses key).ports = s.ports := rfl
@[simp] theorem State.startPulses_held (key : Nat) (s : State) : (s.startPulses key).held = s.held := rfl

@[simp] theorem State.setCurrent_pending (es : List Episode) (s : State) : (s.setCurrent es).pending = s.pending := rfl
@[simp] theorem State.setCurrent_due (es : List Episode) (s : State) : (s.setCurrent es).due = s.due := rfl
@[simp] theorem State.setCurrent_clock (es : List Episode) (s : State) : (s.setCurrent es).clock = s.clock := rfl
@[simp] theorem State.setCurrent_schedule (es : List Episode) (s : State) : (s.setCurrent es).schedule = s.schedule := rfl
@[simp] theorem State.setCurrent_slots (es : List Episode) (s : State) : (s.setCurrent es).slots = s.slots := rfl
@[simp] theorem State.setCurrent_table (es : List Episode) (s : State) : (s.setCurrent es).table = s.table := rfl
@[simp] theorem State.setCurrent_windows (es : List Episode) (s : State) : (s.setCurrent es).windows = s.windows := rfl
@[simp] theorem State.setCurrent_plant (es : List Episode) (s : State) : (s.setCurrent es).plant = s.plant := rfl
@[simp] theorem State.setCurrent_beacons (es : List Episode) (s : State) : (s.setCurrent es).beacons = s.beacons := rfl
@[simp] theorem State.setCurrent_notices (es : List Episode) (s : State) : (s.setCurrent es).notices = s.notices := rfl
@[simp] theorem State.setCurrent_report (es : List Episode) (s : State) : (s.setCurrent es).report = s.report := rfl
@[simp] theorem State.setCurrent_cadence (es : List Episode) (s : State) : (s.setCurrent es).cadence = s.cadence := rfl
@[simp] theorem State.setCurrent_ports (es : List Episode) (s : State) : (s.setCurrent es).ports = s.ports := rfl
@[simp] theorem State.setCurrent_held (es : List Episode) (s : State) : (s.setCurrent es).held = s.held := rfl

@[simp] theorem State.modifyEpisode_pending (key slot : Nat) (f : Episode → Episode) (s : State) : (s.modifyEpisode key slot f).pending = s.pending := rfl
@[simp] theorem State.modifyEpisode_due (key slot : Nat) (f : Episode → Episode) (s : State) : (s.modifyEpisode key slot f).due = s.due := rfl
@[simp] theorem State.modifyEpisode_clock (key slot : Nat) (f : Episode → Episode) (s : State) : (s.modifyEpisode key slot f).clock = s.clock := rfl
@[simp] theorem State.modifyEpisode_schedule (key slot : Nat) (f : Episode → Episode) (s : State) : (s.modifyEpisode key slot f).schedule = s.schedule := rfl
@[simp] theorem State.modifyEpisode_slots (key slot : Nat) (f : Episode → Episode) (s : State) : (s.modifyEpisode key slot f).slots = s.slots := rfl
@[simp] theorem State.modifyEpisode_table (key slot : Nat) (f : Episode → Episode) (s : State) : (s.modifyEpisode key slot f).table = s.table := rfl
@[simp] theorem State.modifyEpisode_windows (key slot : Nat) (f : Episode → Episode) (s : State) : (s.modifyEpisode key slot f).windows = s.windows := rfl
@[simp] theorem State.modifyEpisode_plant (key slot : Nat) (f : Episode → Episode) (s : State) : (s.modifyEpisode key slot f).plant = s.plant := rfl
@[simp] theorem State.modifyEpisode_beacons (key slot : Nat) (f : Episode → Episode) (s : State) : (s.modifyEpisode key slot f).beacons = s.beacons := rfl
@[simp] theorem State.modifyEpisode_notices (key slot : Nat) (f : Episode → Episode) (s : State) : (s.modifyEpisode key slot f).notices = s.notices := rfl
@[simp] theorem State.modifyEpisode_report (key slot : Nat) (f : Episode → Episode) (s : State) : (s.modifyEpisode key slot f).report = s.report := rfl
@[simp] theorem State.modifyEpisode_cadence (key slot : Nat) (f : Episode → Episode) (s : State) : (s.modifyEpisode key slot f).cadence = s.cadence := rfl
@[simp] theorem State.modifyEpisode_ports (key slot : Nat) (f : Episode → Episode) (s : State) : (s.modifyEpisode key slot f).ports = s.ports := rfl
@[simp] theorem State.modifyEpisode_held (key slot : Nat) (f : Episode → Episode) (s : State) : (s.modifyEpisode key slot f).held = s.held := rfl

@[simp] theorem State.removeEpisode_pending (key slot : Nat) (s : State) : (s.removeEpisode key slot).pending = s.pending := rfl
@[simp] theorem State.removeEpisode_due (key slot : Nat) (s : State) : (s.removeEpisode key slot).due = s.due := rfl
@[simp] theorem State.removeEpisode_clock (key slot : Nat) (s : State) : (s.removeEpisode key slot).clock = s.clock := rfl
@[simp] theorem State.removeEpisode_schedule (key slot : Nat) (s : State) : (s.removeEpisode key slot).schedule = s.schedule := rfl
@[simp] theorem State.removeEpisode_slots (key slot : Nat) (s : State) : (s.removeEpisode key slot).slots = s.slots := rfl
@[simp] theorem State.removeEpisode_table (key slot : Nat) (s : State) : (s.removeEpisode key slot).table = s.table := rfl
@[simp] theorem State.removeEpisode_windows (key slot : Nat) (s : State) : (s.removeEpisode key slot).windows = s.windows := rfl
@[simp] theorem State.removeEpisode_plant (key slot : Nat) (s : State) : (s.removeEpisode key slot).plant = s.plant := rfl
@[simp] theorem State.removeEpisode_beacons (key slot : Nat) (s : State) : (s.removeEpisode key slot).beacons = s.beacons := rfl
@[simp] theorem State.removeEpisode_notices (key slot : Nat) (s : State) : (s.removeEpisode key slot).notices = s.notices := rfl
@[simp] theorem State.removeEpisode_report (key slot : Nat) (s : State) : (s.removeEpisode key slot).report = s.report := rfl
@[simp] theorem State.removeEpisode_cadence (key slot : Nat) (s : State) : (s.removeEpisode key slot).cadence = s.cadence := rfl
@[simp] theorem State.removeEpisode_ports (key slot : Nat) (s : State) : (s.removeEpisode key slot).ports = s.ports := rfl
@[simp] theorem State.removeEpisode_held (key slot : Nat) (s : State) : (s.removeEpisode key slot).held = s.held := rfl

@[simp] theorem State.gainSlice_pending (n : Nat) (x : Slice) (s : State) : (s.gainSlice n x).pending = s.pending := rfl
@[simp] theorem State.gainSlice_due (n : Nat) (x : Slice) (s : State) : (s.gainSlice n x).due = s.due := rfl
@[simp] theorem State.gainSlice_clock (n : Nat) (x : Slice) (s : State) : (s.gainSlice n x).clock = s.clock := rfl
@[simp] theorem State.gainSlice_schedule (n : Nat) (x : Slice) (s : State) : (s.gainSlice n x).schedule = s.schedule := rfl
@[simp] theorem State.gainSlice_slots (n : Nat) (x : Slice) (s : State) : (s.gainSlice n x).slots = s.slots := rfl
@[simp] theorem State.gainSlice_table (n : Nat) (x : Slice) (s : State) : (s.gainSlice n x).table = s.table := rfl
@[simp] theorem State.gainSlice_windows (n : Nat) (x : Slice) (s : State) : (s.gainSlice n x).windows = s.windows := rfl
@[simp] theorem State.gainSlice_plant (n : Nat) (x : Slice) (s : State) : (s.gainSlice n x).plant = s.plant := rfl
@[simp] theorem State.gainSlice_beacons (n : Nat) (x : Slice) (s : State) : (s.gainSlice n x).beacons = s.beacons := rfl
@[simp] theorem State.gainSlice_notices (n : Nat) (x : Slice) (s : State) : (s.gainSlice n x).notices = s.notices := rfl
@[simp] theorem State.gainSlice_report (n : Nat) (x : Slice) (s : State) : (s.gainSlice n x).report = s.report := rfl
@[simp] theorem State.gainSlice_cadence (n : Nat) (x : Slice) (s : State) : (s.gainSlice n x).cadence = s.cadence := rfl
@[simp] theorem State.gainSlice_ports (n : Nat) (x : Slice) (s : State) : (s.gainSlice n x).ports = s.ports := rfl
@[simp] theorem State.gainSlice_held (n : Nat) (x : Slice) (s : State) : (s.gainSlice n x).held = s.held := rfl

@[simp] theorem State.restartCellsOfSlot_pending (n : Nat) (s : State) : (s.restartCellsOfSlot n).pending = s.pending := rfl
@[simp] theorem State.restartCellsOfSlot_due (n : Nat) (s : State) : (s.restartCellsOfSlot n).due = s.due := rfl
@[simp] theorem State.restartCellsOfSlot_clock (n : Nat) (s : State) : (s.restartCellsOfSlot n).clock = s.clock := rfl
@[simp] theorem State.restartCellsOfSlot_schedule (n : Nat) (s : State) : (s.restartCellsOfSlot n).schedule = s.schedule := rfl
@[simp] theorem State.restartCellsOfSlot_slots (n : Nat) (s : State) : (s.restartCellsOfSlot n).slots = s.slots := rfl
@[simp] theorem State.restartCellsOfSlot_table (n : Nat) (s : State) : (s.restartCellsOfSlot n).table = s.table := rfl
@[simp] theorem State.restartCellsOfSlot_episodes (n : Nat) (s : State) : (s.restartCellsOfSlot n).episodes = s.episodes := rfl
@[simp] theorem State.restartCellsOfSlot_plant (n : Nat) (s : State) : (s.restartCellsOfSlot n).plant = s.plant := rfl
@[simp] theorem State.restartCellsOfSlot_beacons (n : Nat) (s : State) : (s.restartCellsOfSlot n).beacons = s.beacons := rfl
@[simp] theorem State.restartCellsOfSlot_notices (n : Nat) (s : State) : (s.restartCellsOfSlot n).notices = s.notices := rfl
@[simp] theorem State.restartCellsOfSlot_report (n : Nat) (s : State) : (s.restartCellsOfSlot n).report = s.report := rfl
@[simp] theorem State.restartCellsOfSlot_cadence (n : Nat) (s : State) : (s.restartCellsOfSlot n).cadence = s.cadence := rfl
@[simp] theorem State.restartCellsOfSlot_ports (n : Nat) (s : State) : (s.restartCellsOfSlot n).ports = s.ports := rfl
@[simp] theorem State.restartCellsOfSlot_held (n : Nat) (s : State) : (s.restartCellsOfSlot n).held = s.held := rfl

@[simp] theorem State.discardWindows_pending (s : State) : s.discardWindows.pending = s.pending := rfl
@[simp] theorem State.discardWindows_due (s : State) : s.discardWindows.due = s.due := rfl
@[simp] theorem State.discardWindows_clock (s : State) : s.discardWindows.clock = s.clock := rfl
@[simp] theorem State.discardWindows_schedule (s : State) : s.discardWindows.schedule = s.schedule := rfl
@[simp] theorem State.discardWindows_slots (s : State) : s.discardWindows.slots = s.slots := rfl
@[simp] theorem State.discardWindows_table (s : State) : s.discardWindows.table = s.table := rfl
@[simp] theorem State.discardWindows_episodes (s : State) : s.discardWindows.episodes = s.episodes := rfl
@[simp] theorem State.discardWindows_plant (s : State) : s.discardWindows.plant = s.plant := rfl
@[simp] theorem State.discardWindows_beacons (s : State) : s.discardWindows.beacons = s.beacons := rfl
@[simp] theorem State.discardWindows_notices (s : State) : s.discardWindows.notices = s.notices := rfl
@[simp] theorem State.discardWindows_report (s : State) : s.discardWindows.report = s.report := rfl
@[simp] theorem State.discardWindows_cadence (s : State) : s.discardWindows.cadence = s.cadence := rfl
@[simp] theorem State.discardWindows_ports (s : State) : s.discardWindows.ports = s.ports := rfl
@[simp] theorem State.discardWindows_held (s : State) : s.discardWindows.held = s.held := rfl

@[simp] theorem State.bandPlant_pending (s : State) : s.bandPlant.pending = s.pending := rfl
@[simp] theorem State.bandPlant_due (s : State) : s.bandPlant.due = s.due := rfl
@[simp] theorem State.bandPlant_clock (s : State) : s.bandPlant.clock = s.clock := rfl
@[simp] theorem State.bandPlant_schedule (s : State) : s.bandPlant.schedule = s.schedule := rfl
@[simp] theorem State.bandPlant_slots (s : State) : s.bandPlant.slots = s.slots := rfl
@[simp] theorem State.bandPlant_table (s : State) : s.bandPlant.table = s.table := rfl
@[simp] theorem State.bandPlant_windows (s : State) : s.bandPlant.windows = s.windows := rfl
@[simp] theorem State.bandPlant_episodes (s : State) : s.bandPlant.episodes = s.episodes := rfl
@[simp] theorem State.bandPlant_beacons (s : State) : s.bandPlant.beacons = s.beacons := rfl
@[simp] theorem State.bandPlant_notices (s : State) : s.bandPlant.notices = s.notices := rfl
@[simp] theorem State.bandPlant_report (s : State) : s.bandPlant.report = s.report := rfl
@[simp] theorem State.bandPlant_cadence (s : State) : s.bandPlant.cadence = s.cadence := rfl
@[simp] theorem State.bandPlant_ports (s : State) : s.bandPlant.ports = s.ports := rfl
@[simp] theorem State.bandPlant_held (s : State) : s.bandPlant.held = s.held := rfl

@[simp] theorem State.everActive_pending (n : Nat) (s : State) : (s.everActive n).pending = s.pending := rfl
@[simp] theorem State.everActive_due (n : Nat) (s : State) : (s.everActive n).due = s.due := rfl
@[simp] theorem State.everActive_clock (n : Nat) (s : State) : (s.everActive n).clock = s.clock := rfl
@[simp] theorem State.everActive_schedule (n : Nat) (s : State) : (s.everActive n).schedule = s.schedule := rfl
@[simp] theorem State.everActive_slots (n : Nat) (s : State) : (s.everActive n).slots = s.slots := rfl
@[simp] theorem State.everActive_table (n : Nat) (s : State) : (s.everActive n).table = s.table := rfl
@[simp] theorem State.everActive_windows (n : Nat) (s : State) : (s.everActive n).windows = s.windows := rfl
@[simp] theorem State.everActive_plant (n : Nat) (s : State) : (s.everActive n).plant = s.plant := rfl
@[simp] theorem State.everActive_beacons (n : Nat) (s : State) : (s.everActive n).beacons = s.beacons := rfl
@[simp] theorem State.everActive_notices (n : Nat) (s : State) : (s.everActive n).notices = s.notices := rfl
@[simp] theorem State.everActive_report (n : Nat) (s : State) : (s.everActive n).report = s.report := rfl
@[simp] theorem State.everActive_cadence (n : Nat) (s : State) : (s.everActive n).cadence = s.cadence := rfl
@[simp] theorem State.everActive_ports (n : Nat) (s : State) : (s.everActive n).ports = s.ports := rfl
@[simp] theorem State.everActive_held (n : Nat) (s : State) : (s.everActive n).held = s.held := rfl

@[simp] theorem State.setMark_pending (p : Sampler) (s : State) : (s.setMark p).pending = s.pending := rfl
@[simp] theorem State.setMark_due (p : Sampler) (s : State) : (s.setMark p).due = s.due := rfl
@[simp] theorem State.setMark_clock (p : Sampler) (s : State) : (s.setMark p).clock = s.clock := rfl
@[simp] theorem State.setMark_schedule (p : Sampler) (s : State) : (s.setMark p).schedule = s.schedule := rfl
@[simp] theorem State.setMark_slots (p : Sampler) (s : State) : (s.setMark p).slots = s.slots := rfl
@[simp] theorem State.setMark_table (p : Sampler) (s : State) : (s.setMark p).table = s.table := rfl
@[simp] theorem State.setMark_windows (p : Sampler) (s : State) : (s.setMark p).windows = s.windows := rfl
@[simp] theorem State.setMark_episodes (p : Sampler) (s : State) : (s.setMark p).episodes = s.episodes := rfl
@[simp] theorem State.setMark_beacons (p : Sampler) (s : State) : (s.setMark p).beacons = s.beacons := rfl
@[simp] theorem State.setMark_notices (p : Sampler) (s : State) : (s.setMark p).notices = s.notices := rfl
@[simp] theorem State.setMark_report (p : Sampler) (s : State) : (s.setMark p).report = s.report := rfl
@[simp] theorem State.setMark_cadence (p : Sampler) (s : State) : (s.setMark p).cadence = s.cadence := rfl
@[simp] theorem State.setMark_ports (p : Sampler) (s : State) : (s.setMark p).ports = s.ports := rfl
@[simp] theorem State.setMark_held (p : Sampler) (s : State) : (s.setMark p).held = s.held := rfl

@[simp] theorem State.setCertify_pending (p : Sampler) (s : State) : (s.setCertify p).pending = s.pending := rfl
@[simp] theorem State.setCertify_due (p : Sampler) (s : State) : (s.setCertify p).due = s.due := rfl
@[simp] theorem State.setCertify_clock (p : Sampler) (s : State) : (s.setCertify p).clock = s.clock := rfl
@[simp] theorem State.setCertify_schedule (p : Sampler) (s : State) : (s.setCertify p).schedule = s.schedule := rfl
@[simp] theorem State.setCertify_slots (p : Sampler) (s : State) : (s.setCertify p).slots = s.slots := rfl
@[simp] theorem State.setCertify_table (p : Sampler) (s : State) : (s.setCertify p).table = s.table := rfl
@[simp] theorem State.setCertify_windows (p : Sampler) (s : State) : (s.setCertify p).windows = s.windows := rfl
@[simp] theorem State.setCertify_episodes (p : Sampler) (s : State) : (s.setCertify p).episodes = s.episodes := rfl
@[simp] theorem State.setCertify_beacons (p : Sampler) (s : State) : (s.setCertify p).beacons = s.beacons := rfl
@[simp] theorem State.setCertify_notices (p : Sampler) (s : State) : (s.setCertify p).notices = s.notices := rfl
@[simp] theorem State.setCertify_report (p : Sampler) (s : State) : (s.setCertify p).report = s.report := rfl
@[simp] theorem State.setCertify_cadence (p : Sampler) (s : State) : (s.setCertify p).cadence = s.cadence := rfl
@[simp] theorem State.setCertify_ports (p : Sampler) (s : State) : (s.setCertify p).ports = s.ports := rfl
@[simp] theorem State.setCertify_held (p : Sampler) (s : State) : (s.setCertify p).held = s.held := rfl

@[simp] theorem State.countRuns_pending (s : State) : s.countRuns.pending = s.pending := rfl
@[simp] theorem State.countRuns_due (s : State) : s.countRuns.due = s.due := rfl
@[simp] theorem State.countRuns_clock (s : State) : s.countRuns.clock = s.clock := rfl
@[simp] theorem State.countRuns_schedule (s : State) : s.countRuns.schedule = s.schedule := rfl
@[simp] theorem State.countRuns_slots (s : State) : s.countRuns.slots = s.slots := rfl
@[simp] theorem State.countRuns_table (s : State) : s.countRuns.table = s.table := rfl
@[simp] theorem State.countRuns_windows (s : State) : s.countRuns.windows = s.windows := rfl
@[simp] theorem State.countRuns_episodes (s : State) : s.countRuns.episodes = s.episodes := rfl
@[simp] theorem State.countRuns_beacons (s : State) : s.countRuns.beacons = s.beacons := rfl
@[simp] theorem State.countRuns_notices (s : State) : s.countRuns.notices = s.notices := rfl
@[simp] theorem State.countRuns_report (s : State) : s.countRuns.report = s.report := rfl
@[simp] theorem State.countRuns_cadence (s : State) : s.countRuns.cadence = s.cadence := rfl
@[simp] theorem State.countRuns_ports (s : State) : s.countRuns.ports = s.ports := rfl
@[simp] theorem State.countRuns_held (s : State) : s.countRuns.held = s.held := rfl

@[simp] theorem State.clearSummary_pending (s : State) : s.clearSummary.pending = s.pending := rfl
@[simp] theorem State.clearSummary_due (s : State) : s.clearSummary.due = s.due := rfl
@[simp] theorem State.clearSummary_clock (s : State) : s.clearSummary.clock = s.clock := rfl
@[simp] theorem State.clearSummary_schedule (s : State) : s.clearSummary.schedule = s.schedule := rfl
@[simp] theorem State.clearSummary_table (s : State) : s.clearSummary.table = s.table := rfl
@[simp] theorem State.clearSummary_windows (s : State) : s.clearSummary.windows = s.windows := rfl
@[simp] theorem State.clearSummary_beacons (s : State) : s.clearSummary.beacons = s.beacons := rfl
@[simp] theorem State.clearSummary_notices (s : State) : s.clearSummary.notices = s.notices := rfl
@[simp] theorem State.clearSummary_cadence (s : State) : s.clearSummary.cadence = s.cadence := rfl
@[simp] theorem State.clearSummary_held (s : State) : s.clearSummary.held = s.held := rfl

@[simp] theorem State.moveKeys_pending (ps : List (Nat × Nat)) (s : State) : (s.moveKeys ps).pending = s.pending := rfl
@[simp] theorem State.moveKeys_due (ps : List (Nat × Nat)) (s : State) : (s.moveKeys ps).due = s.due := rfl
@[simp] theorem State.moveKeys_clock (ps : List (Nat × Nat)) (s : State) : (s.moveKeys ps).clock = s.clock := rfl
@[simp] theorem State.moveKeys_schedule (ps : List (Nat × Nat)) (s : State) : (s.moveKeys ps).schedule = s.schedule := rfl
@[simp] theorem State.moveKeys_slots (ps : List (Nat × Nat)) (s : State) : (s.moveKeys ps).slots = s.slots := rfl
@[simp] theorem State.moveKeys_plant (ps : List (Nat × Nat)) (s : State) : (s.moveKeys ps).plant = s.plant := rfl
@[simp] theorem State.moveKeys_beacons (ps : List (Nat × Nat)) (s : State) : (s.moveKeys ps).beacons = s.beacons := rfl
@[simp] theorem State.moveKeys_notices (ps : List (Nat × Nat)) (s : State) : (s.moveKeys ps).notices = s.notices := rfl
@[simp] theorem State.moveKeys_report (ps : List (Nat × Nat)) (s : State) : (s.moveKeys ps).report = s.report := rfl
@[simp] theorem State.moveKeys_cadence (ps : List (Nat × Nat)) (s : State) : (s.moveKeys ps).cadence = s.cadence := rfl
@[simp] theorem State.moveKeys_ports (ps : List (Nat × Nat)) (s : State) : (s.moveKeys ps).ports = s.ports := rfl
@[simp] theorem State.moveKeys_held (ps : List (Nat × Nat)) (s : State) : (s.moveKeys ps).held = s.held := rfl

@[simp] theorem State.adoptSchedule_pending (s : State) : s.adoptSchedule.pending = s.pending := rfl
@[simp] theorem State.adoptSchedule_due (s : State) : s.adoptSchedule.due = s.due := rfl
@[simp] theorem State.adoptSchedule_clock (s : State) : s.adoptSchedule.clock = s.clock := rfl
@[simp] theorem State.adoptSchedule_slots (s : State) : s.adoptSchedule.slots = s.slots := rfl
@[simp] theorem State.adoptSchedule_table (s : State) : s.adoptSchedule.table = s.table := rfl
@[simp] theorem State.adoptSchedule_windows (s : State) : s.adoptSchedule.windows = s.windows := rfl
@[simp] theorem State.adoptSchedule_episodes (s : State) : s.adoptSchedule.episodes = s.episodes := rfl
@[simp] theorem State.adoptSchedule_plant (s : State) : s.adoptSchedule.plant = s.plant := rfl
@[simp] theorem State.adoptSchedule_beacons (s : State) : s.adoptSchedule.beacons = s.beacons := rfl
@[simp] theorem State.adoptSchedule_notices (s : State) : s.adoptSchedule.notices = s.notices := rfl
@[simp] theorem State.adoptSchedule_report (s : State) : s.adoptSchedule.report = s.report := rfl
@[simp] theorem State.adoptSchedule_cadence (s : State) : s.adoptSchedule.cadence = s.cadence := rfl
@[simp] theorem State.adoptSchedule_ports (s : State) : s.adoptSchedule.ports = s.ports := rfl
@[simp] theorem State.adoptSchedule_held (s : State) : s.adoptSchedule.held = s.held := rfl

@[simp] theorem State.setHolding_pending (ts : List Transaction) (s : State) : (s.setHolding ts).pending = s.pending := rfl
@[simp] theorem State.setHolding_due (ts : List Transaction) (s : State) : (s.setHolding ts).due = s.due := rfl
@[simp] theorem State.setHolding_clock (ts : List Transaction) (s : State) : (s.setHolding ts).clock = s.clock := rfl
@[simp] theorem State.setHolding_schedule (ts : List Transaction) (s : State) : (s.setHolding ts).schedule = s.schedule := rfl
@[simp] theorem State.setHolding_slots (ts : List Transaction) (s : State) : (s.setHolding ts).slots = s.slots := rfl
@[simp] theorem State.setHolding_table (ts : List Transaction) (s : State) : (s.setHolding ts).table = s.table := rfl
@[simp] theorem State.setHolding_windows (ts : List Transaction) (s : State) : (s.setHolding ts).windows = s.windows := rfl
@[simp] theorem State.setHolding_episodes (ts : List Transaction) (s : State) : (s.setHolding ts).episodes = s.episodes := rfl
@[simp] theorem State.setHolding_plant (ts : List Transaction) (s : State) : (s.setHolding ts).plant = s.plant := rfl
@[simp] theorem State.setHolding_beacons (ts : List Transaction) (s : State) : (s.setHolding ts).beacons = s.beacons := rfl
@[simp] theorem State.setHolding_notices (ts : List Transaction) (s : State) : (s.setHolding ts).notices = s.notices := rfl
@[simp] theorem State.setHolding_report (ts : List Transaction) (s : State) : (s.setHolding ts).report = s.report := rfl
@[simp] theorem State.setHolding_cadence (ts : List Transaction) (s : State) : (s.setHolding ts).cadence = s.cadence := rfl
@[simp] theorem State.setHolding_held (ts : List Transaction) (s : State) : (s.setHolding ts).held = s.held := rfl

@[simp] theorem State.writeItems_pending (r : List Byte) (n : Nat) (is : List ReplyItem) (s : State) : (s.writeItems r n is).pending = s.pending := rfl
@[simp] theorem State.writeItems_due (r : List Byte) (n : Nat) (is : List ReplyItem) (s : State) : (s.writeItems r n is).due = s.due := rfl
@[simp] theorem State.writeItems_clock (r : List Byte) (n : Nat) (is : List ReplyItem) (s : State) : (s.writeItems r n is).clock = s.clock := rfl
@[simp] theorem State.writeItems_schedule (r : List Byte) (n : Nat) (is : List ReplyItem) (s : State) : (s.writeItems r n is).schedule = s.schedule := rfl
@[simp] theorem State.writeItems_slots (r : List Byte) (n : Nat) (is : List ReplyItem) (s : State) : (s.writeItems r n is).slots = s.slots := rfl
@[simp] theorem State.writeItems_table (r : List Byte) (n : Nat) (is : List ReplyItem) (s : State) : (s.writeItems r n is).table = s.table := rfl
@[simp] theorem State.writeItems_windows (r : List Byte) (n : Nat) (is : List ReplyItem) (s : State) : (s.writeItems r n is).windows = s.windows := rfl
@[simp] theorem State.writeItems_episodes (r : List Byte) (n : Nat) (is : List ReplyItem) (s : State) : (s.writeItems r n is).episodes = s.episodes := rfl
@[simp] theorem State.writeItems_plant (r : List Byte) (n : Nat) (is : List ReplyItem) (s : State) : (s.writeItems r n is).plant = s.plant := rfl
@[simp] theorem State.writeItems_beacons (r : List Byte) (n : Nat) (is : List ReplyItem) (s : State) : (s.writeItems r n is).beacons = s.beacons := rfl
@[simp] theorem State.writeItems_notices (r : List Byte) (n : Nat) (is : List ReplyItem) (s : State) : (s.writeItems r n is).notices = s.notices := rfl
@[simp] theorem State.writeItems_report (r : List Byte) (n : Nat) (is : List ReplyItem) (s : State) : (s.writeItems r n is).report = s.report := rfl
@[simp] theorem State.writeItems_cadence (r : List Byte) (n : Nat) (is : List ReplyItem) (s : State) : (s.writeItems r n is).cadence = s.cadence := rfl
@[simp] theorem State.writeItems_held (r : List Byte) (n : Nat) (is : List ReplyItem) (s : State) : (s.writeItems r n is).held = s.held := rfl

@[simp] theorem State.setQueries_pending (qs : List Query) (s : State) : (s.setQueries qs).pending = s.pending := rfl
@[simp] theorem State.setQueries_due (qs : List Query) (s : State) : (s.setQueries qs).due = s.due := rfl
@[simp] theorem State.setQueries_clock (qs : List Query) (s : State) : (s.setQueries qs).clock = s.clock := rfl
@[simp] theorem State.setQueries_schedule (qs : List Query) (s : State) : (s.setQueries qs).schedule = s.schedule := rfl
@[simp] theorem State.setQueries_slots (qs : List Query) (s : State) : (s.setQueries qs).slots = s.slots := rfl
@[simp] theorem State.setQueries_table (qs : List Query) (s : State) : (s.setQueries qs).table = s.table := rfl
@[simp] theorem State.setQueries_windows (qs : List Query) (s : State) : (s.setQueries qs).windows = s.windows := rfl
@[simp] theorem State.setQueries_episodes (qs : List Query) (s : State) : (s.setQueries qs).episodes = s.episodes := rfl
@[simp] theorem State.setQueries_plant (qs : List Query) (s : State) : (s.setQueries qs).plant = s.plant := rfl
@[simp] theorem State.setQueries_beacons (qs : List Query) (s : State) : (s.setQueries qs).beacons = s.beacons := rfl
@[simp] theorem State.setQueries_notices (qs : List Query) (s : State) : (s.setQueries qs).notices = s.notices := rfl
@[simp] theorem State.setQueries_report (qs : List Query) (s : State) : (s.setQueries qs).report = s.report := rfl
@[simp] theorem State.setQueries_ports (qs : List Query) (s : State) : (s.setQueries qs).ports = s.ports := rfl
@[simp] theorem State.setQueries_held (qs : List Query) (s : State) : (s.setQueries qs).held = s.held := rfl

@[simp] theorem State.setStaged_pending (t : EntryTable) (s : State) : (s.setStaged t).pending = s.pending := rfl
@[simp] theorem State.setStaged_due (t : EntryTable) (s : State) : (s.setStaged t).due = s.due := rfl
@[simp] theorem State.setStaged_clock (t : EntryTable) (s : State) : (s.setStaged t).clock = s.clock := rfl
@[simp] theorem State.setStaged_schedule (t : EntryTable) (s : State) : (s.setStaged t).schedule = s.schedule := rfl
@[simp] theorem State.setStaged_slots (t : EntryTable) (s : State) : (s.setStaged t).slots = s.slots := rfl
@[simp] theorem State.setStaged_windows (t : EntryTable) (s : State) : (s.setStaged t).windows = s.windows := rfl
@[simp] theorem State.setStaged_episodes (t : EntryTable) (s : State) : (s.setStaged t).episodes = s.episodes := rfl
@[simp] theorem State.setStaged_plant (t : EntryTable) (s : State) : (s.setStaged t).plant = s.plant := rfl
@[simp] theorem State.setStaged_beacons (t : EntryTable) (s : State) : (s.setStaged t).beacons = s.beacons := rfl
@[simp] theorem State.setStaged_notices (t : EntryTable) (s : State) : (s.setStaged t).notices = s.notices := rfl
@[simp] theorem State.setStaged_report (t : EntryTable) (s : State) : (s.setStaged t).report = s.report := rfl
@[simp] theorem State.setStaged_cadence (t : EntryTable) (s : State) : (s.setStaged t).cadence = s.cadence := rfl
@[simp] theorem State.setStaged_ports (t : EntryTable) (s : State) : (s.setStaged t).ports = s.ports := rfl
@[simp] theorem State.setStaged_held (t : EntryTable) (s : State) : (s.setStaged t).held = s.held := rfl

@[simp] theorem State.revert_pending (s : State) : s.revert.pending = s.pending := rfl
@[simp] theorem State.revert_due (s : State) : s.revert.due = s.due := rfl
@[simp] theorem State.revert_clock (s : State) : s.revert.clock = s.clock := rfl
@[simp] theorem State.revert_slots (s : State) : s.revert.slots = s.slots := rfl
@[simp] theorem State.revert_windows (s : State) : s.revert.windows = s.windows := rfl
@[simp] theorem State.revert_episodes (s : State) : s.revert.episodes = s.episodes := rfl
@[simp] theorem State.revert_plant (s : State) : s.revert.plant = s.plant := rfl
@[simp] theorem State.revert_beacons (s : State) : s.revert.beacons = s.beacons := rfl
@[simp] theorem State.revert_notices (s : State) : s.revert.notices = s.notices := rfl
@[simp] theorem State.revert_report (s : State) : s.revert.report = s.report := rfl
@[simp] theorem State.revert_cadence (s : State) : s.revert.cadence = s.cadence := rfl
@[simp] theorem State.revert_ports (s : State) : s.revert.ports = s.ports := rfl
@[simp] theorem State.revert_held (s : State) : s.revert.held = s.held := rfl

@[simp] theorem State.stageBands_pending (rs : List (Nat × Option BandRecord)) (s : State) : (s.stageBands rs).pending = s.pending := rfl
@[simp] theorem State.stageBands_due (rs : List (Nat × Option BandRecord)) (s : State) : (s.stageBands rs).due = s.due := rfl
@[simp] theorem State.stageBands_clock (rs : List (Nat × Option BandRecord)) (s : State) : (s.stageBands rs).clock = s.clock := rfl
@[simp] theorem State.stageBands_slots (rs : List (Nat × Option BandRecord)) (s : State) : (s.stageBands rs).slots = s.slots := rfl
@[simp] theorem State.stageBands_table (rs : List (Nat × Option BandRecord)) (s : State) : (s.stageBands rs).table = s.table := rfl
@[simp] theorem State.stageBands_windows (rs : List (Nat × Option BandRecord)) (s : State) : (s.stageBands rs).windows = s.windows := rfl
@[simp] theorem State.stageBands_episodes (rs : List (Nat × Option BandRecord)) (s : State) : (s.stageBands rs).episodes = s.episodes := rfl
@[simp] theorem State.stageBands_plant (rs : List (Nat × Option BandRecord)) (s : State) : (s.stageBands rs).plant = s.plant := rfl
@[simp] theorem State.stageBands_beacons (rs : List (Nat × Option BandRecord)) (s : State) : (s.stageBands rs).beacons = s.beacons := rfl
@[simp] theorem State.stageBands_notices (rs : List (Nat × Option BandRecord)) (s : State) : (s.stageBands rs).notices = s.notices := rfl
@[simp] theorem State.stageBands_report (rs : List (Nat × Option BandRecord)) (s : State) : (s.stageBands rs).report = s.report := rfl
@[simp] theorem State.stageBands_cadence (rs : List (Nat × Option BandRecord)) (s : State) : (s.stageBands rs).cadence = s.cadence := rfl
@[simp] theorem State.stageBands_ports (rs : List (Nat × Option BandRecord)) (s : State) : (s.stageBands rs).ports = s.ports := rfl
@[simp] theorem State.stageBands_held (rs : List (Nat × Option BandRecord)) (s : State) : (s.stageBands rs).held = s.held := rfl

@[simp] theorem State.stageExceptions_pending (rs : List ExceptionRecord) (s : State) : (s.stageExceptions rs).pending = s.pending := rfl
@[simp] theorem State.stageExceptions_due (rs : List ExceptionRecord) (s : State) : (s.stageExceptions rs).due = s.due := rfl
@[simp] theorem State.stageExceptions_clock (rs : List ExceptionRecord) (s : State) : (s.stageExceptions rs).clock = s.clock := rfl
@[simp] theorem State.stageExceptions_slots (rs : List ExceptionRecord) (s : State) : (s.stageExceptions rs).slots = s.slots := rfl
@[simp] theorem State.stageExceptions_table (rs : List ExceptionRecord) (s : State) : (s.stageExceptions rs).table = s.table := rfl
@[simp] theorem State.stageExceptions_windows (rs : List ExceptionRecord) (s : State) : (s.stageExceptions rs).windows = s.windows := rfl
@[simp] theorem State.stageExceptions_episodes (rs : List ExceptionRecord) (s : State) : (s.stageExceptions rs).episodes = s.episodes := rfl
@[simp] theorem State.stageExceptions_plant (rs : List ExceptionRecord) (s : State) : (s.stageExceptions rs).plant = s.plant := rfl
@[simp] theorem State.stageExceptions_beacons (rs : List ExceptionRecord) (s : State) : (s.stageExceptions rs).beacons = s.beacons := rfl
@[simp] theorem State.stageExceptions_notices (rs : List ExceptionRecord) (s : State) : (s.stageExceptions rs).notices = s.notices := rfl
@[simp] theorem State.stageExceptions_report (rs : List ExceptionRecord) (s : State) : (s.stageExceptions rs).report = s.report := rfl
@[simp] theorem State.stageExceptions_cadence (rs : List ExceptionRecord) (s : State) : (s.stageExceptions rs).cadence = s.cadence := rfl
@[simp] theorem State.stageExceptions_ports (rs : List ExceptionRecord) (s : State) : (s.stageExceptions rs).ports = s.ports := rfl
@[simp] theorem State.stageExceptions_held (rs : List ExceptionRecord) (s : State) : (s.stageExceptions rs).held = s.held := rfl

@[simp] theorem State.clearCoincidence_pending (s : State) : s.clearCoincidence.pending = s.pending := rfl
@[simp] theorem State.clearCoincidence_due (s : State) : s.clearCoincidence.due = s.due := rfl
@[simp] theorem State.clearCoincidence_clock (s : State) : s.clearCoincidence.clock = s.clock := rfl
@[simp] theorem State.clearCoincidence_schedule (s : State) : s.clearCoincidence.schedule = s.schedule := rfl
@[simp] theorem State.clearCoincidence_slots (s : State) : s.clearCoincidence.slots = s.slots := rfl
@[simp] theorem State.clearCoincidence_table (s : State) : s.clearCoincidence.table = s.table := rfl
@[simp] theorem State.clearCoincidence_windows (s : State) : s.clearCoincidence.windows = s.windows := rfl
@[simp] theorem State.clearCoincidence_episodes (s : State) : s.clearCoincidence.episodes = s.episodes := rfl
@[simp] theorem State.clearCoincidence_beacons (s : State) : s.clearCoincidence.beacons = s.beacons := rfl
@[simp] theorem State.clearCoincidence_notices (s : State) : s.clearCoincidence.notices = s.notices := rfl
@[simp] theorem State.clearCoincidence_report (s : State) : s.clearCoincidence.report = s.report := rfl
@[simp] theorem State.clearCoincidence_cadence (s : State) : s.clearCoincidence.cadence = s.cadence := rfl
@[simp] theorem State.clearCoincidence_ports (s : State) : s.clearCoincidence.ports = s.ports := rfl
@[simp] theorem State.clearCoincidence_held (s : State) : s.clearCoincidence.held = s.held := rfl

@[simp] theorem State.clearNotices_pending (s : State) : s.clearNotices.pending = s.pending := rfl
@[simp] theorem State.clearNotices_due (s : State) : s.clearNotices.due = s.due := rfl
@[simp] theorem State.clearNotices_clock (s : State) : s.clearNotices.clock = s.clock := rfl
@[simp] theorem State.clearNotices_schedule (s : State) : s.clearNotices.schedule = s.schedule := rfl
@[simp] theorem State.clearNotices_slots (s : State) : s.clearNotices.slots = s.slots := rfl
@[simp] theorem State.clearNotices_table (s : State) : s.clearNotices.table = s.table := rfl
@[simp] theorem State.clearNotices_windows (s : State) : s.clearNotices.windows = s.windows := rfl
@[simp] theorem State.clearNotices_episodes (s : State) : s.clearNotices.episodes = s.episodes := rfl
@[simp] theorem State.clearNotices_plant (s : State) : s.clearNotices.plant = s.plant := rfl
@[simp] theorem State.clearNotices_beacons (s : State) : s.clearNotices.beacons = s.beacons := rfl
@[simp] theorem State.clearNotices_report (s : State) : s.clearNotices.report = s.report := rfl
@[simp] theorem State.clearNotices_cadence (s : State) : s.clearNotices.cadence = s.cadence := rfl
@[simp] theorem State.clearNotices_ports (s : State) : s.clearNotices.ports = s.ports := rfl
@[simp] theorem State.clearNotices_held (s : State) : s.clearNotices.held = s.held := rfl

@[simp] theorem State.setCadence_pending (b n : Nat) (m : CadenceMode) (g f : Bool) (s : State) : (s.setCadence b n m g f).pending = s.pending := rfl
@[simp] theorem State.setCadence_due (b n : Nat) (m : CadenceMode) (g f : Bool) (s : State) : (s.setCadence b n m g f).due = s.due := rfl
@[simp] theorem State.setCadence_clock (b n : Nat) (m : CadenceMode) (g f : Bool) (s : State) : (s.setCadence b n m g f).clock = s.clock := rfl
@[simp] theorem State.setCadence_schedule (b n : Nat) (m : CadenceMode) (g f : Bool) (s : State) : (s.setCadence b n m g f).schedule = s.schedule := rfl
@[simp] theorem State.setCadence_slots (b n : Nat) (m : CadenceMode) (g f : Bool) (s : State) : (s.setCadence b n m g f).slots = s.slots := rfl
@[simp] theorem State.setCadence_table (b n : Nat) (m : CadenceMode) (g f : Bool) (s : State) : (s.setCadence b n m g f).table = s.table := rfl
@[simp] theorem State.setCadence_windows (b n : Nat) (m : CadenceMode) (g f : Bool) (s : State) : (s.setCadence b n m g f).windows = s.windows := rfl
@[simp] theorem State.setCadence_episodes (b n : Nat) (m : CadenceMode) (g f : Bool) (s : State) : (s.setCadence b n m g f).episodes = s.episodes := rfl
@[simp] theorem State.setCadence_plant (b n : Nat) (m : CadenceMode) (g f : Bool) (s : State) : (s.setCadence b n m g f).plant = s.plant := rfl
@[simp] theorem State.setCadence_beacons (b n : Nat) (m : CadenceMode) (g f : Bool) (s : State) : (s.setCadence b n m g f).beacons = s.beacons := rfl
@[simp] theorem State.setCadence_notices (b n : Nat) (m : CadenceMode) (g f : Bool) (s : State) : (s.setCadence b n m g f).notices = s.notices := rfl
@[simp] theorem State.setCadence_report (b n : Nat) (m : CadenceMode) (g f : Bool) (s : State) : (s.setCadence b n m g f).report = s.report := rfl
@[simp] theorem State.setCadence_ports (b n : Nat) (m : CadenceMode) (g f : Bool) (s : State) : (s.setCadence b n m g f).ports = s.ports := rfl
@[simp] theorem State.setCadence_held (b n : Nat) (m : CadenceMode) (g f : Bool) (s : State) : (s.setCadence b n m g f).held = s.held := rfl

@[simp] theorem State.countFieldError_pending (s : State) : s.countFieldError.pending = s.pending := rfl
@[simp] theorem State.countFieldError_due (s : State) : s.countFieldError.due = s.due := rfl
@[simp] theorem State.countFieldError_clock (s : State) : s.countFieldError.clock = s.clock := rfl
@[simp] theorem State.countFieldError_schedule (s : State) : s.countFieldError.schedule = s.schedule := rfl
@[simp] theorem State.countFieldError_slots (s : State) : s.countFieldError.slots = s.slots := rfl
@[simp] theorem State.countFieldError_table (s : State) : s.countFieldError.table = s.table := rfl
@[simp] theorem State.countFieldError_windows (s : State) : s.countFieldError.windows = s.windows := rfl
@[simp] theorem State.countFieldError_episodes (s : State) : s.countFieldError.episodes = s.episodes := rfl
@[simp] theorem State.countFieldError_plant (s : State) : s.countFieldError.plant = s.plant := rfl
@[simp] theorem State.countFieldError_beacons (s : State) : s.countFieldError.beacons = s.beacons := rfl
@[simp] theorem State.countFieldError_notices (s : State) : s.countFieldError.notices = s.notices := rfl
@[simp] theorem State.countFieldError_report (s : State) : s.countFieldError.report = s.report := rfl
@[simp] theorem State.countFieldError_cadence (s : State) : s.countFieldError.cadence = s.cadence := rfl
@[simp] theorem State.countFieldError_held (s : State) : s.countFieldError.held = s.held := rfl

@[simp] theorem State.countGatewayError_pending (s : State) : s.countGatewayError.pending = s.pending := rfl
@[simp] theorem State.countGatewayError_due (s : State) : s.countGatewayError.due = s.due := rfl
@[simp] theorem State.countGatewayError_clock (s : State) : s.countGatewayError.clock = s.clock := rfl
@[simp] theorem State.countGatewayError_schedule (s : State) : s.countGatewayError.schedule = s.schedule := rfl
@[simp] theorem State.countGatewayError_slots (s : State) : s.countGatewayError.slots = s.slots := rfl
@[simp] theorem State.countGatewayError_table (s : State) : s.countGatewayError.table = s.table := rfl
@[simp] theorem State.countGatewayError_windows (s : State) : s.countGatewayError.windows = s.windows := rfl
@[simp] theorem State.countGatewayError_episodes (s : State) : s.countGatewayError.episodes = s.episodes := rfl
@[simp] theorem State.countGatewayError_plant (s : State) : s.countGatewayError.plant = s.plant := rfl
@[simp] theorem State.countGatewayError_beacons (s : State) : s.countGatewayError.beacons = s.beacons := rfl
@[simp] theorem State.countGatewayError_notices (s : State) : s.countGatewayError.notices = s.notices := rfl
@[simp] theorem State.countGatewayError_report (s : State) : s.countGatewayError.report = s.report := rfl
@[simp] theorem State.countGatewayError_cadence (s : State) : s.countGatewayError.cadence = s.cadence := rfl
@[simp] theorem State.countGatewayError_held (s : State) : s.countGatewayError.held = s.held := rfl

@[simp] theorem State.decideQuietly_pending (s : State) : s.decideQuietly.pending = s.pending := rfl
@[simp] theorem State.decideQuietly_due (s : State) : s.decideQuietly.due = s.due := rfl
@[simp] theorem State.decideQuietly_schedule (s : State) : s.decideQuietly.schedule = s.schedule := rfl
@[simp] theorem State.decideQuietly_slots (s : State) : s.decideQuietly.slots = s.slots := rfl
@[simp] theorem State.decideQuietly_table (s : State) : s.decideQuietly.table = s.table := rfl
@[simp] theorem State.decideQuietly_windows (s : State) : s.decideQuietly.windows = s.windows := rfl
@[simp] theorem State.decideQuietly_episodes (s : State) : s.decideQuietly.episodes = s.episodes := rfl
@[simp] theorem State.decideQuietly_plant (s : State) : s.decideQuietly.plant = s.plant := rfl
@[simp] theorem State.decideQuietly_beacons (s : State) : s.decideQuietly.beacons = s.beacons := rfl
@[simp] theorem State.decideQuietly_notices (s : State) : s.decideQuietly.notices = s.notices := rfl
@[simp] theorem State.decideQuietly_report (s : State) : s.decideQuietly.report = s.report := rfl
@[simp] theorem State.decideQuietly_cadence (s : State) : s.decideQuietly.cadence = s.cadence := rfl
@[simp] theorem State.decideQuietly_ports (s : State) : s.decideQuietly.ports = s.ports := rfl
@[simp] theorem State.decideQuietly_held (s : State) : s.decideQuietly.held = s.held := rfl

@[simp] theorem State.setCurrent_current (es : List Episode) (s : State) :
    (s.setCurrent es).episodes.current = es := rfl
@[simp] theorem State.setCurrent_waiting (es : List Episode) (s : State) :
    (s.setCurrent es).episodes.waiting = s.episodes.waiting := rfl
@[simp] theorem State.setHolding_holding (ts : List Transaction) (s : State) :
    (s.setHolding ts).ports.holding = ts := rfl
@[simp] theorem State.enqueue_queue (b : RecordBody) (s : State) :
    (s.enqueue b).report.queue = s.report.queue ++ [⟨s.clock.tickCount, b⟩] := rfl
@[simp] theorem State.enqueue_dropped (b : RecordBody) (s : State) :
    (s.enqueue b).report.dropped = s.report.dropped := rfl
@[simp] theorem State.countDrop_queue (s : State) : s.countDrop.report.queue = s.report.queue := rfl
@[simp] theorem State.joinNotice_pendingSet (n : Notice) (s : State) :
    (s.joinNotice n).notices.pending = setInsert s.notices.pending n.bit := rfl
@[simp] theorem State.joinNotice_mask (n : Notice) (s : State) :
    (s.joinNotice n).notices.mask = s.notices.mask := rfl
@[simp] theorem State.joinNotice_latch (n : Notice) (s : State) :
    (s.joinNotice n).notices.latch = s.notices.latch := rfl
@[simp] theorem State.setQueries_queries (qs : List Query) (s : State) :
    (s.setQueries qs).cadence.queries = qs := rfl
@[simp] theorem State.setStaged_staged (t : EntryTable) (s : State) : (s.setStaged t).table.staged = t := rfl
@[simp] theorem State.setStaged_active (t : EntryTable) (s : State) :
    (s.setStaged t).table.active = s.table.active := rfl

end Sys2Proof.Machine
end

