-- ==== Sys2Proof/Laws/Emits.lean ====
section
/-! SUPPORT. What the report queue, the notice unit and the arbiter can do to the state: they change
notices, the report queue, the ports' queues and the due work, and nothing else. -/

namespace Sys2Proof.Machine

/-- While the gateway-port transmitter is busy, it stays so and the report queue only grows at its tail. -/
def Grows (s t : State) : Prop :=
  s.ports.gatewayTx ≠ none →
    t.ports.gatewayTx = s.ports.gatewayTx ∧ ∃ more, t.report.queue = s.report.queue ++ more

theorem Grows.refl (s : State) : Grows s s := fun _ => ⟨rfl, [], by simp⟩

theorem Grows.trans {s t u : State} (h : Grows s t) (k : Grows t u) : Grows s u := fun b => by
  obtain ⟨h1, a, h2⟩ := h b
  obtain ⟨k1, c, k2⟩ := k (by rw [h1]; exact b)
  exact ⟨k1.trans h1, a ++ c, by rw [k2, h2, List.append_assoc]⟩

/-- Same transmitter and same queue. -/
theorem grows_of {s t : State} (hp : t.ports.gatewayTx = s.ports.gatewayTx)
    (hq : t.report.queue = s.report.queue) : Grows s t := fun _ => ⟨hp, [], by simp [hq]⟩

/-- `t` comes from `s` by raising notices, offering records and granting the gateway port. -/
structure Emits (s t : State) : Prop where
  pending   : t.pending = s.pending
  clock     : t.clock = s.clock
  schedule  : t.schedule = s.schedule
  slots     : t.slots = s.slots
  table     : t.table = s.table
  windows   : t.windows = s.windows
  episodes  : t.episodes = s.episodes
  plant     : t.plant = s.plant
  beacons   : t.beacons = s.beacons
  cadence   : t.cadence = s.cadence
  held      : t.held = s.held
  mask      : t.notices.mask = s.notices.mask
  strap     : t.ports.strap = s.ports.strap
  onward    : t.ports.onward = s.ports.onward
  fieldTx   : t.ports.fieldTx = s.ports.fieldTx
  executing : t.executing = s.executing
  due       : ∀ d, d ∈ s.due → d ∈ t.due
  notices   : ∀ i, s.notices.pending.getLsbD i = true → t.notices.pending.getLsbD i = true
  links     : s.LinkBounds → t.LinkBounds
  grows     : Grows s t

theorem Emits.refl (s : State) : Emits s s :=
  ⟨rfl, rfl, rfl, rfl, rfl, rfl, rfl, rfl, rfl, rfl, rfl, rfl, rfl, rfl, rfl, rfl, fun _ h => h,
    fun _ h => h, fun h => h, Grows.refl s⟩

theorem Emits.trans {s t u : State} (h : Emits s t) (k : Emits t u) : Emits s u where
  pending := k.pending.trans h.pending
  clock := k.clock.trans h.clock
  schedule := k.schedule.trans h.schedule
  slots := k.slots.trans h.slots
  table := k.table.trans h.table
  windows := k.windows.trans h.windows
  episodes := k.episodes.trans h.episodes
  plant := k.plant.trans h.plant
  beacons := k.beacons.trans h.beacons
  cadence := k.cadence.trans h.cadence
  held := k.held.trans h.held
  mask := k.mask.trans h.mask
  strap := k.strap.trans h.strap
  onward := k.onward.trans h.onward
  fieldTx := k.fieldTx.trans h.fieldTx
  executing := k.executing.trans h.executing
  due := fun d hd => k.due d (h.due d hd)
  notices := fun i hi => k.notices i (h.notices i hi)
  links := fun b => k.links (h.links b)
  grows := h.grows.trans k.grows

/-! ### The arbiter -/

theorem executingOf_takeReady {ts rest : List Transaction} {r : Reply}
    (h : takeReady ts = some (r, rest)) : executingOf rest = executingOf ts := by
  induction ts generalizing rest with
  | nil => simp [takeReady] at h
  | cons t ts ih =>
    cases t with
    | ready x =>
      simp only [takeReady, Option.some.injEq, Prod.mk.injEq] at h
      simp [executingOf, h.2]
    | executing e =>
      simp only [takeReady, Option.map_eq_some_iff, Prod.mk.injEq] at h
      obtain ⟨p, _, _, rfl⟩ := h
      simp [executingOf]
    | queued g i =>
      simp only [takeReady, Option.map_eq_some_iff, Prod.mk.injEq] at h
      obtain ⟨p, hp, h1, rfl⟩ := h
      simpa [executingOf] using ih (rest := p.2) (by rw [hp, ← h1])

theorem length_takeReady {ts rest : List Transaction} {r : Reply}
    (h : takeReady ts = some (r, rest)) : rest.length + 1 = ts.length := by
  induction ts generalizing rest with
  | nil => simp [takeReady] at h
  | cons t ts ih =>
    cases t with
    | ready x =>
      simp only [takeReady, Option.some.injEq, Prod.mk.injEq] at h
      simp [h.2]
    | executing e =>
      simp only [takeReady, Option.map_eq_some_iff, Prod.mk.injEq] at h
      obtain ⟨p, hp, h1, rfl⟩ := h
      simpa using ih (rest := p.2) (by rw [hp, ← h1])
    | queued g i =>
      simp only [takeReady, Option.map_eq_some_iff, Prod.mk.injEq] at h
      obtain ⟨p, hp, h1, rfl⟩ := h
      simpa using ih (rest := p.2) (by rw [hp, ← h1])

theorem emits_addDue (d : Due) (s : State) : Emits s (s.addDue d) := by
  unfold State.addDue
  split
  · exact Emits.refl s
  · exact ⟨rfl, rfl, rfl, rfl, rfl, rfl, rfl, rfl, rfl, rfl, rfl, rfl, rfl, rfl, rfl, rfl,
      fun _ h => List.mem_append_left _ h, fun _ h => h,
      fun b => ⟨b.1, b.2, b.3, b.4, b.5, b.6, b.7, b.8, b.9, b.10⟩, grows_of rfl rfl⟩

theorem emits_handDeparture (s : State) : Emits s s.handDeparture := by
  unfold State.handDeparture
  split
  · exact Emits.refl s
  · exact emits_addDue _ s

theorem emits_grantReply {r : Reply} {rest : List Transaction} {s : State}
    (hi : s.ports.gatewayTx = none) (h : takeReady s.ports.holding = some (r, rest)) : Emits s (s.grantReply r rest) := by
  have hl := length_takeReady h
  exact ⟨rfl, rfl, rfl, rfl, rfl, rfl, rfl, rfl, rfl, rfl, rfl, rfl, rfl, rfl, rfl,
    executingOf_takeReady h, fun _ h => h, fun _ h => h,
    fun b => ⟨b.1, b.2, b.3, b.4, by have := b.5; simp only [State.grantReply]; omega, b.6, b.7, b.8,
      b.9, b.10⟩, fun b => absurd hi b⟩

theorem emits_grantForward {f : Frame} {fs : List Frame} {s : State}
    (hi : s.ports.gatewayTx = none) (h : s.ports.forward = f :: fs)
    (hs : s.report.queue = [] ∨ s.ports.starve < Config.starveLimit) :
    Emits s (s.grantForward f fs) := by
  refine ⟨rfl, rfl, rfl, rfl, rfl, rfl, rfl, rfl, rfl, rfl, rfl, rfl, rfl, rfl, rfl, rfl,
    fun _ h => h, fun _ h => h,
    fun b => ⟨b.1, b.2, ?_, b.4, b.5, ?_, b.7, b.8, b.9, b.10⟩, fun b => absurd hi b⟩
  · have := b.3
    rw [h] at this
    simp only [State.grantForward, List.length_cons] at this ⊢
    omega
  · have := b.6
    simp only [State.grantForward]
    rcases hs with hs | hs
    · simpa [hs] using this
    · split <;> omega

theorem emits_grantReport {r : Record} {rs : List Record} {s : State}
    (hi : s.ports.gatewayTx = none) (h : s.report.queue = r :: rs) :
    Emits s (s.grantReport r rs) := by
  refine Emits.trans ?_ (emits_handDeparture _)
  refine ⟨rfl, rfl, rfl, rfl, rfl, rfl, rfl, rfl, rfl, rfl, rfl, rfl, rfl, rfl, rfl, rfl,
    fun _ h => h, fun _ h => h,
    fun b => ⟨?_, b.2, b.3, b.4, b.5, ?_, b.7, b.8, b.9, b.10⟩, fun b => absurd hi b⟩
  · have := b.1
    rw [h] at this
    simp only [List.length_cons] at this ⊢
    omega
  · simp

theorem emits_grant {s : State} (hi : s.ports.gatewayTx = none) : Emits s s.grant := by
  unfold State.grant
  split
  · next h => exact emits_grantReply hi h
  · split
    · next hf hq => exact emits_grantForward hi hf (Or.inl hq)
    · next hf hq =>
      split
      · next hs => exact emits_grantForward hi hf (Or.inr hs)
      · exact emits_grantReport hi hq
    · next hf hq => exact emits_grantReport hi hq
    · exact Emits.refl s

theorem emits_arbitrate (s : State) : Emits s s.arbitrate := by
  unfold State.arbitrate
  split
  · exact Emits.refl s
  · next h => exact emits_grant h

/-! ### Notices and the report queue -/

theorem bumpTo_le {top n : Nat} : bumpTo top n ≤ top := Nat.min_le_right _ _

theorem getLsbD_setInsert {w : Nat} {m : BitVec w} {i j : Nat} (h : m.getLsbD i = true) :
    (setInsert m j).getLsbD i = true := by
  simp [setInsert, h]

theorem emits_enqueue {b : RecordBody} {s : State} (h : s.queueHasRoom = true) :
    Emits s (s.enqueue b) := by
  refine ⟨rfl, rfl, rfl, rfl, rfl, rfl, rfl, rfl, rfl, rfl, rfl, rfl, rfl, rfl, rfl, rfl,
    fun _ h => h, fun _ h => h,
    fun b => ⟨?_, b.2, b.3, b.4, b.5, b.6, b.7, b.8, b.9, b.10⟩, fun _ => ⟨rfl, _, rfl⟩⟩
  simp only [State.queueHasRoom, decide_eq_true_eq] at h
  simp
  omega

theorem emits_countDrop (s : State) : Emits s s.countDrop :=
  ⟨rfl, rfl, rfl, rfl, rfl, rfl, rfl, rfl, rfl, rfl, rfl, rfl, rfl, rfl, rfl, rfl,
    fun _ h => h, fun _ h => h,
    fun b => ⟨b.1, bumpTo_le, b.3, b.4, b.5, b.6, b.7, b.8, b.9, b.10⟩, grows_of rfl rfl⟩

theorem emits_joinNotice (n : Notice) (s : State) : Emits s (s.joinNotice n) :=
  ⟨rfl, rfl, rfl, rfl, rfl, rfl, rfl, rfl, rfl, rfl, rfl, rfl, rfl, rfl, rfl, rfl,
    fun _ h => h, fun _ h => getLsbD_setInsert h,
    fun b => ⟨b.1, b.2, b.3, b.4, b.5, b.6, b.7, b.8, b.9, b.10⟩, grows_of rfl rfl⟩

theorem emits_offerAttention (b : RecordBody) (s : State) : Emits s (s.offerAttention b) := by
  unfold State.offerAttention
  split
  · next h =>
    refine (emits_enqueue (b := b) h).trans (Emits.trans ?_ (emits_arbitrate _))
    split
    · exact emits_joinNotice _ _
    · exact Emits.refl _
  · exact (emits_countDrop s).trans (emits_joinNotice _ _)

theorem emits_setLatch (s : State) : Emits s s.setLatch := by
  unfold State.setLatch
  refine Emits.trans ?_ (emits_offerAttention _ _)
  exact ⟨rfl, rfl, rfl, rfl, rfl, rfl, rfl, rfl, rfl, rfl, rfl, rfl, rfl, rfl, rfl, rfl,
    fun _ h => h, fun _ h => h,
    fun b => ⟨b.1, b.2, b.3, b.4, b.5, b.6, b.7, b.8, b.9, b.10⟩, grows_of rfl rfl⟩

theorem emits_settleLatch (s : State) : Emits s s.settleLatch := by
  unfold State.settleLatch
  split
  · exact emits_setLatch s
  · exact Emits.refl s

/-- Raising a notice. -/
theorem emits_raise (n : Notice) (s : State) : Emits s (s.raise n) :=
  (emits_joinNotice n s).trans (emits_settleLatch _)

theorem emits_admit {b : RecordBody} {s : State} (h : s.queueHasRoom = true) : Emits s (s.admitRecord b) := by
  unfold State.admitRecord
  refine (emits_enqueue (b := b) h).trans (Emits.trans ?_ (emits_arbitrate _))
  split
  · exact emits_raise _ _
  · exact Emits.refl _

theorem emits_drop (s : State) : Emits s s.drop := (emits_countDrop s).trans (emits_raise _ _)

theorem emits_offer (b : RecordBody) (s : State) : Emits s (s.offer b) := by
  unfold State.offer
  split
  · next h => exact emits_admit h
  · exact emits_drop s

/-- A raised notice is pending. -/
theorem raise_pending (n : Notice) (s : State) : (s.raise n).notices.pending.getLsbD n.bit = true := by
  refine (emits_settleLatch _).notices _ ?_
  have : n.bit < 14 := by cases n <;> decide
  simp [State.joinNotice, setInsert, this]

end Sys2Proof.Machine
end

