-- ==== Sys2Proof/Laws/Judges.lean ====
section
/-! SUPPORT. What the episode table can do to the state: openings, outcomes, closes, demands and the
checks of a tick change episodes, beacons, the coincidence, and what Emits may change. -/

namespace Sys2Proof.Machine

/-- The work is no hold-off count. An episode that enters HOLDOFF takes its count of the moment away. -/
def isStanding : Due → Bool
  | .holdOff _ _ => false
  | _ => true

/-- `t` comes from `s` by the episode table's work. -/
structure Judges (s t : State) : Prop where
  pending   : t.pending = s.pending
  clock     : t.clock = s.clock
  schedule  : t.schedule = s.schedule
  slots     : t.slots = s.slots
  table     : t.table = s.table
  windows   : t.windows = s.windows
  lines     : t.plant.lines = s.plant.lines
  mark      : t.plant.mark = s.plant.mark
  certify   : t.plant.certify = s.plant.certify
  bandStart : t.plant.bandStart = s.plant.bandStart
  markLatch : t.plant.markLatch = s.plant.markLatch
  uncaptured : t.episodes.uncaptured.length = s.episodes.uncaptured.length
  beacons   : t.beacons.length = s.beacons.length
  cadence   : t.cadence = s.cadence
  held      : t.held = s.held
  mask      : t.notices.mask = s.notices.mask
  strap     : t.ports.strap = s.ports.strap
  onward    : t.ports.onward = s.ports.onward
  fieldTx   : t.ports.fieldTx = s.ports.fieldTx
  executing : t.executing = s.executing
  due       : ∀ d, isStanding d = true → d ∈ s.due → d ∈ t.due
  notices   : ∀ i, s.notices.pending.getLsbD i = true → t.notices.pending.getLsbD i = true
  links     : s.LinkBounds → t.LinkBounds
  records   : s.RecordBound → t.RecordBound
  grows     : Grows s t

theorem Emits.judges {s t : State} (h : Emits s t) : Judges s t where
  pending := h.pending
  clock := h.clock
  schedule := h.schedule
  slots := h.slots
  table := h.table
  windows := h.windows
  lines := by rw [h.plant]
  mark := by rw [h.plant]
  certify := by rw [h.plant]
  bandStart := by rw [h.plant]
  markLatch := by rw [h.plant]
  uncaptured := by rw [h.episodes]
  beacons := by rw [h.beacons]
  cadence := h.cadence
  held := h.held
  mask := h.mask
  strap := h.strap
  onward := h.onward
  fieldTx := h.fieldTx
  executing := h.executing
  due := fun d _ hd => h.due d hd
  notices := h.notices
  links := h.links
  records := fun b => by unfold State.RecordBound; rw [h.episodes]; exact b
  grows := h.grows

theorem Judges.refl (s : State) : Judges s s := (Emits.refl s).judges

theorem Judges.trans {s t u : State} (h : Judges s t) (k : Judges t u) : Judges s u where
  pending := k.pending.trans h.pending
  clock := k.clock.trans h.clock
  schedule := k.schedule.trans h.schedule
  slots := k.slots.trans h.slots
  table := k.table.trans h.table
  windows := k.windows.trans h.windows
  lines := k.lines.trans h.lines
  mark := k.mark.trans h.mark
  certify := k.certify.trans h.certify
  bandStart := k.bandStart.trans h.bandStart
  markLatch := k.markLatch.trans h.markLatch
  uncaptured := k.uncaptured.trans h.uncaptured
  beacons := k.beacons.trans h.beacons
  cadence := k.cadence.trans h.cadence
  held := k.held.trans h.held
  mask := k.mask.trans h.mask
  strap := k.strap.trans h.strap
  onward := k.onward.trans h.onward
  fieldTx := k.fieldTx.trans h.fieldTx
  executing := k.executing.trans h.executing
  due := fun d hs hd => k.due d hs (h.due d hs hd)
  notices := fun i hi => k.notices i (h.notices i hi)
  links := fun b => k.links (h.links b)
  records := fun b => k.records (h.records b)
  grows := h.grows.trans k.grows

/-- A change of the episodes, the beacons, the coincidence and the due hold-off counts alone. -/
theorem judges_change {s : State} (es : EpisodeTable) (bs : List BeaconLine) (c : Coincidence)
    (ds : List Due) (hu : es.uncaptured.length = s.episodes.uncaptured.length)
    (hb : bs.length = s.beacons.length)
    (hd : ∀ d, isStanding d = true → d ∈ s.due → d ∈ ds)
    (hr : s.RecordBound → es.used ≤ Config.episodeRecords) :
    Judges s { s with
      episodes := es, beacons := bs, due := ds, plant := { s.plant with coincidence := c } } :=
  ⟨rfl, rfl, rfl, rfl, rfl, rfl, rfl, rfl, rfl, rfl, rfl, hu, hb, rfl, rfl, rfl, rfl, rfl, rfl, rfl,
    hd, fun _ h => h, fun b => ⟨b.1, b.2, b.3, b.4, b.5, b.6, b.7, b.8, b.9, b.10⟩, hr,
    grows_of rfl rfl⟩

/-! ### Parts -/

theorem judges_setCurrent {es : List Episode} {s : State}
    (h : es.length ≤ s.episodes.current.length) : Judges s (s.setCurrent es) :=
  judges_change _ _ _ _ rfl rfl (fun _ _ h => h) (fun b => by
    simp only [State.RecordBound, EpisodeTable.used] at b ⊢
    omega)

theorem length_modifyEpisode (key slot : Nat) (f : Episode → Episode) (es : List Episode) :
    (modifyEpisode key slot f es).length = es.length := by
  induction es with
  | nil => rfl
  | cons e es ih =>
    unfold modifyEpisode
    split <;> simp_all

theorem judges_modifyEpisode (key slot : Nat) (f : Episode → Episode) (s : State) :
    Judges s (s.modifyEpisode key slot f) :=
  judges_setCurrent (by rw [length_modifyEpisode])

theorem judges_followDemand (s : State) : Judges s s.followDemand :=
  judges_change _ _ _ _ rfl (by simp) (fun _ _ h => h) (fun b => b)

theorem judges_startPulses (key : Nat) (s : State) : Judges s (s.startPulses key) :=
  judges_change _ _ _ _ rfl (by simp) (fun _ _ h => h) (fun b => b)

theorem judges_clearHoldOff (key slot : Nat) (s : State) :
    Judges s (s.clearDue (.holdOff key slot)) :=
  judges_change _ _ _ _ rfl rfl (fun d hs hd => by
    refine List.mem_filter.2 ⟨hd, ?_⟩
    cases d <;> simp_all [isStanding]) (fun b => b)

theorem judges_gainSlice (slot : Nat) (x : Slice) (s : State) : Judges s (s.gainSlice slot x) :=
  judges_setCurrent (by simp)

theorem judges_everActive (line : Nat) (s : State) : Judges s (s.everActive line) :=
  judges_setCurrent (by simp)

theorem judges_countUncaptured (index : Nat) (s : State) : Judges s (s.countUncaptured index) := by
  refine Judges.trans ?_ (emits_raise _ _).judges
  exact judges_change _ _ _ _ (by simp) rfl (fun _ _ h => h) (fun b => b)

theorem judges_coincide (slot : Nat) (at_ : Moment) (partners : SlotMask) (s : State) :
    Judges s (s.coincide slot at_ partners) := by
  have h : Judges s { s with plant := { s.plant with
      coincidence := s.plant.coincidence.gain (setInsert partners slot) at_ } } :=
    judges_change _ _ _ _ rfl rfl (fun _ _ h => h) (fun b => b)
  unfold State.coincide
  simp only
  split
  · exact h.trans (emits_raise _ _).judges
  · exact h

/-! ### Openings -/

theorem judges_openEpisode {o : Opening} {s : State} (h : s.episodes.hasFree = true) :
    Judges s (s.openEpisode o) := by
  have hfree : s.episodes.used < Config.episodeRecords := by
    simpa [EpisodeTable.hasFree] using h
  unfold State.openEpisode
  extract_lets partners e src s1 s2 s3 s4
  have h1 : Judges s s1 := judges_change _ _ _ _ rfl rfl (fun _ _ h => h) (fun _ => by
    simp only [EpisodeTable.used, gainCoincident, List.length_append, List.length_map,
      List.length_singleton] at hfree ⊢
    have : src.waiting.length = s.episodes.waiting.length := rfl
    omega)
  have h2 : Judges s1 s2 := by
    unfold s2
    split
    · exact Judges.refl _
    · exact judges_coincide _ _ _ _
  have h4 : Judges s3 s4 := by
    unfold s4
    split
    · exact judges_startPulses _ _
    · exact Judges.refl _
  exact h1.trans (h2.trans ((judges_followDemand s2).trans (h4.trans (emits_raise _ _).judges)))

theorem judges_tryOpen (o : Opening) (s : State) : Judges s (s.tryOpen o) := by
  unfold State.tryOpen
  split
  · next h => exact judges_openEpisode h
  · exact judges_countUncaptured _ _

/-! ### Closes -/

theorem find_mem {t : EpisodeTable} {key slot : Nat} {e : Episode} (h : t.find key slot = some e) :
    e ∈ t.current ∧ e.of key slot = true :=
  ⟨List.mem_of_find?_eq_some h, List.find?_some h⟩

theorem of_self (e : Episode) : e.of e.key e.slot = true := by simp [Episode.of]

theorem length_remove {es : List Episode} {e : Episode} (h : e ∈ es) :
    (es.eraseP (Episode.of e.key e.slot)).length + 1 = es.length := by
  rw [List.length_eraseP_of_mem h (of_self e)]
  have := List.length_pos_of_mem h
  omega

/-- A verdict offered where a record is free for it. -/
theorem judges_offerVerdict {v : Verdict} {s : State} (h : s.episodes.used < Config.episodeRecords) :
    Judges s (s.offerVerdict v) := by
  unfold State.offerVerdict
  split
  · next hc =>
    simp only [Bool.and_eq_true] at hc
    exact (emits_admit hc.2).judges
  · refine judges_change _ _ _ _ rfl rfl (fun _ _ h => h) (fun _ => ?_)
    simp only [EpisodeTable.used, List.length_append, List.length_singleton] at h ⊢
    omega

/-- The part of a close before its verdict is offered: the records held fall by one. -/
theorem used_remove {s : State} {e : Episode} (h : e ∈ s.episodes.current) :
    (s.removeEpisode e.key e.slot).episodes.used + 1 = s.episodes.used := by
  have := length_remove h
  simp only [State.removeEpisode, EpisodeTable.used, State.setCurrent] at this ⊢
  omega

theorem judges_removeEpisode (key slot : Nat) (s : State) : Judges s (s.removeEpisode key slot) :=
  judges_setCurrent List.length_eraseP_le

/-- An offer of a verdict after its episode has left its record's current state. -/
theorem judges_offerAfterRemove {e : Episode} {v : Verdict} {s t : State}
    (hm : e ∈ s.episodes.current) (ht : Judges (s.removeEpisode e.key e.slot) t)
    (hu : t.episodes.used = (s.removeEpisode e.key e.slot).episodes.used) :
    Judges s (t.offerVerdict v) := by
  have hj : Judges s t := (judges_removeEpisode _ _ _).trans ht
  by_cases hb : s.RecordBound
  · refine hj.trans (judges_offerVerdict ?_)
    have := used_remove hm
    simp only [State.RecordBound] at hb
    omega
  · -- outside the bound only the records clause could fail, and its premise is false
    have key : ∀ u : State, Judges t u ∨ (u.episodes.waiting = t.episodes.waiting ++ [v] ∧
        u = { t with episodes := { t.episodes with waiting := t.episodes.waiting ++ [v] } }) →
        Judges s u := by
      intro u hu'
      rcases hu' with h | ⟨_, rfl⟩
      · exact hj.trans h
      · exact ⟨hj.1, hj.2, hj.3, hj.4, hj.5, hj.6, hj.7, hj.8, hj.9, hj.10, hj.11, hj.12, hj.13,
          hj.14, hj.15, hj.16, hj.17, hj.18, hj.19, hj.20, hj.21, hj.22,
          fun b => by
            have l := hj.23 b
            exact ⟨l.1, l.2, l.3, l.4, l.5, l.6, l.7, l.8, l.9, l.10⟩,
          fun b => absurd b hb, hj.25⟩
    refine key _ ?_
    unfold State.offerVerdict
    split
    · next hc =>
      simp only [Bool.and_eq_true] at hc
      exact Or.inl (emits_admit hc.2).judges
    · exact Or.inr ⟨rfl, rfl⟩

theorem judges_retire {e : Episode} {s : State} (r : CloseReason) (m : Moment)
    (h : e ∈ s.episodes.current) : Judges s (s.retire e r m) :=
  judges_offerAfterRemove h (Judges.refl _) rfl

theorem judges_closeEpisode {e : Episode} {s : State} (r : CloseReason) (m : Moment)
    (h : e ∈ s.episodes.current) : Judges s (s.closeEpisode e r m) :=
  judges_offerAfterRemove h (judges_followDemand _) rfl

theorem judges_closeOf (key slot : Nat) (r : CloseReason) (m : Moment) (s : State) :
    Judges s (s.closeOf key slot r m) := by
  unfold State.closeOf
  split
  · next h => exact judges_closeEpisode r m (find_mem h).1
  · exact Judges.refl s

/-- A fold of steps of the episode table is its work. -/
theorem judges_foldl {α : Type} {f : State → α → State} (hf : ∀ s a, Judges s (f s a)) (xs : List α)
    (s : State) : Judges s (xs.foldl f s) := by
  induction xs generalizing s with
  | nil => exact Judges.refl s
  | cons a xs ih => exact (hf s a).trans (ih _)

theorem judges_demandClose (named : Episode → Bool) (r : CloseReason) (s : State) :
    Judges s (s.demandClose named r) :=
  judges_foldl (fun _ _ => judges_closeOf _ _ _ _ _) _ _

/-! ### Outcomes and ticks -/

theorem judges_endTrueRun (h : Handed) (s : State) : Judges s (s.endTrueRun h) := by
  unfold State.endTrueRun
  split
  · exact judges_closeOf _ _ _ _ _
  · exact (judges_clearHoldOff _ _ _).trans (judges_modifyEpisode _ _ _ _)

theorem judges_applyOutcome (h : Handed) (s : State) : Judges s (s.applyOutcome h) := by
  unfold State.applyOutcome
  split
  · split
    · exact judges_tryOpen _ _
    · exact Judges.refl s
  · extract_lets s'
    have h1 : Judges s s' := judges_modifyEpisode _ _ _ _
    refine h1.trans ?_
    split
    · exact judges_modifyEpisode _ _ _ _
    · exact judges_endTrueRun _ _
    · exact judges_modifyEpisode _ _ _ _
    · exact Judges.refl _

theorem judges_countHoldOff (key slot : Nat) (s : State) : Judges s (s.countHoldOff key slot) := by
  unfold State.countHoldOff
  split
  · next h =>
    split
    · split
      · exact judges_closeEpisode _ _ (find_mem h).1
      · exact judges_modifyEpisode _ _ _ _
    · exact Judges.refl s
  · exact Judges.refl s

theorem judges_continueEpisode {e : Episode} {s : State} (h : e ∈ s.episodes.current) :
    Judges s (s.continueEpisode e) := by
  unfold State.continueEpisode
  simp only
  refine (judges_retire .continued s.tickNow h).trans ?_
  split
  · next hf => exact judges_openEpisode hf
  · exact (judges_followDemand _).trans (judges_countUncaptured _ _)

theorem judges_checkLength (key slot : Nat) (s : State) : Judges s (s.checkLength key slot) := by
  unfold State.checkLength
  split
  · next h =>
    split
    · split
      · exact judges_continueEpisode (find_mem h).1
      · exact judges_closeEpisode _ _ (find_mem h).1
    · exact Judges.refl s
  · exact Judges.refl s

/-- Waiting verdicts offered: the list drives the offers. -/
theorem judges_offerVerdicts (vs : List Verdict) (s : State)
    (h : vs.length ≤ s.episodes.waiting.length) : Judges s (State.offerVerdicts vs s) := by
  induction vs generalizing s with
  | nil => exact Judges.refl s
  | cons v rest ih =>
    unfold State.offerVerdicts
    split
    · next hr =>
      simp only [List.length_cons] at h
      have h1 : Judges s { s with episodes := { s.episodes with waiting := rest } } :=
        judges_change _ _ _ _ rfl rfl (fun _ _ h => h) (fun b => by
          simp only [State.RecordBound, EpisodeTable.used] at b ⊢
          omega)
      have h2 : Emits { s with episodes := { s.episodes with waiting := rest } }
          (State.admitRecord (.verdict v) { s with episodes := { s.episodes with waiting := rest } }) :=
        emits_admit hr
      refine (h1.trans h2.judges).trans (ih _ ?_)
      rw [h2.episodes]
    · exact Judges.refl s

end Sys2Proof.Machine
end

