-- ==== Sys2Proof/Laws/Told.lean ====
section
/-! SUPPORT. Raising a notice, admitting, dropping and offering a record, and granting the gateway port
stay within State.Told: each operation once, for every statement that names what else is unchanged. -/

namespace Sys2Proof.Machine

theorem State.Told.refl (s : State) : s.Told s :=
  ⟨rfl, rfl, rfl, fun _ h => h, fun _ h => Or.inl h, fun _ => ⟨rfl, rfl, [], by simp⟩⟩

theorem State.Told.trans {s t u : State} (h : s.Told t) (k : t.Told u) : s.Told u where
  whole := by rw [k.whole, h.whole]
  ports := by rw [k.ports, h.ports]
  mask := k.mask.trans h.mask
  kept := fun i hi => k.kept i (h.kept i hi)
  due := fun d hd => (k.due d hd).elim (h.due d) Or.inr
  busy := fun b => by
    obtain ⟨h1, h2, a, h3⟩ := h.busy b
    obtain ⟨k1, k2, c, k3⟩ := k.busy (by rw [h1]; exact b)
    exact ⟨k1.trans h1, k2.trans h2, a ++ c, by rw [k3, h3, List.append_assoc]⟩

theorem told_addVerdicts {s : State} (h : s.ports.gatewayTx = none) : s.Told (s.addDue .verdicts) := by
  unfold State.addDue
  split
  · exact State.Told.refl s
  · refine ⟨rfl, rfl, rfl, fun _ h => h, fun d hd => ?_, fun b => absurd h b⟩
    rcases List.mem_append.1 hd with hd | hd
    · exact Or.inl hd
    · exact Or.inr (List.mem_singleton.1 hd)

theorem told_grant {s : State} (h : s.ports.gatewayTx = none) : s.Told s.grant := by
  have idle : ∀ {t : State}, t = { s with ports := t.ports, report := t.report } →
      t.ports = { s.ports with forward := t.ports.forward, holding := t.ports.holding,
                               starve := t.ports.starve, gatewayTx := t.ports.gatewayTx } →
      s.Told t := fun {t} hw hp =>
    ⟨by rw [hw], hp, by rw [hw], fun i hi => by rw [hw]; exact hi, fun d hd => by
      rw [hw] at hd; exact Or.inl hd, fun b => absurd h b⟩
  have report : ∀ r rs, s.Told (s.grantReport r rs) := fun r rs => by
    unfold State.grantReport State.handDeparture
    split
    · exact idle rfl rfl
    · unfold State.addDue
      split
      · exact idle rfl rfl
      · refine ⟨rfl, rfl, rfl, fun _ h => h, fun d hd => ?_, fun b => absurd h b⟩
        rcases List.mem_append.1 hd with hd | hd
        · exact Or.inl hd
        · exact Or.inr (List.mem_singleton.1 hd)
  unfold State.grant
  split
  · exact idle rfl rfl
  · split
    · exact idle rfl rfl
    · split
      · exact idle rfl rfl
      · exact report _ _
    · exact report _ _
    · exact State.Told.refl s

theorem told_arbitrate (s : State) : s.Told s.arbitrate := by
  unfold State.arbitrate
  split
  · exact State.Told.refl s
  · next h => exact told_grant h

theorem told_enqueue (b : RecordBody) (s : State) : s.Told (s.enqueue b) :=
  ⟨rfl, rfl, rfl, fun _ h => h, fun _ h => Or.inl h, fun _ => ⟨rfl, rfl, _, rfl⟩⟩

theorem told_countDrop (s : State) : s.Told s.countDrop :=
  ⟨rfl, rfl, rfl, fun _ h => h, fun _ h => Or.inl h, fun _ => ⟨rfl, rfl, [], by simp⟩⟩

theorem told_joinNotice (n : Notice) (s : State) : s.Told (s.joinNotice n) :=
  ⟨rfl, rfl, rfl, fun _ h => getLsbD_setInsert h, fun _ h => Or.inl h,
    fun _ => ⟨rfl, rfl, [], by simp⟩⟩

theorem told_offerAttention (b : RecordBody) (s : State) : s.Told (s.offerAttention b) := by
  unfold State.offerAttention
  split
  · extract_lets s1 s2
    have h2 : s1.Told s2 := by
      unfold s2
      split
      · exact told_joinNotice _ _
      · exact State.Told.refl _
    exact State.Told.trans (told_enqueue b s) (State.Told.trans h2 (told_arbitrate _))
  · exact State.Told.trans (told_countDrop s) (told_joinNotice _ _)

theorem told_setLatch (s : State) : s.Told s.setLatch := by
  have h1 : s.Told { s with notices := { s.notices with latch := true } } :=
    ⟨rfl, rfl, rfl, fun _ h => h, fun _ h => Or.inl h, fun _ => ⟨rfl, rfl, [], by simp⟩⟩
  exact State.Told.trans h1 (told_offerAttention _ _)

theorem notices_addDue (d : Due) (s : State) : (s.addDue d).notices = s.notices := by
  unfold State.addDue
  split <;> rfl

theorem notices_grant (s : State) : s.grant.notices = s.notices := by
  have report : ∀ r rs, (s.grantReport r rs).notices = s.notices := fun r rs => by
    unfold State.grantReport State.handDeparture
    split
    · rfl
    · exact notices_addDue _ _
  unfold State.grant
  split
  · rfl
  · split
    · rfl
    · split
      · rfl
      · exact report _ _
    · exact report _ _
    · rfl

theorem notices_arbitrate (s : State) : s.arbitrate.notices = s.notices := by
  unfold State.arbitrate
  split
  · rfl
  · exact notices_grant s

/-- No place of reply holding is READY, so the arbiter finds no reply. -/
theorem takeReady_none {ts : List Transaction} (h : ∀ r, .ready r ∉ ts) : takeReady ts = none := by
  induction ts with
  | nil => rfl
  | cons t ts ih =>
    have ht := ih (fun r hr => h r (List.mem_cons_of_mem _ hr))
    cases t with
    | ready r => exact absurd List.mem_cons_self (h r)
    | _ => simp [takeReady, ht]

/-- An idle gateway-port transmitter with the one record in the queue and nothing else waiting sends it. -/
theorem arbitrate_alone {s : State} {r : Record} (hq : s.report.queue = [r]) (hp : s.ports.gatewayTx = none)
    (hf : s.ports.forward = []) (hr : ∀ x, .ready x ∉ s.ports.holding) :
    s.arbitrate.report = { s.report with queue := [] } ∧
      s.arbitrate.ports = { s.ports with
        starve := 0, gatewayTx := some (runOf .report s.ports.strap r.content) } := by
  have h : s.arbitrate = s.grantReport r [] := by
    simp [State.arbitrate, State.grant, hp, hf, hq, takeReady_none hr]
  rw [h]
  unfold State.grantReport State.handDeparture State.addDue
  split
  · exact ⟨rfl, rfl⟩
  · split <;> exact ⟨rfl, rfl⟩

/-- The latch sets: everything that comes of it. -/
theorem alerted_setLatch (s : State) : State.Alerted s s.setLatch := by
  by_cases hr : s.report.queue.length < Config.queueDepth
  · have hroom : State.queueHasRoom { s with notices := { s.notices with latch := true } } = true :=
      decide_eq_true hr
    have hw : s.setLatch = State.arbitrate (
        if s.report.queue.length + 1 = Config.queueHigh then
          State.joinNotice .queueHigh (State.enqueue (.attention ⟨s.now, s.notices.pending, s.notices.mask⟩)
            { s with notices := { s.notices with latch := true } })
        else State.enqueue (.attention ⟨s.now, s.notices.pending, s.notices.mask⟩)
          { s with notices := { s.notices with latch := true } }) := by
      unfold State.setLatch State.offerAttention
      simp only [if_pos hroom, State.enqueue, List.length_append, List.length_singleton]
      rfl
    refine ⟨told_setLatch s, ?_, fun _ hb => ?_, fun hq hp hf hh => ?_,
      fun hfull => absurd hr (by omega), fun _ => ?_⟩
    · rw [hw, notices_arbitrate]
      split <;> rfl
    · obtain ⟨x, hx⟩ := Option.ne_none_iff_exists'.1 hb
      rw [hw]
      split <;> simp [State.arbitrate, State.joinNotice, State.enqueue, hx]
    · have hn : ¬s.report.queue.length + 1 = Config.queueHigh := by rw [hq]; decide
      rw [if_neg hn] at hw
      rw [hw]
      have h := arbitrate_alone (s := State.enqueue (.attention ⟨s.now, s.notices.pending, s.notices.mask⟩)
        { s with notices := { s.notices with latch := true } }) (by simp [State.enqueue, hq]; rfl) hp hf hh
      refine ⟨h.1.trans ?_, h.2⟩
      show { s.report with queue := [] } = s.report
      rw [← hq]
    · rw [hw, notices_arbitrate]
      split <;> rfl
  · have hroom : ¬State.queueHasRoom { s with notices := { s.notices with latch := true } } = true :=
      fun h => hr (of_decide_eq_true h)
    have hw : s.setLatch = State.joinNotice .reportDropped
        (State.countDrop { s with notices := { s.notices with latch := true } }) := by
      unfold State.setLatch State.offerAttention
      simp only [if_neg hroom]
    exact ⟨told_setLatch s, by rw [hw]; rfl, fun h => absurd h hr, fun h => absurd (by rw [h]; decide) hr,
      fun _ => by rw [hw]; rfl, fun h => absurd h hr⟩

theorem told_settleLatch (s : State) : s.Told s.settleLatch := by
  unfold State.settleLatch
  split
  · exact told_setLatch s
  · exact State.Told.refl s

/-- A notice raised. -/
theorem told_raise (n : Notice) (s : State) : s.Told (s.raise n) :=
  State.Told.trans (told_joinNotice n s) (told_settleLatch _)

/-- A raised notice is pending. -/
theorem notified_raise (n : Notice) (s : State) : (s.raise n).notified n := raise_pending n s

/-- A pending notice stays so. -/
theorem State.Told.notified {s t : State} (h : s.Told t) {n : Notice} (hn : s.notified n) : t.notified n :=
  h.kept _ hn

/-- A record admitted. -/
theorem told_admit (b : RecordBody) (s : State) : s.Told (s.admitRecord b) := by
  unfold State.admitRecord
  extract_lets s1 s2
  have h2 : s1.Told s2 := by
    unfold s2
    split
    · exact told_raise _ _
    · exact State.Told.refl _
  exact State.Told.trans (told_enqueue b s) (State.Told.trans h2 (told_arbitrate _))

/-- A record dropped. -/
theorem told_drop (s : State) : s.Told s.drop := State.Told.trans (told_countDrop s) (told_raise _ _)

/-- A WINDOW or QUERY record offered. -/
theorem told_offer (b : RecordBody) (s : State) : s.Told (s.offer b) := by
  unfold State.offer
  split
  · exact told_admit b s
  · exact told_drop s

/-- While the gateway-port transmitter is busy, an admitted record stands at the tail of the queue, before
whatever its admission brings about. -/
theorem admit_busy {b : RecordBody} {s : State} (h : s.ports.gatewayTx ≠ none) :
    ∃ more, (s.admitRecord b).report.queue = s.report.queue ++ ⟨s.clock.tickCount, b⟩ :: more := by
  unfold State.admitRecord
  extract_lets s1 s2
  have h2 : s1.Told s2 := by
    unfold s2
    split
    · exact told_raise _ _
    · exact State.Told.refl _
  obtain ⟨_, _, more, hm⟩ := (State.Told.trans h2 (told_arbitrate _)).busy h
  exact ⟨more, by rw [hm]; simp [s1, State.enqueue]⟩

/-- A frame that joins no queue and changes no notice leaves everything Told names alone. -/
theorem State.Told.slots {s t : State} (h : s.Told t) : t.slots = s.slots := by rw [h.whole]

theorem State.Told.episodes {s t : State} (h : s.Told t) : t.episodes = s.episodes := by rw [h.whole]

theorem State.Told.windows {s t : State} (h : s.Told t) : t.windows = s.windows := by rw [h.whole]

theorem State.Told.table {s t : State} (h : s.Told t) : t.table = s.table := by rw [h.whole]

theorem State.Told.clock {s t : State} (h : s.Told t) : t.clock = s.clock := by rw [h.whole]

theorem State.Told.plant {s t : State} (h : s.Told t) : t.plant = s.plant := by rw [h.whole]

theorem State.Told.beacons {s t : State} (h : s.Told t) : t.beacons = s.beacons := by rw [h.whole]

theorem State.Told.schedule {s t : State} (h : s.Told t) : t.schedule = s.schedule := by rw [h.whole]

theorem State.Told.cadence {s t : State} (h : s.Told t) : t.cadence = s.cadence := by rw [h.whole]

end Sys2Proof.Machine
end

