-- ==== Sys2Proof/Laws/Closes.lean ====
section
/-! SUPPORT. What closes do: an episode leaves the current ones and its verdict is offered; a closure
demand takes the named episodes out, whatever the order of their verdicts. -/

namespace Sys2Proof.Machine

/-- `t` comes from `s` by closing episodes: current and waiting episodes, beacons and what an offered
record changes, and nothing else. -/
def State.Closed (s t : State) : Prop :=
  t = { s with
    due := t.due
    beacons := t.beacons
    notices := t.notices
    report := t.report
    ports := t.ports
    episodes := { s.episodes with current := t.episodes.current, waiting := t.episodes.waiting } }

theorem State.Closed.refl (s : State) : s.Closed s := rfl

theorem State.Closed.trans {s t u : State} (h : s.Closed t) (k : t.Closed u) : s.Closed u := by
  unfold State.Closed at *
  rw [k, h]

theorem State.Told.closed {s t : State} (h : s.Told t) : s.Closed t := by
  unfold State.Closed
  rw [h.whole]

theorem State.Closed.clock {s t : State} (h : s.Closed t) : t.clock = s.clock := by rw [h]

theorem State.Closed.schedule {s t : State} (h : s.Closed t) : t.schedule = s.schedule := by rw [h]

theorem State.Closed.slots {s t : State} (h : s.Closed t) : t.slots = s.slots := by rw [h]

theorem State.Closed.table {s t : State} (h : s.Closed t) : t.table = s.table := by rw [h]

theorem State.Closed.windows {s t : State} (h : s.Closed t) : t.windows = s.windows := by rw [h]

theorem State.Closed.plant {s t : State} (h : s.Closed t) : t.plant = s.plant := by rw [h]

theorem State.Closed.cadence {s t : State} (h : s.Closed t) : t.cadence = s.cadence := by rw [h]

theorem State.Closed.held {s t : State} (h : s.Closed t) : t.held = s.held := by rw [h]

theorem State.Closed.next {s t : State} (h : s.Closed t) : t.episodes.next = s.episodes.next := by rw [h]

theorem State.Closed.uncaptured {s t : State} (h : s.Closed t) :
    t.episodes.uncaptured = s.episodes.uncaptured := by rw [h]

theorem closed_offerVerdict (v : Verdict) (s : State) : s.Closed (s.offerVerdict v) := by
  unfold State.offerVerdict
  split
  · exact (told_admit _ s).closed
  · rfl

theorem current_offerVerdict (v : Verdict) (s : State) :
    (s.offerVerdict v).episodes.current = s.episodes.current := by
  unfold State.offerVerdict
  split
  · rw [(told_admit _ s).episodes]
  · rfl

theorem closed_closeEpisode (e : Episode) (r : CloseReason) (m : Moment) (s : State) :
    s.Closed (s.closeEpisode e r m) := by
  have h : s.Closed (s.removeEpisode e.key e.slot).followDemand := rfl
  exact h.trans (closed_offerVerdict _ _)

theorem current_closeEpisode (e : Episode) (r : CloseReason) (m : Moment) (s : State) :
    (s.closeEpisode e r m).episodes.current = s.episodes.current.eraseP (Episode.of e.key e.slot) :=
  current_offerVerdict _ _

theorem find_of {t : EpisodeTable} {key slot : Nat} {e : Episode} (h : t.find key slot = some e) :
    e.key = key ∧ e.slot = slot := by
  have := List.find?_some h
  simpa [Episode.of] using this

theorem closed_closeOf (key slot : Nat) (r : CloseReason) (m : Moment) (s : State) :
    s.Closed (s.closeOf key slot r m) := by
  unfold State.closeOf
  split
  · exact closed_closeEpisode _ _ _ _
  · rfl

theorem current_closeOf (key slot : Nat) (r : CloseReason) (m : Moment) (s : State) :
    (s.closeOf key slot r m).episodes.current = s.episodes.current.eraseP (Episode.of key slot) := by
  unfold State.closeOf
  split
  · next h =>
    rw [current_closeEpisode, (find_of h).1, (find_of h).2]
  · next h => exact (List.eraseP_of_forall_not (by simpa [EpisodeTable.find] using h)).symm

theorem foldl_closeOf (es : List Episode) (r : CloseReason) (m : Moment) (s : State) :
    s.Closed (es.foldl (fun s' e => s'.closeOf e.key e.slot r m) s) ∧
      (es.foldl (fun s' e => s'.closeOf e.key e.slot r m) s).episodes.current =
        es.foldl (fun c e => c.eraseP (Episode.of e.key e.slot)) s.episodes.current := by
  induction es generalizing s with
  | nil => exact ⟨rfl, rfl⟩
  | cons e es ih =>
    have h := ih (s.closeOf e.key e.slot r m)
    exact ⟨(closed_closeOf _ _ _ _ s).trans h.1, by rw [List.foldl_cons, h.2, current_closeOf, List.foldl_cons]⟩

/-- What a closure demand leaves alone. -/
theorem closed_demandClose (named : Episode → Bool) (r : CloseReason) (s : State) :
    s.Closed (s.demandClose named r) := (foldl_closeOf _ _ _ _).1

theorem foldl_eraseP_cons {es c : List Episode} {x : Episode}
    (h : ∀ e, e ∈ es → x.of e.key e.slot = false) :
    es.foldl (fun c e => c.eraseP (Episode.of e.key e.slot)) (x :: c) =
      x :: es.foldl (fun c e => c.eraseP (Episode.of e.key e.slot)) c := by
  induction es generalizing c with
  | nil => rfl
  | cons e es ih =>
    have hx := h e (List.mem_cons_self ..)
    rw [List.foldl_cons, List.eraseP_cons_of_neg (by simp [hx]), List.foldl_cons]
    exact ih (fun y hy => h y (List.mem_cons_of_mem _ hy))

/-- A closure demand that names episodes by key and slot takes exactly the named ones out. -/
theorem current_demandClose {named : Episode → Bool} {r : CloseReason} {s : State}
    (h : ∀ a b : Episode, a.key = b.key → a.slot = b.slot → named a = named b) :
    (s.demandClose named r).episodes.current = s.episodes.current.filter (fun e => !named e) := by
  have key : ∀ c : List Episode,
      (c.filter named).foldl (fun c e => c.eraseP (Episode.of e.key e.slot)) c =
        c.filter (fun e => !named e) := by
    intro c
    induction c with
    | nil => rfl
    | cons x c ih =>
      cases hx : named x with
      | true =>
        rw [List.filter_cons_of_pos (by simp [hx]), List.foldl_cons,
          List.eraseP_cons_of_pos (of_self x), ih, List.filter_cons_of_neg (by simp [hx])]
      | false =>
        rw [List.filter_cons_of_neg (by simp [hx]), List.filter_cons_of_pos (by simp [hx]),
          foldl_eraseP_cons, ih]
        intro e he
        have hn := (List.mem_filter.1 he).2
        cases hq : x.of e.key e.slot with
        | false => rfl
        | true =>
          simp only [Episode.of, Bool.and_eq_true, beq_iff_eq] at hq
          rw [h x e hq.1 hq.2, hn] at hx
          exact absurd hx (by simp)
  exact (foldl_closeOf _ _ _ _).2.trans (key _)

/-- A demand for every episode leaves none. -/
theorem current_demandClose_all (r : CloseReason) (s : State) :
    (s.demandClose (fun _ => true) r).episodes.current = [] := by
  rw [current_demandClose (fun _ _ _ _ => rfl)]
  simp

/-- A demand that finds no current episode does nothing. -/
theorem demandClose_of_none {named : Episode → Bool} {r : CloseReason} {s : State}
    (h : s.episodes.current = []) : s.demandClose named r = s := by
  unfold State.demandClose
  rw [h]
  rfl

end Sys2Proof.Machine
end

