-- ==== Sys2Proof/Laws/Offers.lean ====
section
/-! SUPPORT. Offers made in any state that shares their moment: the due work, notices, records, ports and waiting
verdicts they leave depend on nothing else, so verdicts offered between the steps of a closing are the same as
verdicts offered after it. With them, what an offer does under a set latch and a busy transmitter. -/

namespace Sys2Proof.Machine

/-- The state `base` with the due work, notices, records, ports and waiting verdicts of another. -/
def State.offering (base s : State) : State :=
  { base with due := s.due, notices := s.notices, report := s.report, ports := s.ports
              episodes := { base.episodes with waiting := s.episodes.waiting } }

theorem offering_addDue {base s : State} (d : Due) : (base.offering s).addDue d = base.offering (s.addDue d) := by
  unfold State.addDue
  by_cases h : s.due.contains d = true
  · rw [if_pos h, if_pos (by exact h)]
  · rw [if_neg h, if_neg (by exact h)]; rfl

theorem offering_handDeparture {base s : State} :
    (base.offering s).handDeparture = base.offering s.handDeparture := by
  unfold State.handDeparture
  by_cases h : s.episodes.waiting.isEmpty = true
  · rw [if_pos h, if_pos (by exact h)]
  · rw [if_neg h, if_neg (by exact h)]; exact offering_addDue _

theorem offering_grant {base s : State} : (base.offering s).grant = base.offering s.grant := by
  unfold State.grant
  show (match takeReady s.ports.holding with
    | some (r, rest) => (base.offering s).grantReply r rest
    | none => match s.ports.forward, s.report.queue with
      | f :: fs, [] => (base.offering s).grantForward f fs
      | f :: fs, r :: rs =>
        if s.ports.starve < Config.starveLimit then (base.offering s).grantForward f fs
        else (base.offering s).grantReport r rs
      | [], r :: rs => (base.offering s).grantReport r rs
      | [], [] => base.offering s) = _
  have hrep : ∀ r rs, (base.offering s).grantReport r rs = base.offering (s.grantReport r rs) :=
    fun r rs => offering_handDeparture (base := base) (s := { s with
      report := { s.report with queue := rs }
      ports := { s.ports with starve := 0, gatewayTx := some (runOf .report s.ports.strap r.content) } })
  cases takeReady s.ports.holding with
  | some p => rfl
  | none =>
    cases s.ports.forward with
    | nil =>
      cases s.report.queue with
      | nil => rfl
      | cons r rs => exact hrep r rs
    | cons f fs =>
      cases s.report.queue with
      | nil => rfl
      | cons r rs =>
        show (if s.ports.starve < Config.starveLimit then _ else _) =
          base.offering (if s.ports.starve < Config.starveLimit then _ else _)
        by_cases h : s.ports.starve < Config.starveLimit
        · rw [if_pos h, if_pos h]; rfl
        · rw [if_neg h, if_neg h]; exact hrep r rs

theorem offering_arbitrate {base s : State} : (base.offering s).arbitrate = base.offering s.arbitrate := by
  unfold State.arbitrate
  show (match s.ports.gatewayTx with | some _ => base.offering s | none => (base.offering s).grant) = _
  cases s.ports.gatewayTx with
  | some _ => rfl
  | none => exact offering_grant

theorem offering_offerAttention {base s : State} (h : base.now = s.now) (b : RecordBody) :
    (base.offering s).offerAttention b = base.offering (s.offerAttention b) := by
  have ht : base.clock.tickCount = s.clock.tickCount := congrArg Moment.tick h
  have he : (base.offering s).enqueue b = base.offering (s.enqueue b) := by
    unfold State.enqueue
    show State.mk .. = _
    simp only [State.offering, ht]
  unfold State.offerAttention
  by_cases hr : s.queueHasRoom = true
  · rw [if_pos (by exact hr), if_pos hr, he]
    by_cases hq : (s.enqueue b).report.queue.length = Config.queueHigh
    · dsimp only
      rw [if_pos (by exact hq), if_pos hq]
      exact offering_arbitrate (s := (s.enqueue b).joinNotice .queueHigh)
    · dsimp only
      rw [if_neg (by exact hq), if_neg hq]
      exact offering_arbitrate
  · rw [if_neg (by exact hr), if_neg hr]
    rfl

theorem offering_settleLatch {base s : State} (h : base.now = s.now) :
    (base.offering s).settleLatch = base.offering s.settleLatch := by
  unfold State.settleLatch
  by_cases hl : s.notices.latch = false ∧ s.notices.pending &&& s.notices.mask ≠ 0
  · rw [if_pos (by exact hl), if_pos hl]
    unfold State.setLatch
    have hn : (base.offering s).now = s.now := h
    show State.offerAttention (.attention ⟨(base.offering s).now, _, _⟩)
      (base.offering { s with notices := { s.notices with latch := true } }) = _
    rw [hn, offering_offerAttention (s := { s with notices := { s.notices with latch := true } }) h]
    rfl
  · rw [if_neg (by exact hl), if_neg hl]

theorem offering_raise {base s : State} (h : base.now = s.now) (n : Notice) :
    (base.offering s).raise n = base.offering (s.raise n) :=
  offering_settleLatch (s := s.joinNotice n) h

theorem settleLatch_now (s : State) : s.settleLatch.now = s.now := by
  unfold State.now; rw [(told_settleLatch s).clock]

theorem offering_admit {base s : State} (h : base.now = s.now) (b : RecordBody) :
    (base.offering s).admitRecord b = base.offering (s.admitRecord b) := by
  have ht : base.clock.tickCount = s.clock.tickCount := congrArg Moment.tick h
  have he : (base.offering s).enqueue b = base.offering (s.enqueue b) := by
    unfold State.enqueue
    simp only [State.offering, ht]
  unfold State.admitRecord
  rw [he]
  by_cases hq : (s.enqueue b).report.queue.length = Config.queueHigh
  · dsimp only
    rw [if_pos (by exact hq), if_pos hq, offering_raise (by exact h)]
    exact offering_arbitrate
  · dsimp only
    rw [if_neg (by exact hq), if_neg hq]
    exact offering_arbitrate

theorem offering_offerVerdict {base s : State} (h : base.now = s.now) (v : Verdict) :
    (base.offering s).offerVerdict v = base.offering (s.offerVerdict v) := by
  unfold State.offerVerdict
  by_cases hc : (s.episodes.waiting.isEmpty && s.queueHasRoom) = true
  · rw [if_pos (by exact hc), if_pos hc]
    exact offering_admit h _
  · rw [if_neg (by exact hc), if_neg hc]
    rfl

theorem now_offerVerdict (v : Verdict) (s : State) : (s.offerVerdict v).now = s.now := by
  unfold State.now; rw [(closed_offerVerdict v s).clock]

theorem offering_offerEach {base s : State} (h : base.now = s.now) (vs : List Verdict) :
    (base.offering s).offerEach vs = base.offering (s.offerEach vs) := by
  unfold State.offerEach
  induction vs generalizing s with
  | nil => rfl
  | cons v vs ih =>
    rw [List.foldl_cons, offering_offerVerdict h, ih (by rw [now_offerVerdict]; exact h)]
    rfl

/-! ### Beacon lines told more than once (R140) -/

theorem follow_follow {a d : Bool} (h : d = true → a = true) (b : BeaconLine) :
    (b.follow a).follow d = b.follow d := by
  cases hm : b.mode <;> cases a <;> cases d <;> simp_all [BeaconLine.follow]

theorem follows_followDemand (s : State) : State.Follows s s.followDemand := by
  intro i b hb
  have : s.followDemand.demand i = s.demand i := rfl
  rw [this]
  show (List.map _ s.beacons.zipIdx)[i]? = _
  rw [List.getElem?_map, List.getElem?_zipIdx, hb]
  simp


/-! ### Under a set latch and a busy transmitter (R146, R151, R171) -/

theorem raise_latched {n : Notice} {s : State} (h : s.notices.latch = true) : s.raise n = s.joinNotice n := by
  unfold State.raise State.settleLatch
  rw [if_neg]
  intro hc
  rw [show (s.joinNotice n).notices.latch = true from h] at hc
  simp at hc

theorem admit_latched (b : RecordBody) (s : State) (h : s.notices.latch = true) (hb : s.ports.gatewayTx ≠ none) :
    (s.admitRecord b).report.queue = s.report.queue ++ [⟨s.clock.tickCount, b⟩] ∧
    (s.admitRecord b).notices.latch = true ∧ (s.admitRecord b).ports.gatewayTx ≠ none ∧
    (s.admitRecord b).episodes = s.episodes ∧ (s.admitRecord b).clock = s.clock ∧
    (s.admitRecord b).report.dropped = s.report.dropped ∧ (s.admitRecord b).ports = s.ports := by
  unfold State.admitRecord
  dsimp only
  have harb : ∀ x : State, x.ports = s.ports → x.arbitrate = x := by
    intro x hx
    unfold State.arbitrate
    rw [hx]
    cases hg : s.ports.gatewayTx with
    | none => exact absurd hg hb
    | some _ => rfl
  split
  · rw [raise_latched (by exact h), harb (State.joinNotice .queueHigh (State.enqueue b s)) rfl]
    exact ⟨rfl, h, hb, rfl, rfl, rfl, rfl⟩
  · rw [harb (State.enqueue b s) rfl]
    exact ⟨rfl, h, hb, rfl, rfl, rfl, rfl⟩

/-! ### Verdicts offered one after another -/

theorem takeDue_of {c : TickChoice} {d : Due} {s : State} (h : d ∈ s.due) :
    s.takeDue c d = (s.clearDue d).work c d := by
  unfold State.takeDue State.isDue
  rw [if_pos (by simpa using h)]

theorem closed_offerEach (vs : List Verdict) (s : State) : s.Closed (s.offerEach vs) := by
  unfold State.offerEach
  induction vs generalizing s with
  | nil => rfl
  | cons v vs ih => exact (closed_offerVerdict v s).trans (ih _)

theorem current_offerEach (vs : List Verdict) (s : State) :
    (s.offerEach vs).episodes.current = s.episodes.current := by
  unfold State.offerEach
  induction vs generalizing s with
  | nil => rfl
  | cons v vs ih => exact (ih _).trans (current_offerVerdict v s)

theorem beacons_offerEach (vs : List Verdict) (s : State) : (s.offerEach vs).beacons = s.beacons := by
  unfold State.offerEach
  induction vs generalizing s with
  | nil => rfl
  | cons v vs ih =>
    refine (ih _).trans ?_
    show (s.offerVerdict v).beacons = _
    unfold State.offerVerdict
    split
    · exact (told_admit _ s).beacons
    · rfl

theorem told_offering {base s t : State} (h : s.Told t) : (base.offering s).Told (base.offering t) :=
  ⟨by
    have := h.whole
    have he := h.episodes
    unfold State.offering
    simp only
    rw [he], h.ports, h.mask, h.kept, h.due, h.busy⟩

end Sys2Proof.Machine
end

