-- ==== Sys2Proof/Laws/Admits.lean ====
section
/-! SUPPORT. Admission to the report queue: everything it can do, QUEUE_HIGH and the departure on an idle
transmitter with it (R151 to R153, R171), and the waiting verdicts offered until one is refused (R113). -/

namespace Sys2Proof.Machine

/-- A busy transmitter is granted nothing. -/
theorem arbitrate_busy {s : State} (h : s.ports.gatewayTx ≠ none) : s.arbitrate = s := by
  obtain ⟨x, hx⟩ := Option.ne_none_iff_exists'.1 h
  simp [State.arbitrate, hx]

/-- A record admitted: everything that comes of it. -/
theorem admitted_admit (body : RecordBody) (s : State) :
    State.Admitted body s (s.admitRecord body) := by
  have hl : (s.enqueue body).report.queue.length = s.report.queue.length + 1 := by simp [State.enqueue]
  have hpend : ∀ x : State, x.report.queue.length = 40 → x.settleLatch.notices.pending = x.notices.pending := by
    intro x hx
    unfold State.settleLatch
    split
    · have := (alerted_setLatch x).high (by rw [hx]; decide)
      rw [this, if_neg (by rw [hx]; decide)]
    · rfl
  have hhigh : (s.admitRecord body).notices.pending = if s.report.queue.length + 1 = 40
      then setInsert s.notices.pending Notice.queueHigh.bit else s.notices.pending := by
    unfold State.admitRecord
    simp only [hl, Config.queueHigh]
    split
    · next h =>
      rw [notices_arbitrate]
      unfold State.raise
      rw [hpend _ (by rw [← h, ← hl]; rfl)]
      rfl
    · rw [notices_arbitrate]; rfl
  refine ⟨told_admit body s, admit_busy, hhigh, fun hb w hw => ?_, fun hi hq hf hr => ?_⟩
  · rw [hhigh] at hw
    by_cases h : s.report.queue.length + 1 = 40
    · rw [if_pos h] at hw
      have hw' : w = (s.enqueue body).joinNotice .queueHigh := hw
      have ht : s.admitRecord body = w.settleLatch.arbitrate := by
        unfold State.admitRecord State.raise
        simp only [hl, Config.queueHigh, if_pos h, hw']
      refine ⟨fun hc => ?_, fun _ hlat hm => ?_⟩
      · have : w.settleLatch = w := by
          unfold State.settleLatch
          rw [if_neg]
          rintro ⟨h1, h2⟩
          rw [hw] at h1
          rcases hc with hc | hc | hc
          · exact hc h
          · simp [hc] at h1
          · exact h2 hc
        rw [ht, this, arbitrate_busy (by rw [hw]; exact hb)]
      · have hs : w.settleLatch = w.setLatch := by
          unfold State.settleLatch
          rw [if_pos ⟨by rw [hw]; exact hlat, hm⟩]
        have hbw : w.ports.gatewayTx ≠ none := by rw [hw]; exact hb
        rw [ht, hs, arbitrate_busy (by rw [((told_setLatch w).busy hbw).1]; exact hbw)]
        exact alerted_setLatch w
    · rw [if_neg h] at hw
      have hw' : w = s.enqueue body := hw
      refine ⟨fun _ => ?_, fun hc => absurd hc h⟩
      unfold State.admitRecord
      simp only [hl, Config.queueHigh, if_neg h]
      rw [arbitrate_busy (s := s.enqueue body) hb, hw']
  · have hn : ¬(s.enqueue body).report.queue.length = Config.queueHigh := by rw [hl, hq]; decide
    have ht : s.admitRecord body = (s.enqueue body).arbitrate := by
      unfold State.admitRecord
      simp only [if_neg hn]
    have ha : (s.enqueue body).arbitrate = (s.enqueue body).grantReport ⟨s.clock.tickCount, body⟩ [] := by
      simp [State.arbitrate, State.grant, State.enqueue, hi, hf, hq, takeReady_none hr]
    have hrep : { s.report with queue := [] } = s.report := by rw [← hq]
    rw [ht, ha]
    unfold State.grantReport State.handDeparture State.addDue
    by_cases hw : s.episodes.waiting.isEmpty = true
    · rw [if_pos (by exact hw)]
      refine ⟨?_, fun _ => rfl, fun hne => absurd (List.isEmpty_iff.1 hw) hne⟩
      simp only [State.enqueue, hrep]
    · rw [if_neg (by exact hw)]
      have hne : s.episodes.waiting ≠ [] := fun h => hw (by rw [h]; rfl)
      split
      · next hc =>
        refine ⟨?_, fun h => absurd h hne, fun _ => ⟨by simpa using hc, fun d hd => hd⟩⟩
        simp only [State.enqueue, hrep]
      · refine ⟨?_, fun h => absurd h hne,
          fun _ => ⟨List.mem_append_right _ (List.mem_singleton.2 rfl), fun d hd => List.mem_append_left _ hd⟩⟩
        simp only [State.enqueue, hrep]

theorem episodes_admit (body : RecordBody) (s : State) : (s.admitRecord body).episodes = s.episodes :=
  (told_admit body s).episodes

/-- The waiting verdicts offered. -/
theorem offersWaiting_offerVerdicts (vs : List Verdict) {s : State} (h : s.episodes.waiting = vs) :
    State.OffersWaiting s (State.offerVerdicts vs s) := by
  induction vs generalizing s with
  | nil => exact .ends s (Or.inl h)
  | cons v rest ih =>
    unfold State.offerVerdicts
    by_cases hr : s.queueHasRoom = true
    · have hl : s.report.queue.length < 48 := of_decide_eq_true hr
      rw [if_pos hr]
      exact .offer s _ _ v rest h hl (admitted_admit _ _) (ih (by rw [episodes_admit]))
    · have hl : ¬s.report.queue.length < 48 := fun hl => hr (decide_eq_true hl)
      rw [if_neg hr]
      exact .ends s (Or.inr (Nat.le_of_not_lt hl))

/-! ### Offers under a set latch and a busy transmitter (R156, log 34) -/

/-- A WINDOW or QUERY record offered: it joins the tail, with QUEUE_HIGH at 40, or is dropped and counted. -/
theorem offer_latched (b : RecordBody) (s : State) (h : s.notices.latch = true)
    (hb : s.ports.gatewayTx ≠ none) :
    s.offer b = if s.report.queue.length < 48
      then { s with
        report := { s.report with queue := s.report.queue ++ [⟨s.clock.tickCount, b⟩] }
        notices := { s.notices with
          pending := if s.report.queue.length + 1 = 40 then setInsert s.notices.pending Notice.queueHigh.bit
            else s.notices.pending } }
      else { s with
        report := { s.report with dropped := min (s.report.dropped + 1) 65535 }
        notices := { s.notices with
          pending := setInsert s.notices.pending Notice.reportDropped.bit } } := by
  unfold State.offer
  by_cases hr : s.report.queue.length < 48
  · rw [if_pos (show s.queueHasRoom = true from decide_eq_true hr), if_pos hr]
    have ha := admitted_admit b s
    rw [(ha.busy hb _ rfl).1 (Or.inr (Or.inl h)), ha.high]
  · rw [if_neg (show ¬s.queueHasRoom = true from fun h => hr (of_decide_eq_true h)), if_neg hr]
    unfold State.drop
    rw [raise_latched (s := s.countDrop) h]
    rfl

theorem setInsert_setInsert {w : Nat} (m : BitVec w) (i : Nat) :
    setInsert (setInsert m i) i = setInsert m i := by
  unfold setInsert
  rw [BitVec.or_assoc, BitVec.or_self]

/-- QUERY records offered one after another: those there is room for join the tail, the others are counted. -/
theorem offers_latched (rs : List QueryRecord) (s : State) (h : s.notices.latch = true)
    (hb : s.ports.gatewayTx ≠ none) (hl : s.report.queue.length ≤ 48) (hd : s.report.dropped ≤ 65535) :
    s.offerQueries rs = { s with
      report := ⟨s.report.queue ++ (rs.map (fun r => ⟨s.clock.tickCount, .query r⟩)).take
          (48 - s.report.queue.length),
        min (s.report.dropped + (rs.length - (48 - s.report.queue.length))) 65535⟩
      notices := { s.notices with pending :=
        let high := if s.report.queue.length < 40 ∧
            40 ≤ s.report.queue.length + min rs.length (48 - s.report.queue.length)
          then setInsert s.notices.pending Notice.queueHigh.bit else s.notices.pending
        if 48 - s.report.queue.length < rs.length then setInsert high Notice.reportDropped.bit
        else high } } := by
  unfold State.offerQueries
  induction rs generalizing s with
  | nil =>
    simp only [List.foldl_nil, List.map_nil, List.take_nil, List.append_nil, List.length_nil, Nat.zero_sub,
      Nat.add_zero, Nat.not_lt_zero, if_false]
    rw [if_neg (by omega), Nat.min_eq_left hd]
  | cons r rs ih =>
    rw [List.foldl_cons, offer_latched _ s h hb]
    by_cases hr : s.report.queue.length < 48
    · rw [if_pos hr, ih]
      · simp only [List.length_append, List.map_cons, List.length_cons, List.length_nil, Nat.zero_add]
        have e1 : 48 - s.report.queue.length = (48 - (s.report.queue.length + 1)) + 1 := by omega
        rw [e1, List.take_succ_cons]
        have e2 : rs.length + 1 - (48 - (s.report.queue.length + 1) + 1) =
            rs.length - (48 - (s.report.queue.length + 1)) := by omega
        rw [e2]
        simp only [List.append_assoc, List.singleton_append]
        congr 2
        by_cases c1 : s.report.queue.length + 1 = 40
        · have d1 : ¬(s.report.queue.length + 1 < 40 ∧ 40 ≤ s.report.queue.length + 1 +
              min rs.length (48 - (s.report.queue.length + 1))) := by omega
          have d2 : s.report.queue.length < 40 ∧ 40 ≤ s.report.queue.length +
              min (rs.length + 1) (48 - (s.report.queue.length + 1) + 1) := by omega
          rw [if_pos c1, if_neg d1, if_pos d2]
          simp only [Nat.add_lt_add_iff_right]
        · rw [if_neg c1]
          have d1 : (s.report.queue.length + 1 < 40 ∧ 40 ≤ s.report.queue.length + 1 +
                min rs.length (48 - (s.report.queue.length + 1))) ↔
              (s.report.queue.length < 40 ∧ 40 ≤ s.report.queue.length +
                min (rs.length + 1) (48 - (s.report.queue.length + 1) + 1)) := by omega
          simp only [d1, Nat.add_lt_add_iff_right]
      · exact h
      · exact hb
      · simp; omega
      · exact hd
    · have e0 : 48 - s.report.queue.length = 0 := by omega
      rw [if_neg hr, ih]
      · simp only [List.length_cons, e0, List.take_zero, Nat.sub_zero, Nat.min_zero, Nat.add_zero]
        have n1 : ¬ (s.report.queue.length < 40 ∧ 40 ≤ s.report.queue.length) := by omega
        simp only [if_neg n1]
        have e3 : min (min (s.report.dropped + 1) 65535 + rs.length) 65535 =
            min (s.report.dropped + (rs.length + 1)) 65535 := by omega
        rw [e3]
        congr 2
        simp only [Nat.zero_lt_succ, if_true]
        split
        · exact setInsert_setInsert _ _
        · rfl
      · exact h
      · exact hb
      · exact hl
      · show min _ _ ≤ _; omega

end Sys2Proof.Machine
end

