-- ==== Sys2Proof/Laws/Evaluates.lean ====
section
/-! SUPPORT. What the window engine can do to the state: windows, evaluations, restarts and integration
change windows, what an evaluation hands the episode table and offers, and nothing else. -/

namespace Sys2Proof.Machine

/-- `t` comes from `s` by the window engine's work. -/
structure Evaluates (s t : State) : Prop where
  pending   : t.pending = s.pending
  clock     : t.clock = s.clock
  schedule  : t.schedule = s.schedule
  slots     : t.slots = s.slots
  table     : t.table = s.table
  lines     : t.plant.lines = s.plant.lines
  mark      : t.plant.mark = s.plant.mark
  certify   : t.plant.certify = s.plant.certify
  bandStart : t.plant.bandStart = s.plant.bandStart
  markLatch : t.plant.markLatch = s.plant.markLatch
  uncaptured : t.episodes.uncaptured.length = s.episodes.uncaptured.length
  beacons   : t.beacons.length = s.beacons.length
  cadence   : t.cadence = s.cadence
  held      : t.held = s.held
  mask      : t.notices.mask = s.notices.mask
  strap     : t.ports.strap = s.ports.strap
  onward    : t.ports.onward = s.ports.onward
  fieldTx   : t.ports.fieldTx = s.ports.fieldTx
  executing : t.executing = s.executing
  due       : ∀ d, isStanding d = true → d ∈ s.due → d ∈ t.due
  notices   : ∀ i, s.notices.pending.getLsbD i = true → t.notices.pending.getLsbD i = true
  links     : s.LinkBounds → t.LinkBounds
  records   : s.RecordBound → t.RecordBound
  grows     : Grows s t

theorem Judges.evaluates {s t : State} (h : Judges s t) : Evaluates s t :=
  ⟨h.pending, h.clock, h.schedule, h.slots, h.table, h.lines, h.mark, h.certify, h.bandStart,
    h.markLatch, h.uncaptured, h.beacons, h.cadence, h.held, h.mask, h.strap, h.onward, h.fieldTx,
    h.executing, h.due, h.notices, h.links, h.records, h.grows⟩

theorem Evaluates.refl (s : State) : Evaluates s s := (Judges.refl s).evaluates

theorem Evaluates.trans {s t u : State} (h : Evaluates s t) (k : Evaluates t u) : Evaluates s u where
  pending := k.pending.trans h.pending
  clock := k.clock.trans h.clock
  schedule := k.schedule.trans h.schedule
  slots := k.slots.trans h.slots
  table := k.table.trans h.table
  lines := k.lines.trans h.lines
  mark := k.mark.trans h.mark
  certify := k.certify.trans h.certify
  bandStart := k.bandStart.trans h.bandStart
  markLatch := k.markLatch.trans h.markLatch
  uncaptured := k.uncaptured.trans h.uncaptured
  beacons := k.beacons.trans h.beacons
  cadence := k.cadence.trans h.cadence
  held := k.held.trans h.held
  mask := k.mask.trans h.mask
  strap := k.strap.trans h.strap
  onward := k.onward.trans h.onward
  fieldTx := k.fieldTx.trans h.fieldTx
  executing := k.executing.trans h.executing
  due := fun d hs hd => k.due d hs (h.due d hs hd)
  notices := fun i hi => k.notices i (h.notices i hi)
  links := fun b => k.links (h.links b)
  records := fun b => k.records (h.records b)
  grows := h.grows.trans k.grows

/-- A change of the windows alone. -/
theorem evaluates_windows (s : State) (w : WindowEngine) : Evaluates s { s with windows := w } :=
  ⟨rfl, rfl, rfl, rfl, rfl, rfl, rfl, rfl, rfl, rfl, rfl, rfl, rfl, rfl, rfl, rfl, rfl, rfl, rfl,
    fun _ _ h => h, fun _ h => h, fun b => ⟨b.1, b.2, b.3, b.4, b.5, b.6, b.7, b.8, b.9, b.10⟩,
    fun b => b, grows_of rfl rfl⟩

theorem evaluates_setAcc (i slot : Nat) (a : Acc) (s : State) : Evaluates s (s.setAcc i slot a) :=
  evaluates_windows s _

theorem evaluates_setCell (i slot : Nat) (c : ResultCell) (s : State) :
    Evaluates s (s.setCell i slot c) :=
  evaluates_windows s _

theorem evaluates_foldl {α : Type} {f : State → α → State} (hf : ∀ s a, Evaluates s (f s a))
    (xs : List α) (s : State) : Evaluates s (xs.foldl f s) := by
  induction xs generalizing s with
  | nil => exact Evaluates.refl s
  | cons a xs ih => exact (hf s a).trans (ih _)

/-- An evaluation (R85). -/
theorem evaluates_evaluate (i slot : Nat) (e : LimitEntry) (r : Reading) (closing : Bool) (s : State) :
    Evaluates s (s.evaluate i slot e r closing) := by
  unfold State.evaluate
  extract_lets cell reference raw final s1 s2
  have h1 : Evaluates s s1 := evaluates_setCell _ _ _ _
  have h2 : Evaluates s1 s2 := by
    unfold s2
    split
    · exact (judges_applyOutcome _ _).evaluates
    · exact Evaluates.refl _
  refine h1.trans (h2.trans ?_)
  split
  · exact (emits_offer _ _).judges.evaluates
  · exact Evaluates.refl _

theorem evaluates_restartAccs (ps : List (Nat × LimitEntry × Nat)) (s : State) :
    Evaluates s (s.restartAccs ps) :=
  evaluates_foldl (fun _ _ => evaluates_setAcc _ _ _ _) _ _

theorem evaluates_restartSlot (slot : Nat) (s : State) : Evaluates s (s.restartSlot slot) :=
  (evaluates_restartAccs _ _).trans (evaluates_windows _ _)

theorem evaluates_restartAll (s : State) : Evaluates s s.restartAll :=
  (evaluates_restartAccs _ _).trans (evaluates_windows _ _)

theorem evaluates_openIdle (minute : Bool) (p : Nat × LimitEntry × Nat) (s : State) :
    Evaluates s (s.openIdle minute p) := by
  unfold State.openIdle
  split
  · split
    · exact evaluates_setAcc _ _ _ _
    · exact Evaluates.refl s
  · exact Evaluates.refl s

theorem evaluates_openIdles (minute : Bool) (ps : List (Nat × LimitEntry × Nat)) (s : State) :
    Evaluates s (s.openIdles minute ps) :=
  evaluates_foldl (fun _ _ => evaluates_openIdle _ _ _) _ _

theorem evaluates_endWindow (p : Nat × LimitEntry × Nat) (s : State) :
    Evaluates s (s.endWindow p) := by
  unfold State.endWindow
  split
  · split
    · split
      · exact Evaluates.refl s
      · exact (evaluates_setAcc _ _ _ _).trans (evaluates_evaluate _ _ _ _ _ _)
    · split
      · split
        · exact Evaluates.refl s
        · exact (evaluates_setAcc _ _ _ _).trans (evaluates_evaluate _ _ _ _ _ _)
      · exact Evaluates.refl s
    · exact Evaluates.refl s
  · exact Evaluates.refl s

/-- The boundaries and step ends of a tick (R71, R73). -/
theorem evaluates_endWindows (s : State) : Evaluates s s.endWindows := by
  unfold State.endWindows
  split
  · exact evaluates_foldl (fun _ _ => evaluates_endWindow _ _) _ _
  · exact Evaluates.refl s

theorem evaluates_bandWindow (old : Nat) (minute : Bool) (p : Nat × LimitEntry × Nat) (s : State) :
    Evaluates s (s.bandWindow old minute p) := by
  unfold State.bandWindow
  extract_lets now active
  split
  · exact (evaluates_setAcc _ _ _ _).trans (evaluates_evaluate _ _ _ _ _ _)
  · split
    · exact Evaluates.refl s
    · split
      · exact evaluates_setAcc _ _ _ _
      · exact (evaluates_setAcc _ _ _ _).trans (evaluates_evaluate _ _ _ _ _ _)
  · split
    · exact Evaluates.refl s
    · exact evaluates_setAcc _ _ _ _
  · split
    · exact Evaluates.refl s
    · exact evaluates_openIdle _ _ _
  · exact Evaluates.refl s

theorem evaluates_bandWindows (old : Nat) (minute : Bool) (s : State) :
    Evaluates s (s.bandWindows old minute) :=
  evaluates_foldl (fun _ _ => evaluates_bandWindow _ _ _ _) _ _

theorem evaluates_integrate (slot : Nat) (x : Slice) (s : State) : Evaluates s (s.integrate slot x) :=
  evaluates_foldl (fun _ _ => evaluates_setAcc _ _ _ _) _ _

theorem evaluates_evaluateSlice (slot : Nat) (x : Slice) (s : State) :
    Evaluates s (s.evaluateSlice slot x) :=
  evaluates_foldl (fun _ _ => evaluates_evaluate _ _ _ _ _ _) _ _

theorem evaluates_discardWindows (s : State) : Evaluates s s.discardWindows := evaluates_windows s _

theorem evaluates_resyncWindows (slot : Nat) (s : State) : Evaluates s (s.resyncWindows slot) :=
  evaluates_foldl (fun _ _ => evaluates_setAcc _ _ _ _) _ _

end Sys2Proof.Machine
end

