-- ==== Sys2Proof/Laws/Runs.lean ====
section
/-! SUPPORT. What the analyser's own work can do to the state, between two commands of the gateway: the
pieces of a tick, recognitions, slices and commit swaps keep the time, the frame in execution, the
settings of the gateway and every capacity. -/

namespace Sys2Proof.Machine

/-- A limit table after `a` in which every frozen index keeps its mark and its entry. -/
structure LimitTable.Carries (a b : LimitTable) : Prop where
  equal  : a.FrozenEqual → b.FrozenEqual
  frozen : ∀ i, a.frozen.getLsbD i = true → b.frozen.getLsbD i = true
  active : a.FrozenEqual → ∀ i, a.frozen.getLsbD i = true → b.active.at i = a.active.at i

theorem LimitTable.Carries.refl (a : LimitTable) : a.Carries a :=
  ⟨fun h => h, fun _ h => h, fun _ _ _ => rfl⟩

theorem LimitTable.Carries.trans {a b c : LimitTable} (h : a.Carries b) (k : b.Carries c) : a.Carries c :=
  ⟨fun e => k.equal (h.equal e), fun i hi => k.frozen i (h.frozen i hi),
    fun e i hi => (k.active (h.equal e) i (h.frozen i hi)).trans (h.active e i hi)⟩

/-- `t` comes from `s` by work of the analyser that falls within one tick; due work that `keep` names
stays due. -/
structure Runs (keep : Due → Bool) (s t : State) : Prop where
  pending   : t.pending = s.pending
  clock     : t.clock = { s.clock with band := t.clock.band }
  frozen    : t.table.frozen = s.table.frozen
  slots     : t.slots.length = s.slots.length
  lines     : t.plant.lines.length = s.plant.lines.length
  beacons   : t.beacons.length = s.beacons.length
  queries   : t.cadence.queries = s.cadence.queries
  held      : t.held = s.held
  mask      : t.notices.mask = s.notices.mask
  strap     : t.ports.strap = s.ports.strap
  executing : t.executing = s.executing
  notices   : ∀ i, s.notices.pending.getLsbD i = true → t.notices.pending.getLsbD i = true
  links     : s.LinkBounds → t.LinkBounds
  records   : s.RecordBound → t.RecordBound
  bands     : s.BandLegal → t.BandLegal
  tables    : s.table.Carries t.table
  grows     : Grows s t
  due       : ∀ d, keep d = true → d ∈ s.due → d ∈ t.due

/-- Work that keeps every due piece but a hold-off count. -/
abbrev Works (s t : State) : Prop := Runs isStanding s t

theorem Evaluates.runs {s t : State} (h : Evaluates s t) : Works s t where
  pending := h.pending
  clock := by rw [h.clock]
  frozen := by rw [h.table]
  slots := by rw [h.slots]
  lines := by rw [h.lines]
  beacons := h.beacons
  queries := by rw [h.cadence]
  held := h.held
  mask := h.mask
  strap := h.strap
  executing := h.executing
  notices := h.notices
  links := h.links
  records := h.records
  bands := fun b => ⟨by rw [h.clock]; exact b.1, by rw [h.clock]; exact b.2,
    by rw [h.schedule]; exact b.3, by rw [h.schedule]; exact b.4⟩
  tables := by rw [h.table]; exact LimitTable.Carries.refl _
  grows := h.grows
  due := h.due

theorem Judges.runs {s t : State} (h : Judges s t) : Works s t := h.evaluates.runs

theorem Emits.runs {s t : State} (h : Emits s t) : Works s t := h.judges.runs

theorem Runs.weaken {p q : Due → Bool} {s t : State} (h : Runs p s t)
    (hpq : ∀ d, q d = true → p d = true) : Runs q s t :=
  { h with due := fun d hd => h.due d (hpq d hd) }

theorem Runs.refl {k : Due → Bool} (s : State) : Runs k s s where
  pending := rfl
  clock := rfl
  frozen := rfl
  slots := rfl
  lines := rfl
  beacons := rfl
  queries := rfl
  held := rfl
  mask := rfl
  strap := rfl
  executing := rfl
  notices := fun _ h => h
  links := fun b => b
  records := fun b => b
  bands := fun b => b
  tables := LimitTable.Carries.refl _
  grows := Grows.refl s
  due := fun _ _ h => h

theorem Runs.trans {keep : Due → Bool} {s t u : State} (h : Runs keep s t) (k : Runs keep t u) :
    Runs keep s u where
  pending := k.pending.trans h.pending
  clock := by rw [k.clock, h.clock]
  frozen := k.frozen.trans h.frozen
  slots := k.slots.trans h.slots
  lines := k.lines.trans h.lines
  beacons := k.beacons.trans h.beacons
  queries := k.queries.trans h.queries
  held := k.held.trans h.held
  mask := k.mask.trans h.mask
  strap := k.strap.trans h.strap
  executing := k.executing.trans h.executing
  notices := fun i hi => k.notices i (h.notices i hi)
  links := fun b => k.links (h.links b)
  records := fun b => k.records (h.records b)
  bands := fun b => k.bands (h.bands b)
  tables := h.tables.trans k.tables
  grows := h.grows.trans k.grows
  due := fun d hk hd => k.due d hk (h.due d hk hd)

theorem runs_foldl {k : Due → Bool} {α : Type} {f : State → α → State}
    (hf : ∀ s a, Runs k s (f s a)) (xs : List α) (s : State) : Runs k s (xs.foldl f s) := by
  induction xs generalizing s with
  | nil => exact Runs.refl s
  | cons a xs ih => exact (hf s a).trans (ih _)

/-- The links' bounds read only the ports and the report queue. -/
theorem linkBounds_of {s t : State} (hp : t.ports = s.ports) (hr : t.report = s.report)
    (b : s.LinkBounds) : t.LinkBounds :=
  ⟨by rw [hr]; exact b.1, by rw [hr]; exact b.2, by rw [hp]; exact b.3, by rw [hp]; exact b.4,
    by rw [hp]; exact b.5, by rw [hp]; exact b.6, by rw [hp]; exact b.7, by rw [hp]; exact b.8,
    by rw [hp]; exact b.9, by rw [hp]; exact b.10⟩

/-- A change of slots, plant lines, samplers, the mark latch, cadence counters and beacons, none of which
a bound, a table or the clock reads. -/
theorem runs_change {k : Due → Bool} (s : State) {ss : List SlotRecord} {p : PlantMonitor}
    {bs : List BeaconLine} {c : Cadence} (hs : ss.length = s.slots.length)
    (hl : p.lines.length = s.plant.lines.length) (hb : bs.length = s.beacons.length)
    (hq : c.queries = s.cadence.queries) :
    Runs k s { s with slots := ss, plant := p, beacons := bs, cadence := c } :=
  ⟨rfl, rfl, rfl, hs, hl, hb, hq, rfl, rfl, rfl, rfl, fun _ h => h,
    fun b => ⟨b.1, b.2, b.3, b.4, b.5, b.6, b.7, b.8, b.9, b.10⟩, fun b => b,
    fun b => ⟨b.1, b.2, b.3, b.4⟩, LimitTable.Carries.refl _, grows_of rfl rfl, fun _ _ h => h⟩

/-- A change of the due work. -/
theorem runs_setDue {k : Due → Bool} (s : State) {ds : List Due}
    (h : ∀ d, k d = true → d ∈ s.due → d ∈ ds) : Runs k s { s with due := ds } :=
  ⟨rfl, rfl, rfl, rfl, rfl, rfl, rfl, rfl, rfl, rfl, rfl, fun _ h => h,
    fun b => ⟨b.1, b.2, b.3, b.4, b.5, b.6, b.7, b.8, b.9, b.10⟩, fun b => b,
    fun b => ⟨b.1, b.2, b.3, b.4⟩, LimitTable.Carries.refl _, grows_of rfl rfl, h⟩

/-- A change of the plant monitor that keeps its eight lines. -/
theorem runs_setPlant (s : State) (p : PlantMonitor) (h : p.lines.length = s.plant.lines.length) :
    Works s { s with plant := p } :=
  runs_change s rfl h rfl rfl

/-! ### Bands -/

theorem firstBand_le (d : DayType) (minute n : Nat) (bands : List (Option BandRecord))
    (h : n + bands.length ≤ Config.userBands) : firstBand d minute n bands ≤ Config.other := by
  induction bands generalizing n with
  | nil => exact Nat.le_refl _
  | cons b bs ih =>
    have hn : n ≤ Config.other := by
      simp only [List.length_cons] at h
      simp only [Config.userBands, Config.other] at *
      omega
    have ht : n + 1 + bs.length ≤ Config.userBands := by
      simp only [List.length_cons] at h
      omega
    cases b with
    | none => exact ih _ ht
    | some b =>
      unfold firstBand
      split
      · exact hn
      · exact ih _ ht

theorem bandNow_untimed {s : State} (h : s.schedule.activeBands.length = Config.userBands) :
    (s.bandNow = Config.untimed ↔ s.clock.running = false) ∧ s.bandNow ≤ Config.untimed := by
  unfold State.bandNow
  have := firstBand_le s.dayType s.clock.minute 0 s.schedule.activeBands (by omega)
  simp only [Config.other, Config.untimed] at *
  cases hr : s.clock.running <;> simp
  omega

/-- The band decided and held, before its event. -/
theorem runs_setBand (s : State) : Works s { s with clock := { s.clock with band := s.bandNow } } := by
  refine ⟨rfl, rfl, rfl, rfl, rfl, rfl, rfl, rfl, rfl, rfl, rfl, fun _ h => h,
    fun b => ⟨b.1, b.2, b.3, b.4, b.5, b.6, b.7, b.8, b.9, b.10⟩, fun b => b, fun b => ?_,
    LimitTable.Carries.refl _, grows_of rfl rfl, fun _ _ h => h⟩
  have := bandNow_untimed b.active
  exact ⟨this.1, this.2, b.active, b.staged⟩

theorem runs_bandPlant (s : State) : Works s s.bandPlant :=
  runs_change s rfl (by simp) rfl rfl

theorem runs_bandEvent (old : Nat) (minute first : Bool) (s : State) :
    Works s (s.bandEvent old minute first) := by
  unfold State.bandEvent
  split
  · exact ((judges_demandClose _ _ _).runs.trans (evaluates_bandWindows _ _ _).runs).trans
      (runs_bandPlant _)
  · exact ((evaluates_bandWindows _ _ _).runs.trans (judges_demandClose _ _ _).runs).trans
      (runs_bandPlant _)

/-- A band decision (R35). -/
theorem runs_decideBand (minute first : Bool) (s : State) : Works s (s.decideBand minute first) := by
  unfold State.decideBand
  split
  · exact Runs.refl s
  · exact (runs_setBand s).trans (runs_bandEvent _ _ _ _)

/-- After a decision the band is the one R34 gives, whatever it was. -/
theorem bandLegal_decideBand {minute first : Bool} {s : State}
    (ha : s.schedule.activeBands.length = Config.userBands)
    (hs : s.schedule.stagedBands.length = Config.userBands) :
    (s.decideBand minute first).BandLegal := by
  have hb := bandNow_untimed ha
  unfold State.decideBand
  split
  · next h => exact ⟨by rw [← h]; exact hb.1, by rw [← h]; exact hb.2, ha, hs⟩
  · exact (runs_bandEvent _ _ _ _).bands ⟨hb.1, hb.2, ha, hs⟩

/-! ### Slices -/

theorem runs_modifySlot (n : Nat) (f : SlotRecord → SlotRecord) (s : State) :
    Works s (s.modifySlot n f) :=
  runs_change s (by simp) rfl rfl rfl

theorem runs_handOn (slot : Nat) (x : Slice) (s : State) : Works s (s.handOn slot x) := by
  unfold State.handOn
  extract_lets s1
  have h1 : Works s s1 := (evaluates_integrate _ _ _).runs
  split
  · exact h1
  · exact h1.trans ((((evaluates_evaluateSlice _ _ _).trans (judges_gainSlice _ _ _).evaluates).runs).trans
      (runs_modifySlot _ _ _))

theorem runs_judgeSlice (slot : Nat) (r : SlotRecord) (x : Slice) (s : State) :
    Works s (s.judgeSlice slot r x) := by
  unfold State.judgeSlice
  split
  · split
    · exact runs_modifySlot _ _ _
    · extract_lets s1 s2
      have h1 : Works s s1 := runs_modifySlot _ _ _
      have h2 : Works s1 s2 := by
        unfold s2
        split
        · exact (emits_raise _ _).runs.trans (evaluates_resyncWindows _ _).runs
        · exact Runs.refl _
      exact h1.trans (h2.trans (runs_handOn _ _ _))
  · exact runs_modifySlot _ _ _

/-- Slice intake (R1). -/
theorem runs_intake (x : Slice) (s : State) : Works s (s.intake x) := by
  unfold State.intake
  split
  · exact Runs.refl s
  · split
    · exact runs_judgeSlice _ _ _ _
    · exact Runs.refl s

/-- The stall timer (R13). -/
theorem runs_stallSlot (slot : Nat) (s : State) : Works s (s.stallSlot slot) := by
  unfold State.stallSlot
  split
  · split
    · exact ((runs_modifySlot _ _ _).trans (emits_raise _ _).runs).trans (judges_demandClose _ _ _).runs
    · exact Runs.refl s
  · exact Runs.refl s

/-! ### Plant lines and inputs -/

theorem runs_changeLine (line : Nat) (f : PlantLine → PlantLine) (s : State) :
    Works s (s.changeLine line f) := by
  unfold State.changeLine
  split
  · exact Runs.refl s
  · extract_lets new s1
    have h1 : Works s s1 := runs_change s rfl (by simp) rfl rfl
    split
    · exact h1.trans (judges_everActive _ _).runs
    · exact h1

theorem runs_recognise (input : Input) (s : State) : Works s (s.recognise input) := by
  cases input with
  | plant line => exact runs_changeLine _ _ _
  | mark =>
    have h1 : Works s (s.setMark s.plant.mark.recognise) := runs_change s rfl rfl rfl rfl
    refine h1.trans ?_
    change Works _ (State.press _)
    unfold State.press
    split
    · exact Runs.refl _
    · refine Runs.trans ?_ (emits_raise _ _).runs
      exact runs_setPlant _ _ rfl
  | certify =>
    have h1 : Works s (s.setCertify s.plant.certify.recognise) := runs_change s rfl rfl rfl rfl
    exact h1.trans (emits_raise _ _).runs

theorem runs_countRuns (s : State) : Works s s.countRuns := runs_change s rfl (by simp) rfl rfl

theorem runs_offerMark (s : State) : Works s s.offerMark := by
  unfold State.offerMark
  split
  · exact Runs.refl s
  · split
    · next h =>
      exact (runs_setPlant s { s.plant with markLatch := none } rfl).trans
        (emits_admit (s := { s with plant := { s.plant with markLatch := none } }) h).runs
    · exact Runs.refl s

/-! ### Cadence -/

theorem runs_clearSummary (s : State) : Works s s.clearSummary :=
  ⟨rfl, rfl, rfl, by simp [State.clearSummary], by simp [State.clearSummary], rfl, rfl, rfl, rfl, rfl,
    rfl, fun _ h => h,
    fun b => ⟨b.1, Nat.zero_le _, b.3, b.4, b.5, b.6, Nat.zero_le _, Nat.zero_le _, Nat.zero_le _,
      Nat.zero_le _⟩, fun b => b, fun b => ⟨b.1, b.2, b.3, b.4⟩, LimitTable.Carries.refl _,
    grows_of rfl rfl, fun _ _ h => h⟩

theorem runs_offerSummary (s : State) : Works s s.offerSummary := by
  unfold State.offerSummary
  split
  · next h => exact (runs_clearSummary s).trans (emits_admit (s := s.clearSummary) h).runs
  · exact (emits_drop s).runs

theorem runs_offerQueries (rs : List QueryRecord) (s : State) : Works s (s.offerQueries rs) :=
  runs_foldl (fun _ _ => (emits_offer _ _).runs) _ _

theorem runs_withLatch {k : Due → Bool} (latch : Bool) (s : State) : Runs k s (s.withLatch latch) :=
  ⟨rfl, rfl, rfl, rfl, rfl, rfl, rfl, rfl, rfl, rfl, rfl, fun _ h => h,
    fun b => ⟨b.1, b.2, b.3, b.4, b.5, b.6, b.7, b.8, b.9, b.10⟩, fun b => b,
    fun b => ⟨b.1, b.2, b.3, b.4⟩, LimitTable.Carries.refl _, grows_of rfl rfl, fun _ _ h => h⟩

/-- Offers made as one action are offers, and then the ATTENTION record's. -/
theorem runs_asOneAction {f : State → State} (hf : ∀ s, Works s (f s)) (s : State) :
    Works s (s.asOneAction f) :=
  (((runs_withLatch true s).trans (hf _)).trans (runs_withLatch _ _)).trans (emits_settleLatch _).runs

theorem runs_summaryUnderflow (s : State) : Works s s.summaryUnderflow := by
  unfold State.summaryUnderflow
  extract_lets src s1 records s2
  have h1 : Works s s1 := runs_change s rfl rfl rfl rfl
  have h2 : Works s1 s2 :=
    runs_asOneAction (fun s' => (runs_offerSummary s').trans (runs_offerQueries _ _)) s1
  exact (h1.trans h2).trans (runs_change s2 rfl rfl rfl rfl)

theorem queries_count (c : Cadence) : c.count.queries = c.queries := by
  unfold Cadence.count
  split
  · split
    · rfl
    · split <;> rfl
  · rfl

theorem runs_countCadence (s : State) : Works s s.countCadence := by
  unfold State.countCadence
  extract_lets c s1
  have h1 : Works s s1 := runs_change s rfl rfl rfl (queries_count _)
  split
  · exact h1.trans (emits_addDue _ _).runs
  · exact h1

/-! ### The commit -/

theorem judges_closeKey (s : State) (key : Nat) : Judges s (s.closeKey key) := by
  unfold State.closeKey
  split
  · exact Judges.refl s
  · exact (judges_demandClose _ _ _).trans (judges_demandClose _ _ _)

theorem judges_closeKeys (keys : List Nat) (s : State) : Judges s (s.closeKeys keys) :=
  judges_foldl judges_closeKey _ _

theorem runs_moveKeys (first : List (Nat × Nat)) (s : State) : Works s (s.moveKeys first) :=
  ⟨rfl, rfl, rfl, rfl, rfl, rfl, rfl, rfl, rfl, rfl, rfl, fun _ h => h,
    fun b => ⟨b.1, b.2, b.3, b.4, b.5, b.6, b.7, b.8, b.9, b.10⟩,
    fun b => by
      simp only [State.RecordBound, EpisodeTable.used, State.moveKeys, EpisodeTable.moved,
        List.length_map] at b ⊢
      exact b,
    fun b => ⟨b.1, b.2, b.3, b.4⟩,
    ⟨fun b => ⟨b.staged, b.staged, fun _ _ => rfl⟩, fun _ hi => hi, fun b => b.equal⟩,
    grows_of rfl rfl, fun _ _ h => h⟩

theorem runs_adoptSchedule (s : State) : Works s s.adoptSchedule :=
  ⟨rfl, rfl, rfl, rfl, rfl, rfl, rfl, rfl, rfl, rfl, rfl, fun _ h => h,
    fun b => ⟨b.1, b.2, b.3, b.4, b.5, b.6, b.7, b.8, b.9, b.10⟩, fun b => b,
    fun b => ⟨b.1, b.2, b.staged, b.staged⟩, LimitTable.Carries.refl _, grows_of rfl rfl, fun _ _ h => h⟩

theorem runs_endCommit (r : CommitResult) (n : Notice) (s : State) : Works s (s.endCommit r n) := by
  refine Runs.trans ?_ (emits_raise _ _).runs
  exact ⟨rfl, rfl, rfl, rfl, rfl, rfl, rfl, rfl, rfl, rfl, rfl, fun _ h => h,
    fun b => ⟨b.1, b.2, b.3, b.4, b.5, b.6, b.7, b.8, b.9, b.10⟩, fun b => b,
    fun b => ⟨b.1, b.2, b.3, b.4⟩,
    ⟨fun b => ⟨b.1, b.2, b.3⟩, fun _ hi => hi, fun _ _ _ => rfl⟩,
    grows_of rfl rfl, fun _ _ h => h⟩

theorem runs_swap (c : SwapChoice) (s : State) : Works s (s.swap c) := by
  unfold State.swap
  extract_lets s1 s2
  have h1 : Works s s1 :=
    ((judges_closeKeys _ _).runs.trans (runs_moveKeys _ _)).trans (judges_followDemand _).runs
  have h2 : Works s1 s2 := (runs_adoptSchedule _).trans (runs_decideBand _ _ _)
  exact (h1.trans h2).trans ((evaluates_openIdles _ _ _).runs.trans (runs_endCommit _ _ _))

theorem runs_checkCommit (c : SwapChoice) (s : State) : Works s (s.checkCommit c) := by
  unfold State.checkCommit
  split
  · split
    · exact runs_endCommit _ _ _
    · exact runs_swap _ _
  · exact Runs.refl s

/-! ### Work that is due -/

theorem runs_modifyBeacon (n : Nat) (f : BeaconLine → BeaconLine) (s : State) :
    Works s (s.modifyBeacon n f) :=
  runs_change s rfl rfl (by simp) rfl

/-- Every piece of work. -/
theorem runs_work (c : TickChoice) (d : Due) (s : State) : Works s (s.work c d) := by
  cases d with
  | runCounts => exact runs_countRuns s
  | windows => exact (evaluates_endWindows s).runs
  | band => exact runs_decideBand _ _ s
  | cadence => exact runs_countCadence s
  | summary => exact runs_summaryUnderflow s
  | verdicts => exact (judges_offerVerdicts _ s (Nat.le_refl _)).runs
  | mark => exact runs_offerMark s
  | commit => exact runs_checkCommit _ s
  | stall slot => exact runs_stallSlot slot s
  | holdOff key slot => exact (judges_countHoldOff key slot s).runs
  | maximumLength key slot => exact (judges_checkLength key slot s).runs
  | pulse line => exact runs_modifyBeacon _ _ s
  | flash line => exact runs_modifyBeacon _ _ s
  | recognition input => exact runs_recognise input s

/-- The due work that stays when one piece is taken. -/
def keepsBut (d : Due) (x : Due) : Bool := isStanding x && x != d

theorem runs_clearDue (d : Due) (s : State) : Runs (keepsBut d) s (s.clearDue d) :=
  runs_setDue s (fun x hx hm => List.mem_filter.2 ⟨hm, by
    simp only [keepsBut, Bool.and_eq_true] at hx
    exact hx.2⟩)

theorem runs_takeDue (c : TickChoice) (d : Due) (s : State) : Runs (keepsBut d) s (s.takeDue c d) := by
  unfold State.takeDue
  split
  · refine (runs_clearDue d s).trans ((runs_work c d _).weaken (fun x hx => ?_))
    simp only [keepsBut, Bool.and_eq_true] at hx
    exact hx.1
  · exact Runs.refl s

/-- The underflows of the tick and a press of the sample, taken where they are outstanding. -/
theorem runs_finishStamped (s : State) :
    Runs (fun d => keepsBut .cadence d && keepsBut .summary d && keepsBut (.recognition .mark) d) s
      s.finishStamped :=
  (((runs_takeDue plainTick .cadence s).weaken (fun d h => by simp_all)).trans
    ((runs_takeDue plainTick .summary _).weaken (fun d h => by simp_all))).trans
    ((runs_takeDue plainTick (.recognition .mark) _).weaken (fun d h => by simp_all))

/-- Work that may take any piece that is due. -/
abbrev TakesAll (s t : State) : Prop := Runs (fun _ => false) s t

theorem takesAll_takeDue (c : TickChoice) (d : Due) (s : State) : TakesAll s (s.takeDue c d) :=
  (runs_takeDue c d s).weaken (fun _ h => by simp at h)

theorem takesAll_takeTick (c : TickChoice) (d : Due) (s : State) : TakesAll s (s.takeTick c d) := by
  unfold State.takeTick
  split
  · exact (takesAll_takeDue _ _ _).trans (takesAll_takeDue _ _ _)
  · exact takesAll_takeDue _ _ _

theorem takesAll_takeAll (c : TickChoice) (ds : List Due) (s : State) :
    TakesAll s (s.takeAll c ds) :=
  runs_foldl (fun _ _ => takesAll_takeTick _ _ _) _ _

theorem takesAll_flush (c : TickChoice) (n : Nat) (s : State) : TakesAll s (s.flush c n) := by
  induction n generalizing s with
  | zero => exact Runs.refl s
  | succ n ih =>
    unfold State.flush
    split
    · exact Runs.refl s
    · exact (takesAll_takeTick _ _ _).trans (ih _)

theorem takesAll_finishDue (c : TickChoice) (s : State) : TakesAll s (s.finishDue c) :=
  (takesAll_flush c _ s).trans (runs_setDue _ (fun _ h => by simp at h))

theorem takesAll_takeRecognitions (s : State) : TakesAll s s.takeRecognitions :=
  runs_foldl (fun _ _ => takesAll_takeDue _ _ _) _ _

theorem runs_settleCommit (s : State) : Runs (keepsBut .commit) s s.settleCommit := runs_takeDue _ _ s

/-- The pieces TICK takes itself: the counts, the boundaries and the band decision. -/
def leftByTick : Due → Bool
  | .runCounts | .windows | .band | .cadence | .holdOff _ _ | .pulse _ | .flash _ => false
  | _ => true

theorem runs_takeDue_tick {c : TickChoice} {d : Due} (h : leftByTick d = false) (s : State) :
    Runs leftByTick s (s.takeDue c d) := by
  refine (runs_takeDue c d s).weaken (fun x hx => ?_)
  simp only [keepsBut, Bool.and_eq_true, bne_iff_ne]
  refine ⟨?_, fun he => ?_⟩
  · cases x <;> first | rfl | (simp [leftByTick] at hx)
  · subst he
    rw [h] at hx
    exact absurd hx (by simp)

theorem runs_takeCounts (ds : List Due) (s : State) : Runs leftByTick s (s.takeCounts ds) := by
  refine runs_foldl (fun s d => ?_) _ _
  split
  · next h => exact runs_takeDue_tick (by cases d <;> first | rfl | simp [State.isCount] at h) s
  · exact Runs.refl s

/-- What TICK takes after the pieces of its choice (log 1). -/
theorem runs_tickTail (c : TickChoice) (s : State) :
    Runs leftByTick s (((s.takeCounts s.due).takeTick c .windows).takeTick c .band) := by
  have h1 : Runs leftByTick s (s.takeCounts s.due) := runs_takeCounts _ _
  generalize s.takeCounts s.due = a at h1 ⊢
  have h2 : Runs leftByTick a (a.takeTick c .windows) := runs_takeDue_tick rfl _
  generalize a.takeTick c .windows = b at h2 ⊢
  have h3 : Runs leftByTick b (b.takeTick c .band) :=
    (runs_takeDue_tick (c := c) (d := .windows) rfl b).trans
      (runs_takeDue_tick (c := c) (d := .band) rfl _)
  exact h1.trans (h2.trans h3)

end Sys2Proof.Machine
end

