-- ==== Sys2Proof/Laws/Commands.lean ====
section
/-! SUPPORT. What the decoder does with an item: taking an item of a command is its body and one reply
item; an item of another kind, an absent frame or the end of a frame leaves the state as it is. -/

namespace Sys2Proof.Machine

/-! ### Where the decoder stands -/

theorem executing_settleCommit (s : State) : s.settleCommit.executing = s.executing :=
  (runs_settleCommit s).executing

/-- The decoder reaches an item of the command: the item's outcome and its reply item. -/
theorem takeItem_of_reaches {α : Type} {c : CommandCode} {form : List Byte → Option α} {body : Body α}
    {s : State} {v : ItemView} (h : s.Reaches v) (hc : v.code = c.byte) :
    s.takeItem c form body =
      State.answered v (s.settleCommit.runItem c form body v.operands v.prefixes v.tag).2.result
        (s.settleCommit.runItem c form body v.operands v.prefixes v.tag).2.data
        (s.settleCommit.runItem c form body v.operands v.prefixes v.tag).1 := by
  obtain ⟨e, he, ht, hr⟩ := h
  simp only [State.takeItem, he, hr, hc, if_true, State.answered, ht]

/-- The decoder reaches no item of the command. -/
theorem takeItem_of_not_reaches {α : Type} {c : CommandCode} {form : List Byte → Option α}
    {body : Body α} {s : State} (h : ∀ v, s.Reaches v → v.code ≠ c.byte) : s.takeItem c form body = s := by
  unfold State.takeItem
  split
  · rfl
  · next e he =>
    split
    · next lead ps code o rest taken hr =>
      split
      · next hc => exact absurd hc (h ⟨e.tag, lead, ps, code, o, rest, taken⟩ ⟨e, he, rfl, hr⟩)
      · rfl
    · rfl

/-- An item in form, with prefixes that apply: the body decides. -/
theorem runItem_of_form {α : Type} {c : CommandCode} {form : List Byte → Option α} {body : Body α}
    {o : List Byte} {ps : List PrefixItem} {tag : Byte} {s : State} {ops : α} (hf : form o = some ops)
    (hp : prefixesTaken ps c = true) :
    s.runItem c form body o ps tag = body ops (modifiersOf tag ps) s := by
  simp only [State.runItem, hf, hp, if_true]

/-- An item out of form is MALFORMED. -/
theorem runItem_of_not_form {α : Type} {c : CommandCode} {form : List Byte → Option α} {body : Body α}
    {o : List Byte} {ps : List PrefixItem} {tag : Byte} {s : State} (hf : form o = none) :
    s.runItem c form body o ps tag = refuse .malformed s := by
  simp only [State.runItem, hf]

/-- Prefixes that do not apply make the item MALFORMED. -/
theorem runItem_of_not_taken {α : Type} {c : CommandCode} {form : List Byte → Option α} {body : Body α}
    {o : List Byte} {ps : List PrefixItem} {tag : Byte} {s : State} (hp : prefixesTaken ps c = false) :
    s.runItem c form body o ps tag = refuse .malformed s := by
  unfold State.runItem
  split
  · rfl
  · simp [hp]

/-- A fixed form asks for its length. -/
theorem fixedForm_of_length {α : Type} {n : Nat} {read : List Byte → α} {o : List Byte}
    (h : o.length = n) : fixedForm n read o = some (read o) := by
  simp [fixedForm, onlyIf, h]

theorem fixedForm_of_length_ne {α : Type} {n : Nat} {read : List Byte → α} {o : List Byte}
    (h : o.length ≠ n) : fixedForm n read o = none := by
  simp [fixedForm, onlyIf, h]

/-! ### An item taken, by its outcome -/

/-- What the outcome of an item leaves, its reply item written. -/
def ItemView.finish (v : ItemView) (p : State × Answer) : State :=
  State.answered v p.2.result p.2.data p.1

@[simp] theorem finish_refuse (v : ItemView) (r : Result) (s : State) : v.finish (refuse r s) = s.refused v r := rfl

@[simp] theorem finish_mk (v : ItemView) (s : State) (a : Answer) :
    v.finish (s, a) = s.answered v a.result a.data := rfl

@[simp] theorem finish_ite (v : ItemView) (c : Prop) [Decidable c] (p q : State × Answer) :
    v.finish (if c then p else q) = if c then v.finish p else v.finish q := apply_ite _ _ _ _

/-- The decoder reaches an item of the command in form, with prefixes that apply: its body decides. -/
theorem takeItem_of_takes {α : Type} {c : CommandCode} {form : List Byte → Option α} {body : Body α}
    {s : State} {v : ItemView} {ops : α} (h : s.Takes c v) (hf : form v.operands = some ops) :
    s.takeItem c form body = v.finish (body ops v.modifiers s.settleCommit) := by
  rw [takeItem_of_reaches h.reaches h.code, runItem_of_form hf h.prefixes]
  rfl

/-! ### Writing reply items -/

theorem length_mapExecuting (f : Executing → Transaction) (ts : List Transaction) :
    (mapExecuting f ts).length = ts.length := by
  simp [mapExecuting]

/-- A reply item is written into the frame in execution and nowhere else. -/
theorem capacities_writeItems {rest : List Byte} {taken : Nat} {items : List ReplyItem} {s : State}
    (h : s.Capacities) : (s.writeItems rest taken items).Capacities where
  links := by
    obtain ⟨l, _, _⟩ := h
    exact ⟨l.1, l.2, l.3, l.4, by
      simpa [State.writeItems, State.setHolding, length_mapExecuting] using l.5, l.6, l.7, l.8, l.9, l.10⟩
  records := h.records
  queries := h.queries

/-- An item taken keeps a property that work at a tick, the body and the writing of a reply item keep. -/
theorem takeItem_keeps {α : Type} {c : CommandCode} {form : List Byte → Option α} {body : Body α}
    {P : State → Prop} {s : State} (h : P s) (hwork : ∀ s, P s → P s.settleCommit)
    (hbody : ∀ ops m s, P s → P (body ops m s).1)
    (hwrite : ∀ rest taken items s, P s → P (State.writeItems rest taken items s)) :
    P (s.takeItem c form body) := by
  unfold State.takeItem
  split
  · exact h
  · split
    · split
      · refine hwrite _ _ _ _ ?_
        unfold State.runItem
        split
        · exact hwork _ h
        · split
          · exact hbody _ _ _ (hwork _ h)
          · exact hwork _ h
      · exact h
    · exact h

end Sys2Proof.Machine
end

