-- ==== Sys2Proof/Laws/Drains.lean ====
section
/-! SUPPORT. What work does to the due list: it makes a verdict offer due only where an idle transmitter
starts a report, so that everything outstanding runs out (log 1). -/

namespace Sys2Proof.Machine

/-- From `s` to `t` the transmitter, once busy, stays busy, and nothing falls due but the verdict offer of a
departure from an idle one. -/
structure Drains (s t : State) : Prop where
  busy : s.ports.gatewayTx ≠ none → t.ports.gatewayTx ≠ none
  due  : ∀ d, d ∈ t.due → d ∈ s.due ∨ (d = .verdicts ∧ s.ports.gatewayTx = none ∧ t.ports.gatewayTx ≠ none)

theorem Drains.refl (s : State) : Drains s s := ⟨fun h => h, fun _ h => Or.inl h⟩

theorem Drains.trans {s t u : State} (h : Drains s t) (k : Drains t u) : Drains s u := by
  refine ⟨fun b => k.busy (h.busy b), fun d hd => ?_⟩
  rcases k.due d hd with hd | ⟨rfl, hi, hb⟩
  · rcases h.due d hd with hd | ⟨rfl, hi, hb⟩
    · exact Or.inl hd
    · exact Or.inr ⟨rfl, hi, k.busy hb⟩
  · exact Or.inr ⟨rfl, by_contra (fun hs => h.busy hs hi), hb⟩

/-- The same transmitter and no more due work. -/
theorem drains_of {s t : State} (hp : t.ports.gatewayTx = s.ports.gatewayTx)
    (hd : ∀ d, d ∈ t.due → d ∈ s.due) : Drains s t :=
  ⟨fun b => by rw [hp]; exact b, fun d h => Or.inl (hd d h)⟩

/-- The same transmitter and due work. -/
theorem drains_eq {s t : State} (hp : t.ports.gatewayTx = s.ports.gatewayTx) (hd : t.due = s.due) :
    Drains s t :=
  drains_of hp (fun d h => by rwa [hd] at h)

/-- Work after a change of neither. -/
theorem Drains.after {s t u : State} (h : Drains t u) (hp : t.ports.gatewayTx = s.ports.gatewayTx)
    (hd : t.due = s.due) : Drains s u :=
  (drains_eq hp hd).trans h

theorem drains_foldl {α : Type} {f : State → α → State} (hf : ∀ s a, Drains s (f s a)) (xs : List α)
    (s : State) : Drains s (xs.foldl f s) := by
  induction xs generalizing s with
  | nil => exact Drains.refl s
  | cons a xs ih => exact (hf s a).trans (ih _)

/-! ### The report queue and the notices -/

theorem drains_grant {s : State} (h : s.ports.gatewayTx = none) : Drains s s.grant := by
  have start : ∀ {t : State}, t.due = s.due → Drains s t := fun {t} hd =>
    ⟨fun b => absurd h b, fun d hm => Or.inl (by rwa [hd] at hm)⟩
  have report : ∀ r rs, Drains s (s.grantReport r rs) := fun r rs => by
    unfold State.grantReport State.handDeparture
    split
    · exact start rfl
    · unfold State.addDue
      split
      · exact start rfl
      · refine ⟨fun b => absurd h b, fun d hd => ?_⟩
        rcases List.mem_append.1 hd with hd | hd
        · exact Or.inl hd
        · exact Or.inr ⟨List.mem_singleton.1 hd, h, by simp⟩
  unfold State.grant
  split
  · exact start rfl
  · split
    · exact start rfl
    · split
      · exact start rfl
      · exact report _ _
    · exact report _ _
    · exact Drains.refl s

theorem drains_arbitrate (s : State) : Drains s s.arbitrate := by
  unfold State.arbitrate
  split
  · exact Drains.refl s
  · next h => exact drains_grant h

theorem drains_enqueue (b : RecordBody) (s : State) : Drains s (s.enqueue b) := drains_eq rfl rfl

theorem drains_joinNotice (n : Notice) (s : State) : Drains s (s.joinNotice n) := drains_eq rfl rfl

theorem drains_countDrop (s : State) : Drains s s.countDrop := drains_eq rfl rfl

theorem drains_settleLatch (s : State) : Drains s s.settleLatch := by
  unfold State.settleLatch
  split
  · unfold State.setLatch State.offerAttention
    extract_lets n s0 s1 s2
    split
    · have h2 : Drains s1 s2 := by
        unfold s2
        split
        · exact drains_joinNotice _ _
        · exact Drains.refl _
      exact (h2.trans (drains_arbitrate _)).after rfl rfl
    · exact drains_eq rfl rfl
  · exact Drains.refl s

theorem drains_raise (n : Notice) (s : State) : Drains s (s.raise n) :=
  (drains_joinNotice n s).trans (drains_settleLatch _)

theorem drains_admit (b : RecordBody) (s : State) : Drains s (s.admitRecord b) := by
  unfold State.admitRecord
  extract_lets s1 s2
  have h2 : Drains s1 s2 := by
    unfold s2
    split
    · exact drains_raise _ _
    · exact Drains.refl _
  exact (drains_enqueue b s).trans (h2.trans (drains_arbitrate _))

theorem drains_drop (s : State) : Drains s s.drop := (drains_countDrop s).trans (drains_raise _ _)

theorem drains_offer (b : RecordBody) (s : State) : Drains s (s.offer b) := by
  unfold State.offer
  split
  · exact drains_admit b s
  · exact drains_drop s

theorem drains_asOneAction {f : State → State} (hf : ∀ s, Drains s (f s)) (s : State) :
    Drains s (s.asOneAction f) := by
  have h1 : Drains s (s.withLatch true) := drains_eq rfl rfl
  have h2 : Drains (f (s.withLatch true)) ((f (s.withLatch true)).withLatch s.notices.latch) :=
    drains_eq rfl rfl
  exact h1.trans ((hf _).trans (h2.trans (drains_settleLatch _)))

theorem drains_offerVerdict (v : Verdict) (s : State) : Drains s (s.offerVerdict v) := by
  unfold State.offerVerdict
  split
  · exact drains_admit _ s
  · exact drains_eq rfl rfl

theorem drains_offerVerdicts (vs : List Verdict) (s : State) : Drains s (State.offerVerdicts vs s) := by
  induction vs generalizing s with
  | nil => exact Drains.refl s
  | cons v rest ih =>
    unfold State.offerVerdicts
    split
    · exact ((drains_admit _ _).trans (ih _)).after rfl rfl
    · exact Drains.refl s

/-! ### The episode table -/

theorem drains_countUncaptured (index : Nat) (s : State) : Drains s (s.countUncaptured index) :=
  (drains_raise _ _).after rfl rfl

theorem drains_coincide (slot : Nat) (at_ : Moment) (partners : SlotMask) (s : State) :
    Drains s (s.coincide slot at_ partners) := by
  unfold State.coincide
  simp only
  split
  · exact (drains_raise _ _).after rfl rfl
  · exact drains_eq rfl rfl

theorem drains_openEpisode (o : Opening) (s : State) : Drains s (s.openEpisode o) := by
  unfold State.openEpisode
  extract_lets partners e src s1 s2 s3 s4
  have h1 : Drains s s1 := drains_eq rfl rfl
  have h2 : Drains s1 s2 := by
    unfold s2
    split
    · exact Drains.refl _
    · exact drains_coincide _ _ _ _
  have h3 : Drains s2 s3 := drains_eq rfl rfl
  have h4 : Drains s3 s4 := by
    unfold s4
    split
    · exact drains_eq rfl rfl
    · exact Drains.refl _
  exact h1.trans (h2.trans (h3.trans (h4.trans (drains_raise _ _))))

theorem drains_tryOpen (o : Opening) (s : State) : Drains s (s.tryOpen o) := by
  unfold State.tryOpen
  split
  · exact drains_openEpisode o s
  · exact drains_countUncaptured _ s

theorem drains_retire (e : Episode) (r : CloseReason) (m : Moment) (s : State) : Drains s (s.retire e r m) :=
  (drains_offerVerdict _ _).after rfl rfl

theorem drains_closeEpisode (e : Episode) (r : CloseReason) (m : Moment) (s : State) :
    Drains s (s.closeEpisode e r m) :=
  (drains_offerVerdict _ _).after rfl rfl

theorem drains_closeOf (key slot : Nat) (r : CloseReason) (m : Moment) (s : State) :
    Drains s (s.closeOf key slot r m) := by
  unfold State.closeOf
  split
  · exact drains_closeEpisode _ _ _ s
  · exact Drains.refl s

theorem drains_demandClose (named : Episode → Bool) (r : CloseReason) (s : State) :
    Drains s (s.demandClose named r) :=
  drains_foldl (fun _ _ => drains_closeOf _ _ _ _ _) _ _

theorem drains_endTrueRun (h : Handed) (s : State) : Drains s (s.endTrueRun h) := by
  unfold State.endTrueRun
  split
  · exact drains_closeOf _ _ _ _ s
  · exact drains_of rfl (fun d hd => (List.mem_filter.1 hd).1)

theorem drains_applyOutcome (h : Handed) (s : State) : Drains s (s.applyOutcome h) := by
  unfold State.applyOutcome
  split
  · split
    · exact drains_tryOpen _ _
    · exact Drains.refl s
  · extract_lets s'
    have h1 : Drains s s' := drains_eq rfl rfl
    refine h1.trans ?_
    split
    · exact drains_eq rfl rfl
    · exact drains_endTrueRun _ _
    · exact drains_eq rfl rfl
    · exact Drains.refl _

theorem drains_countHoldOff (key slot : Nat) (s : State) : Drains s (s.countHoldOff key slot) := by
  unfold State.countHoldOff
  split
  · split
    · split
      · exact drains_closeEpisode _ _ _ s
      · exact drains_eq rfl rfl
    · exact Drains.refl s
  · exact Drains.refl s

theorem drains_continueEpisode (e : Episode) (s : State) : Drains s (s.continueEpisode e) := by
  unfold State.continueEpisode
  simp only
  refine Drains.trans (drains_retire e .continued s.tickNow s) ?_
  split
  · exact drains_openEpisode _ _
  · exact (drains_countUncaptured _ _).after rfl rfl

theorem drains_checkLength (key slot : Nat) (s : State) : Drains s (s.checkLength key slot) := by
  unfold State.checkLength
  split
  · split
    · split
      · exact drains_continueEpisode _ s
      · exact drains_closeEpisode _ _ _ s
    · exact Drains.refl s
  · exact Drains.refl s

/-! ### The window engine and the band -/

theorem drains_setAcc (i slot : Nat) (a : Acc) (s : State) : Drains s (s.setAcc i slot a) := drains_eq rfl rfl

theorem drains_evaluate (i slot : Nat) (e : LimitEntry) (r : Reading) (closing : Bool) (s : State) :
    Drains s (s.evaluate i slot e r closing) := by
  unfold State.evaluate
  extract_lets cell reference raw final s1 s2
  have h1 : Drains s s1 := drains_eq rfl rfl
  have h2 : Drains s1 s2 := by
    unfold s2
    split
    · exact drains_applyOutcome _ _
    · exact Drains.refl _
  refine h1.trans (h2.trans ?_)
  split
  · exact drains_offer _ _
  · exact Drains.refl _

theorem drains_endWindow (p : Nat × LimitEntry × Nat) (s : State) : Drains s (s.endWindow p) := by
  unfold State.endWindow
  split
  · split
    · split
      · exact Drains.refl s
      · exact (drains_setAcc _ _ _ _).trans (drains_evaluate _ _ _ _ _ _)
    · split
      · split
        · exact Drains.refl s
        · exact (drains_setAcc _ _ _ _).trans (drains_evaluate _ _ _ _ _ _)
      · exact Drains.refl s
    · exact Drains.refl s
  · exact Drains.refl s

theorem drains_endWindows (s : State) : Drains s s.endWindows := by
  unfold State.endWindows
  split
  · exact drains_foldl (fun _ _ => drains_endWindow _ _) _ _
  · exact Drains.refl s

theorem drains_openIdle (minute : Bool) (p : Nat × LimitEntry × Nat) (s : State) :
    Drains s (s.openIdle minute p) := by
  unfold State.openIdle
  split
  · split
    · exact drains_setAcc _ _ _ _
    · exact Drains.refl s
  · exact Drains.refl s

theorem drains_bandWindow (old : Nat) (minute : Bool) (p : Nat × LimitEntry × Nat) (s : State) :
    Drains s (s.bandWindow old minute p) := by
  unfold State.bandWindow
  extract_lets now active
  split
  · exact (drains_setAcc _ _ _ _).trans (drains_evaluate _ _ _ _ _ _)
  · split
    · exact Drains.refl s
    · split
      · exact drains_setAcc _ _ _ _
      · exact (drains_setAcc _ _ _ _).trans (drains_evaluate _ _ _ _ _ _)
  · split
    · exact Drains.refl s
    · exact drains_setAcc _ _ _ _
  · split
    · exact Drains.refl s
    · exact drains_openIdle _ _ _
  · exact Drains.refl s

theorem drains_bandWindows (old : Nat) (minute : Bool) (s : State) : Drains s (s.bandWindows old minute) :=
  drains_foldl (fun _ _ => drains_bandWindow _ _ _ _) _ _

theorem drains_bandPlant (s : State) : Drains s s.bandPlant := drains_eq rfl rfl

theorem drains_bandEvent (old : Nat) (minute first : Bool) (s : State) :
    Drains s (s.bandEvent old minute first) := by
  unfold State.bandEvent
  split
  · exact ((drains_demandClose _ _ _).trans (drains_bandWindows _ _ _)).trans (drains_bandPlant _)
  · exact ((drains_bandWindows _ _ _).trans (drains_demandClose _ _ _)).trans (drains_bandPlant _)

theorem drains_decideBand (minute first : Bool) (s : State) : Drains s (s.decideBand minute first) := by
  unfold State.decideBand
  split
  · exact Drains.refl s
  · exact (drains_bandEvent _ _ _ _).after rfl rfl

/-! ### The other pieces of work -/

theorem drains_stallSlot (slot : Nat) (s : State) : Drains s (s.stallSlot slot) := by
  unfold State.stallSlot
  split
  · split
    · exact ((drains_raise _ _).trans (drains_demandClose _ _ _)).after rfl rfl
    · exact Drains.refl s
  · exact Drains.refl s

theorem drains_recognise (input : Input) (s : State) : Drains s (s.recognise input) := by
  cases input with
  | plant line =>
    change Drains s (State.changeLine _ _ s)
    unfold State.changeLine
    split
    · exact Drains.refl s
    · extract_lets new s1
      have h1 : Drains s s1 := drains_eq rfl rfl
      split
      · exact h1.trans (drains_eq rfl rfl)
      · exact h1
  | mark =>
    refine Drains.trans (t := s.setMark s.plant.mark.recognise) (drains_eq rfl rfl) ?_
    change Drains _ (State.press _)
    unfold State.press
    split
    · exact Drains.refl _
    · exact (drains_raise _ _).after rfl rfl
  | certify =>
    change Drains s (State.raise _ _)
    exact (drains_raise _ _).after rfl rfl

theorem drains_offerMark (s : State) : Drains s s.offerMark := by
  unfold State.offerMark
  split
  · exact Drains.refl s
  · split
    · exact (drains_admit _ _).after rfl rfl
    · exact Drains.refl s

theorem drains_offerSummary (s : State) : Drains s s.offerSummary := by
  unfold State.offerSummary
  split
  · exact (drains_admit _ _).after rfl rfl
  · exact drains_drop s

theorem drains_summaryUnderflow (s : State) : Drains s s.summaryUnderflow := by
  unfold State.summaryUnderflow
  extract_lets src s1 records s2
  have h1 : Drains s s1 := drains_eq rfl rfl
  have h2 : Drains s1 s2 :=
    drains_asOneAction (fun s' =>
      (drains_offerSummary s').trans (drains_foldl (fun _ _ => drains_offer _ _) _ _)) s1
  exact (h1.trans h2).trans (drains_eq rfl rfl)

theorem drains_endCommit (r : CommitResult) (n : Notice) (s : State) : Drains s (s.endCommit r n) :=
  (drains_raise _ _).after rfl rfl

theorem drains_closeKey (s : State) (key : Nat) : Drains s (s.closeKey key) := by
  unfold State.closeKey
  split
  · exact Drains.refl s
  · exact (drains_demandClose _ _ _).trans (drains_demandClose _ _ _)

theorem drains_swap (c : SwapChoice) (s : State) : Drains s (s.swap c) := by
  unfold State.swap
  extract_lets s1 s2
  have h1 : Drains s s1 :=
    (drains_foldl (fun s' key => drains_closeKey s' key) _ _).trans (drains_eq rfl rfl)
  have h2 : Drains s1 s2 := (drains_decideBand _ _ _).after rfl rfl
  exact (h1.trans h2).trans
    ((drains_foldl (fun _ _ => drains_openIdle _ _ _) _ _).trans (drains_endCommit _ _ _))

theorem drains_checkCommit (c : SwapChoice) (s : State) : Drains s (s.checkCommit c) := by
  unfold State.checkCommit
  split
  · split
    · exact drains_endCommit _ _ _
    · exact drains_swap _ _
  · exact Drains.refl s

/-- Every piece of work but the cadence count, which may make the summary underflow due. -/
theorem drains_work {c : TickChoice} {d : Due} (h : d ≠ .cadence) (s : State) : Drains s (s.work c d) := by
  cases d with
  | runCounts => exact drains_eq rfl rfl
  | windows => exact drains_endWindows s
  | band => exact drains_decideBand _ _ s
  | cadence => exact absurd rfl h
  | summary => exact drains_summaryUnderflow s
  | verdicts => exact drains_offerVerdicts _ s
  | mark => exact drains_offerMark s
  | commit => exact drains_checkCommit _ s
  | stall slot => exact drains_stallSlot slot s
  | holdOff key slot => exact drains_countHoldOff key slot s
  | maximumLength key slot => exact drains_checkLength key slot s
  | pulse line => exact drains_eq rfl rfl
  | flash line => exact drains_eq rfl rfl
  | recognition input => exact drains_recognise input s

theorem due_countCadence (s : State) : s.countCadence.ports = s.ports ∧
    ∀ d, d ∈ s.countCadence.due → d ∈ s.due ∨ d = .summary := by
  unfold State.countCadence State.addDue
  simp only
  split
  · split
    · exact ⟨rfl, fun d h => Or.inl h⟩
    · exact ⟨rfl, fun d h => (List.mem_append.1 h).imp id List.mem_singleton.1⟩
  · exact ⟨rfl, fun d h => Or.inl h⟩

/-! ### Everything outstanding runs out -/

/-- What a piece of work taken when it is due leaves. -/
theorem due_takeDue {c : TickChoice} {d : Due} {s : State} (h : d ∈ s.due) :
    (s.ports.gatewayTx ≠ none → (s.takeDue c d).ports.gatewayTx ≠ none) ∧
    ∀ x, x ∈ (s.takeDue c d).due → (x ∈ s.due ∧ x ≠ d) ∨ (x = .summary ∧ d = .cadence) ∨
      (x = .verdicts ∧ s.ports.gatewayTx = none ∧ (s.takeDue c d).ports.gatewayTx ≠ none) := by
  have ht : s.takeDue c d = (s.clearDue d).work c d := by
    unfold State.takeDue State.isDue
    rw [if_pos (by simpa using h)]
  have hc : ∀ x, x ∈ (s.clearDue d).due → x ∈ s.due ∧ x ≠ d := fun x hx => by
    have := List.mem_filter.1 hx
    exact ⟨this.1, by simpa using this.2⟩
  rw [ht]
  by_cases hd : d = .cadence
  · subst hd
    obtain ⟨hp, hm⟩ := due_countCadence (s.clearDue .cadence)
    change (_ → (State.countCadence _).ports.gatewayTx ≠ none) ∧ ∀ x, x ∈ (State.countCadence _).due → _
    rw [hp]
    refine ⟨fun b => b, fun x hx => ?_⟩
    rcases hm x hx with hx | rfl
    · exact Or.inl (hc x hx)
    · exact Or.inr (Or.inl ⟨rfl, rfl⟩)
  · have hw := drains_work (c := c) hd (s.clearDue d)
    refine ⟨hw.busy, fun x hx => ?_⟩
    rcases hw.due x hx with hx | ⟨rfl, hi, hb⟩
    · exact Or.inl (hc x hx)
    · exact Or.inr (Or.inr ⟨rfl, hi, hb⟩)

theorem takeDue_id {c : TickChoice} {d : Due} {s : State} (h : d ∉ s.due) : s.takeDue c d = s := by
  unfold State.takeDue State.isDue
  rw [if_neg (by simpa using h)]

/-- What is left to take: the pieces that are due, one for a transmitter that may yet start, and one for a
cadence count that may yet make the summary underflow due. -/
def State.outstanding (s : State) : Nat :=
  s.due.toFinset.card + (if s.ports.gatewayTx = none then 1 else 0) + (if .cadence ∈ s.due then 1 else 0)

theorem outstanding_takeDue {c : TickChoice} {d : Due} {s : State} (h : d ∈ s.due) :
    (s.takeDue c d).outstanding < s.outstanding := by
  obtain ⟨hb, hd⟩ := due_takeDue (c := c) h
  generalize s.takeDue c d = t at hb hd
  have he : (s.due.toFinset.erase d).card + 1 = s.due.toFinset.card :=
    Finset.card_erase_add_one (List.mem_toFinset.2 h)
  have hcad : (.cadence ∈ t.due) → .cadence ∈ s.due ∧ d ≠ .cadence := fun hm => by
    rcases hd _ hm with hx | ⟨hx, _⟩ | ⟨hx, _⟩
    · exact ⟨hx.1, fun e => hx.2 e.symm⟩
    · cases hx
    · cases hx
  unfold State.outstanding
  by_cases hc : d = .cadence
  · subst hc
    have hnot : .cadence ∉ t.due := fun hm => (hcad hm).2 rfl
    rw [if_neg hnot, if_pos h]
    by_cases hi : s.ports.gatewayTx = none ∧ t.ports.gatewayTx ≠ none
    · have hsub : t.due.toFinset ⊆ insert .verdicts (insert .summary (s.due.toFinset.erase .cadence)) := by
        intro x hx
        simp only [Finset.mem_insert, Finset.mem_erase, List.mem_toFinset] at hx ⊢
        rcases hd x hx with h1 | ⟨h1, _⟩ | ⟨h1, _⟩
        · exact Or.inr (Or.inr ⟨h1.2, h1.1⟩)
        · exact Or.inr (Or.inl h1)
        · exact Or.inl h1
      have h1 := Finset.card_le_card hsub
      have h2 := Finset.card_insert_le Due.verdicts (insert .summary (s.due.toFinset.erase .cadence))
      have h3 := Finset.card_insert_le Due.summary (s.due.toFinset.erase .cadence)
      rw [if_pos hi.1, if_neg hi.2]
      omega
    · have hsub : t.due.toFinset ⊆ insert .summary (s.due.toFinset.erase .cadence) := by
        intro x hx
        simp only [Finset.mem_insert, Finset.mem_erase, List.mem_toFinset] at hx ⊢
        rcases hd x hx with h1 | ⟨h1, _⟩ | ⟨_, h1⟩
        · exact Or.inr ⟨h1.2, h1.1⟩
        · exact Or.inl h1
        · exact absurd h1 hi
      have h1 := Finset.card_le_card hsub
      have h3 := Finset.card_insert_le Due.summary (s.due.toFinset.erase .cadence)
      have h4 : (if t.ports.gatewayTx = none then 1 else 0) ≤ (if s.ports.gatewayTx = none then 1 else 0) := by
        split
        · next ht => rw [if_pos (by_contra (fun hs => hb hs ht))]
        · omega
      omega
  · have h5 : (if Due.cadence ∈ t.due then 1 else 0) ≤ (if Due.cadence ∈ s.due then 1 else 0) := by
      split
      · next hm => rw [if_pos (hcad hm).1]
      · omega
    by_cases hi : s.ports.gatewayTx = none ∧ t.ports.gatewayTx ≠ none
    · have hsub : t.due.toFinset ⊆ insert .verdicts (s.due.toFinset.erase d) := by
        intro x hx
        simp only [Finset.mem_insert, Finset.mem_erase, List.mem_toFinset] at hx ⊢
        rcases hd x hx with h1 | ⟨_, h1⟩ | ⟨h1, _⟩
        · exact Or.inr ⟨h1.2, h1.1⟩
        · exact absurd h1 hc
        · exact Or.inl h1
      have h1 := Finset.card_le_card hsub
      have h2 := Finset.card_insert_le Due.verdicts (s.due.toFinset.erase d)
      rw [if_pos hi.1, if_neg hi.2]
      omega
    · have hsub : t.due.toFinset ⊆ s.due.toFinset.erase d := by
        intro x hx
        simp only [Finset.mem_erase, List.mem_toFinset] at hx ⊢
        rcases hd x hx with h1 | ⟨_, h1⟩ | ⟨_, h1⟩
        · exact ⟨h1.2, h1.1⟩
        · exact absurd h1 hc
        · exact absurd h1 hi
      have h1 := Finset.card_le_card hsub
      have h4 : (if t.ports.gatewayTx = none then 1 else 0) ≤ (if s.ports.gatewayTx = none then 1 else 0) := by
        split
        · next ht => rw [if_pos (by_contra (fun hs => hb hs ht))]
        · omega
      omega

theorem outstanding_takeDue_le (c : TickChoice) (d : Due) (s : State) :
    (s.takeDue c d).outstanding ≤ s.outstanding := by
  by_cases h : d ∈ s.due
  · exact (outstanding_takeDue h).le
  · rw [takeDue_id h]

theorem outstanding_takeTick {c : TickChoice} {d : Due} {s : State} (h : d ∈ s.due) :
    (s.takeTick c d).outstanding < s.outstanding := by
  unfold State.takeTick
  split
  · by_cases hw : .windows ∈ s.due
    · exact lt_of_le_of_lt (outstanding_takeDue_le _ _ _) (outstanding_takeDue hw)
    · rw [takeDue_id (d := .windows) hw]
      exact outstanding_takeDue h
  · exact outstanding_takeDue h

/-- Nothing is left due once as many pieces have been taken as were outstanding. -/
theorem flush_done (c : TickChoice) {n : Nat} {s : State} (h : s.outstanding ≤ n) : (s.flush c n).due = [] := by
  induction n generalizing s with
  | zero =>
    have : s.due.toFinset.card = 0 := by
      unfold State.outstanding at h
      omega
    unfold State.flush
    simpa using this
  | succ n ih =>
    unfold State.flush
    split
    · next hs => exact hs
    · next d rest hs =>
      refine ih ?_
      have := outstanding_takeTick (c := c) (d := d) (s := s) (by rw [hs]; exact List.mem_cons_self)
      omega

theorem finishDue_eq (c : TickChoice) (s : State) : s.finishDue c = s.flush c (s.due.length + 4) := by
  have h : (s.flush c (s.due.length + 4)).due = [] := by
    refine flush_done c ?_
    have := s.due.toFinset_card_le
    unfold State.outstanding
    split <;> split <;> omega
  unfold State.finishDue
  rw [← h]

end Sys2Proof.Machine
end

