-- ==== Sys2Proof/Laws/Frames.lean ====
section
/-! SUPPORT. Envelopes: a validated frame is the envelope of its payload and the other way round, and what
delimiting finds behind bytes without a marker. -/

namespace Sys2Proof.Machine

theorem payloadOf_envelope (kind : FrameKind) (payload : List Byte) :
    payloadOf (envelope kind payload) = payload := by
  simp [payloadOf, envelope, byte1, byte2, List.dropLast_append_of_ne_nil]

theorem length_envelope (kind : FrameKind) (payload : List Byte) :
    (envelope kind payload).length = payload.length + 5 := by
  simp [envelope, byte1, byte2]

theorem ofByte_code (kind : FrameKind) : FrameKind.ofByte (BitVec.ofNat 8 kind.code) = some kind := by
  cases kind <;> decide

/-- An envelope with a payload of its kind is validated where its kind is taken. -/
theorem validate_envelope {takes : FrameKind → Bool} {kind : FrameKind} {payload : List Byte}
    (hl : payload.length ≤ 248) (hs : kind = .slice → payload.length = 9) (ht : takes kind = true) :
    validate takes (envelope kind payload) = some kind := by
  unfold validate
  rw [if_neg (by rw [length_envelope]; omega), payloadOf_envelope, length_envelope]
  have h1 : (envelope kind payload).getD 1 0 = BitVec.ofNat 8 kind.code := by
    simp [envelope, byte1]
  have h2 : (envelope kind payload).getD 2 0 = BitVec.ofNat 8 payload.length := by
    simp [envelope, byte1]
  have h3 : (envelope kind payload).drop (payload.length + 5 - 2) =
      byte2 (checkOf (byte1 kind.code ++ byte1 payload.length ++ payload)).toNat := by
    have : payload.length + 5 - 2 =
        ([0x7E#8] ++ (byte1 kind.code ++ byte1 payload.length ++ payload)).length := by
      simp [byte1]
    unfold envelope
    rw [this, List.drop_left']
    rfl
  rw [h1, h2, h3]
  dsimp only
  rw [ofByte_code]
  have h4 : (BitVec.ofNat 8 payload.length).toNat = payload.length := by
    rw [BitVec.toNat_ofNat, Nat.mod_eq_of_lt (by omega)]
  exact if_pos ⟨by rw [h4]; exact hl, h4, rfl, hs, ht⟩

theorem code_ofByte {b : Byte} {kind : FrameKind} (h : FrameKind.ofByte b = some kind) :
    b = BitVec.ofNat 8 kind.code := by
  unfold FrameKind.ofByte at h
  have := List.find?_some h
  simp only [beq_iff_eq] at this
  exact this.symm

/-- A validated frame behind a start marker is the envelope of its payload. -/
theorem envelope_of_validate {takes : FrameKind → Bool} {kind : FrameKind} {frame : Frame}
    (hm : frame.head? = some 0x7E) (h : validate takes frame = some kind) :
    frame = envelope kind (payloadOf frame) ∧ (payloadOf frame).length ≤ 248 ∧
      (kind = .slice → (payloadOf frame).length = 9) ∧ takes kind = true := by
  unfold validate at h
  split at h
  · simp at h
  next hlen =>
  dsimp only at h
  split at h
  · simp at h
  next k hk =>
  split at h
  next hc =>
    obtain ⟨c1, c2, c3, c4, c5⟩ := hc
    have hkk : k = kind := Option.some.inj h
    subst hkk
    refine ⟨?_, by rw [← c2]; exact c1, c4, c5⟩
    match frame, hm, hlen, hk, c2, c3 with
    | m :: a :: b :: rest, hm, hlen, hk, c2, c3 =>
      have hmm : m = 0x7E := by simpa using hm
      have ha : a = BitVec.ofNat 8 k.code := code_ofByte hk
      have hp : payloadOf (m :: a :: b :: rest) = rest.dropLast.dropLast := rfl
      rw [hp] at c2 c3 ⊢
      have hb : b = BitVec.ofNat 8 rest.dropLast.dropLast.length := by
        have : b.toNat = rest.dropLast.dropLast.length := c2
        rw [← this, BitVec.ofNat_toNat, BitVec.setWidth_eq]
      have hr : 2 ≤ rest.length := by simp at hlen; omega
      have ht : rest.dropLast.dropLast = rest.take (rest.length - 2) := by
        rw [List.dropLast_eq_take, List.dropLast_eq_take, List.take_take]
        congr 1
        simp
        omega
      have hd : (m :: a :: b :: rest).drop ((m :: a :: b :: rest).length - 2) =
          rest.drop (rest.length - 2) := by
        have : (m :: a :: b :: rest).length - 2 = rest.length - 2 + 3 := by simp; omega
        rw [this]
        rfl
      rw [hd] at c3
      have e : rest = rest.dropLast.dropLast ++ rest.drop (rest.length - 2) := by
        rw [ht, List.take_append_drop]
      unfold envelope
      rw [show byte1 k.code ++ byte1 rest.dropLast.dropLast.length ++ rest.dropLast.dropLast =
        a :: b :: rest.dropLast.dropLast by rw [ha, hb]; simp [byte1]]
      dsimp only
      rw [show checkOf (a :: b :: rest.dropLast.dropLast) = checkOf
        ((m :: a :: b :: rest).getD 1 0 :: (m :: a :: b :: rest).getD 2 0 :: rest.dropLast.dropLast)
        from rfl, c3, hmm]
      simp only [List.cons_append, List.nil_append]
      rw [← e]
    | [m, a], _, hlen, _, _, _ => simp at hlen
    | [m], _, hlen, _, _, _ => simp at hlen
    | [], hm, _, _, _, _ => simp at hm
  · simp at h

/-- Bytes without a marker are passed over. -/
theorem delimit_unmarked {junk bytes : List Byte} (h : Unmarked junk) :
    delimit (junk ++ bytes) = delimit bytes := by
  unfold delimit
  induction junk with
  | nil => rfl
  | cons b junk ih =>
    have hb := h b (List.mem_cons_self ..)
    rw [List.cons_append, List.dropWhile_cons_of_pos (by simpa using hb)]
    exact ih (fun x hx => h x (List.mem_cons_of_mem _ hx))

theorem delimit_marked {frame : Frame} (h : frame.head? = some 0x7E) : delimit frame = frame := by
  match frame, h with
  | b :: rest, h =>
    have hb : b = 0x7E := by simpa using h
    unfold delimit
    rw [List.dropWhile_cons_of_neg (by simp [hb])]

theorem head_envelope (kind : FrameKind) (payload : List Byte) :
    (envelope kind payload).head? = some 0x7E := rfl

/-- A frame at the field port is validated exactly when it is a frame of the port. -/
theorem validate_field {frame : Frame} {kind : FrameKind} (hm : frame.head? = some 0x7E) :
    validate fieldTakes frame = some kind ↔ FieldFrame kind (payloadOf frame) frame := by
  constructor
  · intro h
    obtain ⟨h1, h2, h3, h4⟩ := envelope_of_validate hm h
    refine ⟨h1, ?_, h2, h3⟩
    rintro rfl
    simp [fieldTakes] at h4
  · rintro ⟨h1, h2, h3, h4⟩
    rw [h1]
    exact validate_envelope h3 h4 (by cases kind <;> first | rfl | exact absurd rfl h2)

/-- A frame at the gateway port is validated exactly when it is a CONTROL frame. -/
theorem validate_gateway {frame : Frame} {kind : FrameKind} (hm : frame.head? = some 0x7E) :
    validate gatewayTakes frame = some kind ↔ kind = .control ∧ GatewayFrame (payloadOf frame) frame := by
  constructor
  · intro h
    obtain ⟨h1, h2, _, h4⟩ := envelope_of_validate hm h
    cases kind <;> first | exact ⟨rfl, h1, h2⟩ | simp [gatewayTakes] at h4
  · rintro ⟨rfl, h1, h2⟩
    rw [h1]
    exact validate_envelope h2 (by simp) rfl

end Sys2Proof.Machine
end

