-- ==== Sys2Proof/Laws/Steps.lean ====
section
/-! SUPPORT. What every command but a reset keeps: the queue of commands, the pins' hold, the strap
address, every capacity, the legal values of the clock and band, and the frozen entries. -/

namespace Sys2Proof.Machine

/-- What every command but a reset keeps. -/
structure Keeps (s t : State) : Prop where
  pending : t.pending = s.pending
  held    : t.held = s.held
  strap   : t.ports.strap = s.ports.strap
  sizes   : s.Capacities → t.Capacities
  legal   : s.clock.Legal → s.BandLegal → t.clock.Legal ∧ t.BandLegal
  tables  : s.table.Carries t.table

theorem Keeps.refl (s : State) : Keeps s s :=
  ⟨rfl, rfl, rfl, fun h => h, fun h b => ⟨h, b⟩, LimitTable.Carries.refl _⟩

theorem Keeps.trans {s t u : State} (h : Keeps s t) (k : Keeps t u) : Keeps s u :=
  ⟨k.pending.trans h.pending, k.held.trans h.held, k.strap.trans h.strap, fun c => k.sizes (h.sizes c),
    fun l b => k.legal (h.legal l b).1 (h.legal l b).2, h.tables.trans k.tables⟩

theorem legal_of {c d : Clock} (h : d = { c with band := d.band }) (l : c.Legal) : d.Legal := by
  rw [h]
  exact ⟨l.1, l.2, l.3, l.4, l.5, l.6⟩

theorem Runs.keeps {k : Due → Bool} {s t : State} (h : Runs k s t) : Keeps s t :=
  ⟨h.pending, h.held, h.strap, fun c => ⟨h.links c.1, h.records c.2, by rw [h.queries]; exact c.3⟩,
    fun l b => ⟨legal_of h.clock l, h.bands b⟩, h.tables⟩

/-- A change that touches nothing that Keeps names. -/
theorem keeps_of {s t : State} (hp : t.pending = s.pending) (hh : t.held = s.held)
    (hs : t.ports = s.ports) (hr : t.report = s.report) (he : t.episodes.used = s.episodes.used)
    (hq : t.cadence.queries.length ≤ s.cadence.queries.length)
    (hc : t.clock = s.clock) (ha : t.schedule.activeBands = s.schedule.activeBands)
    (hg : t.schedule.stagedBands.length = s.schedule.stagedBands.length ∨
      t.schedule.stagedBands.length = s.schedule.activeBands.length) (ht : t.table = s.table) :
    Keeps s t :=
  ⟨hp, hh, by rw [hs], fun c => ⟨linkBounds_of hs hr c.1, by
      unfold State.RecordBound; rw [he]; exact c.2, Nat.le_trans hq c.3⟩,
    fun l b => ⟨by rw [hc]; exact l, by rw [hc]; exact b.1, by rw [hc]; exact b.2, by rw [ha]; exact b.3,
      hg.elim (fun x => by rw [x]; exact b.4) (fun x => by rw [x]; exact b.3)⟩,
    by rw [ht]; exact LimitTable.Carries.refl _⟩

/-! ### Items -/

theorem keeps_writeItems (rest : List Byte) (taken : Nat) (items : List ReplyItem) (s : State) :
    Keeps s (s.writeItems rest taken items) :=
  ⟨rfl, rfl, rfl, capacities_writeItems, fun l b => ⟨l, b.1, b.2, b.3, b.4⟩, LimitTable.Carries.refl _⟩

theorem keeps_takeItem {α : Type} {c : CommandCode} {form : List Byte → Option α} {body : Body α}
    (hb : ∀ o ops, form o = some ops → ∀ m s, Keeps s (body ops m s).1) (s : State) :
    Keeps s (s.takeItem c form body) := by
  have hw : Keeps s s.settleCommit := (runs_settleCommit s).keeps
  unfold State.takeItem
  split
  · exact Keeps.refl s
  · split
    · split
      · refine Keeps.trans ?_ (keeps_writeItems _ _ _ _)
        unfold State.runItem
        split
        · exact hw
        · next h =>
          split
          · exact hw.trans (hb _ _ h _ _)
          · exact hw
      · exact Keeps.refl s
    · exact Keeps.refl s

/-- A body that changes nothing. -/
theorem keeps_takeItem_of_eq {α : Type} {c : CommandCode} {form : List Byte → Option α} {body : Body α}
    (hb : ∀ ops m s, (body ops m s).1 = s) (s : State) : Keeps s (s.takeItem c form body) :=
  keeps_takeItem (fun _ ops _ m s => by rw [hb ops m s]; exact Keeps.refl s) s

theorem keeps_install (q : QueryCommand) (tag : Byte) (a : Answer) (s : State) :
    Keeps s (s.install q tag a).1 := by
  unfold State.install
  split
  · exact keeps_of rfl rfl rfl rfl rfl (by simp [State.setQueries, renewQuery]) rfl rfl (.inl rfl) rfl
  · split
    · next h =>
      exact ⟨rfl, rfl, rfl, fun c => ⟨linkBounds_of (s := s) rfl rfl c.1, c.2, by
        simp only [State.setQueries, List.length_append, List.length_singleton]
        omega⟩, fun l b => ⟨l, b.1, b.2, b.3, b.4⟩, LimitTable.Carries.refl _⟩
    · exact Keeps.refl s

theorem keeps_readKept (q : QueryCommand) (m : Modifiers) (s : State) : Keeps s (s.readKept q m).1 := by
  unfold State.readKept
  extract_lets a
  split
  · exact Keeps.refl s
  · split
    · exact keeps_install _ _ _ _
    · exact Keeps.refl s

/-! ### The limit table -/

theorem at_set (t : EntryTable) (i j : Nat) (x : Option LimitEntry) :
    EntryTable.at (t.set i x) j = if i = j ∧ i < t.length then x else EntryTable.at t j := by
  unfold EntryTable.at
  rw [List.getElem?_set]
  by_cases h : i = j
  · subst h
    by_cases hl : i < t.length
    · simp [hl]
    · simp [hl]
  · simp [h]

/-- A write at indices that are not frozen. -/
theorem carries_setStaged {t : LimitTable} {u : EntryTable} (hl : u.length = t.staged.length)
    (hu : ∀ i, t.frozen.getLsbD i = true → EntryTable.at u i = t.staged.at i) :
    t.Carries { t with staged := u } :=
  ⟨fun e => ⟨e.active, by rw [hl]; exact e.staged, fun i hi => (hu i hi).trans (e.equal i hi)⟩,
    fun _ hi => hi, fun _ _ _ => rfl⟩

theorem keeps_setTable {s : State} {t : LimitTable} (h : s.table.Carries t) :
    Keeps s { s with table := t } :=
  ⟨rfl, rfl, rfl, fun c => ⟨⟨c.1.1, c.1.2, c.1.3, c.1.4, c.1.5, c.1.6, c.1.7, c.1.8, c.1.9, c.1.10⟩, c.2, c.3⟩,
    fun l b => ⟨l, b.1, b.2, b.3, b.4⟩, h⟩

theorem write_frozen {start n : Nat} {xs : List (LimitEntry × Nat)} {t u : EntryTable} {i : Nat}
    (hx : ∀ x, x ∈ xs → x.2 < n) (hi : ∀ k, k < n → pageIndex start k ≠ i)
    (h : EntryTable.at u i = EntryTable.at t i) :
    EntryTable.at (xs.foldl (fun t' p => t'.set (pageIndex start p.2) (some p.1)) u) i =
      EntryTable.at t i := by
  induction xs generalizing u with
  | nil => exact h
  | cons x xs ih =>
    refine ih (fun y hy => hx y (List.mem_cons_of_mem _ hy)) ?_
    have hk := hi x.2 (hx x (List.mem_cons_self ..))
    have ha := at_set u (pageIndex start x.2) i (some x.1)
    rw [if_neg (fun hc => hk hc.1)] at ha
    rw [ha]
    exact h

theorem length_write (start : Nat) (xs : List (LimitEntry × Nat)) (u : EntryTable) :
    (xs.foldl (fun t' p => t'.set (pageIndex start p.2) (some p.1)) u).length = u.length := by
  induction xs generalizing u with
  | nil => rfl
  | cons x xs ih => simp [List.foldl_cons, ih]

theorem keeps_writeEntries (start : Nat) (entries : List LimitEntry) (s : State) :
    Keeps s (s.writeEntries start entries).1 := by
  unfold State.writeEntries
  extract_lets indices
  split
  · exact Keeps.refl s
  · split
    · exact Keeps.refl s
    · next hf =>
      split
      · exact Keeps.refl s
      · refine keeps_setTable (carries_setStaged (length_write _ _ _) (fun i hi => ?_))
        refine write_frozen (n := entries.length) (fun x hx => ?_) (fun k hk he => ?_) rfl
        · exact (List.mem_zipIdx' hx).1
        · apply hf
          rw [List.any_eq_true]
          exact ⟨i, List.mem_map.2 ⟨k, List.mem_range.2 hk, he⟩, hi⟩

theorem getLsbD_setInsert_iff {w : Nat} {m : BitVec w} {i j : Nat} :
    (setInsert m i).getLsbD j = (m.getLsbD j || (decide (j < w) && decide (i = j))) := by
  simp only [setInsert, BitVec.getLsbD_or, BitVec.getLsbD_twoPow]
  by_cases h : i = j
  · subst h
    rfl
  · simp [h]

theorem mem_entries {t : EntryTable} {i : Nat} {e : LimitEntry} :
    (i, e) ∈ t.entries ↔ t.at i = some e := by
  unfold EntryTable.entries EntryTable.at
  simp only [List.mem_filterMap, Prod.exists, List.mem_zipIdx_iff_getElem?, Option.map_eq_some_iff,
    Prod.mk.injEq]
  constructor
  · rintro ⟨a, b, h1, e', h2, h3, h4⟩
    subst h3 h4 h2
    simp [h1]
  · intro h
    refine ⟨some e, i, ?_, e, rfl, rfl, rfl⟩
    simpa [Option.join_eq_some_iff] using h

theorem find_entry {t : EntryTable} {key i : Nat} {e : LimitEntry} (h : t.find key = some (i, e)) :
    t.at i = some e ∧ e.key = key := by
  unfold EntryTable.find at h
  exact ⟨mem_entries.1 (List.mem_of_find?_eq_some h), by simpa using List.find?_some h⟩

theorem at_lt {t : EntryTable} {i : Nat} {e : LimitEntry} (h : t.at i = some e) : i < t.length := by
  unfold EntryTable.at at h
  rcases Nat.lt_or_ge i t.length with hl | hl
  · exact hl
  · rw [List.getElem?_eq_none hl] at h
    simp at h

theorem carries_freeze {t : LimitTable} {i : Nat} (h : t.active.length = Config.entryCount → i < 64) :
    t.Carries (t.freeze i) := by
  refine ⟨fun e => ⟨e.active, ?_, fun j hj => ?_⟩, fun j hj => ?_, fun _ _ _ => rfl⟩
  · simp only [LimitTable.freeze, List.length_set]
    exact e.staged
  · have hlt := h e.active
    have hs := at_set t.staged i j (t.active.at i)
    simp only [LimitTable.freeze, getLsbD_setInsert_iff] at hj ⊢
    rw [hs]
    by_cases hij : i = j
    · subst hij
      simp [e.staged, Config.entryCount, hlt]
    · simp only [hij, false_and, if_false]
      simp only [hij, decide_false, Bool.and_false, Bool.or_false] at hj
      exact e.equal j hj
  · simp only [LimitTable.freeze, getLsbD_setInsert_iff, hj, Bool.true_or]

theorem carries_revert (t : LimitTable) : t.Carries { t with staged := t.active } :=
  ⟨fun e => ⟨e.active, e.active, fun _ _ => rfl⟩, fun _ h => h, fun _ _ _ => rfl⟩

/-- The commit state and the last result change; both tables stay. -/
theorem carries_result (t : LimitTable) (p : Bool) (r : Option CommitResult) :
    t.Carries { t with pending := p, lastResult := r } :=
  ⟨fun e => ⟨e.active, e.staged, e.equal⟩, fun _ h => h, fun _ _ _ => rfl⟩

/-! ### The bodies -/

theorem keeps_removeEntryBody (i : Nat) (m : Modifiers) (s : State) :
    Keeps s (removeEntryBody i m s).1 := by
  unfold removeEntryBody
  split
  · exact Keeps.refl s
  · split
    · exact Keeps.refl s
    · split
      · exact Keeps.refl s
      · next hf =>
        split
        · exact Keeps.refl s
        · refine keeps_setTable (carries_setStaged (by simp) (fun j hj => ?_))
          have ha := at_set s.table.staged i j none
          rw [ha, if_neg]
          rintro ⟨rfl, _⟩
          exact hf hj

theorem keeps_freezeEntryBody (key : Nat) (m : Modifiers) (s : State) :
    Keeps s (freezeEntryBody key m s).1 := by
  unfold freezeEntryBody
  split
  · exact Keeps.refl s
  · split
    · exact Keeps.refl s
    · split
      · exact Keeps.refl s
      · split
        · next h =>
          split
          · refine keeps_setTable (carries_freeze (fun hl => ?_))
            have := at_lt (find_entry h).1
            rw [hl] at this
            exact this
          · exact Keeps.refl s
        · exact Keeps.refl s

theorem length_stageBands (rs : List (Nat × Option BandRecord)) (t : List (Option BandRecord)) :
    (rs.foldl (fun t p => t.set p.1 p.2) t).length = t.length := by
  induction rs generalizing t with
  | nil => rfl
  | cons r rs ih => simp [List.foldl_cons, ih]

theorem keeps_loadBandsBody (images : List (List Byte)) (m : Modifiers) (s : State) :
    Keeps s (loadBandsBody images m s).1 := by
  unfold loadBandsBody
  split
  · split
    · split
      · exact Keeps.refl s
      · split
        · exact Keeps.refl s
        · exact keeps_of rfl rfl rfl rfl rfl (Nat.le_refl _) rfl rfl
            (.inl (length_stageBands _ _)) rfl
    · exact Keeps.refl s
  · exact Keeps.refl s

theorem keeps_loadExceptionsBody (images : List (List Byte)) (m : Modifiers) (s : State) :
    Keeps s (loadExceptionsBody images m s).1 := by
  unfold loadExceptionsBody
  split
  · split
    · split
      · exact Keeps.refl s
      · split
        · exact Keeps.refl s
        · exact keeps_of rfl rfl rfl rfl rfl (Nat.le_refl _) rfl rfl (.inl rfl) rfl
    · exact Keeps.refl s
  · exact Keeps.refl s

theorem judges_demandClose_keeps (named : Episode → Bool) (r : CloseReason) (s : State) :
    Keeps s (s.demandClose named r) := (judges_demandClose named r s).runs.keeps

/-- The clock loaded by SET TIME, closures and discards made: everything but the band is legal. -/
theorem keeps_loadTime {day eighth weekday : Nat} {s : State} (hd : day ≤ Config.max16)
    (he : eighth < Config.eighthsPerDay) : Keeps s (s.loadTime day eighth weekday) := by
  unfold State.loadTime
  extract_lets s1 s2
  have h2 : Works s1 s2 :=
    (judges_demandClose _ _ _).runs.trans (evaluates_discardWindows _).runs
  have h3 : Works s2 ((s2.decideBand false false).raise .clockStopped) :=
    (runs_decideBand _ _ _).trans (emits_raise _ _).runs
  have h := (h2.trans h3)
  refine ⟨h.pending, h.held, h.strap, fun c => ⟨h.links ?_, h.records c.2, by
    rw [h.queries]; exact c.3⟩, fun l b => ⟨?_, ?_⟩, h.tables⟩
  · exact ⟨c.1.1, c.1.2, c.1.3, c.1.4, c.1.5, c.1.6, c.1.7, c.1.8, c.1.9, c.1.10⟩
  · exact legal_of h.clock ⟨he, hd, Nat.mod_lt _ (by decide), l.4, l.5, fun h => by
      simp [s1, Clock.load] at h⟩
  · have hs : s2.schedule = s.schedule := by
      have e1 := (judges_demandClose (fun _ => true) .timeSet s1).schedule
      have e2 := (evaluates_discardWindows (s1.demandClose (fun _ => true) .timeSet)).schedule
      exact e2.trans e1
    exact (emits_raise _ _).runs.bands
      (bandLegal_decideBand (by rw [hs]; exact b.3) (by rw [hs]; exact b.4))

theorem bigEndian_lt (bytes : List Byte) : bigEndian bytes < 256 ^ bytes.length := by
  have h : ∀ (bs : List Byte) (n a : Nat), a < 256 ^ n →
      bs.foldl (fun acc b => acc * 256 + b.toNat) a < 256 ^ (n + bs.length) := by
    intro bs
    induction bs with
    | nil => intro n a h; exact h
    | cons b bs ih =>
      intro n a h
      have hb := b.isLt
      have := ih (n + 1) (a * 256 + b.toNat) (by rw [Nat.pow_succ]; omega)
      rw [List.foldl_cons, List.length_cons, show n + (bs.length + 1) = n + 1 + bs.length by omega]
      exact this
  have := h bytes 0 0 (by decide)
  simpa [bigEndian] using this

theorem field_lt (bytes : List Byte) (offset n : Nat) : field bytes offset n < 256 ^ n := by
  have h := bigEndian_lt ((bytes.drop offset).take n)
  refine Nat.lt_of_lt_of_le h (Nat.pow_le_pow_right (by decide) ?_)
  exact List.length_take_le _ _

theorem keeps_setTimeBody (o : List Byte) (ops : Nat × Nat × Nat) (ho : setTimeForm o = some ops)
    (m : Modifiers) (s : State) : Keeps s (setTimeBody ops m s).1 := by
  have hd : ops.1 ≤ Config.max16 := by
    unfold setTimeForm fixedForm onlyIf at ho
    split at ho
    · rw [← Option.some.inj ho]
      have := field_lt o 0 2
      simp only [Config.max16]
      omega
    · simp at ho
  unfold setTimeBody
  split
  · exact Keeps.refl s
  · next h =>
    split
    · exact Keeps.refl s
    · exact (runs_finishStamped s).keeps.trans (keeps_loadTime hd (by omega))

theorem keeps_startTimeBody (m : Modifiers) (s : State) : Keeps s (startTimeBody () m s).1 := by
  unfold startTimeBody
  split
  · exact Keeps.refl s
  · next hs =>
    split
    · exact Keeps.refl s
    · refine (runs_finishStamped s).keeps.trans ?_
      show Keeps s.finishStamped s.finishStamped.startClock
      generalize s.finishStamped = s
      unfold State.startClock
      extract_lets src s1
      have h : Works { s with clock := { s.clock with state := .running } }
          (s1.openIdles false (s1.pairsWhere (fun _ _ => true))) :=
        (runs_decideBand false false _).trans (evaluates_openIdles _ _ _).runs
      refine ⟨h.pending, h.held, h.strap, fun c => ⟨h.links ?_, h.records c.2, by
        rw [h.queries]; exact c.3⟩, fun l b => ⟨?_, ?_⟩, h.tables⟩
      · exact ⟨c.1.1, c.1.2, c.1.3, c.1.4, c.1.5, c.1.6, c.1.7, c.1.8, c.1.9, c.1.10⟩
      · exact legal_of h.clock ⟨l.1, l.2, l.3, l.4, l.5, fun h => by simp at h⟩
      · exact (evaluates_openIdles _ _ _).runs.bands (bandLegal_decideBand b.3 b.4)
  · split <;> exact Keeps.refl s

theorem keeps_trimBody (trim : Int) (m : Modifiers) (s : State) : Keeps s (trimBody trim m s).1 := by
  unfold trimBody
  split
  · exact Keeps.refl s
  · next h =>
    split
    · exact Keeps.refl s
    · exact ⟨rfl, rfl, rfl, fun c => ⟨linkBounds_of (s := s) rfl rfl c.1, c.2, c.3⟩,
        fun l b => ⟨⟨l.1, l.2, l.3, by simp only; omega, by simp only; omega, l.6⟩, b.1, b.2, b.3, b.4⟩,
        LimitTable.Carries.refl _⟩

theorem works_rebind (slot : Nat) (link : SlotLink) (s : State) : Works s (s.rebind slot link) :=
  ((judges_demandClose _ _ _).runs.trans (evaluates_restartSlot _ _).runs).trans (runs_modifySlot _ _ _)

theorem keeps_bindSlotBody (ops : Nat × Nat) (m : Modifiers) (s : State) :
    Keeps s (bindSlotBody ops m s).1 := by
  unfold bindSlotBody
  split
  · exact Keeps.refl s
  · split
    · exact Keeps.refl s
    · exact (works_rebind _ _ _).keeps

theorem keeps_unbindSlotBody (slot : Nat) (m : Modifiers) (s : State) :
    Keeps s (unbindSlotBody slot m s).1 := by
  unfold unbindSlotBody
  split
  · exact Keeps.refl s
  · split
    · exact Keeps.refl s
    · split
      · exact Keeps.refl s
      · exact (works_rebind _ _ _).keeps

theorem works_loadPlant (rs : List (Nat × PlantRecord)) (s : State) : Works s (s.loadPlant rs) :=
  runs_foldl (fun _ _ => runs_changeLine _ _ _) _ _

theorem keeps_loadPlantBody (images : List (List Byte)) (m : Modifiers) (s : State) :
    Keeps s (loadPlantBody images m s).1 := by
  unfold loadPlantBody
  split
  · split
    · exact (works_loadPlant _ _).keeps
    · exact Keeps.refl s
  · exact Keeps.refl s

theorem works_clearCoincidence (s : State) : Works s s.clearCoincidence := runs_setPlant s _ rfl

theorem keeps_restartAnalysisBody (m : Modifiers) (s : State) :
    Keeps s (restartAnalysisBody () m s).1 := by
  unfold restartAnalysisBody
  split
  · exact Keeps.refl s
  · split
    · exact Keeps.refl s
    · exact (((judges_demandClose _ _ _).runs.trans (evaluates_restartAll _).runs).trans
        (works_clearCoincidence _)).keeps

theorem keeps_setBeaconBody (ops : Nat × Nat × Nat) (m : Modifiers) (s : State) :
    Keeps s (setBeaconBody ops m s).1 := by
  unfold setBeaconBody
  split
  · split
    · exact Keeps.refl s
    · exact (runs_modifyBeacon _ _ _).keeps
  · exact Keeps.refl s

theorem keeps_beaconOverrideBody (ops : Nat × Nat) (m : Modifiers) (s : State) :
    Keeps s (beaconOverrideBody ops m s).1 := by
  unfold beaconOverrideBody
  split
  · split
    · exact Keeps.refl s
    · exact (runs_modifyBeacon _ _ _).keeps
  · exact Keeps.refl s

/-- Notices alone change. -/
theorem keeps_setNotices (s : State) (n : NoticeUnit) : Keeps s { s with notices := n } :=
  ⟨rfl, rfl, rfl, fun c => ⟨⟨c.1.1, c.1.2, c.1.3, c.1.4, c.1.5, c.1.6, c.1.7, c.1.8, c.1.9, c.1.10⟩, c.2, c.3⟩,
    fun l b => ⟨l, b.1, b.2, b.3, b.4⟩, LimitTable.Carries.refl _⟩

theorem keeps_setMask (mask : NoticeSet) (s : State) : Keeps s (s.setMask mask) :=
  (keeps_setNotices s _).trans (emits_settleLatch _).runs.keeps

theorem keeps_setNoticeMaskBody (ops : Nat × Nat) (m : Modifiers) (s : State) :
    Keeps s (setNoticeMaskBody ops m s).1 := by
  unfold setNoticeMaskBody
  split
  · split
    · exact Keeps.refl s
    · exact keeps_setMask _ _
  · exact Keeps.refl s

theorem keeps_setCadenceBody (ops : CadenceOperands) (m : Modifiers) (s : State) :
    Keeps s (setCadenceBody ops m s).1 := by
  unfold setCadenceBody
  split
  · split
    · exact Keeps.refl s
    · exact (runs_takeDue plainTick .summary s).keeps.trans
        (keeps_of rfl rfl rfl rfl rfl (Nat.le_refl _) rfl rfl (.inl rfl) rfl)
  · exact Keeps.refl s

theorem keeps_cancelQueryBody (position : Nat) (m : Modifiers) (s : State) :
    Keeps s (cancelQueryBody position m s).1 := by
  unfold cancelQueryBody
  split
  · exact keeps_of rfl rfl rfl rfl rfl (Nat.zero_le _) rfl rfl (.inl rfl) rfl
  · split
    · exact Keeps.refl s
    · split
      · exact Keeps.refl s
      · exact keeps_of rfl rfl rfl rfl rfl (by
          simp only [State.setQueries, List.length_eraseIdx]; split <;> omega) rfl rfl (.inl rfl) rfl

/-! ### The links -/

theorem keeps_ports {s : State} {p : Ports} (hs : p.strap = s.ports.strap)
    (h : s.LinkBounds → State.LinkBounds { s with ports := p }) : Keeps s { s with ports := p } :=
  ⟨rfl, rfl, hs, fun c => ⟨h c.1, c.2, c.3⟩, fun l b => ⟨l, b.1, b.2, b.3, b.4⟩,
    LimitTable.Carries.refl _⟩

theorem keeps_raise (n : Notice) (s : State) : Keeps s (s.raise n) := (emits_raise n s).runs.keeps

theorem keeps_arbitrate (s : State) : Keeps s s.arbitrate := (emits_arbitrate s).runs.keeps

theorem keeps_offerForward (frame : Frame) (s : State) : Keeps s (s.offerForward frame) := by
  unfold State.offerForward
  split
  · next h =>
    refine (keeps_ports ?_ (fun b => ?_)).trans (keeps_arbitrate _)
    · rfl
    · exact ⟨b.1, b.2, by
        simp only [List.length_append, List.length_singleton]
        omega, b.4, b.5, b.6, b.7, b.8, b.9, b.10⟩
  · refine (keeps_ports ?_ (fun b => ?_)).trans (keeps_raise _ _)
    · rfl
    · exact ⟨b.1, b.2, b.3, b.4, b.5, b.6, b.7, b.8, bumpTo_le, b.10⟩

theorem keeps_receiveField (bytes : List Byte) (s : State) : Keeps s (s.receiveField bytes) := by
  unfold State.receiveField
  split
  · exact Keeps.refl s
  · split
    · unfold State.takeFieldFrame
      extract_lets s1
      split
      · exact (keeps_offerForward _ _).trans (runs_intake _ _).keeps
      · exact keeps_offerForward _ _
    · exact keeps_ports rfl (fun b => ⟨b.1, b.2, b.3, b.4, b.5, b.6, bumpTo_le, b.8, b.9, b.10⟩)

theorem keeps_sendOnward (s : State) : Keeps s s.sendOnward := by
  unfold State.sendOnward
  split
  · next h =>
    refine keeps_ports rfl (fun b => ⟨b.1, b.2, b.3, ?_, b.5, b.6, b.7, b.8, b.9, b.10⟩)
    have h4 := b.4
    rw [h] at h4
    simp only [List.length_cons] at h4 ⊢
    omega
  · exact Keeps.refl s

theorem keeps_offerOnward (frame : Frame) (s : State) : Keeps s (s.offerOnward frame) := by
  unfold State.offerOnward
  split
  · next h =>
    refine (keeps_ports ?_ (fun b => ?_)).trans (keeps_sendOnward _)
    · rfl
    · exact ⟨b.1, b.2, b.3, by
        simp only [List.length_append, List.length_singleton]
        omega, b.5, b.6, b.7, b.8, b.9, b.10⟩
  · refine (keeps_ports ?_ (fun b => ?_)).trans (keeps_raise _ _)
    · rfl
    · exact ⟨b.1, b.2, b.3, b.4, b.5, b.6, b.7, b.8, bumpTo_le, b.10⟩

theorem keeps_offerExecution (payload : List Byte) (s : State) : Keeps s (s.offerExecution payload) := by
  unfold State.offerExecution
  split
  · next h =>
    refine keeps_ports ?_ (fun b => ?_)
    · rfl
    · exact ⟨b.1, b.2, b.3, b.4, by
        simp only [List.length_append, List.length_singleton]
        omega, b.6, b.7, b.8, b.9, b.10⟩
  · refine (keeps_ports ?_ (fun b => ?_)).trans (keeps_raise _ _)
    · rfl
    · exact ⟨b.1, b.2, b.3, b.4, b.5, b.6, b.7, b.8, b.9, bumpTo_le⟩

theorem keeps_receiveGateway (bytes : List Byte) (s : State) : Keeps s (s.receiveGateway bytes) := by
  unfold State.receiveGateway
  split
  · exact Keeps.refl s
  · split
    · unfold State.takeControlFrame
      extract_lets payload here s1
      have h1 : Keeps s s1 := by
        unfold s1
        split
        · exact keeps_offerOnward _ _
        · exact Keeps.refl s
      split
      · exact h1.trans (keeps_offerExecution _ _)
      · exact h1
    · exact keeps_ports rfl (fun b => ⟨b.1, b.2, b.3, b.4, b.5, b.6, b.7, bumpTo_le, b.9, b.10⟩)

theorem keeps_gatewayDone (offerNow : Bool) (s : State) : Keeps s (s.gatewayDone offerNow) := by
  unfold State.gatewayDone
  split
  · exact Keeps.refl s
  · have h1 : Keeps s (State.arbitrate { s with ports := { s.ports with gatewayTx := none } }) :=
      (keeps_ports (p := { s.ports with gatewayTx := none }) rfl
        (fun b => ⟨b.1, b.2, b.3, b.4, b.5, b.6, b.7, b.8, b.9, b.10⟩)).trans (keeps_arbitrate _)
    extract_lets p s1
    split
    · exact h1.trans (runs_takeDue _ _ _).keeps
    · exact h1

theorem keeps_fieldDone (s : State) : Keeps s s.fieldDone := by
  unfold State.fieldDone
  split
  · exact Keeps.refl s
  · exact (keeps_ports (p := { s.ports with fieldTx := none }) rfl
      (fun b => ⟨b.1, b.2, b.3, b.4, b.5, b.6, b.7, b.8, b.9, b.10⟩)).trans (keeps_sendOnward _)

theorem keeps_takeUnknown (s : State) : Keeps s s.takeUnknown := by
  unfold State.takeUnknown
  split
  · split
    · exact Keeps.refl s
    · exact (runs_settleCommit s).keeps.trans (keeps_writeItems _ _ _ _)
  · exact Keeps.refl s

theorem length_beginQueued (ts : List Transaction) : (beginQueued ts).length = ts.length := by
  induction ts with
  | nil => rfl
  | cons t ts ih =>
    cases t with
    | queued g i => rfl
    | executing e => simp [beginQueued, ih]
    | ready r => simp [beginQueued, ih]

theorem keeps_endFrame (trail : List ReplyItem) (s : State) : Keeps s (s.endFrame trail) := by
  unfold State.endFrame
  refine (keeps_ports ?_ (fun b => ?_)).trans (keeps_arbitrate _)
  · rfl
  · refine ⟨b.1, b.2, b.3, b.4, ?_, b.6, b.7, b.8, b.9, b.10⟩
    simpa [length_beginQueued, length_mapExecuting] using b.5

theorem keeps_takeEnd (s : State) : Keeps s s.takeEnd := by
  unfold State.takeEnd
  split
  · exact (runs_settleCommit s).keeps.trans (keeps_endFrame _ _)
  · exact Keeps.refl s

/-! ### Ticks and samples -/

theorem band_tick (c : Clock) : c.tick.band = c.band ∧ c.tick.state = c.state := by
  show c.count.band = c.band ∧ c.count.state = c.state
  unfold Clock.count
  extract_lets d
  split
  · split
    · exact ⟨rfl, rfl⟩
    · split <;> exact ⟨rfl, rfl⟩
  · exact ⟨rfl, rfl⟩

theorem legal_count {c : Clock} (l : c.Legal) : c.count.Legal := by
  have hz : 0 < Config.eighthsPerDay := by decide
  unfold Clock.count
  extract_lets d
  split
  · next hr =>
    have hu : d.state ≠ .unset := by
      intro h
      simp [Clock.running, h] at hr
    split
    · next h => exact ⟨h, l.2, l.3, l.4, l.5, fun h => absurd h hu⟩
    · split
      · next h => exact ⟨hz, h, l.3, l.4, l.5, fun h => absurd h hu⟩
      · exact ⟨hz, Nat.zero_le _, Nat.mod_lt _ (by decide), l.4, l.5, fun h => absurd h hu⟩
  · exact ⟨l.1, l.2, l.3, l.4, l.5, l.6⟩

theorem legal_tick {c : Clock} (l : c.Legal) : c.tick.Legal :=
  have h := legal_count l
  ⟨h.1, h.2, h.3, h.4, h.5, h.6⟩

theorem keeps_advance (s : State) : Keeps s s.advance :=
  ⟨rfl, rfl, rfl, fun c => ⟨linkBounds_of (s := s) rfl rfl c.1, c.2, c.3⟩,
    fun l b => ⟨legal_tick l, by
      have h := band_tick s.clock
      refine ⟨?_, ?_, b.3, b.4⟩
      · show s.clock.tick.band = _ ↔ (s.clock.tick.state == .running) = false
        rw [h.1, h.2]
        exact b.1
      · show s.clock.tick.band ≤ _
        rw [h.1]
        exact b.2⟩, LimitTable.Carries.refl _⟩

theorem keeps_tick (c : TickChoice) (s : State) : Keeps s (s.tick c) := by
  unfold State.tick
  extract_lets s1
  have h1 : Keeps s s1 :=
    ((takesAll_finishDue c s).keeps.trans (keeps_advance _)).trans (takesAll_takeAll _ _ _).keeps
  exact h1.trans (runs_tickTail c s1).keeps

theorem works_sampleLine (pins : Pins) (line : Nat) (s : State) : Works s (s.sampleLine pins line) := by
  unfold State.sampleLine
  split
  · exact Runs.refl s
  · extract_lets s1
    have h1 : Works s s1 := by
      unfold s1
      split
      · exact (emits_addDue _ _).runs
      · exact Runs.refl s
    exact h1.trans (runs_setPlant s1 _ (by simp))

theorem works_sampleMark (pin : Level) (s : State) : Works s (s.sampleMark pin) := by
  unfold State.sampleMark
  extract_lets p
  split
  · split
    · exact (emits_addDue _ _).runs.trans (runs_setPlant _ _ rfl)
    · exact runs_setPlant _ _ rfl
  · exact runs_setPlant _ _ rfl

theorem works_sampleCertify (pin : Level) (s : State) : Works s (s.sampleCertify pin) := by
  unfold State.sampleCertify
  extract_lets p s1
  have h1 : Works s s1 := by
    unfold s1
    split
    · exact (emits_addDue _ _).runs
    · exact Runs.refl s
  exact h1.trans (runs_setPlant _ _ rfl)

theorem works_samplePins (pins : Pins) (s : State) : Works s (s.samplePins pins) :=
  ((runs_foldl (fun _ _ => works_sampleLine _ _ _) _ _).trans (works_sampleMark _ _)).trans
    (works_sampleCertify _ _)

end Sys2Proof.Machine
end

