-- ==== Sys2Proof/Laws/Grid.lean ====
section
/-! SUPPORT. The window engine's grids: the pairs of a table, what one unit or cell written changes, and
what restarts and openings leave in every unit. -/

namespace Sys2Proof.Machine

/-! ### Sets and pairs -/

theorem mem_members {w : Nat} (m : BitVec w) (i : Nat) : i ∈ members m ↔ m.getLsbD i = true := by
  unfold members
  simp only [List.mem_filter, List.mem_range]
  exact ⟨fun h => h.2, fun h => ⟨BitVec.lt_of_getLsbD h, h⟩⟩

/-- The pairs of the active table under a condition. -/
theorem mem_pairsWhere {s : State} {keep : LimitEntry → Nat → Bool} {p : Nat × LimitEntry × Nat} :
    p ∈ s.pairsWhere keep ↔ s.table.active.at p.1 = some p.2.1 ∧
      p.2.1.slots.getLsbD p.2.2 = true ∧ keep p.2.1 p.2.2 = true := by
  unfold State.pairsWhere
  simp only [List.mem_filter, List.mem_flatMap, entryPairs, List.mem_map, Prod.exists]
  constructor
  · rintro ⟨⟨i, e, h1, m, h2, rfl⟩, h3⟩
    exact ⟨mem_entries.1 h1, (mem_members _ _).1 h2, h3⟩
  · rintro ⟨h1, h2, h3⟩
    exact ⟨⟨p.1, p.2.1, mem_entries.2 h1, p.2.2, (mem_members _ _).2 h2, rfl⟩, h3⟩

theorem at_frozenOnly (f : BitVec 64) (t : EntryTable) (i : Nat) :
    (t.frozenOnly f).at i = if f.getLsbD i then t.at i else none := by
  unfold EntryTable.frozenOnly EntryTable.at
  simp only [List.getElem?_map, List.getElem?_zipIdx]
  cases t[i]? <;> by_cases hi : f.getLsbD i <;> simp [hi]

theorem length_frozenOnly (f : BitVec 64) (t : EntryTable) : (t.frozenOnly f).length = t.length := by
  simp [EntryTable.frozenOnly]

/-! ### One unit, one cell -/

theorem gridAt_gridModify {α : Type} (g : List (List α)) (i j a b : Nat) (f : α → α) :
    gridAt (gridModify g i j f) a b =
      if i = a ∧ j = b then (gridAt g a b).map f else gridAt g a b := by
  unfold gridAt gridModify
  rw [List.getElem?_modify]
  cases g[a]? with
  | none => simp
  | some row =>
    by_cases h1 : i = a
    · by_cases h2 : j = b <;> simp [h1, h2]
    · simp [h1]

theorem unitAt_setAcc (i slot : Nat) (a : Acc) (s : State) (j n : Nat) :
    (s.setAcc i slot a).windows.unitAt j n =
      if i = j ∧ slot = n then (s.windows.unitAt j n).map (fun u => { u with acc := a })
      else s.windows.unitAt j n := by
  show (gridAt (gridModify _ _ _ _) j n).join = _
  rw [gridAt_gridModify]
  by_cases h : i = j ∧ slot = n
  · rw [if_pos h, if_pos h]
    show _ = Option.map _ (gridAt s.windows.units j n).join
    cases gridAt s.windows.units j n <;> rfl
  · rw [if_neg h, if_neg h]
    rfl

theorem accAt_setAcc (i slot : Nat) (a : Acc) (s : State) (j n : Nat) :
    (s.setAcc i slot a).windows.accAt j n =
      if i = j ∧ slot = n ∧ (s.windows.unitAt j n).isSome then a else s.windows.accAt j n := by
  unfold WindowEngine.accAt
  rw [unitAt_setAcc]
  by_cases h : i = j ∧ slot = n
  · cases hu : s.windows.unitAt j n <;> simp [h]
  · rw [if_neg h, if_neg (fun h' => h ⟨h'.1, h'.2.1⟩)]

theorem cellAt_setAcc (i slot : Nat) (a : Acc) (s : State) (j n : Nat) :
    (s.setAcc i slot a).windows.cellAt j n = s.windows.cellAt j n := rfl

theorem cellAt_setCell (i slot : Nat) (c : ResultCell) (s : State) (j n : Nat) :
    (s.setCell i slot c).windows.cellAt j n =
      if i = j ∧ slot = n ∧ (gridAt s.windows.cells j n).isSome then c else s.windows.cellAt j n := by
  show (gridAt (gridModify _ _ _ _) j n).getD ResultCell.empty = _
  rw [gridAt_gridModify]
  by_cases h : i = j ∧ slot = n
  · unfold WindowEngine.cellAt
    cases hg : gridAt s.windows.cells j n <;> simp [h]
  · rw [if_neg h, if_neg (fun h' => h ⟨h'.1, h'.2.1⟩)]
    rfl

theorem unitAt_setCell (i slot : Nat) (c : ResultCell) (s : State) (j n : Nat) :
    (s.setCell i slot c).windows.unitAt j n = s.windows.unitAt j n := rfl

/-! ### Restarts -/

/-- A restart changes the units alone. -/
theorem restartAccs_whole (ps : List (Nat × LimitEntry × Nat)) (s : State) :
    s.restartAccs ps = { s with windows :=
      { s.windows with units := (s.restartAccs ps).windows.units } } := by
  unfold State.restartAccs
  induction ps generalizing s with
  | nil => rfl
  | cons p ps ih =>
    rw [List.foldl_cons, ih (s.setAcc p.1 p.2.2 (s.restartedAcc p.2.1))]
    rfl

/-- A restart leaves every named unit with the restarted contents of its entry. -/
theorem unitAt_restartAccs {ps : List (Nat × LimitEntry × Nat)} {s : State} {j n : Nat} {a : Acc}
    (h : ∀ p, p ∈ ps → p.1 = j → p.2.2 = n → s.restartedAcc p.2.1 = a) :
    ((∃ p, p ∈ ps ∧ p.1 = j ∧ p.2.2 = n) → (s.restartAccs ps).windows.unitAt j n =
        (s.windows.unitAt j n).map (fun u => { u with acc := a })) ∧
      ((∀ p, p ∈ ps → ¬(p.1 = j ∧ p.2.2 = n)) → (s.restartAccs ps).windows.unitAt j n =
        s.windows.unitAt j n) := by
  unfold State.restartAccs
  induction ps generalizing s with
  | nil => exact ⟨fun ⟨p, hp, _⟩ => absurd hp (by simp), fun _ => rfl⟩
  | cons p ps ih =>
    rw [List.foldl_cons]
    have ht := @ih (s.setAcc p.1 p.2.2 (s.restartedAcc p.2.1))
      (fun q hq => h q (List.mem_cons_of_mem _ hq))
    by_cases hp : p.1 = j ∧ p.2.2 = n
    · have ha := h p (List.mem_cons_self ..) hp.1 hp.2
      refine ⟨fun _ => ?_, fun hn => absurd hp (hn p (List.mem_cons_self ..))⟩
      by_cases hr : ∃ q, q ∈ ps ∧ q.1 = j ∧ q.2.2 = n
      · rw [ht.1 hr, unitAt_setAcc, if_pos hp, ha]
        cases s.windows.unitAt j n <;> rfl
      · rw [ht.2 (fun q hq hc => hr ⟨q, hq, hc⟩), unitAt_setAcc, if_pos hp, ha]
    · have hs : (s.setAcc p.1 p.2.2 (s.restartedAcc p.2.1)).windows.unitAt j n =
          s.windows.unitAt j n := by rw [unitAt_setAcc, if_neg hp]
      refine ⟨fun ⟨q, hq, hc⟩ => ?_, fun hn => ?_⟩
      · rcases List.mem_cons.1 hq with rfl | hq
        · exact absurd hc hp
        · rw [ht.1 ⟨q, hq, hc⟩, hs]
      · rw [ht.2 (fun q hq => hn q (List.mem_cons_of_mem _ hq)), hs]

/-- The units of the pairs of the active table after a restart of those a condition keeps. -/
theorem unitAt_restart_pair {s : State} {keep : LimitEntry → Nat → Bool} {i n : Nat} {e : LimitEntry}
    {u : PoolUnit} (he : s.table.active.at i = some e) (hm : e.slots.getLsbD n = true)
    (hk : keep e n = true) (hu : s.windows.unitAt i n = some u) :
    (s.restartAccs (s.pairsWhere keep)).windows.unitAt i n = some ⟨u.histogram,
      if e.activeIn s.clock.band && s.clock.running then e.openAcc s.now false else .idle⟩ := by
  have h := (@unitAt_restartAccs (s.pairsWhere keep) s i n (s.restartedAcc e) (by
    intro p hp h1 h2
    have hq := (mem_pairsWhere.1 hp).1
    rw [h1, he] at hq
    rw [Option.some.inj hq])).1 ⟨(i, e, n), mem_pairsWhere.2 ⟨he, hm, hk⟩, rfl, rfl⟩
  rw [h, hu]
  rfl

/-- Units of slots that a restart of one slot does not name stay as they are. -/
theorem unitAt_restart_other {s : State} {slot i n : Nat} (h : n ≠ slot) :
    (s.restartAccs (s.pairsWhere (fun _ m => m == slot))).windows.unitAt i n =
      s.windows.unitAt i n := by
  refine (@unitAt_restartAccs _ s i n .idle (fun p hp _ h2 => ?_)).2 (fun p hp hc => ?_)
  · have := (mem_pairsWhere.1 hp).2.2
    simp only [beq_iff_eq] at this
    exact absurd (h2 ▸ this) h
  · have := (mem_pairsWhere.1 hp).2.2
    simp only [beq_iff_eq] at this
    exact h (hc.2 ▸ this)

end Sys2Proof.Machine
end

