-- ==== Sys2Proof/Laws/Layouts.lean ====
section
/-! SUPPORT. Laws of the layouts: what a field reads from quantities sent one after another (R183), and the
frames of a run (R188). -/

namespace Sys2Proof.Machine

/-! ### Quantities and fields -/

@[simp] theorem length_byte1 (n : ℕ) : (byte1 n).length = 1 := rfl
@[simp] theorem length_byte2 (n : ℕ) : (byte2 n).length = 2 := rfl
@[simp] theorem length_byte3 (n : ℕ) : (byte3 n).length = 3 := rfl
@[simp] theorem length_byte4 (n : ℕ) : (byte4 n).length = 4 := rfl
@[simp] theorem length_byteBool (b : Bool) : (byteBool b).length = 1 := rfl
@[simp] theorem length_byteLevel (o : Option ℕ) : (byteLevel o).length = 2 := rfl
@[simp] theorem length_byteNumber (o : Option ℕ) : (byteNumber o).length = 1 := rfl

@[simp] theorem Stamp.length_bytes (t : Stamp) : t.bytes.length = 6 := by simp [Stamp.bytes]
@[simp] theorem Moment.length_bytes (m : Moment) : m.bytes.length = 10 := by simp [Moment.bytes]
@[simp] theorem SlotCounters.length_bytes (c : SlotCounters) : c.bytes.length = 14 := by simp [SlotCounters.bytes]

theorem bigEndian_append (a b : List Byte) : bigEndian (a ++ b) = bigEndian a * 256 ^ b.length + bigEndian b := by
  have h : ∀ (l : List Byte) (x : ℕ), l.foldl (fun acc b => acc * 256 + b.toNat) x =
      x * 256 ^ l.length + bigEndian l := by
    intro l
    induction l with
    | nil => simp [bigEndian]
    | cons c l ih =>
      intro x
      have h1 : bigEndian (c :: l) = (0 * 256 + c.toNat) * 256 ^ l.length + bigEndian l := ih _
      rw [List.foldl_cons, ih, h1, List.length_cons, pow_succ]
      ring
  rw [bigEndian, List.foldl_append, h]
  rfl

theorem bigEndian_byte1 (n : ℕ) : bigEndian (byte1 n) = n % 256 := by
  simp [bigEndian, byte1]

theorem bigEndian_byte2 (n : ℕ) : bigEndian (byte2 n) = n % 65536 := by
  simp [bigEndian, byte2]
  omega

theorem bigEndian_byte3 (n : ℕ) : bigEndian (byte3 n) = n % 16777216 := by
  have h : byte3 n = byte1 (n / 65536) ++ byte2 n := rfl
  rw [h, bigEndian_append, bigEndian_byte1, bigEndian_byte2, length_byte2]
  omega

theorem bigEndian_byte4 (n : ℕ) : bigEndian (byte4 n) = n % 4294967296 := by
  have h : byte4 n = byte1 (n / 16777216) ++ byte3 n := rfl
  rw [h, bigEndian_append, bigEndian_byte1, bigEndian_byte3, length_byte3]
  omega

theorem bigEndian_byteBool (b : Bool) : bigEndian (byteBool b) = if b then 1 else 0 := by cases b <;> rfl

theorem bigEndian_byteLevel (o : Option ℕ) : bigEndian (byteLevel o) = o.getD 0xFFFF % 65536 := bigEndian_byte2 _

theorem bigEndian_byteNumber (o : Option ℕ) : bigEndian (byteNumber o) = o.getD 0xFF % 256 := bigEndian_byte1 _

/-- A byte of a layout, as a field of one byte. -/
theorem getD_eq_field {o : List Byte} {k : ℕ} (h : k < o.length) : o.getD k 0 = BitVec.ofNat 8 (field o k 1) := by
  rw [field, List.drop_eq_getElem_cons h, List.take_succ_cons, List.take_zero, bigEndian, List.foldl_cons,
    List.foldl_nil, zero_mul, zero_add, List.getD_eq_getElem _ _ h, BitVec.ofNat_toNat, BitVec.setWidth_eq]

/-- A field at the head of a layout. -/
theorem field_head {a b : List Byte} {n : ℕ} (h : a.length = n) : field (a ++ b) 0 n = bigEndian a := by
  rw [field, List.drop_zero, List.take_append_of_le_length h.ge, ← h, List.take_length]

/-- A field behind a part of the layout. -/
theorem field_skip {a b : List Byte} {m : ℕ} (h : a.length = m) (k n : ℕ) :
    field (a ++ b) (k + m) n = field b k n := by
  rw [field, field, List.drop_append, List.drop_eq_nil_of_le (by omega), List.nil_append, h, Nat.add_sub_cancel]

/-- The whole of a layout. -/
theorem field_whole {a : List Byte} {n : ℕ} (h : a.length = n) : field a 0 n = bigEndian a := by
  rw [field, List.drop_zero, ← h, List.take_length]

/-- Bytes of a layout behind a part of it. -/
theorem drop_skip {a b : List Byte} {m : ℕ} (h : a.length = m) (k : ℕ) : (a ++ b).drop (k + m) = b.drop k := by
  rw [List.drop_append, List.drop_eq_nil_of_le (by omega), List.nil_append, h, Nat.add_sub_cancel]

/-! What the fields of a layout are, quantity by quantity: a field lies in the quantity at its head, or behind
it. -/

@[simp] theorem field_byte1 (n : ℕ) (rest : List Byte) : field (byte1 n ++ rest) 0 1 = n % 256 :=
  (field_head (length_byte1 n)).trans (bigEndian_byte1 n)
@[simp] theorem field_byte1_last (n : ℕ) : field (byte1 n) 0 1 = n % 256 :=
  (field_whole (length_byte1 n)).trans (bigEndian_byte1 n)
@[simp] theorem field_after_byte1 (n : ℕ) (rest : List Byte) (k w : ℕ) :
    field (byte1 n ++ rest) (k + 1) w = field rest k w := field_skip (length_byte1 n) k w
@[simp] theorem drop_after_byte1 (n : ℕ) (rest : List Byte) (k : ℕ) :
    (byte1 n ++ rest).drop (k + 1) = rest.drop k := drop_skip (length_byte1 n) k
@[simp] theorem field_byte2 (n : ℕ) (rest : List Byte) : field (byte2 n ++ rest) 0 2 = n % 65536 :=
  (field_head (length_byte2 n)).trans (bigEndian_byte2 n)
@[simp] theorem field_byte2_last (n : ℕ) : field (byte2 n) 0 2 = n % 65536 :=
  (field_whole (length_byte2 n)).trans (bigEndian_byte2 n)
@[simp] theorem field_after_byte2 (n : ℕ) (rest : List Byte) (k w : ℕ) :
    field (byte2 n ++ rest) (k + 2) w = field rest k w := field_skip (length_byte2 n) k w
@[simp] theorem drop_after_byte2 (n : ℕ) (rest : List Byte) (k : ℕ) :
    (byte2 n ++ rest).drop (k + 2) = rest.drop k := drop_skip (length_byte2 n) k
@[simp] theorem field_byte3 (n : ℕ) (rest : List Byte) : field (byte3 n ++ rest) 0 3 = n % 16777216 :=
  (field_head (length_byte3 n)).trans (bigEndian_byte3 n)
@[simp] theorem field_byte3_last (n : ℕ) : field (byte3 n) 0 3 = n % 16777216 :=
  (field_whole (length_byte3 n)).trans (bigEndian_byte3 n)
@[simp] theorem field_after_byte3 (n : ℕ) (rest : List Byte) (k w : ℕ) :
    field (byte3 n ++ rest) (k + 3) w = field rest k w := field_skip (length_byte3 n) k w
@[simp] theorem drop_after_byte3 (n : ℕ) (rest : List Byte) (k : ℕ) :
    (byte3 n ++ rest).drop (k + 3) = rest.drop k := drop_skip (length_byte3 n) k
@[simp] theorem field_byte4 (n : ℕ) (rest : List Byte) : field (byte4 n ++ rest) 0 4 = n % 4294967296 :=
  (field_head (length_byte4 n)).trans (bigEndian_byte4 n)
@[simp] theorem field_byte4_last (n : ℕ) : field (byte4 n) 0 4 = n % 4294967296 :=
  (field_whole (length_byte4 n)).trans (bigEndian_byte4 n)
@[simp] theorem field_after_byte4 (n : ℕ) (rest : List Byte) (k w : ℕ) :
    field (byte4 n ++ rest) (k + 4) w = field rest k w := field_skip (length_byte4 n) k w
@[simp] theorem drop_after_byte4 (n : ℕ) (rest : List Byte) (k : ℕ) :
    (byte4 n ++ rest).drop (k + 4) = rest.drop k := drop_skip (length_byte4 n) k
@[simp] theorem field_byteBool (v : Bool) (rest : List Byte) :
    field (byteBool v ++ rest) 0 1 = if v then 1 else 0 :=
  (field_head (length_byteBool v)).trans (bigEndian_byteBool v)
@[simp] theorem field_byteBool_last (v : Bool) : field (byteBool v) 0 1 = if v then 1 else 0 :=
  (field_whole (length_byteBool v)).trans (bigEndian_byteBool v)
@[simp] theorem field_after_byteBool (v : Bool) (rest : List Byte) (k w : ℕ) :
    field (byteBool v ++ rest) (k + 1) w = field rest k w := field_skip (length_byteBool v) k w
@[simp] theorem drop_after_byteBool (v : Bool) (rest : List Byte) (k : ℕ) :
    (byteBool v ++ rest).drop (k + 1) = rest.drop k := drop_skip (length_byteBool v) k
@[simp] theorem field_byteLevel (v : Option ℕ) (rest : List Byte) :
    field (byteLevel v ++ rest) 0 2 = v.getD 0xFFFF % 65536 :=
  (field_head (length_byteLevel v)).trans (bigEndian_byteLevel v)
@[simp] theorem field_byteLevel_last (v : Option ℕ) : field (byteLevel v) 0 2 = v.getD 0xFFFF % 65536 :=
  (field_whole (length_byteLevel v)).trans (bigEndian_byteLevel v)
@[simp] theorem field_after_byteLevel (v : Option ℕ) (rest : List Byte) (k w : ℕ) :
    field (byteLevel v ++ rest) (k + 2) w = field rest k w := field_skip (length_byteLevel v) k w
@[simp] theorem drop_after_byteLevel (v : Option ℕ) (rest : List Byte) (k : ℕ) :
    (byteLevel v ++ rest).drop (k + 2) = rest.drop k := drop_skip (length_byteLevel v) k
@[simp] theorem field_byteNumber (v : Option ℕ) (rest : List Byte) :
    field (byteNumber v ++ rest) 0 1 = v.getD 0xFF % 256 :=
  (field_head (length_byteNumber v)).trans (bigEndian_byteNumber v)
@[simp] theorem field_byteNumber_last (v : Option ℕ) : field (byteNumber v) 0 1 = v.getD 0xFF % 256 :=
  (field_whole (length_byteNumber v)).trans (bigEndian_byteNumber v)
@[simp] theorem field_after_byteNumber (v : Option ℕ) (rest : List Byte) (k w : ℕ) :
    field (byteNumber v ++ rest) (k + 1) w = field rest k w := field_skip (length_byteNumber v) k w
@[simp] theorem drop_after_byteNumber (v : Option ℕ) (rest : List Byte) (k : ℕ) :
    (byteNumber v ++ rest).drop (k + 1) = rest.drop k := drop_skip (length_byteNumber v) k
@[simp] theorem field_after_cons (b : Byte) (rest : List Byte) (k w : ℕ) :
    field (b :: rest) (k + 1) w = field rest k w := rfl
@[simp] theorem tail_after_byte1 (n : ℕ) (rest : List Byte) : (byte1 n ++ rest).tail = rest := rfl
@[simp] theorem tail_after_byteBool (b : Bool) (rest : List Byte) : (byteBool b ++ rest).tail = rest := rfl
@[simp] theorem field_after_moment (m : Moment) (rest : List Byte) (k w : ℕ) :
    field (m.bytes ++ rest) (k + 10) w = field rest k w := field_skip m.length_bytes k w
@[simp] theorem drop_after_moment (m : Moment) (rest : List Byte) (k : ℕ) :
    (m.bytes ++ rest).drop (k + 10) = rest.drop k := drop_skip m.length_bytes k
@[simp] theorem take_moment (m : Moment) (rest : List Byte) : (m.bytes ++ rest).take 10 = m.bytes := by
  rw [List.take_append_of_le_length (by simp), List.take_of_length_le (by simp)]
@[simp] theorem take_moment_last (m : Moment) : m.bytes.take 10 = m.bytes := List.take_of_length_le (by simp)

/-! ### Items that may be absent (R189) -/

theorem flagged_byte1 (v : Option ℕ) : flagged 1 (v.map byte1) = byteBool v.isSome ++ byte1 (v.getD 0) := by
  cases v <;> rfl

theorem flagged_byte2 (v : Option ℕ) : flagged 2 (v.map byte2) = byteBool v.isSome ++ byte2 (v.getD 0) := by
  cases v <;> rfl

theorem flagged_byte4 (v : Option ℕ) : flagged 4 (v.map byte4) = byteBool v.isSome ++ byte4 (v.getD 0) := by
  cases v <;> rfl

theorem flagged_code {α : Type} (code : α → ℕ) (v : Option α) :
    flagged 1 (v.map (fun x => byte1 (code x))) = byteBool v.isSome ++ byte1 ((v.map code).getD 0) := by
  cases v <;> rfl

theorem flagged_count {α : Type} (count : α → ℕ) (v : Option α) :
    flagged 4 (v.map (fun x => byte4 (count x))) = byteBool v.isSome ++ byte4 ((v.map count).getD 0) := by
  have h := flagged_byte4 (v.map count)
  rwa [Option.map_map, Option.isSome_map] at h

theorem flagged_bool {α : Type} (bit : α → Bool) (v : Option α) :
    flagged 1 (v.map (fun x => byteBool (bit x))) =
      byteBool v.isSome ++ byte1 ((v.map (fun x => (bit x).toNat)).getD 0) := by
  cases v with
  | none => rfl
  | some x => show byte1 1 ++ byteBool (bit x) = byteBool true ++ byte1 (bit x).toNat
              cases bit x <;> rfl

theorem tickFlagged_eq (t : Option Tick) :
    tickFlagged t = byteBool t.isSome ++ byte4 ((t.map (·.toNat)).getD 0) := by
  cases t <;> rfl

/-- The bytes of a stamp with its tick that may be absent, behind its flag byte. -/
def momentOrZero (m : Option Moment) : List Byte := (m.map Moment.bytes).getD (List.replicate 10 0)

theorem momentFlagged_eq (m : Option Moment) : momentFlagged m = byteBool m.isSome ++ momentOrZero m := by
  cases m <;> rfl

@[simp] theorem length_momentOrZero (m : Option Moment) : (momentOrZero m).length = 10 := by
  cases m <;> simp [momentOrZero]
@[simp] theorem field_after_momentOrZero (m : Option Moment) (rest : List Byte) (k w : ℕ) :
    field (momentOrZero m ++ rest) (k + 10) w = field rest k w := field_skip (length_momentOrZero m) k w
@[simp] theorem drop_after_momentOrZero (m : Option Moment) (rest : List Byte) (k : ℕ) :
    (momentOrZero m ++ rest).drop (k + 10) = rest.drop k := drop_skip (length_momentOrZero m) k
@[simp] theorem take_momentOrZero (m : Option Moment) (rest : List Byte) :
    (momentOrZero m ++ rest).take 10 = momentOrZero m := by
  rw [List.take_append_of_le_length (by simp), List.take_of_length_le (by simp)]
@[simp] theorem take_momentOrZero_last (m : Option Moment) : (momentOrZero m).take 10 = momentOrZero m :=
  List.take_of_length_le (by simp)

/-- A stamp that may be absent, by the bytes it is sent as. -/
theorem isOptionalMoment_iff {o : List Byte} {k : ℕ} {m : Option Moment} : IsOptionalMoment o k m ↔
    field o k 1 = (if m.isSome then 1 else 0) ∧ (o.drop (k + 1)).take 10 = momentOrZero m := by
  cases m <;> rfl

/-! ### Runs (R188) -/

/-- A content is cut into segments of 246 bytes, the last one the remainder. -/
theorem segments_spec (fuel : ℕ) (content : List Byte) (h0 : content ≠ []) (h : content.length ≤ 246 * (fuel + 1)) :
    (segments fuel content).length = (content.length + 245) / 246 ∧
      ∀ k, k < (content.length + 245) / 246 →
        (segments fuel content)[k]? = some ((content.drop (246 * k)).take 246) := by
  have hpos : 0 < content.length := List.length_pos_iff.2 h0
  have one : content.length ≤ 246 → (content.length + 245) / 246 = 1 ∧
      ∀ k, k < 1 → ([content] : List (List Byte))[k]? = some ((content.drop (246 * k)).take 246) := fun hl =>
    ⟨by omega, fun k hk => by
      obtain rfl : k = 0 := by omega
      simp [List.take_of_length_le hl]⟩
  induction fuel generalizing content with
  | zero =>
    obtain ⟨h1, h2⟩ := one (by omega)
    rw [h1]
    exact ⟨rfl, h2⟩
  | succ fuel ih =>
    unfold segments
    by_cases hl : content.length ≤ Config.segmentBytes
    · obtain ⟨h1, h2⟩ := one hl
      rw [h1, if_pos hl]
      exact ⟨rfl, h2⟩
    · rw [if_neg hl]
      simp only [Config.segmentBytes] at hl ⊢
      have hlen : (content.drop 246).length = content.length - 246 := List.length_drop
      have hne : content.drop 246 ≠ [] := List.length_pos_iff.1 (by omega)
      obtain ⟨h1, h2⟩ := ih (content.drop 246) hne (by omega) (by omega) (fun hl' =>
        ⟨by omega, fun k hk => by
          obtain rfl : k = 0 := by omega
          simp [List.take_of_length_le hl']⟩)
      rw [hlen] at h1 h2
      refine ⟨by rw [List.length_cons, h1]; omega, fun k hk => ?_⟩
      cases k with
      | zero => simp
      | succ k =>
        rw [List.getElem?_cons_succ, h2 k (by omega), List.drop_drop]
        congr 3
        ring

/-- The frames of a run, in order, the last one marked. -/
theorem runFrames_spec (kind : FrameKind) (strap : BitVec 2) (parts : List (List Byte)) (n : ℕ) :
    (runFrames kind strap n parts).length = parts.length ∧
      ∀ k, (runFrames kind strap n parts)[k]? = parts[k]?.map (fun part =>
        envelope kind (byte1 strap.toNat ++
          byte1 (if k + 1 = parts.length then 128 + (n + k) else n + k) ++ part)) := by
  induction parts generalizing n with
  | nil => exact ⟨rfl, fun k => rfl⟩
  | cons part parts ih =>
    cases parts with
    | nil =>
      refine ⟨rfl, fun k => ?_⟩
      cases k with
      | zero => rfl
      | succ k => rfl
    | cons next parts =>
      obtain ⟨h1, h2⟩ := ih (n + 1)
      refine ⟨congrArg Nat.succ h1, fun k => ?_⟩
      cases k with
      | zero =>
        show some _ = some _
        rw [if_neg (by simp)]
        rfl
      | succ k =>
        show (runFrames kind strap (n + 1) (next :: parts))[k]? = _
        rw [h2 k, List.getElem?_cons_succ]
        have : n + 1 + k = n + (k + 1) := by omega
        simp [this]

/-- The run that carries a content. -/
theorem runOf_spec (kind : FrameKind) (strap : BitVec 2) {content : List Byte} {n : ℕ} (h0 : content ≠ [])
    (hn : n = (content.length + 245) / 246) (h : n ≤ 128) :
    (runOf kind strap content).length = n ∧
      ∀ k, k < n → (runOf kind strap content)[k]? = some (envelope kind (byte1 strap.toNat ++
        byte1 (if k + 1 = n then 128 + k else k) ++ (content.drop (246 * k)).take 246)) := by
  obtain ⟨h1, h2⟩ := segments_spec 127 content h0 (by omega)
  obtain ⟨h3, h4⟩ := runFrames_spec kind strap (segments 127 content) 0
  rw [← hn] at h1 h2
  refine ⟨by rw [runOf, h3, h1], fun k hk => ?_⟩
  rw [runOf, h4, h2 k hk, h1]
  simp

end Sys2Proof.Machine
end

