-- ==== Sys2Proof/Laws/Images.lean ====
section
/-! SUPPORT. Laws of the load images (section 10.5, R187): what an image that reads as an entry holds at each
of its fields. -/

namespace Sys2Proof.Machine

theorem onlyIf_some {α : Type} {b : Bool} {x y : α} (h : onlyIf b x = some y) : b = true ∧ x = y := by
  unfold onlyIf at h
  split at h
  · next hb => exact ⟨hb, Option.some.inj h⟩
  · cases h

/-- A metric read from its fields has those fields. -/
theorem metricOf_fields {code percentile aux : ℕ} {m : Metric} (h : metricOf code percentile aux = some m) :
    m.code = code ∧ m.percentileField = percentile ∧ m.auxField = aux := by
  unfold metricOf at h
  split at h <;> first | cases h | skip
  all_goals
    obtain ⟨h1, rfl⟩ := onlyIf_some h
    simp at h1
    simp [Metric.code, Metric.percentileField, Metric.auxField]
    try omega

/-- A window type read from its fields has those fields. -/
theorem windowOf_fields {code minutes step count : ℕ} {w : WindowType}
    (h : windowOf code minutes step count = some w) :
    w.code = code ∧ w.fields.1 = minutes ∧ w.fields.2.1 = step ∧ w.fields.2.2 = count := by
  unfold windowOf at h
  split at h <;> first | cases h | skip
  all_goals
    obtain ⟨h1, rfl⟩ := onlyIf_some h
    simp at h1
    simp [WindowType.code, WindowType.fields]
    try omega

/-- A test read from its fields has those fields. -/
theorem testOf_fields {code reference : ℕ} {t : Test} (h : testOf code reference = some t) :
    t.code = code ∧ t.referenceField = reference := by
  unfold testOf at h
  split at h <;> first | cases h | skip
  all_goals
    obtain ⟨h1, rfl⟩ := onlyIf_some h
    simp at h1
    simp [Test.code, Test.referenceField]
    try omega

theorem actionOf_code {code : ℕ} {a : Action} (h : actionOf code = some a) : a.code = code := by
  unfold actionOf at h
  split at h <;> cases h <;> rfl

/-- A beacon line read from its flag and byte has them, and the flag only under EPISODE or BOTH. -/
theorem beaconOf_fields {present : Bool} {line : ℕ} {a : Action} {b : Option ℕ}
    (h : beaconOf present line a = some b) :
    b.isSome = present ∧ b.getD 0 = line ∧ (present = true → a.episodes = true) := by
  unfold beaconOf at h
  split at h
  · obtain ⟨h1, rfl⟩ := onlyIf_some h
    simp_all
  · obtain ⟨h1, rfl⟩ := onlyIf_some h
    simp_all

/-! ### Bytes and fields -/

theorem byte1_field {o : List Byte} {k : ℕ} (h : k < o.length) : byte1 (field o k 1) = (o.drop k).take 1 := by
  rw [field, List.drop_eq_getElem_cons h, List.take_succ_cons, List.take_zero, bigEndian, List.foldl_cons,
    List.foldl_nil, zero_mul, zero_add, byte1, BitVec.ofNat_toNat, BitVec.setWidth_eq]

theorem byte2_field {o : List Byte} {k : ℕ} (h : k + 1 < o.length) : byte2 (field o k 2) = (o.drop k).take 2 := by
  rw [field, List.drop_eq_getElem_cons (by omega), List.drop_eq_getElem_cons h]
  have h1 := o[k].isLt
  have h2 := o[k + 1].isLt
  simp only [List.take_succ_cons, List.take_zero, bigEndian, List.foldl_cons, List.foldl_nil, zero_mul, zero_add,
    byte2]
  congr 1
  · apply BitVec.eq_of_toNat_eq
    simp only [BitVec.toNat_ofNat]
    omega
  · congr 1
    apply BitVec.eq_of_toNat_eq
    simp only [BitVec.toNat_ofNat]
    omega

theorem field_lt_two (o : List Byte) (k : ℕ) : field o k 2 < 65536 := by
  unfold field
  rcases o.drop k with _ | ⟨a, _ | ⟨b, l⟩⟩ <;> simp [bigEndian]
  · have := a.isLt
    omega
  · have := a.isLt
    have := b.isLt
    omega

/-- An entry read from an image has the fields the image holds at their offsets. -/
theorem LimitEntry.ofImage_fields {o : List Byte} {e : LimitEntry} (h : LimitEntry.ofImage o = some e) :
    e.key = field o 0 2 ∧ e.slots.toNat = field o 2 2 ∧ e.bands.toNat = field o 4 2 ∧
      (e.metric.code = field o 6 1 ∧ e.metric.percentileField = field o 7 1 ∧ e.metric.auxField = field o 8 2) ∧
      (e.window.code = field o 10 1 ∧ e.window.fields.1 = field o 11 2 ∧ e.window.fields.2.1 = field o 13 2 ∧
        e.window.fields.2.2 = field o 15 1) ∧
      (e.test.code = field o 16 1 ∧ e.test.referenceField = field o 20 2) ∧
      e.flagByte = (o.getD 17 0 &&& 0x07).toNat ∧ e.threshold = field o 18 2 ∧ e.minCoverage = field o 22 1 ∧
      e.action.code = field o 23 1 ∧
      (e.beacon.isSome = (o.getD 17 0).getLsbD 2 ∧ e.beacon.getD 0 = field o 24 1 ∧
        ((o.getD 17 0).getLsbD 2 = true → e.action.episodes = true)) ∧
      e.holdOff = field o 25 2 ∧ e.maxLength = field o 27 1 := by
  unfold LimitEntry.ofImage at h
  simp only [Option.bind_eq_some_iff] at h
  obtain ⟨m, hm, w, hw, t, ht, a, ha, b, hb, h⟩ := h
  obtain ⟨h1, rfl⟩ := onlyIf_some h
  have hb' := beaconOf_fields hb
  simp only [plainFieldsAllowed, Bool.and_eq_true, decide_eq_true_eq, bne_iff_ne] at h1
  refine ⟨rfl, ?_, ?_, metricOf_fields hm, windowOf_fields hw, testOf_fields ht, ?_, rfl, rfl, actionOf_code ha,
    hb', rfl, rfl⟩
  · simp only [BitVec.toNat_ofNat]
    omega
  · simp only [BitVec.toNat_ofNat]
    have := field_lt_two o 4
    omega
  · simp only [LimitEntry.flagByte, hb'.1, imageFlags]
    exact (by decide : ∀ x : Byte, (((if x.getLsbD 0 = true then 1 else 0) +
        if (if x.getLsbD 1 = true then Custody.certified else Custody.site) = Custody.certified then 2 else 0) +
      if x.getLsbD 2 = true then 4 else 0) = (x &&& 7).toNat) _

end Sys2Proof.Machine
end

