-- ==== Sys2Proof/Laws/Separation.lean ====
section
/-! SUPPORT. Two different sums of energies are not too near to each other: the values of integer polynomials
of degree below N at the N-th root of 10, by the norm of the field of that root (log 6). -/

namespace Sys2Proof.Separation

open Polynomial

section
variable {N : ℕ}

/-- x^N - 10. -/
noncomputable def rootPoly (N : ℕ) : ℤ[X] := X ^ N - C 10

theorem monic_rootPoly (h : N ≠ 0) : (rootPoly N).Monic := monic_X_pow_sub_C _ h

theorem natDegree_rootPoly : (rootPoly N).natDegree = N := natDegree_X_pow_sub_C

theorem eval₂_rootPoly {R : Type*} [CommRing R] (f : ℤ →+* R) (x : R) :
    eval₂ f x (rootPoly N) = x ^ N - 10 := by
  unfold rootPoly
  rw [eval₂_sub, eval₂_X_pow, eval₂_C, map_ofNat]

theorem irreducible_rootPoly (h : N ≠ 0) : Irreducible (rootPoly N) := by
  have hm := monic_rootPoly h
  have hd : (rootPoly N).degree = N := by rw [degree_eq_natDegree hm.ne_zero, natDegree_rootPoly]
  have hp : (Ideal.span {(2 : ℤ)}).IsPrime :=
    (Ideal.span_singleton_prime (by norm_num)).2 Int.prime_two
  refine Polynomial.irreducible_of_eisenstein_criterion hp ?_ (fun n hn => ?_) ?_ ?_ hm.isPrimitive
  · rw [hm.leadingCoeff, Ideal.mem_span_singleton]; norm_num
  · rw [hd] at hn
    have hn' : n < N := by exact_mod_cast hn
    unfold rootPoly
    rw [coeff_sub, coeff_X_pow, coeff_C, if_neg (by omega), Ideal.mem_span_singleton]
    split <;> norm_num
  · rw [hd]; exact_mod_cast Nat.pos_of_ne_zero h
  · rw [Ideal.span_singleton_pow, Ideal.mem_span_singleton]
    simp [rootPoly, coeff_X_pow, h.symm]

theorem irreducible_map_rootPoly (h : N ≠ 0) : Irreducible ((rootPoly N).map (Int.castRingHom ℚ)) :=
  (IsPrimitive.Int.irreducible_iff_irreducible_map_cast (monic_rootPoly h).isPrimitive).1 (irreducible_rootPoly h)

end

/-- A value of an integer polynomial of degree below N at the N-th root of 10 is not too near to 0. -/
theorem separation {N : ℕ} (hN : N ≠ 0) {t : ℝ} (ht : 0 ≤ t) (htN : t ^ N = 10) {P : ℤ[X]} (hP : P ≠ 0)
    (hd : P.natDegree < N) {M : ℝ} (hM : ∑ i ∈ Finset.range N, |(P.coeff i : ℝ)| * t ^ i ≤ M) :
    1 ≤ |aeval t P| * M ^ (N - 1) := by
  have : Fact (Irreducible ((rootPoly N).map (Int.castRingHom ℚ))) := ⟨irreducible_map_rootPoly hN⟩
  have hQ0 := (irreducible_map_rootPoly hN).ne_zero
  let K := AdjoinRoot ((rootPoly N).map (Int.castRingHom ℚ))
  let r : K := AdjoinRoot.root _
  have hQd : ((rootPoly N).map (Int.castRingHom ℚ)).natDegree = N := by
    rw [natDegree_map_eq_of_injective (RingHom.injective_int _), natDegree_rootPoly]
  have : FiniteDimensional ℚ K := (AdjoinRoot.powerBasis hQ0).finite
  have hfin : Module.finrank ℚ K = N := by
    rw [(AdjoinRoot.powerBasis hQ0).finrank, AdjoinRoot.powerBasis_dim, hQd]
  have hrN : r ^ N = 10 := by
    have h' : eval₂ (AdjoinRoot.of _) r ((rootPoly N).map (Int.castRingHom ℚ)) = 0 := AdjoinRoot.eval₂_root _
    rw [eval₂_map, eval₂_rootPoly] at h'
    exact sub_eq_zero.1 h'
  have hr : IsIntegral ℤ r := ⟨rootPoly N, monic_rootPoly hN, by rw [eval₂_rootPoly, hrN, sub_self]⟩
  let α : K := aeval r P
  have hα : IsIntegral ℤ α :=
    IsIntegral.of_mem_of_fg (Algebra.adjoin ℤ {r}) hr.fg_adjoin_singleton _ (aeval_mem_adjoin_singleton ℤ r)
  have hα0 : α ≠ 0 := by
    intro h
    have h1 : AdjoinRoot.mk ((rootPoly N).map (Int.castRingHom ℚ)) (P.map (Int.castRingHom ℚ)) = 0 := by
      rw [← AdjoinRoot.aeval_eq, ← h]
      exact aeval_map_algebraMap ℚ r P
    rw [AdjoinRoot.mk_eq_zero] at h1
    have h2 : P.map (Int.castRingHom ℚ) ≠ 0 := by
      rwa [Ne, Polynomial.map_eq_zero_iff (RingHom.injective_int _)]
    have h3 := natDegree_le_of_dvd h1 h2
    rw [hQd, natDegree_map_eq_of_injective (RingHom.injective_int _)] at h3
    omega
  have hn0 : Algebra.norm ℚ α ≠ 0 := Algebra.norm_ne_zero_iff.2 hα0
  obtain ⟨n, hn⟩ := IsIntegrallyClosed.isIntegral_iff.1 (Algebra.isIntegral_norm ℚ hα)
  have hn1 : 1 ≤ ‖algebraMap ℚ ℂ (Algebra.norm ℚ α)‖ := by
    rw [← hn]
    have : n ≠ 0 := by rintro rfl; exact hn0 (by rw [← hn]; simp)
    have h1 : (1 : ℝ) ≤ |(n : ℝ)| := by exact_mod_cast Int.one_le_abs this
    simpa using h1
  rw [Algebra.norm_eq_prod_embeddings ℚ ℂ α, norm_prod] at hn1
  have heval : ∀ σ : K →ₐ[ℚ] ℂ, σ α = ∑ i ∈ Finset.range N, (P.coeff i : ℂ) * σ r ^ i := by
    intro σ
    have : σ α = aeval (σ r) P := (Polynomial.aeval_algHom_apply (σ.restrictScalars ℤ) r P).symm
    rw [this, aeval_eq_sum_range' hd]
    simp
  have hroot : ∀ σ : K →ₐ[ℚ] ℂ, σ r ^ N = 10 := by
    intro σ
    rw [← map_pow, hrN, map_ofNat]
  have hnorm : ∀ σ : K →ₐ[ℚ] ℂ, ‖σ r‖ = t := by
    intro σ
    have h : ‖σ r‖ ^ N = t ^ N := by
      rw [← norm_pow, hroot, htN]; simp
    exact (pow_left_inj₀ (norm_nonneg _) ht hN).1 h
  have hle : ∀ σ : K →ₐ[ℚ] ℂ, ‖σ α‖ ≤ M := by
    intro σ
    rw [heval]
    refine (norm_sum_le _ _).trans (le_trans (le_of_eq ?_) hM)
    refine Finset.sum_congr rfl fun i _ => ?_
    rw [norm_mul, norm_pow, hnorm]
    congr 1
    simp
  have hc : eval₂ ((Algebra.ofId ℚ ℂ : ℚ →ₐ[ℚ] ℂ) : ℚ →+* ℂ) (t : ℂ) ((rootPoly N).map (Int.castRingHom ℚ)) = 0 := by
    have h10 : (t : ℂ) ^ N = 10 := by rw [← Complex.ofReal_pow, htN]; simp
    rw [eval₂_map, eval₂_rootPoly, h10, sub_self]
  let σ0 : K →ₐ[ℚ] ℂ := AdjoinRoot.liftAlgHom _ (Algebra.ofId ℚ ℂ) (t : ℂ) hc
  have hσ0 : ‖σ0 α‖ = |aeval t P| := by
    have h1 : σ0 r = (t : ℂ) := AdjoinRoot.liftAlgHom_root ..
    rw [heval, h1, aeval_eq_sum_range' hd, ← Real.norm_eq_abs, ← Complex.norm_real]
    congr 1
    push_cast
    simp
  classical
  rw [← Finset.mul_prod_erase _ _ (Finset.mem_univ σ0), hσ0] at hn1
  refine hn1.trans (mul_le_mul_of_nonneg_left ?_ (abs_nonneg _))
  have hcard : (Finset.univ.erase σ0).card = N - 1 := by
    rw [Finset.card_erase_of_mem (Finset.mem_univ _), Finset.card_univ, AlgHom.card, hfin]
  rw [← hcard]
  exact (Finset.prod_le_prod (fun σ _ => norm_nonneg _) (fun σ _ => hle σ)).trans_eq (Finset.prod_const M)

end Sys2Proof.Separation
end

