-- ==== Sys2Proof/Laws/Levels.lean ====
section
/-! SUPPORT. The equivalent level is exact: the comparison of energy sums decides every two sums the part can
form (log 6), so equivalentLevel gives the largest code whose energy does not exceed the mean (section 5.3).
-/

namespace Sys2Proof.Machine

/-! ### The hundredth root of 10 -/

/-- The hundredth root of 10: the energy of code 1. -/
noncomputable def rootTen : ℝ := (10 : ℝ) ^ ((1 : ℝ) / 100)

theorem rootTen_pos : 0 < rootTen := Real.rpow_pos_of_pos (by norm_num) _

/-- The energy of a code (section 5.3). -/
theorem rootTen_pow (n : ℕ) : rootTen ^ n = (10 : ℝ) ^ ((n : ℝ) / 100) := by
  unfold rootTen
  rw [← Real.rpow_natCast, ← Real.rpow_mul (by norm_num)]
  congr 1
  ring

theorem rootTen_hundred (q : ℕ) : rootTen ^ (100 * q) = (10 : ℝ) ^ q := by
  rw [rootTen_pow, ← Real.rpow_natCast]
  congr 1
  push_cast
  ring

theorem one_lt_rootTen : 1 < rootTen := Real.one_lt_rpow (by norm_num) (by norm_num)

theorem one_le_rootTen_pow (n : ℕ) : 1 ≤ rootTen ^ n := one_le_pow₀ one_lt_rootTen.le

theorem rootTen_pow_split (c : ℕ) : rootTen ^ (c % 100) * (10 : ℝ) ^ (c / 100) = rootTen ^ c := by
  rw [← rootTen_hundred, ← pow_add]
  congr 1
  omega

/-! ### Sums and their values -/

/-- The value of a sum. -/
noncomputable def EnergySum.value (e : EnergySum) : ℝ := (e.map (fun p => (p.2 : ℝ) * rootTen ^ p.1)).sum

/-- Keys rising below a bound, amounts above 0. -/
structure Counts.Canonical (bound : ℕ) (e : Counts) : Prop where
  rising : (e.map (·.1)).Pairwise (· < ·)
  below  : ∀ p, p ∈ e → p.1 < bound
  above  : ∀ p, p ∈ e → 0 < p.2

theorem value_bump (k n : ℕ) (e : EnergySum) :
    EnergySum.value (Counts.bump k n e) = EnergySum.value e + n * rootTen ^ k := by
  induction e with
  | nil => simp [Counts.bump, EnergySum.value]
  | cons p e ih =>
    obtain ⟨j, m⟩ := p
    unfold Counts.bump
    simp only [EnergySum.value] at ih ⊢
    split
    · simp; ring
    · split
      · next h => subst h; simp; ring
      · simp only [List.map_cons, List.sum_cons, ih]; ring

theorem mem_bump {k n : ℕ} {e : Counts} {p : ℕ × ℕ} (h : p ∈ Counts.bump k n e) :
    p.1 = k ∨ ∃ q, q ∈ e ∧ q.1 = p.1 := by
  induction e with
  | nil =>
    rw [List.mem_singleton.1 h]
    exact Or.inl rfl
  | cons q e ih =>
    obtain ⟨j, m⟩ := q
    unfold Counts.bump at h
    split at h
    · rcases List.mem_cons.1 h with rfl | h
      · exact Or.inl rfl
      · exact Or.inr ⟨p, h, rfl⟩
    · split at h
      · next hk =>
        rcases List.mem_cons.1 h with rfl | h
        · exact Or.inl hk.symm
        · exact Or.inr ⟨p, List.mem_cons_of_mem _ h, rfl⟩
      · rcases List.mem_cons.1 h with rfl | h
        · exact Or.inr ⟨_, List.mem_cons_self, rfl⟩
        · rcases ih h with h | ⟨q, hq, h⟩
          · exact Or.inl h
          · exact Or.inr ⟨q, List.mem_cons_of_mem _ hq, h⟩

theorem rising_bump {k n : ℕ} {e : Counts} (h : (e.map (·.1)).Pairwise (· < ·)) :
    ((Counts.bump k n e).map (·.1)).Pairwise (· < ·) := by
  induction e with
  | nil => simp [Counts.bump]
  | cons q e ih =>
    obtain ⟨j, m⟩ := q
    rw [List.map_cons, List.pairwise_cons] at h
    unfold Counts.bump
    split
    · next hk =>
      simp only [List.map_cons, List.pairwise_cons]
      refine ⟨fun x hx => ?_, h⟩
      rcases List.mem_cons.1 hx with rfl | hx
      · exact hk
      · exact hk.trans (h.1 x hx)
    · split
      · exact List.pairwise_cons.2 h
      · next h1 h2 =>
        simp only [List.map_cons, List.pairwise_cons]
        refine ⟨fun x hx => ?_, ih h.2⟩
        obtain ⟨p, hp, rfl⟩ := List.mem_map.1 hx
        rcases mem_bump hp with hk | ⟨q, hq, hk⟩
        · show j < p.1
          omega
        · rw [← hk]
          exact h.1 _ (List.mem_map_of_mem hq)

theorem above_bump {k n : ℕ} {e : Counts} (hn : 0 < n) (h : ∀ p, p ∈ e → 0 < p.2) :
    ∀ p, p ∈ Counts.bump k n e → 0 < p.2 := by
  induction e with
  | nil => simpa [Counts.bump] using hn
  | cons q e ih =>
    obtain ⟨j, m⟩ := q
    have hm : 0 < m := h (j, m) List.mem_cons_self
    have ht : ∀ p, p ∈ e → 0 < p.2 := fun p hp => h p (List.mem_cons_of_mem _ hp)
    unfold Counts.bump
    split
    · exact List.forall_mem_cons.2 ⟨hn, h⟩
    · split
      · exact List.forall_mem_cons.2 ⟨by show 0 < m + n; omega, ht⟩
      · exact List.forall_mem_cons.2 ⟨hm, ih ht⟩

theorem canonical_bump {bound k n : ℕ} {e : Counts} (hk : k < bound) (hn : 0 < n) (h : e.Canonical bound) :
    (Counts.bump k n e).Canonical bound :=
  ⟨rising_bump h.1, fun p hp => by
    rcases mem_bump hp with hp | ⟨q, hq, hp⟩
    · omega
    · rw [← hp]; exact h.2 q hq, above_bump hn h.3⟩

/-- The polynomial of a sum. -/
noncomputable def EnergySum.poly (e : EnergySum) : Polynomial ℤ :=
  (e.map (fun p => Polynomial.monomial p.1 (p.2 : ℤ))).sum

theorem aeval_poly (e : EnergySum) : Polynomial.aeval rootTen e.poly = e.value := by
  induction e with
  | nil => simp [EnergySum.poly, EnergySum.value]
  | cons p e ih =>
    simp only [EnergySum.poly, EnergySum.value, List.map_cons, List.sum_cons, map_add] at ih ⊢
    rw [ih, Polynomial.aeval_monomial]
    simp

theorem coeff_poly_nonneg (e : EnergySum) (i : ℕ) : 0 ≤ e.poly.coeff i := by
  induction e with
  | nil => simp [EnergySum.poly]
  | cons p e ih =>
    simp only [EnergySum.poly, List.map_cons, List.sum_cons, Polynomial.coeff_add] at ih ⊢
    refine add_nonneg ?_ ih
    rw [Polynomial.coeff_monomial]
    split <;> simp

theorem coeff_poly_zero {e : EnergySum} {i : ℕ} (h : ∀ p, p ∈ e → p.1 ≠ i) : e.poly.coeff i = 0 := by
  induction e with
  | nil => simp [EnergySum.poly]
  | cons p e ih =>
    have := ih (fun q hq => h q (List.mem_cons_of_mem _ hq))
    simp only [EnergySum.poly, List.map_cons, List.sum_cons, Polynomial.coeff_add] at this ⊢
    rw [this, Polynomial.coeff_monomial, if_neg (h p List.mem_cons_self), add_zero]

theorem coeff_poly_cons (k m : ℕ) (e : EnergySum) (i : ℕ) :
    (EnergySum.poly ((k, m) :: e)).coeff i = (if k = i then (m : ℤ) else 0) + e.poly.coeff i := by
  simp only [EnergySum.poly, List.map_cons, List.sum_cons, Polynomial.coeff_add, Polynomial.coeff_monomial]

/-- Canonical sums with one polynomial are one list. -/
theorem poly_injective {bound : ℕ} {a b : EnergySum} (ha : Counts.Canonical bound a)
    (hb : Counts.Canonical bound b) (h : a.poly = b.poly) : a = b := by
  induction a generalizing b with
  | nil =>
    cases b with
    | nil => rfl
    | cons q b =>
      obtain ⟨j, m⟩ := q
      have h1 := congrArg (fun p => Polynomial.coeff p j) h
      simp only [coeff_poly_cons, if_pos] at h1
      have h2 := coeff_poly_nonneg b j
      have h3 : 0 < m := hb.above (j, m) List.mem_cons_self
      simp [EnergySum.poly] at h1
      simp only [EnergySum.poly] at h2
      omega
  | cons p a ih =>
    obtain ⟨k, n⟩ := p
    have hn : 0 < n := ha.above (k, n) List.mem_cons_self
    have hra := List.pairwise_cons.1 (List.map_cons ▸ ha.rising)
    cases b with
    | nil =>
      have h1 := congrArg (fun p => Polynomial.coeff p k) h
      simp only [coeff_poly_cons] at h1
      have h2 := coeff_poly_nonneg a k
      simp [EnergySum.poly] at h1
      simp only [EnergySum.poly] at h2
      omega
    | cons q b =>
      obtain ⟨j, m⟩ := q
      have hm : 0 < m := hb.above (j, m) List.mem_cons_self
      have hrb := List.pairwise_cons.1 (List.map_cons ▸ hb.rising)
      have ha0 : ∀ i, i ≤ k → (EnergySum.poly a).coeff i = 0 := fun i hi => coeff_poly_zero (fun p hp => by
        have := hra.1 p.1 (List.mem_map_of_mem hp)
        show p.1 ≠ i
        have : k < p.1 := this
        omega)
      have hb0 : ∀ i, i ≤ j → (EnergySum.poly b).coeff i = 0 := fun i hi => coeff_poly_zero (fun p hp => by
        have := hrb.1 p.1 (List.mem_map_of_mem hp)
        show p.1 ≠ i
        have : j < p.1 := this
        omega)
      have hc : ∀ i, (if k = i then (n : ℤ) else 0) + (EnergySum.poly a).coeff i =
          (if j = i then (m : ℤ) else 0) + (EnergySum.poly b).coeff i := fun i => by
        rw [← coeff_poly_cons, ← coeff_poly_cons, h]
      have hkj : k = j := by
        rcases lt_trichotomy k j with hlt | he | hlt
        · have := hc k
          rw [if_pos rfl, if_neg (by omega), ha0 k le_rfl, hb0 k hlt.le] at this
          omega
        · exact he
        · have := hc j
          rw [if_pos rfl, if_neg (by omega), hb0 j le_rfl, ha0 j hlt.le] at this
          omega
      subst hkj
      have hnm : n = m := by
        have := hc k
        rw [if_pos rfl, if_pos rfl, ha0 k le_rfl, hb0 k le_rfl] at this
        omega
      subst hnm
      have hp : EnergySum.poly a = EnergySum.poly b := by
        ext i
        have := hc i
        omega
      rw [ih ⟨hra.2, fun p hp => ha.2 p (List.mem_cons_of_mem _ hp), fun p hp => ha.3 p (List.mem_cons_of_mem _ hp)⟩
        ⟨hrb.2, fun p hp => hb.2 p (List.mem_cons_of_mem _ hp), fun p hp => hb.3 p (List.mem_cons_of_mem _ hp)⟩ hp]

theorem degree_poly {bound : ℕ} {e : EnergySum} (h : Counts.Canonical bound e) (i : ℕ) (hi : bound ≤ i) :
    e.poly.coeff i = 0 :=
  coeff_poly_zero (fun p hp => by have := h.below p hp; omega)

theorem value_eq_sum {e : EnergySum} (h : Counts.Canonical 100 e) :
    ∑ i ∈ Finset.range 100, (e.poly.coeff i : ℝ) * rootTen ^ i = e.value := by
  rw [← aeval_poly, Polynomial.aeval_eq_sum_range' (n := 100)]
  · simp
  · by_contra hd
    have h1 : e.poly.coeff e.poly.natDegree = 0 := degree_poly h _ (by omega)
    rw [Polynomial.coeff_natDegree, Polynomial.leadingCoeff_eq_zero] at h1
    rw [h1] at hd
    simp at hd

/-- Two different sums are not too near to each other. -/
theorem value_apart {a b : EnergySum} (ha : Counts.Canonical 100 a) (hb : Counts.Canonical 100 b)
    (hne : a ≠ b) : 1 ≤ |a.value - b.value| * (a.value + b.value) ^ 99 := by
  have hP : a.poly - b.poly ≠ 0 := fun h => hne (poly_injective ha hb (sub_eq_zero.1 h))
  have h := Separation.separation (N := 100) (t := rootTen) (by norm_num) rootTen_pos.le
    (by simpa using rootTen_hundred 1) hP ?_ (M := a.value + b.value) ?_
  · rwa [map_sub, aeval_poly, aeval_poly] at h
  · by_contra hd
    have h1 : (a.poly - b.poly).coeff (a.poly - b.poly).natDegree = 0 := by
      rw [Polynomial.coeff_sub, degree_poly ha _ (by omega), degree_poly hb _ (by omega), sub_self]
    rw [Polynomial.coeff_natDegree, Polynomial.leadingCoeff_eq_zero] at h1
    exact hP h1
  · rw [← value_eq_sum ha, ← value_eq_sum hb, ← Finset.sum_add_distrib]
    refine Finset.sum_le_sum fun i _ => ?_
    rw [← add_mul]
    refine mul_le_mul_of_nonneg_right ?_ (pow_nonneg rootTen_pos.le _)
    rw [Polynomial.coeff_sub]
    push_cast
    have h1 : (0 : ℝ) ≤ a.poly.coeff i := by exact_mod_cast coeff_poly_nonneg a i
    have h2 : (0 : ℝ) ≤ b.poly.coeff i := by exact_mod_cast coeff_poly_nonneg b i
    exact abs_le.2 ⟨by linarith, by linarith⟩

/-! ### The bounds of a sum -/

/-- The search for the root finds the largest whole number below it. -/
theorem rootBits_bounds {k r : ℕ} (j acc : ℕ) (h1 : (acc : ℝ) ≤ 2 ^ k * rootTen ^ r)
    (h2 : 2 ^ k * rootTen ^ r < (acc + 2 ^ j : ℕ)) :
    (rootBits k r j acc : ℝ) ≤ 2 ^ k * rootTen ^ r ∧ 2 ^ k * rootTen ^ r < rootBits k r j acc + 1 := by
  have step : ∀ x : ℕ, x ^ 100 ≤ 10 ^ r * 2 ^ (100 * k) ↔ (x : ℝ) ≤ 2 ^ k * rootTen ^ r := fun x => by
    have hpos : (0 : ℝ) ≤ 2 ^ k * rootTen ^ r :=
      mul_nonneg (by positivity) (pow_nonneg rootTen_pos.le _)
    rw [← pow_le_pow_iff_left₀ (Nat.cast_nonneg x) hpos (by norm_num : (100 : ℕ) ≠ 0), mul_pow, ← pow_mul,
      ← pow_mul, mul_comm r 100, rootTen_hundred, mul_comm k 100, mul_comm ((2 : ℝ) ^ _)]
    exact_mod_cast Iff.rfl
  induction j generalizing acc with
  | zero =>
    unfold rootBits
    refine ⟨h1, ?_⟩
    push_cast at h2
    simpa using h2
  | succ j ih =>
    unfold rootBits
    split
    · next h =>
      refine ih (acc + 2 ^ j) (by exact_mod_cast (step _).1 h) ?_
      rw [pow_succ] at h2
      have : acc + 2 ^ j + 2 ^ j = acc + 2 ^ j * 2 := by ring
      rw [this]
      exact h2
    · next h =>
      have := fun hx => h ((step (acc + 2 ^ j)).2 hx)
      exact ih acc h1 (not_le.1 this)

theorem rootFloor_bounds {k r : ℕ} (hr : r < 100) :
    (rootFloor k r : ℝ) ≤ 2 ^ k * rootTen ^ r ∧ 2 ^ k * rootTen ^ r < rootFloor k r + 1 := by
  refine rootBits_bounds (k + 4) 0
    (by rw [Nat.cast_zero]; exact mul_nonneg (by positivity) (pow_nonneg rootTen_pos.le _)) ?_
  have h : rootTen ^ r < 16 := by
    refine lt_of_le_of_lt (pow_le_pow_right₀ one_lt_rootTen.le hr.le) ?_
    have := rootTen_hundred 1
    norm_num at this
    rw [this]
    norm_num
  push_cast
  rw [zero_add, pow_add]
  exact mul_lt_mul_of_pos_left (by norm_num; exact h) (by positivity)

theorem sum_bounds (k : ℕ) {e : EnergySum} (h : ∀ p, p ∈ e → p.1 < 100) :
    (e.lower k : ℝ) ≤ 2 ^ k * e.value ∧ 2 ^ k * e.value ≤ e.upper k ∧
      (e.upper k : ℝ) ≤ e.lower k + e.value := by
  induction e with
  | nil => simp [EnergySum.lower, EnergySum.upper, EnergySum.value]
  | cons p e ih =>
    obtain ⟨h1, h2, h3⟩ := ih (fun q hq => h q (List.mem_cons_of_mem _ hq))
    obtain ⟨b1, b2⟩ := rootFloor_bounds (k := k) (h p List.mem_cons_self)
    have hp : (0 : ℝ) ≤ p.2 := Nat.cast_nonneg _
    have hr := one_le_rootTen_pow p.1
    simp only [EnergySum.lower, EnergySum.upper, EnergySum.value, List.map_cons, List.sum_cons] at h1 h2 h3 ⊢
    push_cast at h1 h2 h3 ⊢
    refine ⟨?_, ?_, ?_⟩
    · nlinarith [mul_le_mul_of_nonneg_left b1 hp]
    · nlinarith [mul_le_mul_of_nonneg_left b2.le hp]
    · nlinarith [mul_le_mul_of_nonneg_left hr hp]

/-! ### The comparison -/

theorem leAt_sound {a b : EnergySum} (ha : ∀ p, p ∈ a → p.1 < 100) (hb : ∀ p, p ∈ b → p.1 < 100)
    (ks : List ℕ) :
    (EnergySum.leAt a b ks = true → a.value ≤ b.value) ∧
      (EnergySum.leAt a b ks = false → b.value ≤ a.value ∨
        ∀ k, k ∈ ks → 2 ^ k * |a.value - b.value| < a.value + b.value) := by
  induction ks with
  | nil => exact ⟨by simp [EnergySum.leAt], fun _ => Or.inr (by simp)⟩
  | cons k ks ih =>
    obtain ⟨a1, a2, a3⟩ := sum_bounds k ha
    obtain ⟨b1, b2, b3⟩ := sum_bounds k hb
    have hk : (0 : ℝ) < 2 ^ k := by positivity
    unfold EnergySum.leAt
    split
    · next h =>
      have h' : (a.upper k : ℝ) ≤ b.lower k := by exact_mod_cast h
      exact ⟨fun _ => le_of_mul_le_mul_left (a2.trans (h'.trans b1)) hk, by simp⟩
    · next h =>
      have h' : (b.lower k : ℝ) < a.upper k := by exact_mod_cast not_le.1 h
      split
      · next g =>
        have g' : (b.upper k : ℝ) ≤ a.lower k := by exact_mod_cast g
        exact ⟨by simp, fun _ => Or.inl (le_of_mul_le_mul_left (b2.trans (g'.trans a1)) hk)⟩
      · next g =>
        have g' : (a.lower k : ℝ) < b.upper k := by exact_mod_cast not_le.1 g
        refine ⟨ih.1, fun hf => (ih.2 hf).imp_right (fun hs => ?_)⟩
        refine List.forall_mem_cons.2 ⟨?_, hs⟩
        rcases abs_cases (a.value - b.value) with ⟨e, -⟩ | ⟨e, -⟩ <;> rw [e] <;> nlinarith

/-- The comparison of two sums within the part's ranges is exact (log 6). -/
theorem le_iff {a b : EnergySum} (ha : Counts.Canonical 100 a) (hb : Counts.Canonical 100 b)
    (hM : a.value + b.value ≤ 2 ^ 110) : EnergySum.le a b = true ↔ a.value ≤ b.value := by
  unfold EnergySum.le
  by_cases he : a = b
  · subst he; simp
  · have hs := leAt_sound ha.below hb.below EnergySum.precisions
    rw [Bool.or_eq_true, beq_iff_eq, or_iff_right he]
    refine ⟨hs.1, fun h => ?_⟩
    by_contra hf
    rcases hs.2 (by simpa using hf) with hba | hk
    · have h0 := value_apart ha hb he
      rw [le_antisymm h hba] at h0
      simp at h0
      norm_num at h0
    · have h1 := hk 16384 (by decide)
      have h0 := value_apart ha hb he
      have hnn : (0 : ℝ) ≤ a.value + b.value := (mul_nonneg (by positivity) (abs_nonneg _)).trans h1.le
      have h2 : (a.value + b.value) ^ 99 ≤ (2 ^ 110) ^ 99 := pow_le_pow_left₀ hnn hM 99
      have h3 : (1 : ℝ) ≤ |a.value - b.value| * (2 ^ 110) ^ 99 :=
        h0.trans (mul_le_mul_of_nonneg_left h2 (abs_nonneg _))
      have h4 : (2 : ℝ) ^ 16384 * |a.value - b.value| < 2 ^ 110 := h1.trans_le hM
      rw [← pow_mul] at h3
      have h5 : (2 : ℝ) ^ 16384 = 2 ^ (110 * 99) * 2 ^ 5494 := by rw [← pow_add]
      rw [h5] at h4
      have h6 : (2 : ℝ) ^ 110 ≤ 2 ^ 5494 := pow_le_pow_right₀ (by norm_num) (by norm_num)
      have h7 : (0 : ℝ) < 2 ^ 5494 := by positivity
      generalize (2 : ℝ) ^ (110 * 99) = x at *
      generalize (2 : ℝ) ^ 5494 = y at *
      nlinarith

/-! ### The equivalent level -/

theorem canonical_ofCode {n c : ℕ} (hn : 0 < n) : Counts.Canonical 100 (EnergySum.ofCode n c) :=
  ⟨by simp [EnergySum.ofCode], fun p hp => by
      rw [List.mem_singleton.1 hp]; exact Nat.mod_lt _ (by norm_num),
    fun p hp => by rw [List.mem_singleton.1 hp]; exact Nat.mul_pos hn (by positivity)⟩

theorem value_ofCode (n c : ℕ) : (EnergySum.ofCode n c).value = n * rootTen ^ c := by
  rw [← rootTen_pow_split c]
  simp [EnergySum.ofCode, EnergySum.value]
  ring

theorem value_add (c : ℕ) (e : EnergySum) : (EnergySum.add c e).value = e.value + rootTen ^ c := by
  unfold EnergySum.add
  rw [value_bump, ← rootTen_pow_split c]
  push_cast
  ring

/-- A sum held by slices is canonical, and its value is the sum of their energies. -/
theorem ofLevels_spec (ls : List ℕ) : Counts.Canonical 100 (EnergySum.ofLevels ls) ∧
    (EnergySum.ofLevels ls).value = (ls.map codeEnergy).sum := by
  have he : codeEnergy = fun l => rootTen ^ l := funext fun l => (rootTen_pow l).symm
  suffices h : ∀ e : EnergySum, Counts.Canonical 100 e →
      Counts.Canonical 100 (ls.foldl (fun e l => EnergySum.add l e) e) ∧
        EnergySum.value (ls.foldl (fun e l => EnergySum.add l e) e) =
          e.value + (ls.map (fun l => rootTen ^ l)).sum by
    rw [he]
    simpa [EnergySum.value, EnergySum.ofLevels] using h [] ⟨by simp, by simp, by simp⟩
  induction ls with
  | nil => exact fun e h => ⟨h, by simp⟩
  | cons l ls ih =>
    intro e h
    obtain ⟨h1, h2⟩ := ih (EnergySum.add l e)
      (canonical_bump (Nat.mod_lt _ (by norm_num)) (by positivity) h)
    refine ⟨h1, ?_⟩
    rw [List.foldl_cons, h2, value_add]
    simp
    ring

theorem poly_bump (k n : ℕ) (e : EnergySum) :
    EnergySum.poly (Counts.bump k n e) = e.poly + Polynomial.monomial k (n : ℤ) := by
  induction e with
  | nil => simp [Counts.bump, EnergySum.poly]
  | cons p e ih =>
    obtain ⟨j, m⟩ := p
    unfold Counts.bump
    simp only [EnergySum.poly] at ih ⊢
    split
    · simp; ring
    · split
      · next h => subst h; simp; ring
      · simp only [List.map_cons, List.sum_cons, ih]; ring

theorem merge_spec {a b : EnergySum} (ha : Counts.Canonical 100 a) (hb : Counts.Canonical 100 b) :
    Counts.Canonical 100 (Counts.merge a b) ∧ EnergySum.poly (Counts.merge a b) = a.poly + b.poly := by
  unfold Counts.merge
  have hb1 := hb.below
  have hb2 := hb.above
  clear hb
  induction b generalizing a with
  | nil => exact ⟨ha, by simp [EnergySum.poly]⟩
  | cons p b ih =>
    obtain ⟨h1, h2⟩ := ih (canonical_bump (hb1 p List.mem_cons_self) (hb2 p List.mem_cons_self) ha)
      (fun q hq => hb1 q (List.mem_cons_of_mem _ hq)) (fun q hq => hb2 q (List.mem_cons_of_mem _ hq))
    refine ⟨h1, ?_⟩
    rw [List.foldl_cons, h2, poly_bump]
    simp only [EnergySum.poly, List.map_cons, List.sum_cons]
    ring

theorem poly_ofLevels_append (a b : List ℕ) : EnergySum.poly (EnergySum.ofLevels (a ++ b)) =
    (EnergySum.ofLevels a).poly + (EnergySum.ofLevels b).poly := by
  have h : ∀ (ls : List ℕ) (e : EnergySum), EnergySum.poly (ls.foldl (fun e l => EnergySum.add l e) e) =
      e.poly + (ls.map (fun l => Polynomial.monomial (l % 100) (((10 ^ (l / 100) : ℕ)) : ℤ))).sum := by
    intro ls
    induction ls with
    | nil => simp
    | cons l ls ih =>
      intro e
      rw [List.foldl_cons, ih, EnergySum.add, poly_bump, List.map_cons, List.sum_cons]
      ring
  unfold EnergySum.ofLevels
  rw [h, h a, h b]
  simp only [EnergySum.poly, List.map_nil, List.sum_nil, zero_add, List.map_append, List.sum_append]

/-- Sums taken together are the sum of all their slices. -/
theorem merge_ofLevels (a b : List ℕ) :
    Counts.merge (EnergySum.ofLevels a) (EnergySum.ofLevels b) = EnergySum.ofLevels (a ++ b) := by
  obtain ⟨h1, h2⟩ := merge_spec (ofLevels_spec a).1 (ofLevels_spec b).1
  exact poly_injective h1 (ofLevels_spec (a ++ b)).1 (by rw [h2, poly_ofLevels_append])

/-- The search for a code finds the largest one that passes a test which smaller codes pass too. -/
theorem codeBits_greatest {n : ℕ} {e : EnergySum} {P : ℕ → Prop}
    (hP : ∀ c, c < 2048 → (EnergySum.le (EnergySum.ofCode n c) e = true ↔ P c)) :
    ∀ j acc, acc + 2 ^ j ≤ 2048 → P acc → (∀ c, acc + 2 ^ j ≤ c → ¬P c) → (∀ c d, c ≤ d → P d → P c) →
      P (EnergySum.codeBits n e j acc) ∧ ∀ c, EnergySum.codeBits n e j acc < c → ¬P c
  | 0, acc, _, h1, h2, _ => ⟨h1, fun c hc => h2 c hc⟩
  | j + 1, acc, hb, h1, h2, hmono => by
    have hpow : acc + 2 ^ (j + 1) = acc + 2 ^ j + 2 ^ j := by ring
    have hlt : acc + 2 ^ j < 2048 := by
      have : 0 < 2 ^ j := by positivity
      omega
    unfold EnergySum.codeBits
    split
    · next h =>
      exact codeBits_greatest hP j (acc + 2 ^ j) (by omega) ((hP _ hlt).1 h) (by rw [← hpow]; exact h2) hmono
    · next h =>
      exact codeBits_greatest hP j acc (by omega) h1
        (fun c hc hp => h ((hP _ hlt).2 (hmono _ _ hc hp))) hmono

/-- The equivalent level of slices is the largest code whose energy does not exceed their mean energy
(section 5.3, R78). -/
theorem equivalentLevel_greatest {ls : List ℕ} (h0 : ls ≠ []) (hn : ls.length ≤ 2 ^ 36)
    (hl : ∀ l, l ∈ ls → l ≤ 1400) :
    ∃ c, equivalentLevel (EnergySum.ofLevels ls) ls.length = some c ∧ IsEquivalentLevel ls c := by
  obtain ⟨hc, hv⟩ := ofLevels_spec ls
  have he : codeEnergy = fun l => rootTen ^ l := funext fun l => (rootTen_pow l).symm
  unfold IsEquivalentLevel
  rw [he] at hv ⊢
  have hpos : 0 < ls.length := List.length_pos_iff.2 h0
  have hposR : (0 : ℝ) < ls.length := by exact_mod_cast hpos
  have hnR : (ls.length : ℝ) ≤ 2 ^ 36 := by exact_mod_cast hn
  have hup : (ls.map (fun l => rootTen ^ l)).sum ≤ ls.length * rootTen ^ 1400 := by
    have := List.sum_le_card_nsmul (ls.map (fun l => rootTen ^ l)) (rootTen ^ 1400) (fun x hx => by
      obtain ⟨l, hm, rfl⟩ := List.mem_map.1 hx
      exact pow_le_pow_right₀ one_lt_rootTen.le (hl l hm))
    simpa using this
  have hlow : (ls.length : ℝ) ≤ (ls.map (fun l => rootTen ^ l)).sum := by
    have := List.card_nsmul_le_sum (ls.map (fun l => rootTen ^ l)) 1 (fun x hx => by
      obtain ⟨l, hm, rfl⟩ := List.mem_map.1 hx
      exact one_le_rootTen_pow l)
    simpa using this
  generalize hS : (ls.map (fun l => rootTen ^ l)).sum = S at *
  have h1400 : rootTen ^ 1400 = (10 : ℝ) ^ 14 := rootTen_hundred 14
  have h2100 : rootTen ^ 2100 = (10 : ℝ) ^ 21 := rootTen_hundred 21
  have key := codeBits_greatest (n := ls.length) (e := EnergySum.ofLevels ls)
    (P := fun c => (ls.length : ℝ) * rootTen ^ c ≤ S) (fun c hcc => by
      rw [le_iff (canonical_ofCode hpos) hc ?_, value_ofCode, hv]
      rw [value_ofCode, hv]
      have h1 : rootTen ^ c ≤ 10 ^ 21 := by
        rw [← h2100]; exact pow_le_pow_right₀ one_lt_rootTen.le (by omega)
      have h2 : (ls.length : ℝ) * rootTen ^ c ≤ 2 ^ 36 * 10 ^ 21 :=
        mul_le_mul hnR h1 (pow_nonneg rootTen_pos.le _) (by positivity)
      have h3 : S ≤ 2 ^ 36 * 10 ^ 14 := hup.trans (by
        rw [h1400]; exact mul_le_mul_of_nonneg_right hnR (by positivity))
      norm_num at h2 h3 ⊢
      linarith) 11 0 (by norm_num) (by simpa using hlow) (fun c hcc hp => by
      have h1 : rootTen ^ 1400 < rootTen ^ c := pow_lt_pow_right₀ one_lt_rootTen (by omega)
      have := mul_lt_mul_of_pos_left h1 hposR
      linarith) (fun c d hcd hp => le_trans (mul_le_mul_of_nonneg_left
        (pow_le_pow_right₀ one_lt_rootTen.le hcd) hposR.le) hp)
  refine ⟨_, ?_, key.1, fun d hd => ?_⟩
  · unfold equivalentLevel
    rw [if_neg (by omega)]
  · by_contra hlt
    exact key.2 d (not_le.1 hlt) hd

/-! ### Rings and percentiles -/

theorem slicesFrom_bump (b k n : ℕ) (e : Counts) :
    slicesFrom b (Counts.bump k n e) = slicesFrom b e + if b ≤ k then n else 0 := by
  induction e with
  | nil => by_cases h : b ≤ k <;> simp [Counts.bump, slicesFrom, h]
  | cons p e ih =>
    obtain ⟨j, m⟩ := p
    unfold Counts.bump
    simp only [slicesFrom] at ih ⊢
    split
    · by_cases h : b ≤ k <;> by_cases g : b ≤ j <;> simp [h, g] <;> omega
    · split
      · next h => subst h; by_cases h : b ≤ k <;> simp [h]; omega
      · by_cases g : b ≤ j <;> simp [g] <;> omega

theorem slicesFrom_merge (x : ℕ) (a b : Counts) :
    slicesFrom x (Counts.merge a b) = slicesFrom x a + slicesFrom x b := by
  unfold Counts.merge
  induction b generalizing a with
  | nil => simp [slicesFrom]
  | cons p b ih =>
    rw [List.foldl_cons, ih, slicesFrom_bump]
    by_cases h : x ≤ p.1
    · simp [slicesFrom, h]; omega
    · simp [slicesFrom, h]

theorem totalFrom_eq (b : ℕ) (e : Counts) : Counts.totalFrom b e = slicesFrom b e := by
  induction e with
  | nil => rfl
  | cons p e ih =>
    by_cases h : b ≤ p.1 <;> simp [Counts.totalFrom, slicesFrom, h] at ih ⊢ <;> omega

theorem total_eq (e : Counts) : Counts.total e = slicesFrom 0 e := by
  induction e with
  | nil => rfl
  | cons p e ih => simp [Counts.total, slicesFrom] at ih ⊢; omega

/-- The bin a percentile search from `top` finds is the highest at or below it that meets the percentage. -/
theorem highestBin_greatest (bins : Counts) {n : ℕ} (hn : n ≤ 100) (top : ℕ) :
    highestBin bins n top ≤ top ∧
      n * slicesFrom 0 bins ≤ 100 * slicesFrom (highestBin bins n top) bins ∧
      ∀ b, b ≤ top → n * slicesFrom 0 bins ≤ 100 * slicesFrom b bins → b ≤ highestBin bins n top := by
  induction top with
  | zero => exact ⟨le_rfl, Nat.mul_le_mul_right _ hn, fun b hb _ => hb⟩
  | succ top ih =>
    unfold highestBin
    rw [totalFrom_eq, total_eq]
    split
    · next h => exact ⟨le_rfl, h, fun b hb _ => hb⟩
    · next h =>
      refine ⟨ih.1.trans (Nat.le_succ _), ih.2.1, fun b hb hp => ?_⟩
      rcases Nat.lt_or_ge top b with hlt | hge
      · obtain rfl : b = top + 1 := by omega
        exact absurd hp h
      · exact ih.2.2 b hge hp

theorem isLargestOf_join {values : List (Option ℕ)} {value new : Option ℕ} (h : IsLargestOf values value) :
    IsLargestOf (values ++ [new]) (joinMax value new) := by
  obtain ⟨h1, h2⟩ := h
  cases new with
  | none =>
    refine ⟨?_, ?_⟩
    · show value = none ↔ _
      rw [h1]
      exact ⟨fun h x hx => (List.mem_append.1 hx).elim (h x) (by simp), fun h x hx => h x (List.mem_append_left _ hx)⟩
    · intro m hm
      obtain ⟨h3, h4⟩ := h2 m hm
      exact ⟨List.mem_append_left _ h3, fun n hn => h4 n (by simpa using hn)⟩
  | some y =>
    refine ⟨?_, ?_⟩
    · simp [joinMax, maxOption]
    · intro m hm
      cases value with
      | none =>
        have h3 := h1.1 rfl
        simp only [joinMax, maxOption, Option.getD_none, max_self, Option.some.injEq] at hm
        subst hm
        refine ⟨by simp, fun n hn => ?_⟩
        rcases List.mem_append.1 hn with hn | hn
        · exact absurd (h3 _ hn) (by simp)
        · simp at hn; omega
      | some v =>
        obtain ⟨h3, h4⟩ := h2 v rfl
        simp only [joinMax, maxOption, Option.getD_some, Option.some.injEq] at hm
        subst hm
        refine ⟨?_, fun n hn => ?_⟩
        · rcases max_choice v y with h | h <;> rw [h]
          · exact List.mem_append_left _ h3
          · simp
        · rcases List.mem_append.1 hn with hn | hn
          · exact (h4 n hn).trans (le_max_left _ _)
          · simp at hn; subst hn; exact le_max_right _ _

theorem Tally.IsTotal.join {steps : List Tally} {all : Tally} (h : Tally.IsTotal steps all) (t : Tally) :
    Tally.IsTotal (steps ++ [t]) (all.join t) where
  counted := by simp [Tally.join, h.counted]
  excluded := by simp [Tally.join, h.excluded]
  energy levels hl := by
    show Counts.merge all.energy t.energy = _
    rw [h.energy levels (fun u hu => hl u (List.mem_append_left _ hu)), hl t (by simp), merge_ofLevels]
    simp
  maxFast := by simpa [Tally.join] using isLargestOf_join h.maxFast
  maxPeak := by simpa [Tally.join] using isLargestOf_join h.maxPeak
  events he := by
    have := h.events (fun u hu => he u (List.mem_append_left _ hu))
    simp [Tally.join, this, Config.max16]
    omega
  bins b := by
    show slicesFrom b (Counts.merge all.bins t.bins) = _
    rw [slicesFrom_merge, h.bins b]
    simp
  overload := by simp [Tally.join, h.overload]
  cut := by simp [Tally.join, h.cut]

/-- The step records of a ring taken together: the first one's start, and the total of them all. -/
theorem ringTally_total (first : Tally) (rest : List Tally) :
    ∃ all, ringTally (first :: rest) = some all ∧ all.start = first.start ∧ Tally.IsTotal (first :: rest) all := by
  have h1 : Tally.IsTotal [first] first :=
    ⟨by simp, by simp, fun l hl => by simpa using hl first (by simp),
      ⟨by simp, fun m hm => ⟨by simp [hm], fun n hn => by simp [hm] at hn; omega⟩⟩,
      ⟨by simp, fun m hm => ⟨by simp [hm], fun n hn => by simp [hm] at hn; omega⟩⟩,
      fun he => by simpa using he first (by simp), fun b => by simp, by simp, by simp⟩
  suffices h : ∀ (rest steps : List Tally) (all : Tally), Tally.IsTotal steps all →
      Tally.IsTotal (steps ++ rest) (rest.foldl Tally.join all) ∧
        (rest.foldl Tally.join all).start = all.start by
    obtain ⟨h2, h3⟩ := h rest [first] first h1
    exact ⟨_, rfl, h3, h2⟩
  intro rest
  induction rest with
  | nil => exact fun steps all h => ⟨by simpa using h, rfl⟩
  | cons t rest ih =>
    intro steps all h
    obtain ⟨h2, h3⟩ := ih (steps ++ [t]) (all.join t) (h.join t)
    exact ⟨by simpa using h2, h3⟩

end Sys2Proof.Machine
end

