-- ==== Sys2Proof/Laws/Openings.lean ====
section
/-! SUPPORT. What an opening reads and writes, in the words of the statements: the partner slots, the candidate lines
in line order with the first of lowest priority among them, the set they make, and the beacon line an entry names. -/

namespace Sys2Proof.Machine

theorem mem_partnerSlots_foldl (slot : Nat) (es : List Episode) (m : SlotMask) (n : Nat) (hn : n < 12) :
    (es.foldl (fun m e => if e.slot = slot then m else setInsert m e.slot) m).getLsbD n = true ↔
      m.getLsbD n = true ∨ (n ≠ slot ∧ ∃ x, x ∈ es ∧ x.slot = n) := by
  induction es generalizing m with
  | nil => simp
  | cons e es ih =>
    rw [List.foldl_cons, ih]
    by_cases h : e.slot = slot
    · simp only [h, if_true]
      constructor
      · rintro (h1 | ⟨h1, x, hx, h2⟩)
        · exact .inl h1
        · exact .inr ⟨h1, x, List.mem_cons_of_mem _ hx, h2⟩
      · rintro (h1 | ⟨h1, x, hx, h2⟩)
        · exact .inl h1
        · rcases List.mem_cons.1 hx with rfl | hx
          · exact absurd (h2.symm.trans h) h1
          · exact .inr ⟨h1, x, hx, h2⟩
    · simp only [h, if_false, setInsert, BitVec.getLsbD_or, BitVec.getLsbD_twoPow]
      simp only [Bool.or_eq_true, Bool.and_eq_true, decide_eq_true_eq]
      constructor
      · rintro ((h1 | h1) | ⟨h1, x, hx, h2⟩)
        · exact .inl h1
        · exact .inr ⟨fun hh => h (h1.2.trans hh), e, List.mem_cons_self, h1.2⟩
        · exact .inr ⟨h1, x, List.mem_cons_of_mem _ hx, h2⟩
      · rintro (h1 | ⟨h1, x, hx, h2⟩)
        · exact .inl (.inl h1)
        · rcases List.mem_cons.1 hx with rfl | hx
          · exact .inl (.inr ⟨h2 ▸ hn, h2⟩)
          · exact .inr ⟨h1, x, hx, h2⟩

theorem candidate_iff (s : State) (o : Tick) (i : Nat) (l : PlantLine) :
    s.Candidate o i l ↔ (i, l) ∈ s.plant.candidates o := by
  unfold State.Candidate PlantMonitor.candidates
  simp only [List.mem_map, List.mem_filter, Prod.mk.injEq, Prod.exists, List.mem_zipIdx_iff_getElem?]
  constructor
  · rintro ⟨h1, h2, h3⟩
    refine ⟨l, i, ⟨h1, ?_⟩, rfl, rfl⟩
    unfold PlantLine.candidate ticksFrom
    rcases h3 with h3 | ⟨t, ht, h3⟩
    · simp [h2, h3]
    · rw [h2, ht, Bool.true_and, Bool.or_eq_true]
      exact .inr (decide_eq_true h3)
  · rintro ⟨a, b, ⟨h1, h2⟩, rfl, rfl⟩
    refine ⟨h1, ?_⟩
    unfold PlantLine.candidate ticksFrom at h2
    simp only [Bool.and_eq_true, Bool.or_eq_true] at h2
    refine ⟨h2.1, h2.2.imp id (fun h => ?_)⟩
    cases hd : a.deactivationTick with
    | none => simp [hd] at h
    | some t => rw [hd] at h; exact ⟨t, rfl, by simpa using h⟩

theorem mem_candidateSet_foldl (cs : List (Nat × PlantLine)) (m : LineSet) (i : Nat) (hi : i < 8) :
    (cs.foldl (fun m c => setInsert m c.1) m).getLsbD i = true ↔ m.getLsbD i = true ∨ ∃ l, (i, l) ∈ cs := by
  induction cs generalizing m with
  | nil => simp
  | cons c cs ih =>
    rw [List.foldl_cons, ih]
    simp only [setInsert, BitVec.getLsbD_or, BitVec.getLsbD_twoPow, Bool.or_eq_true, Bool.and_eq_true, decide_eq_true_eq]
    constructor
    · rintro ((h | h) | ⟨l, h⟩)
      · exact .inl h
      · exact .inr ⟨c.2, by rw [← h.2]; exact List.mem_cons_self⟩
      · exact .inr ⟨l, List.mem_cons_of_mem _ h⟩
    · rintro (h | ⟨l, h⟩)
      · exact .inl (.inl h)
      · rcases List.mem_cons.1 h with h | h
        · subst h; exact .inl (.inr ⟨hi, rfl⟩)
        · exact .inr ⟨l, h⟩

theorem candidates_ascend (p : PlantMonitor) (o : Tick) : (p.candidates o).Pairwise (fun a b => a.1 < b.1) := by
  unfold PlantMonitor.candidates
  rw [List.pairwise_map]
  apply List.Pairwise.filter
  rw [List.pairwise_iff_getElem]
  intro i j hi hj hij
  simpa using hij

theorem best_candidate (rest : List (Nat × PlantLine)) (c : Nat × PlantLine)
    (hp : (c :: rest).Pairwise (fun a b => a.1 < b.1)) (done : List (Nat × PlantLine))
    (hd : ∀ x, x ∈ done → c.2.record.priority < x.2.record.priority ∨ c.2.record.priority = x.2.record.priority ∧ c.1 ≤ x.1)
    (hdl : ∀ x y, x ∈ done → y ∈ rest → x.1 < y.1) :
    ∀ b, b = rest.foldl (fun best x => if x.2.record.priority < best.2.record.priority then x else best) c →
      b ∈ c :: rest ∧ ∀ x, x ∈ done ∨ x ∈ c :: rest →
        b.2.record.priority < x.2.record.priority ∨ b.2.record.priority = x.2.record.priority ∧ b.1 ≤ x.1 := by
  induction rest generalizing c done with
  | nil =>
    rintro b rfl
    refine ⟨by simp, fun x hx => ?_⟩
    rcases hx with hx | hx
    · exact hd x hx
    · simp at hx; subst hx; exact .inr ⟨rfl, Nat.le_refl _⟩
  | cons y ys ih =>
    rintro b rfl
    rw [List.foldl_cons]
    have hp' := List.pairwise_cons.1 hp
    have hp2 := List.pairwise_cons.1 hp'.2
    by_cases h : y.2.record.priority < c.2.record.priority
    · simp only [h, if_true]
      have := ih y hp'.2 (c :: done) ?_ ?_ _ rfl
      · refine ⟨List.mem_cons_of_mem _ this.1, fun x hx => this.2 x ?_⟩
        rcases hx with hx | hx
        · exact .inl (List.mem_cons_of_mem _ hx)
        · rcases List.mem_cons.1 hx with rfl | hx
          · exact .inl List.mem_cons_self
          · exact .inr hx
      · intro x hx
        rcases List.mem_cons.1 hx with rfl | hx
        · exact .inl h
        · rcases hd x hx with h' | h'
          · exact .inl (by omega)
          · exact .inl (by omega)
      · intro x z hx hz
        rcases List.mem_cons.1 hx with rfl | hx
        · exact hp'.1 _ (List.mem_cons_of_mem _ hz)
        · exact hdl x z hx (List.mem_cons_of_mem _ hz)
    · simp only [h, if_false]
      have := ih c (List.pairwise_cons.2 ⟨fun z hz => hp'.1 z (List.mem_cons_of_mem _ hz), hp2.2⟩) (y :: done) ?_ ?_ _ rfl
      · refine ⟨?_, fun x hx => this.2 x ?_⟩
        · rcases List.mem_cons.1 this.1 with h' | h'
          · rw [h']; exact List.mem_cons_self
          · exact List.mem_cons_of_mem _ (List.mem_cons_of_mem _ h')
        · rcases hx with hx | hx
          · exact .inl (List.mem_cons_of_mem _ hx)
          · rcases List.mem_cons.1 hx with rfl | hx
            · exact .inr List.mem_cons_self
            · rcases List.mem_cons.1 hx with rfl | hx
              · exact .inl List.mem_cons_self
              · exact .inr (List.mem_cons_of_mem _ hx)
      · intro x hx
        rcases List.mem_cons.1 hx with rfl | hx
        · have := hp'.1 x List.mem_cons_self
          omega
        · exact hd x hx
      · intro x z hx hz
        rcases List.mem_cons.1 hx with rfl | hx
        · exact hp2.1 _ hz
        · exact hdl x z hx (List.mem_cons_of_mem _ hz)

theorem getElem?_zipIdx_map {α β} (l : List α) (f : α × Nat → β) (i : Nat) :
    (l.zipIdx.map f)[i]? = (l[i]?).map (fun a => f (a, i)) := by
  simp [List.getElem?_zipIdx]; cases l[i]? <;> rfl

theorem names_iff (s : State) (k i : Nat) : s.Names k i ↔ s.table.active.names k i = true := by
  unfold State.Names EntryTable.names
  cases s.table.active.find k with
  | none => simp
  | some p =>
    obtain ⟨a, e⟩ := p
    simp only [Option.some.injEq, Prod.mk.injEq, Bool.and_eq_true, beq_iff_eq, Action.episodes]
    constructor
    · rintro ⟨_, _, ⟨rfl, rfl⟩, h1, h2⟩
      refine ⟨?_, h2⟩
      rcases h1 with h1 | h1 <;> rw [h1]
    · rintro ⟨h1, h2⟩
      refine ⟨_, _, ⟨rfl, rfl⟩, ?_, h2⟩
      revert h1; cases e.action <;> simp

end Sys2Proof.Machine
end

