-- ==== Sys2Proof/Laws/Pieces.lean ====
section
/-! SUPPORT. How the operations of a tick are the pieces of State.PieceTaken (log 1): what falls due at it,
which pieces are counts, and that orders, outstanding work, recognitions and counts are pieces taken. -/

namespace Sys2Proof.Machine

/-! ### The pieces of a tick, by their rows -/

theorem boundariesTaken_takeDue (c : TickChoice) (s : State) :
    State.BoundariesTaken s (s.takeDue c .windows) := by
  refine ⟨takeDue_id, fun h u hu => ?_⟩
  have ht : s.takeDue c .windows = State.endWindows u := by
    unfold State.takeDue State.isDue
    rw [if_pos (by simpa using h), hu]
    rfl
  have hr : u.clock.running = true ↔ s.clock.state = .running := by
    rw [hu]
    simp [Clock.running]
  rw [ht]
  unfold State.endWindows
  refine ⟨fun hn => if_neg (fun h => hn (hr.1 h)), fun hs => ?_⟩
  rw [if_pos (hr.2 hs), hu]
  rfl

theorem bandDecided_takeDue (c : TickChoice) (s : State) :
    State.BandDecided c.bandEndFirst s (s.takeDue c .band) := by
  refine ⟨takeDue_id, fun h => ?_⟩
  unfold State.takeDue State.isDue
  rw [if_pos (by simpa using h)]
  rfl

/-- A piece of a tick taken is the piece by its row. -/
theorem pieceTaken_takeTick (c : TickChoice) (d : Due) (s : State) :
    State.PieceTaken c d s (s.takeTick c d) := by
  cases d with
  | runCounts =>
    refine ⟨takeDue_id, fun h => ?_⟩
    change s.takeDue c .runCounts = _
    unfold State.takeDue State.isDue
    rw [if_pos (by simpa using h)]
    change State.countRuns (s.clearDue .runCounts) = _
    have hl : PlantLine.countRun = fun l : PlantLine => { l with
        summaryRun := if l.active then min (l.summaryRun + 1) 4294967295 else l.summaryRun
        bandRun := if l.active then min (l.bandRun + 1) 4294967295 else l.bandRun } := by
      funext l
      unfold PlantLine.countRun
      split <;> rfl
    unfold State.countRuns State.clearDue
    rw [hl]
  | windows => exact boundariesTaken_takeDue c s
  | band => exact ⟨_, boundariesTaken_takeDue c s, bandDecided_takeDue c _⟩
  | recognition input => cases input <;> rfl
  | _ => rfl

theorem piecesTaken_takeAll (c : TickChoice) (ds : List Due) (s : State) :
    State.PiecesTaken c ds s (s.takeAll c ds) := by
  induction ds generalizing s with
  | nil => exact .ends s
  | cons d ds ih => exact .piece d ds s _ _ (pieceTaken_takeTick c d s) (ih _)

theorem outstandingTaken_finishDue (c : TickChoice) (s : State) :
    State.OutstandingTaken c s (s.finishDue c) := by
  have key : ∀ (n : Nat) (s : State), (s.flush c n).due = [] → State.OutstandingTaken c s (s.flush c n) := by
    intro n
    induction n with
    | zero => exact fun s h => .ends s h
    | succ n ih =>
      intro s h
      unfold State.flush at h ⊢
      split
      · next hs => exact .ends s hs
      · next d rest hs =>
        simp only [hs] at h
        exact .piece d rest s _ _ hs (pieceTaken_takeTick c d s) (ih _ h)
  have he := finishDue_eq c s
  have hd : (s.flush c (s.due.length + 4)).due = [] := by
    rw [← he]
    rfl
  rw [he]
  exact key _ s hd

/-! ### Recognitions outstanding (log 20) -/

theorem piecesTaken_takeDues {ds : List Due} (s : State) (h : ∀ d, d ∈ ds → d ≠ .band) :
    State.PiecesTaken plainTick ds s (ds.foldl (fun s' d => s'.takeDue plainTick d) s) := by
  induction ds generalizing s with
  | nil => exact .ends s
  | cons d ds ih =>
    have h1 := pieceTaken_takeTick plainTick d s
    have h2 : s.takeTick plainTick d = s.takeDue plainTick d := by
      have := h d List.mem_cons_self
      unfold State.takeTick
      split
      · exact absurd rfl this
      · rfl
    rw [h2] at h1
    exact .piece d ds s _ _ h1 (ih _ (fun x hx => h x (List.mem_cons_of_mem _ hx)))

/-- Once the recognitions are taken none is due. -/
theorem recognition_takeRecognitions (s : State) (input : Input) :
    .recognition input ∉ s.takeRecognitions.due := by
  have key : ∀ (ds : List Due) (s : State), (∀ x : Input, .recognition x ∈ s.due → .recognition x ∈ ds) →
      ∀ x : Input, .recognition x ∉ (ds.foldl (fun s' d => s'.takeDue plainTick d) s).due := by
    intro ds
    induction ds with
    | nil => exact fun s h x hx => absurd (h x hx) List.not_mem_nil
    | cons d ds ih =>
      intro s h
      refine ih _ (fun x hx => ?_)
      by_cases hd : d ∈ s.due
      · rcases (due_takeDue (c := plainTick) hd).2 _ hx with h1 | ⟨h1, _⟩ | ⟨h1, _⟩
        · rcases List.mem_cons.1 (h x h1.1) with h2 | h2
          · exact absurd h2 h1.2
          · exact h2
        · cases h1
        · cases h1
      · simp only [takeDue_id hd] at hx
        rcases List.mem_cons.1 (h x hx) with h2 | h2
        · exact absurd (h2 ▸ hx) hd
        · exact h2
  exact key _ _ (fun x hx => List.mem_filter.2 ⟨hx, rfl⟩) input

/-! ### What falls at a tick, and its counts -/

theorem isCount_iff (s : State) (d : Due) : s.isCount d = true ↔ s.CountsOn d := by
  cases d with
  | holdOff k n =>
    simp only [State.isCount, State.CountsOn]
    cases s.episodes.find k n with
    | none => simp
    | some e =>
      simp only [Option.all_some, Option.some.injEq]
      constructor
      · rintro h _ n rfl hs; simpa [hs, EpisodeState.staysHeld] using h
      · intro h
        cases hs : e.state with
        | opened => rfl
        | holdOff n => simpa [EpisodeState.staysHeld] using h e n rfl hs
  | pulse l =>
    simp only [State.isCount, State.CountsOn]
    cases s.beacons[l]? <;> simp
  | flash l =>
    simp only [State.isCount, State.CountsOn]
    cases s.beacons[l]? with
    | none => simp
    | some b =>
      simp only [BeaconLine.keepsPhase, Option.all_some, Option.some.injEq]
      constructor
      · rintro h _ p rfl hs; simpa [hs] using h
      · intro h
        cases hs : b.flash with
        | none => rfl
        | some p => simpa using h b p rfl hs
  | cadence =>
    simp only [State.isCount, State.CountsOn, Cadence.underflows]
    simp
    by_cases h : s.cadence.running <;> simp [h]
  | _ => simp [State.isCount, State.CountsOn]

/-- What falls at a tick. -/
theorem mem_dueAtTick (s : State) (d : Due) : d ∈ s.dueAtTick ↔ s.FallsDue d := by
  simp only [State.dueAtTick, List.mem_append]
  have hw : ∀ (b : Bool) (x : Due), d ∈ dueWhen b x ↔ b = true ∧ d = x := by
    intro b x
    unfold dueWhen
    split <;> simp_all
  simp only [hw, List.mem_singleton]
  have hb : ∀ d, d ∈ beaconsDue ↔ (∃ l, l < 4 ∧ (d = .pulse l ∨ d = .flash l)) := by
    intro d; unfold beaconsDue; simp [List.mem_flatMap, Config.beaconLines]
  have hh : d ∈ s.holdOffsDue ↔ ∃ e n, e ∈ s.episodes.current ∧ e.state = .holdOff n ∧
      d = .holdOff e.key e.slot := by
    unfold State.holdOffsDue
    simp only [List.mem_map, List.mem_filter]
    constructor
    · rintro ⟨e, ⟨h1, h2⟩, rfl⟩
      cases h : e.state with
      | opened => simp [h] at h2
      | holdOff n => exact ⟨e, n, h1, h, rfl⟩
    · rintro ⟨e, n, h1, h2, rfl⟩
      exact ⟨e, ⟨h1, by simp [h2]⟩, rfl⟩
  have hl : d ∈ s.lengthsDue ↔ ∃ e p, e ∈ s.episodes.current ∧ s.table.active.find e.key = some p ∧
      480 * p.2.maxLength ≤ (s.clock.tickCount - e.openTick).toNat ∧ d = .maximumLength e.key e.slot := by
    unfold State.lengthsDue
    simp only [List.mem_map, List.mem_filter, State.atMaximum, EntryTable.maximumTicks, ticksFrom]
    constructor
    · rintro ⟨e, ⟨h1, h2⟩, rfl⟩
      cases h : s.table.active.find e.key with
      | none => simp [h] at h2
      | some p => simp only [h, Option.map_some] at h2; exact ⟨e, p, h1, h, of_decide_eq_true h2, rfl⟩
    · rintro ⟨e, p, h1, h2, h3, rfl⟩
      exact ⟨e, ⟨h1, by simp only [h2, Option.map_some]; exact decide_eq_true h3⟩, rfl⟩
  have hs : d ∈ s.stallsDue ↔ ∃ slot r id e last, s.slots[slot]? = some r ∧ r.link = .live id e last ∧
      16 ≤ (s.clock.tickCount - last).toNat ∧ d = .stall slot := by
    unfold State.stallsDue
    simp only [List.mem_map, List.mem_filter, Prod.exists, List.mem_zipIdx_iff_getElem?]
    constructor
    · rintro ⟨r, n, ⟨h1, h2⟩, rfl⟩
      cases h : r.link with
      | live id e last =>
        simp only [SlotLink.expired, h, ticksFrom] at h2
        exact ⟨n, r, id, e, last, h1, h, of_decide_eq_true h2, rfl⟩
      | _ => simp [SlotLink.expired, h] at h2
    · rintro ⟨n, r, id, e, last, h1, h2, h3, rfl⟩
      refine ⟨r, n, ⟨h1, ?_⟩, rfl⟩
      simp only [SlotLink.expired, h2, ticksFrom]; exact decide_eq_true h3
  have hr : s.clock.running = true ↔ s.clock.state = .running := by simp [Clock.running]
  rw [hh, hl, hb, hs]
  cases d with
  | maximumLength key slot =>
    simp only [State.FallsDue]
    simp
    constructor
    · rintro ⟨e, h1, a, b, h2, h3, rfl, rfl⟩; exact ⟨e, h1, rfl, rfl, a, b, h2, h3⟩
    · rintro ⟨e, h1, rfl, rfl, a, b, h2, h3⟩; exact ⟨e, h1, a, b, h2, h3, rfl, rfl⟩
  | holdOff key slot =>
    simp only [State.FallsDue]
    simp
    constructor
    · rintro ⟨e, h1, ⟨n, h2⟩, rfl, rfl⟩; exact ⟨e, h1, rfl, rfl, n, h2⟩
    · rintro ⟨e, h1, rfl, rfl, n, h2⟩; exact ⟨e, h1, ⟨n, h2⟩, rfl, rfl⟩
  | stall slot =>
    simp only [State.FallsDue]
    simp
  | _ => simp [State.FallsDue, Clock.atMultiple, hr, Option.isSome_iff_ne_none]

/-! ### The counts of a tick taken -/

theorem pieces_append {c : TickChoice} {a b : List Due} {s u t : State} (h : State.PiecesTaken c a s u)
    (k : State.PiecesTaken c b u t) : State.PiecesTaken c (a ++ b) s t := by
  induction h with
  | ends s => exact k
  | piece d rest s u v hp _ ih => exact .piece d _ s u t hp (ih k)

/-- A change that keeps key and slot leaves the episode found for another pair alone. -/
theorem find_modify_ne {key slot k n : Nat} {f : Episode → Episode}
    (hf : ∀ e, (f e).key = e.key ∧ (f e).slot = e.slot) (h : ¬(key = k ∧ slot = n)) (es : List Episode) :
    (modifyEpisode key slot f es).find? (Episode.of k n) = es.find? (Episode.of k n) := by
  induction es with
  | nil => rfl
  | cons e es ih =>
    unfold modifyEpisode
    split
    · next ho =>
      simp only [Episode.of, Bool.and_eq_true, beq_iff_eq] at ho
      have h1 : Episode.of k n e = false := by
        rw [Bool.eq_false_iff]; intro h2; simp only [Episode.of, Bool.and_eq_true, beq_iff_eq] at h2
        exact h ⟨ho.1.symm.trans h2.1, ho.2.symm.trans h2.2⟩
      have h2 : Episode.of k n (f e) = false := by
        simp only [Episode.of, hf] at h1 ⊢; exact h1
      rw [List.find?_cons, List.find?_cons, h1, h2]
    · rw [List.find?_cons, List.find?_cons, ih]

/-- A count taken leaves other pieces the counts they were. -/
theorem count_other {c : TickChoice} {d d' : Due} {s : State} (h : s.isCount d = true) (hne : d ≠ d') :
    State.isCount d' (s.takeDue c d) = State.isCount d' s := by
  by_cases hd : d ∈ s.due
  · have ht : s.takeDue c d = (s.clearDue d).work c d := by
      unfold State.takeDue State.isDue
      rw [if_pos (by simpa using hd)]
    rw [ht]
    cases d with
    | runCounts => cases d' <;> rfl
    | cadence =>
      have hu : ¬ s.cadence.underflows = true := by simpa [State.isCount] using h
      show State.isCount d' (State.countCadence _) = _
      have hc : State.countCadence (s.clearDue .cadence) =
          { s.clearDue .cadence with cadence := s.cadence.count } := by
        unfold State.countCadence
        have : (s.clearDue .cadence).cadence.underflows = false := by simpa using hu
        simp only [this, Bool.false_and, Bool.false_eq_true, if_false]
        rfl
      rw [hc]
      cases d' <;> first | rfl | exact absurd rfl hne
    | holdOff k n =>
      show State.isCount d' (State.countHoldOff k n _) = _
      unfold State.countHoldOff
      split
      · split
        · next _ e he _ m hm =>
          have hf : s.episodes.find k n = some e := he
          have : 1 < m := by simpa [State.isCount, hf, hm, EpisodeState.staysHeld] using h
          rw [if_neg (by omega)]
          cases d' with
          | holdOff k' n' =>
            simp only [State.isCount]
            show Option.all _ (List.find? _ (modifyEpisode k n _ _)) = _
            rw [find_modify_ne (f := fun x => { x with state := .holdOff (m - 1) }) (fun e => ⟨rfl, rfl⟩)]
            · rfl
            · rintro ⟨rfl, rfl⟩; exact hne rfl
          | _ => rfl
        · cases d' <;> rfl
      · cases d' <;> rfl
    | pulse l =>
      cases d' with
      | pulse l' =>
        have : l ≠ l' := fun hh => hne (by rw [hh])
        show Option.all _ ((List.modify _ _ _)[l']?) = _
        rw [List.getElem?_modify]; simp [this, State.isCount, State.clearDue]
      | flash l' =>
        show Option.all _ ((List.modify _ _ _)[l']?) = _
        rw [List.getElem?_modify]
        simp only [State.isCount, State.clearDue]
        split
        · cases s.beacons[l']? <;> rfl
        · cases s.beacons[l']? <;> rfl
      | _ => rfl
    | flash l =>
      cases d' with
      | flash l' =>
        have : l ≠ l' := fun hh => hne (by rw [hh])
        show Option.all _ ((List.modify _ _ _)[l']?) = _
        rw [List.getElem?_modify]; simp [this, State.isCount, State.clearDue]
      | pulse l' =>
        show Option.all _ ((List.modify _ _ _)[l']?) = _
        rw [List.getElem?_modify]
        simp only [State.isCount, State.clearDue]
        split
        · cases s.beacons[l']? <;> rfl
        · cases s.beacons[l']? <;> rfl
      | _ => rfl
    | _ => simp [State.isCount] at h
  · rw [takeDue_id hd]

/-- A count taken is not due any more. -/
theorem count_not_due {c : TickChoice} {d : Due} {s : State} (h : s.isCount d = true) :
    d ∉ (s.takeDue c d).due := by
  by_cases hd : d ∈ s.due
  · intro hm
    rcases (due_takeDue (c := c) hd).2 d hm with h1 | ⟨h1, h2⟩ | ⟨h1, _⟩
    · exact h1.2 rfl
    · rw [h1] at h2; cases h2
    · rw [h1] at h; simp [State.isCount] at h
  · rw [takeDue_id hd]; exact hd

/-- The counts TICK takes are those of the state it finds, whatever the others have done. -/
theorem counts_pieces (c : TickChoice) (ds : List Due) (x s : State)
    (hx : ∀ d, d ∈ s.due → s.isCount d = x.isCount d)
    (hs : ∀ d, d ∈ ds → x.isCount d = false → s.isCount d = false) :
    State.PiecesTaken c (ds.filter (fun d => x.isCount d)) s (s.takeCounts ds) := by
  induction ds generalizing s with
  | nil => exact .ends s
  | cons d ds ih =>
    have hkeep : ∀ u : State, u = (if s.isCount d then s.takeDue plainTick d else s) →
        State.PiecesTaken c (if x.isCount d then [d] else []) s u →
        State.PiecesTaken c ((d :: ds).filter (fun d => x.isCount d)) s (s.takeCounts (d :: ds)) := by
      intro u hu hp
      have h2 : s.takeCounts (d :: ds) = u.takeCounts ds := by rw [hu]; rfl
      rw [h2]
      have h3 : (d :: ds).filter (fun d => x.isCount d) =
          (if x.isCount d then [d] else []) ++ ds.filter (fun d => x.isCount d) := by
        by_cases h : x.isCount d = true <;> simp [h]
      rw [h3]
      refine pieces_append hp (ih u ?_ ?_)
      · intro d' hd'
        rw [hu] at hd' ⊢
        by_cases hc : s.isCount d = true
        · rw [if_pos hc] at hd' ⊢
          have hne : d ≠ d' := by rintro rfl; exact count_not_due hc hd'
          rw [count_other hc hne]
          by_cases hdd : d ∈ s.due
          · rcases (due_takeDue (c := plainTick) hdd).2 d' hd' with h1 | ⟨h1, h4⟩ | ⟨h1, _⟩
            · exact hx _ h1.1
            · subst h1; rfl
            · subst h1; rfl
          · rw [takeDue_id hdd] at hd'; exact hx _ hd'
        · rw [if_neg hc] at hd' ⊢; exact hx _ hd'
      · intro d' hd' hn
        rw [hu]
        by_cases hc : s.isCount d = true
        · rw [if_pos hc]
          have hne : d ≠ d' := by
            rintro rfl
            have := hs d (List.mem_cons_self) hn
            rw [this] at hc; exact absurd hc (by simp)
          rw [count_other hc hne]
          exact hs d' (List.mem_cons_of_mem _ hd') hn
        · rw [if_neg hc]; exact hs d' (List.mem_cons_of_mem _ hd') hn
    by_cases hxc : x.isCount d = true
    · by_cases hc : s.isCount d = true
      · refine hkeep _ rfl ?_
        rw [if_pos hxc, if_pos hc]
        refine .piece d [] s _ _ ?_ (.ends _)
        have h1 := pieceTaken_takeTick c d s
        have h2 : s.takeTick c d = s.takeDue plainTick d := by
          cases d with
          | runCounts => rfl
          | cadence => rfl
          | holdOff _ _ => rfl
          | pulse _ => rfl
          | flash _ => rfl
          | _ => exact absurd hc (by simp [State.isCount])
        rw [← h2]; exact h1
      · have hnd : d ∉ s.due := fun hm => hc (by rw [hx d hm]; exact hxc)
        refine hkeep _ rfl ?_
        rw [if_pos hxc, if_neg hc]
        refine .piece d [] s _ _ ?_ (.ends _)
        have h1 := pieceTaken_takeTick c d s
        have h2 : s.takeTick c d = s := by
          cases d with
          | band => simp [State.isCount] at hxc
          | _ => exact takeDue_id hnd
        rw [h2] at h1; exact h1
    · refine hkeep _ rfl ?_
      have hc : s.isCount d = false := hs d List.mem_cons_self (by simpa using hxc)
      rw [if_neg hxc, hc, if_neg (by simp)]
      exact .ends s

end Sys2Proof.Machine
end

