-- ==== Sys2Proof/Laws/Reach.lean ====
section
/-! SUPPORT. What the decoder reaches in a frame (R175, R176): standing prefixes, enough rounds, and the reply
items on the way. -/

namespace Sys2Proof.Machine

/-- Reply items put before what is reached. -/
def Reached.behind (items : List ReplyItem) : Reached → Reached
  | .item lead ps code operands rest taken => .item (items ++ lead) ps code operands rest taken
  | .stop trail => .stop (items ++ trail)

/-- One round at an item that is whole. -/
theorem reachFrom_item {fuel taken : ℕ} {code length : Byte} {operands after : List Byte} {ps : List PrefixItem}
    {lead : List ReplyItem} (ht : taken < 16) (hl : operands.length = length.toNat) :
    reachFrom (fuel + 1) (code :: length :: (operands ++ after)) taken ps lead =
      if isPrefixCode code then
        match prefixOf code operands with
        | some p => reachFrom fuel after (taken + 1) (ps ++ [p]) lead
        | none => reachFrom fuel after (taken + 1) [] (lead ++ [malformedItem code])
      else .item lead ps code operands after (taken + 1) := by
  have h : ¬(taken = Config.itemCount ∨ (operands ++ after).length < length.toNat) := by
    simp [Config.itemCount]; omega
  rw [reachFrom]
  simp only [if_neg h]
  simp only [← hl, List.take_left, List.drop_left]
  rfl

/-- Rounds beyond 17 items change nothing. -/
theorem reachFrom_fuel (fuel more taken : ℕ) (rest : List Byte) (ps : List PrefixItem) (lead : List ReplyItem)
    (ht : taken ≤ 16) (hf : 17 ≤ fuel + taken) (hm : 17 ≤ more + taken) :
    reachFrom fuel rest taken ps lead = reachFrom more rest taken ps lead := by
  induction fuel generalizing more taken rest ps lead with
  | zero => omega
  | succ fuel ih =>
    obtain ⟨more, rfl⟩ : ∃ n, more = n + 1 := ⟨more - 1, by omega⟩
    match rest with
    | [] => rfl
    | [_] => rfl
    | code :: length :: body =>
      unfold reachFrom
      by_cases h : taken = Config.itemCount ∨ body.length < length.toNat
      · simp only [if_pos h]
      · have hlt : taken ≠ 16 := fun e => h (Or.inl e)
        simp only [if_neg h]
        split
        · split
          · exact ih _ _ _ _ _ (by omega) (by omega) (by omega)
          · exact ih _ _ _ _ _ (by omega) (by omega) (by omega)
        · rfl

/-- Reply items already given stand before what is reached. -/
theorem reachFrom_behind (fuel taken : ℕ) (rest : List Byte) (ps : List PrefixItem) (items lead : List ReplyItem) :
    reachFrom fuel rest taken ps (items ++ lead) = (reachFrom fuel rest taken ps lead).behind items := by
  have stop : ∀ ps stopped, stopItems (items ++ lead) ps stopped = (stopItems lead ps stopped).behind items := by
    intro ps stopped
    simp [stopItems, Reached.behind, List.append_assoc]
  induction fuel generalizing taken rest ps lead with
  | zero => exact stop ps true
  | succ fuel ih =>
    match rest with
    | [] => exact stop ps false
    | [_] => exact stop ps true
    | code :: length :: body =>
      unfold reachFrom
      by_cases h : taken = Config.itemCount ∨ body.length < length.toNat
      · simp only [if_pos h]
        exact stop ps true
      · simp only [if_neg h]
        split
        · split
          · exact ih _ _ _ _ (fun ps stopped => by simp [stopItems, Reached.behind, List.append_assoc])
          · rw [List.append_assoc]
            exact ih _ _ _ _ (fun ps stopped => by simp [stopItems, Reached.behind, List.append_assoc])
        · rfl

/-- A well-formed prefix reads as itself. -/
theorem prefix_bytes (p : PrefixItem) (h : ∀ n, p = .slot n → n < 256) :
    ∃ code length operands, p.bytes = code :: length :: operands ∧ operands.length = length.toNat ∧
      isPrefixCode code = true ∧ prefixOf code operands = some p := by
  cases p with
  | slot n =>
    refine ⟨0x01, 0x01, [BitVec.ofNat 8 n], rfl, rfl, by decide, ?_⟩
    have := h n rfl
    simp [prefixOf, slotCode, fixedForm, onlyIf, field, bigEndian]
    omega
  | staged => exact ⟨0x02, 0x00, [], rfl, rfl, by decide, by decide⟩
  | keep => exact ⟨0x03, 0x00, [], rfl, rfl, by decide, by decide⟩

/-- Well-formed prefixes stand before what follows them, and each counts as an item. -/
theorem reachFrom_prefixes (ps : List PrefixItem) (h : ∀ n, .slot n ∈ ps → n < 256) (fuel taken : ℕ)
    (tail : List Byte) (before : List PrefixItem) (lead : List ReplyItem) (ht : taken + ps.length ≤ 16) :
    reachFrom (fuel + ps.length) (ps.flatMap PrefixItem.bytes ++ tail) taken before lead =
      reachFrom fuel tail (taken + ps.length) (before ++ ps) lead := by
  induction ps generalizing taken before with
  | nil => simp
  | cons p ps ih =>
    obtain ⟨code, length, operands, h1, h2, h3, h4⟩ := prefix_bytes p (fun n hn => h n (by simp [hn]))
    rw [List.length_cons] at ht
    rw [List.flatMap_cons, h1, List.cons_append, List.cons_append, List.cons_append, List.cons_append,
      List.append_assoc, List.length_cons,
      ← Nat.add_assoc, reachFrom_item (by omega) h2, if_pos h3, h4]
    show reachFrom _ _ _ _ _ = _
    rw [ih (fun n hn => h n (List.mem_cons_of_mem _ hn)) (taken + 1) (before ++ [p]) (by omega)]
    congr 1
    · omega
    · simp

/-- What the decoder reaches behind well-formed prefixes. -/
theorem reach_prefixes {ps : List PrefixItem} (h : ∀ n, .slot n ∈ ps → n < 256) (tag : Byte) (taken : ℕ)
    (tail : List Byte) (written : List ReplyItem) (ht : taken + ps.length ≤ 16) :
    Executing.reach ⟨tag, ps.flatMap PrefixItem.bytes ++ tail, taken, written⟩ =
      reachFrom (17 - ps.length) tail (taken + ps.length) ps [] := by
  have := reachFrom_prefixes ps h (17 - ps.length) taken tail [] [] ht
  rwa [Nat.sub_add_cancel (by omega), List.nil_append] at this

end Sys2Proof.Machine
end

