-- ==== Sys2Proof/Tests/Slice0.lean ====
section
/-! SUPPORT. Small tests: what the well-formedness check refuses, figures the manual works out, single
commands on small states, and, for each statement with hypotheses, a state and operands that meet them. -/

namespace Sys2Proof.Tests

open Sys2Proof.Machine

/-! ### Well-formedness: one ill-formed term for each check -/

theorem test_wf_lineReset : (Instr.lineReset 0 127).wf = true ∧ (Instr.lineReset 0 128).wf = false := by decide

theorem test_wf_plantLine : (Instr.plantLineRecognition 7).wf = true ∧
    (Instr.plantLineRecognition 8).wf = false := by decide

theorem test_wf_stall : (Instr.stallTimerExpiry 11).wf = true ∧ (Instr.stallTimerExpiry 12).wf = false := by
  decide

theorem test_wf_holdOff : (Instr.holdOffExpiry 65535 11).wf = true ∧ (Instr.holdOffExpiry 0 11).wf = false ∧
    (Instr.holdOffExpiry 65536 11).wf = false ∧ (Instr.holdOffExpiry 1 12).wf = false := by decide

theorem test_wf_maximumLength : (Instr.maximumLength 1 0).wf = true ∧
    (Instr.maximumLength 0 0).wf = false ∧ (Instr.maximumLength 65536 0).wf = false ∧
    (Instr.maximumLength 1 12).wf = false := by decide

theorem test_wf_beacon : (Instr.pulseEnd 3).wf = true ∧ (Instr.pulseEnd 4).wf = false ∧
    (Instr.flashTurn 3).wf = true ∧ (Instr.flashTurn 4).wf = false := by decide

theorem test_wf_commit : (Instr.commitChecks ⟨[1, 65535], [(63, 11)], false⟩).wf = true ∧
    (Instr.commitChecks ⟨[0], [], false⟩).wf = false ∧ (Instr.commitChecks ⟨[65536], [], false⟩).wf = false ∧
    (Instr.commitChecks ⟨[], [(64, 0)], false⟩).wf = false ∧
    (Instr.commitChecks ⟨[], [(0, 12)], false⟩).wf = false := by decide

theorem test_wf_tick : (Instr.tick ⟨[.commit, .stall 11], true, plainSwap⟩).wf = true ∧
    (Instr.tick ⟨[.stall 12], true, plainSwap⟩).wf = false ∧
    (Instr.tick ⟨[.holdOff 0 0], true, plainSwap⟩).wf = false ∧
    (Instr.tick ⟨[.maximumLength 1 12], true, plainSwap⟩).wf = false ∧
    (Instr.tick ⟨[.pulse 4], true, plainSwap⟩).wf = false ∧
    (Instr.tick ⟨[.flash 4], true, plainSwap⟩).wf = false ∧
    (Instr.tick ⟨[.recognition (.plant 8)], true, plainSwap⟩).wf = false ∧
    (Instr.tick ⟨[], true, ⟨[0], [], false⟩⟩).wf = false := by decide

/-! ### Figures of the manual -/

/-- The mean of codes 600 and 700 is code 674 (overview 5.3). -/
theorem test_equivalent_level :
    equivalentLevel (EnergySum.add 700 (EnergySum.add 600 [])) 2 = some 674 := by decide +kernel

/-- L10, L50 and L90 of ten slices (overview 5.4). -/
theorem test_percentiles :
    percentileLevel [(30, 1), (35, 4), (40, 5)] 10 = some 600 ∧
    percentileLevel [(30, 1), (35, 4), (40, 5)] 50 = some 600 ∧
    percentileLevel [(30, 1), (35, 4), (40, 5)] 90 = some 550 ∧ binOf 655 = 45 := by decide +kernel

/-- The equivalent levels of section 11.3, with energies of codes 600, 650, 720, 760 and 820. -/
theorem test_site_levels :
    let of := fun ps : List (Nat × Nat) => (ps.flatMap fun p => EnergySum.ofCode p.1 p.2)
    equivalentLevel (Counts.merge (of [(24000, 650)]) (of [(4224, 720)])) 28224 = some 670 ∧
      equivalentLevel (Counts.merge (of [(120, 820)]) (of [(840, 760)])) 960 = some 773 := by
  decide +kernel

/-- The check over 31h to 39h (R184) and a stamp (R183). -/
theorem test_check_and_stamp :
    checkOf [0x31, 0x32, 0x33, 0x34, 0x35, 0x36, 0x37, 0x38, 0x39] = 0x29B1#16 ∧
      Stamp.bytes ⟨1203, 547000, .running⟩ = [0x04, 0xB3, 0x08, 0x58, 0xB8, 0x02] := by decide +kernel

/-- The slice of R185. -/
theorem test_slice_payload :
    sliceOf [0x11, 0xFA, 0x02, 0xBC, 0x02, 0xD0, 0x03, 0xD9, 0x00] =
      ⟨17, 250, 700, 720, 985, false, false⟩ := by decide

/-- A content of 600 bytes goes in frames of 246, 246 and 108 bytes (R188). -/
theorem test_segments :
    (segments 127 (List.replicate 600 0)).map List.length = [246, 246, 108] := by decide +kernel

/-- Day 1300 loaded as a Monday has weekday offset 2 (section 11.1), and 06:56:40 is minute 416. -/
theorem test_weekday_offset : offsetFor 1300 0 = 2 ∧
    ({ Clock.powerOn with eighth := 199801 } : Clock).minute = 416 := by decide

theorem test_no_table_word : decodeTableWord 8 0x20 = none ∧
    State.reset.withFetchWord 8 0x20 = State.reset := ⟨rfl, rfl⟩

/-! ### Small states -/

/-- A FIXED entry with episodes and a beacon line. -/
def site : LimitEntry :=
  ⟨1, 0x001, 0xFFFF, .leq, .fixed 15, .gt, false, 600, 80, .both, some 0, 10, 60, .site⟩

/-- A CERTIFIED SLICE entry. -/
def certified : LimitEntry :=
  ⟨2, 0x002, 0x0001, .lmax, .slice, .rise, false, 700, 50, .none, none, 0, 1, .certified⟩

/-- An LN entry over a FIXED window. -/
def histogram : LimitEntry :=
  ⟨3, 0x001, 0xFFFF, .ln 10, .fixed 15, .gt, false, 600, 50, .report, none, 0, 60, .site⟩

/-- A table of entries at the given indices. -/
def tableOf (es : List (Nat × LimitEntry)) : EntryTable :=
  es.foldl (fun t p => t.set p.1 (some p.2)) EntryTable.empty

/-- Both tables of the reset state holding the entries. -/
def holding (es : List (Nat × LimitEntry)) : State :=
  { State.reset with table := ⟨tableOf es, tableOf es, 0, false, none⟩ }

/-- A unit for a pair. -/
def withUnit (i slot : Nat) (u : PoolUnit) (s : State) : State :=
  { s with windows := { s.windows with units := gridModify s.windows.units i slot (fun _ => some u) } }

/-- A frame in execution with these item bytes. -/
def inFrame (items : List Byte) (s : State) : State :=
  { s with ports := { s.ports with holding := [.executing ⟨7, items, 0, []⟩] } }

/-- The bytes of one item. -/
def item (code : Byte) (operands : List Byte) : List Byte :=
  code :: BitVec.ofNat 8 operands.length :: operands

/-- The decoder at an item of the command. -/
def at_ (c : CommandCode) (operands : List Byte) (s : State) : State := inFrame (item c.byte operands) s

/-- That item as the decoder reaches it. -/
def view (c : CommandCode) (operands : List Byte) : ItemView := ⟨7, [], [], c.byte, operands, [], 1⟩

theorem reaches_at {c : CommandCode} {o : List Byte} (s : State) (h : o.length < 256) :
    (at_ c o s).Reaches (view c o) := by
  refine ⟨⟨7, item c.byte o, 0, []⟩, rfl, rfl, ?_⟩
  have hl : (BitVec.ofNat 8 o.length).toNat = o.length := by
    rw [BitVec.toNat_ofNat, Nat.mod_eq_of_lt h]
  have hp : isPrefixCode c.byte = false := by cases c <;> decide
  simp [Executing.reach, item, reachFrom, hp, hl, Config.itemCount, view]

/-- Every item in form is taken. -/
theorem takes_at {c : CommandCode} {o : List Byte} (s : State) (h : o.length < 256) (hf : c.formOk o) :
    (at_ c o s).Takes c (view c o) := ⟨reaches_at s h, rfl, hf, rfl⟩

/-- Nothing is outstanding, so nothing is settled. -/
theorem settle_at (c : CommandCode) (o : List Byte) {s : State} (h : .commit ∉ s.due) :
    (at_ c o s).settleCommit = at_ c o s := by
  have : (at_ c o s).isDue .commit = false := by
    show s.due.contains .commit = false
    simpa using h
  unfold State.settleCommit State.takeDue
  rw [this]
  rfl

/-- A commit accepted and not yet checked. -/
def pendingCommit (s : State) : State := { s with table := { s.table with pending := true } }

/-- CERTIFY asserted. -/
def asserted (s : State) : State := { s with plant := { s.plant with certify := ⟨.low, 0⟩ } }

/-- Work that is due. -/
def due (ds : List Due) (s : State) : State := { s with due := ds }

/-- The clock in a state at a time. -/
def clocked (c : ClockState) (day eighth band : Nat) (s : State) : State :=
  { s with clock := { s.clock with state := c, day := day, eighth := eighth, band := band } }

/-- The gateway-port transmitter busy. -/
def busyTx (s : State) : State := { s with ports := { s.ports with gatewayTx := some [] } }

/-- The attention latch set. -/
def latched (s : State) : State := { s with notices := { s.notices with latch := true } }

/-- The report queue holding n records. -/
def queued (n : Nat) (s : State) : State :=
  { s with report := { s.report with
      queue := List.replicate n ⟨0, .attention ⟨Moment.powerOn, 0, 0⟩⟩ } }

/-- A current episode of the entry `site` on slot 0. -/
def episode (st : EpisodeState) (openTick : Tick) : Episode :=
  ⟨1, 1, 0, 0, st, openTick, .powerOn, .powerOn, some 650, .empty, 0, none, 0, 0, none, false, true, false⟩

/-- The current episodes. -/
def current (es : List Episode) (s : State) : State :=
  { s with episodes := { s.episodes with current := es } }

/-- A slot's record. -/
def slot0 (r : SlotRecord) (s : State) : State := { s with slots := s.slots.set 0 r }

/-- A verdict with and without the entry's fields. -/
def verdictOf (judged : Option Judged) : Verdict :=
  ⟨1, 2, 3, 4, none, judged, .timeSet, .powerOn, .powerOn, .powerOn, 0, 0, none, none, 5, 6, none, 0, 0, false,
    false, false⟩

/-- A standing-query list. -/
def standing (qs : List Query) (s : State) : State := { s with cadence := { s.cadence with queries := qs } }

/-- Verdicts waiting. -/
def waiting (vs : List Verdict) (s : State) : State :=
  { s with episodes := { s.episodes with waiting := vs } }

/-! ### Single commands -/

/-- LOAD ENTRIES at index 7 wraps to index 0 of its page. -/
theorem test_load_entries_wraps :
    ((at_ .loadEntries (byte1 7 ++ byte1 2 ++ site.image ++ certified.image)
      (asserted State.reset)).takeItem .loadEntries loadEntriesForm loadEntriesBody).table.staged =
        tableOf [(7, site), (0, certified)] := by decide +kernel

/-- A CERTIFIED entry needs CERTIFY. -/
theorem test_load_entries_denied :
    (at_ .loadEntries (byte1 0 ++ byte1 1 ++ certified.image) State.reset).takeItem .loadEntries
        loadEntriesForm loadEntriesBody =
      State.refused (view .loadEntries (byte1 0 ++ byte1 1 ++ certified.image)) .denied
        (at_ .loadEntries (byte1 0 ++ byte1 1 ++ certified.image) State.reset) := by decide +kernel

/-- A commit checked at a tick swaps and gives the entry its unit. -/
theorem test_commit_places_unit :
    ((due [.commit] (pendingCommit { State.reset with
      table := { State.reset.table with staged := tableOf [(0, { site with bands := 0xC000 })] } })).takeDue plainTick .commit
        ).windows.unitAt 0 0 = some ⟨false, .idle⟩ := by decide +kernel

/-- A field frame of a slice is forwarded at once. -/
theorem test_slice_forwarded :
    ((State.reset.receiveField (envelope .slice [3, 1, 2, 0x58, 2, 0x58, 2, 0x58, 0])).ports.gatewayTx) =
      some [envelope .slice [3, 1, 2, 0x58, 2, 0x58, 2, 0x58, 0]] := by decide +kernel

/-- The first slice of a WAITING slot is its base. -/
theorem test_slice_base :
    ((slot0 (.cleared (.waiting 3)) State.reset).intake ⟨3, 255, 600, 600, 600, false, false⟩).slots[0]? =
      some ⟨.live 3 0 0, some 600, ⟨1, 0, 0, 0, 0, 0, 0⟩, ⟨[(0, 1000000)], 1⟩⟩ := by decide +kernel

/-! ### Statements with hypotheses: the step and the invariants -/

theorem test_witness_StepRunsFrontCommand :
    { State.reset with pending := [.fieldTxDone] }.pending = .fieldTxDone :: [] ∧
      State.reset.pending = [] := ⟨rfl, rfl⟩

theorem test_witness_StepKeepsCapacities :
    State.reset.Capacities ∧ step State.reset = .next State.reset := by
  refine ⟨⟨?_, ?_, ?_⟩, rfl⟩
  · constructor <;> decide
  · unfold State.RecordBound; decide
  · decide

theorem test_witness_StepKeepsClockAndBandLegal :
    (clocked .running 65535 691199 14 State.reset).clock.Legal ∧
      (clocked .running 65535 691199 14 State.reset).BandLegal := by
  constructor <;> constructor <;> decide

/-- A frozen index in both tables. -/
def frozen0 : State :=
  { State.reset with table := ⟨tableOf [(0, certified)], tableOf [(0, certified)], 1, false, none⟩ }

theorem test_witness_StepKeepsFrozenEntries :
    frozen0.table.FrozenEqual ∧ frozen0.table.frozen.getLsbD 0 = true ∧ frozen0.pending = [] :=
  ⟨⟨by decide, by decide, fun _ _ => rfl⟩, by decide, rfl⟩

/-- A state with one episode current and one in HOLDOFF on other slots, and the coincidence they make. -/
def coinciding : State :=
  let s := current [episode .opened 0, { episode (.holdOff 2) 0 with slot := 11 }] State.reset
  { s with plant := { s.plant with coincidence := ⟨0x801, true, some .powerOn⟩ } }

theorem test_witness_OperandsThatNameNothing :
    (due [.stall 11, .holdOff 1 11, .pulse 3, .recognition (.plant 7)] coinciding).NamesExist ∧
      coinciding.table.FrozenEqual ∧ ¬dueExists (.stall 12) ∧ ¬dueExists (.holdOff 65536 11) ∧
      ¬dueExists (.recognition (.plant 8)) ∧ State.reset.takeRecognitions.ports.gatewayTx = none := by
  have none_at : ∀ i, coinciding.table.active.at i = none := fun i => by
    simp only [EntryTable.at, coinciding, current, State.reset, State.powerOn, LimitTable.powerOn,
      EntryTable.empty, List.getElem?_replicate]
    split <;> rfl
  refine ⟨⟨?_, by decide, fun i e h => by simp [due, none_at] at h,
    fun i e h => absurd ((none_at i).symm.trans h) (by simp), ?_⟩, ⟨by decide, by decide, fun _ _ => rfl⟩,
    by simp [dueExists, Config.slotCount], by simp [dueExists, keyExists, Config.max16],
    by simp [dueExists, Config.plantLines], by decide +kernel⟩
  · simp [due, dueExists, keyExists, Config.slotCount, Config.beaconLines, Config.plantLines, Config.max16]
  · simp [due, coinciding, current, episode, keyExists, Config.slotCount, Config.max16]

/-- No pair of the empty table holds a unit. -/
theorem poolLegal_reset : State.reset.PoolLegal := by
  have hu : ∀ i slot, State.reset.windows.unitAt i slot = none := fun i slot => by
    simp only [WindowEngine.unitAt, gridAt, State.reset, State.powerOn, WindowEngine.powerOn, WindowEngine.noUnits,
      List.getElem?_replicate]
    split
    · simp only [Option.bind_some, List.getElem?_replicate]; split <;> rfl
    · rfl
  have ha : ∀ i, State.reset.table.active.at i = none := fun i => by
    simp only [EntryTable.at, State.reset, State.powerOn, LimitTable.powerOn, EntryTable.empty,
      List.getElem?_replicate]
    split <;> rfl
  exact ⟨by decide, by decide, by decide +kernel, by decide +kernel, by simp [hu, ha], by simp [ha],
    by simp [hu]⟩

theorem test_witness_StepKeepsPool : State.reset.PoolLegal ∧ step State.reset = .next State.reset :=
  ⟨poolLegal_reset, rfl⟩

theorem test_witness_StepKeepsEpisodesAndLatches :
    coinciding.EpisodesLegal ∧ coinciding.LatchesLegal ∧ step coinciding = .next coinciding :=
  ⟨⟨by decide, by decide⟩,
    ⟨fun _ => ⟨0, 11, by decide, by decide, by decide⟩, by decide, by decide, by decide⟩, rfl⟩

theorem test_witness_PowerOnAndResetAsserted :
    State.reset.held = none ∧ { State.reset with held := some ⟨[], false⟩ }.held ≠ none := by decide

/-- The pins while RESET is high, by override and latch, and while it is low, as held. -/
theorem test_witness_PowerOnAndResetAsserted_pins :
    let forced := { BeaconLine.afterReset with override := .forceOn }
    let s := latched { State.reset with beacons := State.reset.beacons.set 1 forced }
    let h : HeldPins := ⟨[true, false, false, false], false⟩
    s.held = none ∧ s.beacons[1]? = some forced ∧ [0, 1].map s.beaconPin = [false, true] ∧ s.attnPin = true ∧
      h.beacons[1]? = some false ∧ [0, 1].map { s with held := some h }.beaconPin = [true, false] ∧
      { s with held := some h }.attnPin = false := by
  decide +kernel

theorem test_witness_LineReset :
    State.reset.held = none ∧ { State.reset with held := some ⟨[], false⟩ }.held ≠ none ∧
      (∃ e, frozen0.table.active.at 0 = some e ∧ e.slots.getLsbD 1 = true) ∧
      (withUnit 0 1 ⟨false, .idle⟩ frozen0).windows.unitAt 0 1 = some ⟨false, .idle⟩ :=
  ⟨rfl, by decide, ⟨certified, by decide, by decide⟩, by decide +kernel⟩

/-! ### The tick and the commit -/

theorem test_witness_TickAdvancesClock :
    (clocked .stopped 0 0 15 State.reset).clock.state ≠ .running ∧
      (clocked .running 0 691198 14 State.reset).clock.eighth + 1 < 691200 ∧
      691200 ≤ (clocked .running 65534 691199 14 State.reset).clock.eighth + 1 ∧
      (clocked .running 65534 691199 14 State.reset).clock.day < 65535 ∧
      65535 ≤ (clocked .running 65535 691199 14 State.reset).clock.day := by decide

/-- A state with every kind of work of a tick. -/
def busyTick : State :=
  pendingCommit (current [episode .opened 0] (slot0 ⟨.live 3 0 0, none, .zero, .empty⟩
    { clocked .running 0 479 14 (holding [(0, site)]) with
      clock := { (clocked .running 0 479 14 State.reset).clock with tickCount := 28799 }
      plant := { State.reset.plant with
        markLatch := some ⟨.powerOn, 15, []⟩
        lines := State.reset.plant.lines.set 7 { PlantLine.powerOn with active := true } } }))

theorem test_witness_TickDuties :
    busyTick.due = [] ∧ (busyTick.clock.eighth + 1) % 480 = 0 ∧ busyTick.table.pending = true ∧
      busyTick.plant.markLatch.isSome = true ∧
      busyTick.slots[0]? = some ⟨.live 3 0 0, none, .zero, .empty⟩ ∧
      16 ≤ (busyTick.clock.tickCount + 1 - 0).toNat ∧
      busyTick.table.active.find 1 = some (0, site) ∧
      480 * site.maxLength ≤ (busyTick.clock.tickCount + 1 - 0).toNat := by decide +kernel

/-- Counts that end at the tick and counts that do not, of hold-offs, pulses and flash phases. -/
def counting (cadence : Cadence) (eighth : Nat) : State :=
  { clocked .running 0 eighth 14 State.reset with
    episodes := { State.reset.episodes with
      current := [episode (.holdOff 2) 0, { episode (.holdOff 1) 0 with slot := 1 }] }
    beacons := [{ BeaconLine.afterReset with pulse := 1, flash := some ⟨true, 1⟩ },
      { BeaconLine.afterReset with pulse := 2, flash := some ⟨true, 2⟩ }]
    cadence := cadence }

theorem test_witness_TickDuties_counts :
    (counting .afterReset 0).due = [] ∧
      ((counting .afterReset 0).episodes.current.map (fun e => (e.key, e.slot))).Nodup ∧
      (counting .afterReset 0).cadence.running = true ∧ 1 < Cadence.afterReset.second ∧
      ({ Cadence.afterReset with second := 1 } : Cadence).second ≤ 1 ∧ 1 < Cadence.afterReset.base ∧
      ({ Cadence.afterReset with base := 1 } : Cadence).base ≤ 1 ∧
      ({ Cadence.afterReset with running := false } : Cadence).running = false ∧
      (7 + 1) % 8 = 0 ∧ (7 + 1) % 480 ≠ 0 ∧ (479 + 1) % 480 = 0 ∧ (0 + 1) % 8 ≠ 0 := by decide

/-- What the tick itself takes of those counts, and what it leaves due. -/
theorem test_tick_counts :
    let t := (counting { Cadence.afterReset with second := 1 } 0).tick plainTick
    t.episodes.current = [episode (.holdOff 1) 0, { episode (.holdOff 1) 0 with slot := 1 }] ∧
      t.beacons = [{ BeaconLine.afterReset with pulse := 1, flash := some ⟨true, 1⟩ },
        { BeaconLine.afterReset with pulse := 1, flash := some ⟨true, 1⟩ }] ∧
      t.cadence = { Cadence.afterReset with base := 59 } ∧
      t.due = [.holdOff 1 1, .pulse 0, .flash 0] := by decide +kernel

/-- A cadence count and a press of MARK outstanding at a tick. -/
def late : State :=
  due [.cadence, .recognition .mark]
    (counting { Cadence.afterReset with second := 1, base := 1, summary := 1 } 478)

/-- A tick takes what is outstanding, and the SUMMARY record that makes due, before its own counts; work asked
is taken in its order. -/
theorem test_witness_TickDuties_order :
    let w := late.finishDue plainTick
    w.due = [] ∧ w.plant.markLatch.isSome = true ∧ w.cadence.summary = 15 ∧ w.ports.gatewayTx.isSome = true ∧
      w.advance.FallsDue (.holdOff 1 1) ∧ ¬w.advance.CountsOn (.holdOff 1 1) ∧ w.advance.CountsOn (.pulse 1) ∧
      (late.tick ⟨[.holdOff 1 1, .mark], true, plainSwap⟩).due = [.pulse 0] := by
  have h : (late.finishDue plainTick).advance.episodes.current =
      [episode (.holdOff 2) 0, { episode (.holdOff 1) 0 with slot := 1 }] := by decide +kernel
  refine ⟨by decide +kernel, by decide +kernel, by decide +kernel, by decide +kernel,
    ⟨{ episode (.holdOff 1) 0 with slot := 1 }, 1, by rw [h]; decide, rfl, rfl, rfl⟩, ?_, ?_, by decide +kernel⟩
  · intro hc
    exact absurd (hc { episode (.holdOff 1) 0 with slot := 1 } 1 (by decide +kernel) rfl) (by decide)
  · intro b hb
    obtain rfl : { BeaconLine.afterReset with pulse := 2, flash := some ⟨true, 2⟩ } = b :=
      Option.some.inj hb
    decide

/-- The key of the first of two entries is held at both. -/
theorem test_witness_FailedCommit_duplicate :
    IsLowest (tableOf [(0, site), (63, site)]).Duplicate 0 :=
  ⟨⟨site, 63, site, by decide, by decide, by decide, rfl⟩, fun j h => absurd h (Nat.not_lt_zero j)⟩

/-- Entries of a one-entry table. -/
theorem at_single {e x : LimitEntry} {i : Nat} (h : (tableOf [(0, e)]).at i = some x) : i = 0 ∧ x = e := by
  have hs := at_set EntryTable.empty 0 i (some e)
  rw [show (tableOf [(0, e)]) = EntryTable.empty.set 0 (some e) from rfl, hs] at h
  split at h
  · next hc => exact ⟨hc.1.symm, (Option.some.inj h).symm⟩
  · simp only [EntryTable.at, EntryTable.empty, List.getElem?_replicate] at h
    split at h <;> simp at h

/-- An entry that refers to its own key. -/
def selfish : LimitEntry := { site with test := .excess 1 }

theorem test_witness_FailedCommit_reference :
    (∀ i, ¬(tableOf [(0, selfish)]).Duplicate i) ∧ IsLowest (tableOf [(0, selfish)]).BadReference 0 := by
  refine ⟨fun i ⟨e, j, f, h1, h2, h3, _⟩ => h2 ((at_single h3).1.trans (at_single h1).1.symm),
    ⟨selfish, 1, by decide, rfl, Or.inl rfl⟩, fun j h => absurd h (Nat.not_lt_zero j)⟩

theorem test_witness_FailedCommit_band :
    (∀ i, ¬(tableOf [(0, site)]).Duplicate i) ∧ (∀ i, ¬(tableOf [(0, site)]).BadReference i) ∧
      IsLowest ((tableOf [(0, site)]).UndefinedBand State.reset.schedule.stagedBands) 0 := by
  refine ⟨fun i ⟨e, j, f, h1, h2, h3, _⟩ => h2 ((at_single h3).1.trans (at_single h1).1.symm),
    fun i ⟨e, key, h1, h2, _⟩ => ?_, ⟨site, 13, by decide, by decide, by decide, fun r => ?_⟩,
    fun j h => absurd h (Nat.not_lt_zero j)⟩
  · rw [(at_single h1).2] at h2
    simp [site] at h2
  · simp [State.reset, State.powerOn, Schedule.powerOn, Config.userBands]

/-- An entry over OTHER and UNTIMED alone. -/
def always : LimitEntry := { site with bands := 0xC000 }

theorem test_witness_FailedCommit_need :
    ∀ i, ¬(tableOf [(0, always)]).UndefinedBand State.reset.schedule.stagedBands i := by
  rintro i ⟨e, b, h1, h2, h3, _⟩
  rw [(at_single h1).2] at h3
  have : ∀ b, b < 14 → always.bands.getLsbD b = false := by decide
  rw [this b h2] at h3
  simp at h3

/-- What a table needs: every slot of a FIXED mask, one histogram-capable unit of an LN entry, none of SLICE. -/
theorem test_witness_FailedCommit_sums :
    let t := tableOf [(0, { always with slots := 0xFFF }), (1, histogram), (63, certified)]
    t.need = 13 ∧ t.histogramNeed = 1 ∧
      ((List.range 12).filter (fun n => always.slots.getLsbD n)).length = 1 := by decide +kernel

/-- A pending commit of a staged table. -/
def committing (es : List (Nat × LimitEntry)) (s : State) : State :=
  due [.commit] (pendingCommit { s with table := { s.table with staged := tableOf es } })

theorem test_witness_FailedCommit :
    (.commit : Due) ∈ (committing [(0, selfish)] State.reset).due ∧
      (committing [(0, selfish)] State.reset).table.pending = true ∧
      (committing [(0, selfish)] State.reset).commitFailure = some (.badReference, some 0) := by
  decide +kernel

theorem test_witness_CommitSwaps :
    (.commit : Due) ∈ (committing [(63, always)] State.reset).due ∧
      (committing [(63, always)] State.reset).table.pending = true ∧
      (committing [(63, always)] State.reset).commitFailure = none := by decide +kernel

/-- Seven entries over all slots need 84 units, so some plain pairs hold histogram-capable ones; an LN entry's
do. -/
def crowding : State :=
  committing ((63, { histogram with bands := 0xC000 }) ::
    (List.range 7).map (fun k => (k, { always with key := 10 + k, slots := 0xFFF }))) State.reset

theorem test_witness_CommitSwaps_placement :
    crowding.commitFailure = none ∧ crowding.table.FrozenEqual ∧
      crowding.table.staged.at 6 = some { always with key := 16, slots := 0xFFF } ∧
      ((crowding.takeDue plainTick .commit).windows.unitAt 6 11).map (·.histogram) = some true ∧
      ((crowding.takeDue plainTick .commit).windows.unitAt 63 0).map (·.histogram) = some true ∧
      (crowding.takeDue plainTick .commit).windows.inUse false = 72 ∧
      crowding.beacons[3]? = some .afterReset :=
  ⟨by decide +kernel, ⟨by decide +kernel, by decide +kernel, fun i h => by
    have : crowding.table.frozen = 0 := by decide +kernel
    simp [this] at h⟩, by decide +kernel, by decide +kernel, by decide +kernel, by decide +kernel,
    by decide +kernel⟩

/-- An active entry carried to another index, with its open window and its episode. -/
def carrying : State :=
  committing [(1, { always with holdOff := 5 })] (withUnit 0 0 ⟨false, .window (Tally.begin .powerOn false)⟩
    (current [episode .opened 0] (holding [(0, always)])))

theorem test_witness_SwapCarriesAccounts :
    carrying.commitFailure = none ∧
      (∃ t, exec (.commitChecks plainSwap) carrying = .next t ∧ t.clock.band = carrying.clock.band) ∧
      carrying.table.active.find 1 = some (0, always) ∧
      carrying.table.staged.at 1 = some { always with holdOff := 5 } ∧
      carrying.table.staged.find 1 = some (1, { always with holdOff := 5 }) ∧
      carrying.windows.accAt 0 0 ≠ .idle ∧ carrying.table.staged.at 0 = none ∧
      episode .opened 0 ∈ carrying.episodes.current :=
  ⟨by decide +kernel, ⟨_, rfl, by decide +kernel⟩, by decide +kernel, by decide +kernel,
    by decide +kernel, by decide +kernel, by decide +kernel, by decide +kernel⟩

/-- The same entry redefined at its index, one withdrawn and one new, in a swap that changes the band. -/
def redefining : State :=
  clocked .running 0 0 0
    (committing [(0, { always with metric := .lmax }), (2, { histogram with bands := 0xC000 })]
      (current [episode .opened 0, { episode .opened 0 with key := 2 }]
        (holding [(0, always), (1, certified)])))

theorem test_witness_SwapCarriesAccounts_redefined :
    (.commit : Due) ∈ redefining.due ∧ redefining.table.pending = true ∧ redefining.commitFailure = none ∧
      redefining.table.active.find 1 = some (0, always) ∧
      redefining.table.staged.at 0 = some { always with metric := .lmax } ∧
      redefining.table.active.find 3 = none ∧ redefining.table.staged.at 1 = none ∧
      redefining.table.active.find 2 = some (1, certified) ∧ redefining.table.staged.find 2 = none ∧
      redefining.bandNow ≠ redefining.clock.band := by decide +kernel

/-- The two verdicts of that swap, key by key: one redefined, one withdrawn. -/
theorem test_swap_verdicts :
    ((redefining.takeDue plainTick .commit).report.queue.length,
      (redefining.takeDue plainTick .commit).episodes.current) = (1, []) ∧
      closureAt always (some { always with metric := .lmax }) 0 = some .redefined ∧
      closureAt certified none 0 = some .withdrawn := by decide +kernel

/-! ### The pieces of a tick -/

/-- A LIVE slot at a number of ticks. -/
def live (ticks : Tick) : State :=
  let s := slot0 ⟨.live 3 0 0, none, .zero, .empty⟩ (due [.stall 0] State.reset)
  { s with clock := { s.clock with tickCount := ticks } }

theorem test_witness_StallTimerExpiry :
    (.stall 0 : Due) ∈ (live 16).due ∧ (live 16).slots[0]? = some ⟨.live 3 0 0, none, .zero, .empty⟩ ∧
      16 ≤ ((live 16).clock.tickCount - 0).toNat ∧ ((live 15).clock.tickCount - 0).toNat < 16 ∧
      (∀ ep, ep ∈ (live 16).episodes.current → ep.slot ≠ 0) ∧
      (∃ ep, ep ∈ (current [episode .opened 0] (live 16)).episodes.current ∧ ep.slot = 0) := by decide

theorem test_witness_VerdictAndMarkOffers_formed :
    State.reset.episodes.waiting = [] ∧ (queued 47 State.reset).report.queue.length < 48 ∧
      48 ≤ (queued 48 State.reset).report.queue.length ∧
      (busyTx State.reset).ports.gatewayTx ≠ none := by decide

/-- Two named episodes, oldest first, with one place in the queue. -/
def demanded : State :=
  latched (busyTx (queued 47 (current [episode .opened 0, { episode .opened 5 with slot := 1 },
    { episode .opened 9 with key := 2 }] (holding [(0, { site with slots := 3 })]))))

theorem test_witness_ClosureDemands :
    (∀ a b : Episode, a.key = b.key → a.slot = b.slot → (a.key == 1) = (b.key == 1)) ∧
      (demanded.episodes.current.filter (fun e => e.key == 1))[1]? =
        some { episode .opened 5 with slot := 1 } ∧
      demanded.table.active.find 1 = some (0, { site with slots := 3 }) ∧
      demanded.episodes.waiting = [] ∧ demanded.notices.latch = true ∧ demanded.ports.gatewayTx ≠ none ∧
      48 ≤ (queued 48 State.reset).report.queue.length ∧
      (∀ e, e ∈ demanded.episodes.current → (e.key == 3) = false) :=
  ⟨fun _ _ h _ => by rw [h], by decide +kernel⟩

/-- The elder's verdict takes the place, the younger's waits, the third episode stays. -/
theorem test_closure_demand :
    let t := demanded.demandClose (fun e => e.key == 1) .timeSet
    t.report.queue.length = 48 ∧ t.episodes.waiting.map (fun v => (v.slot, v.reason)) = [(1, .timeSet)] ∧
      t.episodes.current = [{ episode .opened 9 with key := 2 }] := by decide +kernel

theorem test_witness_HoldOffExpiry :
    (.holdOff 1 0 : Due) ∈ (due [.holdOff 1 0] State.reset).due ∧
      (current [episode (.holdOff 2) 0] State.reset).episodes.find 1 0 = some (episode (.holdOff 2) 0) ∧
      (current [episode (.holdOff 1) 0] State.reset).episodes.find 1 0 = some (episode (.holdOff 1) 0) ∧
      (current [episode .opened 0] State.reset).episodes.find 1 0 = some (episode .opened 0) ∧
      State.reset.episodes.find 1 0 = none := by decide

/-- An episode whose hold-off ends at a tick of a STOPPED clock, with the queue full. -/
def heldStopped (st : EpisodeState) (ticks : Tick) (d : Due) : State :=
  let s := current [episode st 0] (queued 48 (due [d] (clocked .stopped 3 0 15 (holding [(0, site)]))))
  { s with clock := { s.clock with tickCount := ticks, tickStamp := ⟨3, 0, .stopped⟩ } }

/-- A hold-off expiry, and a maximum length, taken after a START TIME carry the stamp of their tick. -/
theorem test_tick_stamp_after_start :
    let started := fun s : State => (at_ .startTime [] s).takeItem .startTime noOperands startTimeBody
    ((started (heldStopped (.holdOff 1) 0 (.holdOff 1 0))).takeDue plainTick (.holdOff 1 0)).episodes.waiting.map
        (fun v => (v.reason, v.close)) = [(.quiet, ⟨⟨3, 0, .stopped⟩, 0⟩)] ∧
      ((started (heldStopped .opened 28800 (.maximumLength 1 0))).takeDue plainTick
        (.maximumLength 1 0)).episodes.current.map (fun e => (e.start, e.clockNotRunning)) =
          [(⟨⟨3, 0, .stopped⟩, 28800⟩, true)] ∧
      (started (heldStopped (.holdOff 1) 0 (.holdOff 1 0))).clock.state = .running := by decide +kernel

/-- Thirty-two episodes, the first of `site` on slot 0. -/
def crowded : State :=
  current (episode .opened 0 :: List.replicate 31 { episode .opened 0 with key := 9 })
    (queued 48 (due [.maximumLength 1 0] (holding [(0, site)])))

theorem test_witness_MaximumLength :
    (.maximumLength 1 0 : Due) ∈ crowded.due ∧ crowded.table.active.find 1 = some (0, site) ∧
      crowded.episodes.find 1 0 = some (episode .opened 0) ∧
      ¬(crowded.episodes.current.length + crowded.episodes.waiting.length < 32 ∨
        (crowded.episodes.waiting = [] ∧ crowded.report.queue.length < 48 ∧
          crowded.episodes.current.length ≤ 32)) ∧
      (current [episode .opened 0] State.reset).episodes.current.length < 32 ∧
      480 * site.maxLength ≤ ((28800 : Tick) - 0).toNat ∧ ((28799 : Tick) - 0).toNat < 480 * site.maxLength ∧
      (current [episode (.holdOff 1) 0] State.reset).episodes.find 1 0 = some (episode (.holdOff 1) 0) := by
  decide +kernel

/-- The opening of an episode of `site` on slot 0. -/
def opening (continuationOf : Option Nat) : Opening :=
  ⟨1, 0, 0, 100, .powerOn, .powerOn, some 700, continuationOf, false⟩

/-- Two candidates of one priority, and one stopped a tick beyond its linger; a PULSE line named by `site`. -/
def attributing : State :=
  let line (active : Bool) (stopped : Option Tick) : PlantLine :=
    { PlantLine.powerOn with active := active, deactivationTick := stopped,
                             record := { PlantLine.powerOn.record with enabled := true, linger := 1 } }
  { current [{ episode .opened 0 with slot := 11 }] (holding [(0, site)]) with
    beacons := List.replicate 4 { BeaconLine.afterReset with mode := .pulse }
    plant := { State.reset.plant with lines := [line false (some 91), line false (some 92), line true none] } }

theorem test_witness_Openings :
    attributing.Candidate 100 1 (attributing.plant.lines.getD 1 PlantLine.powerOn) ∧
      ¬attributing.Candidate 100 0 (attributing.plant.lines.getD 0 PlantLine.powerOn) ∧
      attributing.Names 1 0 ∧ attributing.plant.coincidence.mask = 0 ∧
      coinciding.plant.coincidence.mask ≠ 0 ∧ (opening none).continuationOf = none ∧
      (opening (some 1)).continuationOf ≠ none ∧
      attributing.beacons[0]? = some { BeaconLine.afterReset with mode := .pulse } := by
  refine ⟨⟨by decide +kernel, by decide +kernel, Or.inr ⟨92, by decide +kernel, by decide +kernel⟩⟩, ?_,
    ⟨0, site, by decide +kernel, Or.inr rfl, rfl⟩, by decide +kernel⟩
  rintro ⟨-, -, h | ⟨t, h1, h2⟩⟩
  · exact absurd h (by decide +kernel)
  · obtain rfl : (91 : Tick) = t := Option.some.inj h1
    exact absurd h2 (by decide +kernel)

/-- Attribution, coincidence and the pulse of an opening, which a continuation does not start. -/
theorem test_opening :
    let t := attributing.openEpisode (opening none)
    t.episodes.current.map (fun e => (e.primary, e.everActive, e.coincident)) =
        [(none, 0, 1), (some 1, 0x06, 0x800)] ∧
      t.plant.coincidence = ⟨0x801, true, some .powerOn⟩ ∧ t.notified .coincidence ∧
      t.beacons.map (·.pulse) = [40, 0, 0, 0] ∧
      (attributing.openEpisode (opening (some 1))).beacons.map (·.pulse) = [0, 0, 0, 0] := by
  unfold State.notified; decide +kernel

theorem test_witness_BeaconAndCadenceTimers_beacons :
    State.reset.beacons[3]? = some .afterReset ∧ (.pulse 3 : Due) ∈ (due [.pulse 3, .flash 3] State.reset).due ∧
      (.flash 3 : Due) ∈ (due [.pulse 3, .flash 3] State.reset).due ∧
      ({ BeaconLine.afterReset with flash := some ⟨true, 1⟩ } : BeaconLine).flash = some ⟨true, 1⟩ := by decide

theorem test_witness_BeaconAndCadenceTimers_cadence :
    (.cadence : Due) ∈ (due [.cadence] State.reset).due ∧ (.summary : Due) ∉ (due [.cadence] State.reset).due ∧
      (due [.cadence] State.reset).cadence.running = true ∧ 1 < State.reset.cadence.second ∧
      1 < State.reset.cadence.base ∧
      ({ Cadence.afterReset with second := 1, base := 1, running := false } : Cadence).second ≤ 1 := by decide

theorem test_witness_SummaryUnderflow :
    (.summary : Due) ∈ (due [.summary] (latched (busyTx (queued 47 State.reset)))).due ∧
      (latched (busyTx (queued 47 State.reset))).ports.gatewayTx ≠ none ∧
      (latched (busyTx (queued 47 State.reset))).notices.latch = true ∧
      (latched (busyTx (queued 47 State.reset))).report.queue.length + 1 +
        (latched (busyTx (queued 47 State.reset))).cadence.queries.length ≤ 48 ∧
      48 ≤ (queued 48 State.reset).report.queue.length := by decide +kernel

/-- What a SUMMARY record accounts for: slots that are not UNBOUND, enabled lines, and uncaptured counters. -/
theorem test_witness_SummaryUnderflow_record :
    let s := slot0 (.cleared (.waiting 3)) { State.reset with
      plant := { State.reset.plant with
        lines := State.reset.plant.lines.set 7 { PlantLine.powerOn with
          record := ⟨true, .low, 15, 7, 60⟩, summaryRun := 9 } }
      episodes := { State.reset.episodes with uncaptured := State.reset.episodes.uncaptured.set 63 2 } }
    s.summaryRecord.slots = [⟨0, .waiting 3, .zero, none, 0⟩] ∧ s.summaryRecord.lines = [⟨7, 9, false⟩] ∧
      s.summaryRecord.uncaptured = [⟨63, none, 2⟩] := by decide +kernel

/-- Notices enabled. -/
def masked (mask : NoticeSet) (s : State) : State := { s with notices := { s.notices with mask := mask } }

/-- Two standing queries over a queue that reaches 40 at the SUMMARY: the ATTENTION record comes last. -/
theorem test_summary_single_action :
    let s := masked 0x3FFF (busyTx (queued 39 (due [.summary]
      { State.reset with cadence := { State.reset.cadence with
        queries := [⟨.readTime, 5⟩, ⟨.readEpisodes, 6⟩] } })))
    ((s.takeDue plainTick .summary).report.queue.drop 39).map (fun r => match r.body with
      | .summary _ => 0
      | .query q => q.position + 1
      | .attention _ => 9
      | _ => 10) = [0, 1, 2, 9] := by decide +kernel

/-- The figures of two queries behind a SUMMARY record at 46 records, where one is dropped, and at 38, where
the queue reaches 40; and on an idle transmitter, with and without a waiting verdict. -/
theorem test_witness_SummaryUnderflow_queries :
    let s := fun n => due [.summary] (queued n (standing [⟨.readTime, 5⟩, ⟨.readEpisodes, 6⟩] State.reset))
    let full := (busyTx (s 46)).takeDue plainTick .summary
    let high := (busyTx (s 38)).takeDue plainTick .summary
    let idle := (s 0).takeDue plainTick .summary
    full.report.queue.length = 48 ∧ full.report.dropped = 1 ∧ full.notices = ⟨0x0020, 0, false⟩ ∧
      high.report.queue.length = 41 ∧ high.notices = ⟨0x0010, 0, false⟩ ∧ (s 0).report.queue = [] ∧
      idle.report.queue.length = 2 ∧ idle.ports.gatewayTx.isSome = true ∧ idle.due = [] ∧
      ((waiting [verdictOf none] (s 0)).takeDue plainTick .summary).due = [.verdicts] := by decide +kernel

/-- On a full queue the SUMMARY record and the ATTENTION record of its drop are both counted. -/
theorem test_summary_dropped :
    let t := (masked 0x3FFF (queued 48 (due [.summary] State.reset))).takeDue plainTick .summary
    t.report.dropped = 2 ∧ t.report.queue.length = 48 ∧ t.notices.latch = true := by decide +kernel

theorem test_witness_VerdictAndMarkOffers :
    (.verdicts : Due) ∈ (due [.verdicts, .mark] (latched (busyTx State.reset))).due ∧
      (.mark : Due) ∈ (due [.verdicts, .mark] State.reset).due ∧
      (latched (busyTx State.reset)).ports.gatewayTx ≠ none ∧
      (latched (busyTx State.reset)).notices.latch = true ∧
      busyTick.plant.markLatch = some ⟨.powerOn, 15, []⟩ ∧
      (queued 47 State.reset).report.queue.length < 48 ∧
      48 ≤ (queued 48 State.reset).report.queue.length := by decide +kernel

/-- Admissions that bring the queue to 40 with the latch clear: enabled, the ATTENTION record follows; disabled,
only the notice joins. On an idle transmitter the record departs at once, and a waiting verdict falls due. -/
theorem test_witness_VerdictAndMarkOffers_admitted :
    let s := fun mask => masked mask (busyTx (queued 39 State.reset))
    let t := fun mask => (s mask).admitRecord (.verdict (verdictOf none))
    (s 0x10).notices.latch = false ∧ (s 0x10).report.queue.length + 1 = 40 ∧
      ((t 0x10).report.queue.length, (t 0x10).notices) = (41, ⟨0x10, 0x10, true⟩) ∧
      ((t 0).report.queue.length, (t 0).notices) = (40, ⟨0x10, 0, false⟩) ∧
      (State.reset.admitRecord (.verdict (verdictOf none))).report.queue = [] ∧
      ((waiting [verdictOf none] State.reset).admitRecord (.verdict (verdictOf none))).due = [.verdicts] := by
  decide +kernel

/-- Two waiting verdicts and one place in the queue: the elder is offered, the younger stays. -/
theorem test_witness_VerdictAndMarkOffers_waiting :
    let v := verdictOf none
    let s := due [.verdicts] (busyTx (queued 47 (waiting [v, { v with number := 2 }] State.reset)))
    s.report.queue.length < 48 ∧ s.episodes.waiting = v :: [{ v with number := 2 }] ∧
      (s.takeDue plainTick .verdicts).episodes.waiting = [{ v with number := 2 }] ∧
      (s.takeDue plainTick .verdicts).report.queue.length = 48 := by decide +kernel

/-! ### The samplers -/

/-- Runs one sample short of recognition at MARK, CERTIFY and PL7. -/
def sampled (markLevel : Level) : State :=
  { State.reset with plant := { State.reset.plant with
      mark := ⟨markLevel, 3⟩
      certify := ⟨.high, 15⟩
      lines := State.reset.plant.lines.set 7 { PlantLine.powerOn with sampler := ⟨.low, 3⟩ } } }

theorem test_witness_SampleAdvancesSamplers :
    (sampled .high).due = [] ∧ (sampled .high).plant.lines.length = 8 ∧ (sampled .low).due = [] ∧
      (sampled .low).plant.lines.length = 8 ∧
      pinOf ⟨0x80, .low, .low⟩ 7 = .high ∧ pinOf ⟨0x80, .low, .low⟩ 0 = .low ∧
      (sampled .low).plant.mark.level = .low ∧ 4 ≤ (sampled .high).plant.mark.run + 1 ∧
      State.reset.plant.mark.run + 1 < 4 ∧ 16 ≤ (sampled .high).plant.certify.run + 1 ∧
      State.reset.plant.certify.run + 1 < 16 := by decide

/-- A sample that finds recognitions outstanding has them taken. -/
theorem test_witness_SampleAdvancesSamplers_outstanding :
    let s := due [.stall 0, .recognition .mark, .recognition (.plant 7)] State.reset
    s.takeRecognitions.due = [.stall 0] ∧ s.takeRecognitions.plant.markLatch.isSome = true ∧
      (s.takeRecognitions.plant.lines.getD 7 PlantLine.powerOn).active = true := by decide +kernel

/-- The three recognitions of that sample. -/
theorem test_sample_recognitions :
    ((sampled .high).samplePins ⟨0x80, .low, .low⟩).due =
      [.recognition (.plant 7), .recognition .mark, .recognition .certify] := by decide +kernel

theorem test_witness_PlantMarkAndCertifyRecognitions_plant :
    (.recognition (.plant 7) : Due) ∈ (due [.recognition (.plant 7)] State.reset).due ∧
      State.reset.plant.lines[7]? = some PlantLine.powerOn ∧
      Level.high ≠ PlantLine.powerOn.sampler.level ∧ PlantLine.powerOn.record.activeLevel = .high ∧
      busyTick.plant.lines[7]? = some { PlantLine.powerOn with active := true } := by decide +kernel

theorem test_witness_PlantMarkAndCertifyRecognitions_mark :
    (.recognition .mark : Due) ∈ (due [.recognition .mark, .recognition .certify] State.reset).due ∧
      (.recognition .certify : Due) ∈ (due [.recognition .mark, .recognition .certify] State.reset).due ∧
      State.reset.plant.markLatch = none ∧ busyTick.plant.markLatch ≠ none ∧
      liveLevels busyTick.slots = [(0, none)] := by decide +kernel

/-! ### The ports -/

/-- A SLICE frame of channel 3. -/
def sliceFrame : Frame := envelope .slice [3, 1, 2, 0x58, 2, 0x58, 2, 0x58, 0]

/-- The forward FIFO, the onward FIFO and reply holding filled. -/
def filled (forward onward : Nat) (holding : List Transaction) (s : State) : State :=
  { s with ports := { s.ports with
      forward := List.replicate forward sliceFrame
      onward := List.replicate onward (envelope .control [1, 7])
      holding := holding } }

theorem test_witness_FieldPortFrame :
    Unmarked [0, 1, 0xFF] ∧ FieldFrame .slice [3, 1, 2, 0x58, 2, 0x58, 2, 0x58, 0] sliceFrame ∧
      FieldFrame .report [0, 0x80, 1] (envelope .report [0, 0x80, 1]) ∧
      (∀ r, .ready r ∉ State.reset.ports.holding) ∧
      (envelope .control [0]).head? = some 0x7E ∧ validate fieldTakes (envelope .control [0]) = none ∧
      (filled 7 0 [] (busyTx State.reset)).ports.forward.length < 8 ∧
      (busyTx State.reset).ports.gatewayTx ≠ none ∧
      State.reset.ports.gatewayTx = none ∧ State.reset.ports.forward = [] ∧ State.reset.report.queue = [] ∧
      8 ≤ (filled 8 0 [] State.reset).ports.forward.length := by
  refine ⟨by unfold Unmarked; decide, ⟨rfl, by decide, by decide, by decide⟩,
    ⟨rfl, by decide, by decide, by decide⟩, fun _ h => absurd h List.not_mem_nil, ?_⟩
  decide +kernel

/-- A slot bound to channel 3 in a link. -/
def bound (l : SlotLink) : State := slot0 (.cleared l) State.reset

theorem test_witness_SliceJudged :
    (bound (.live 3 0 0)).slots[0]? = some (.cleared (.live 3 0 0)) ∧
      (SlotRecord.cleared (.live 3 0 0)).link.boundId = some 3 ∧
      ¬((1401 : Nat) ≤ 1400 ∧ (0 : Nat) ≤ 1400 ∧ (0 : Nat) ≤ 1600) ∧
      ((1400 : Nat) ≤ 1400 ∧ (1400 : Nat) ≤ 1400 ∧ (1600 : Nat) ≤ 1600) ∧
      224 ≤ ((224 : Nat) + 256 - 0) % 256 ∧ ((223 : Nat) + 256 - 0) % 256 < 224 ∧
      ((32 : Nat) + 256 - 0) % 256 = 32 ∧ ((0 : Nat) + 256 - 225) % 256 = 31 ∧
      (∀ r, r ∈ State.reset.slots → r.link.boundId ≠ some 3) := by decide +kernel

/-- The four judgements of a slice of a LIVE slot that expects sequence 0. -/
theorem test_slice_judgements :
    ([0, 31, 32, 223, 224].map fun n =>
      (((bound (.live 3 0 0)).intake ⟨3, n, 600, 600, 600, false, false⟩).slots[0]?.map
        fun r => (r.counters.accepted, r.counters.missing, r.counters.rejected, r.counters.resyncs))) =
      [some (1, 0, 0, 0), some (1, 31, 0, 0), some (1, 0, 0, 1), some (1, 0, 0, 1), some (0, 0, 1, 0)] := by
  decide +kernel

theorem test_witness_ControlFrame :
    GatewayFrame [0, 9, 0x32, 0] (envelope .control [0, 9, 0x32, 0]) ∧
      GatewayFrame [7] (envelope .control [7]) ∧ GatewayFrame [] (envelope .control []) ∧
      validate gatewayTakes sliceFrame = none ∧ sliceFrame.head? = some 0x7E ∧
      State.reset.ports.strap.toNat = 0 ∧ State.reset.ports.onward = [] ∧
      State.reset.ports.fieldTx = none ∧
      (filled 0 3 [] State.reset).ports.onward.length < 4 ∧
      4 ≤ (filled 0 4 [] State.reset).ports.onward.length ∧
      State.reset.ports.holding.length < 2 ∧
      2 ≤ (filled 0 0 [.executing ⟨0, [], 0, []⟩, .queued 0 []] State.reset).ports.holding.length := by
  refine ⟨⟨rfl, by decide⟩, ⟨rfl, by decide⟩, ⟨rfl, by decide⟩, ?_⟩
  decide +kernel

/-- A frame for this analyser is executed, one for another passed onward, a broadcast both. -/
theorem test_control_frame_targets :
    ([0, 3, 7].map fun target =>
      let s := State.reset.receiveGateway (envelope .control [target, 9, 0x32, 0])
      (s.ports.holding, s.ports.fieldTx.isSome)) =
      [([.executing ⟨9, [0x32, 0], 0, []⟩], false), ([], true),
        ([.executing ⟨9, [0x32, 0], 0, []⟩], true)] := by decide +kernel

theorem test_witness_Transmitters :
    (busyTx State.reset).ports.gatewayTx ≠ none ∧
      (filled 1 1 [.executing ⟨0, [], 0, []⟩, .ready ⟨1, [], 0⟩] (busyTx State.reset)).ports.holding =
        [.executing ⟨0, [], 0, []⟩] ++ .ready ⟨1, [], 0⟩ :: [] ∧
      (∀ q, .ready q ∉ ([.executing ⟨0, [], 0, []⟩] : List Transaction)) ∧
      (filled 1 0 [] (queued 1 (busyTx State.reset))).ports.starve < 8 ∧
      (filled 1 0 [] (queued 1 (busyTx State.reset))).report.queue ≠ [] ∧
      ({ (busyTx State.reset).ports with starve := 8 } : Ports).starve = 8 ∧
      ({ State.reset.ports with fieldTx := some sliceFrame } : Ports).fieldTx ≠ none := by
  refine ⟨by decide, rfl, by simp, by decide +kernel, by decide +kernel, rfl, by decide⟩

/-! ### The decoder -/

theorem test_witness_UnknownAndMalformedItems :
    (inFrame (item 0x05 []) State.reset).Reaches ⟨7, [], [], 0x05, [], [], 1⟩ ∧
      (∀ c : CommandCode, (0x05 : Byte) ≠ c.byte) ∧
      (at_ .removeEntry [] State.reset).Reaches (view .removeEntry []) ∧
      ¬CommandCode.removeEntry.formOk [] ∧
      (inFrame ([2, 0, 2, 0] ++ item CommandCode.readEntry.byte [0]) State.reset).Reaches
        ⟨7, [], [.staged, .staged], CommandCode.readEntry.byte, [0], [], 3⟩ ∧
      PrefixItem.appliesTo .staged .readEntry = true ∧ PrefixItem.appliesTo .keep .readEntry = false :=
  ⟨⟨_, rfl, rfl, by decide +kernel⟩, by intro c; cases c <;> decide, reaches_at _ (by decide),
    by simp [CommandCode.formOk], ⟨_, rfl, rfl, by decide +kernel⟩, by decide, by decide⟩

/-- A commit outstanding and none, a frame executing behind a READY reply, and prefixes with a slot. -/
theorem test_witness_UnknownAndMalformedItems_settled :
    let e : Executing := ⟨7, item 0x05 [], 0, []⟩
    let r : Reply := ⟨1, [], 0⟩
    let s := filled 0 0 [.ready r, .executing e] (committing [(0, selfish)] State.reset)
    let v : ItemView := ⟨7, [malformedItem 1], [.slot 11, .staged], 0x05, [], [9], 4⟩
    (.commit : Due) ∈ s.due ∧ s.settleCommit.table.lastResult = some (.failed .badReference (some 0)) ∧
      (.commit : Due) ∉ s.settleCommit.due ∧ s.executing = some e ∧
      s.ports.holding = [.ready r] ++ .executing e :: [] ∧
      (s.answered v .ok .empty).ports.holding =
        [.ready r, .executing ⟨7, [9], 4, [malformedItem 1, ⟨0x05, .ok, .empty⟩]⟩] ∧
      v.modifiers.slot = some 11 ∧ (.slot 11 : PrefixItem) ∈ v.prefixes := by decide +kernel

/-- What the decoder reaches in these bytes after a number of items. -/
def reachOf (taken : Nat) (items : List Byte) : Reached := Executing.reach ⟨7, items, taken, []⟩

/-- Behind no prefix and behind two: an end, a stray byte, an item cut off, a 17th item, an item reached, and
a prefix with a length that is not its own. -/
theorem test_witness_UnknownAndMalformedItems_reach :
    ([.slot 255, .staged] : List PrefixItem).flatMap PrefixItem.bytes = [1, 1, 255, 2, 0] ∧
      reachOf 0 [] = .stop [] ∧ reachOf 14 [1, 1, 255, 2, 0] = .stop [malformedItem 0x02] ∧
      reachOf 0 [0x32] = .stop [malformedItem 0x00] ∧
      reachOf 0 [3, 0, 0x32, 2, 9] = .stop [malformedItem 0x03, malformedItem 0x00] ∧
      reachOf 15 [0x22, 0, 0x22, 0] = .item [] [] 0x22 [] [0x22, 0] 16 ∧
      reachOf 16 [0x22, 0] = .stop [malformedItem 0x00] ∧
      reachOf 14 [1, 1, 255, 2, 0, 0x22, 0] = .stop [malformedItem 0x02, malformedItem 0x00] ∧
      reachOf 13 [1, 1, 255, 2, 0, 0x22, 1, 8, 9] = .item [] [.slot 255, .staged] 0x22 [8] [9] 16 ∧
      reachOf 0 [2, 0, 1, 0, 0x22, 0] = .item [malformedItem 0x01] [] 0x22 [] [] 3 ∧
      reachOf 0 [2, 0, 3, 1, 9] = .stop [malformedItem 0x03] := by decide +kernel

theorem test_witness_ControlFrameEnd :
    (inFrame [] (busyTx State.reset)).executing = some ⟨7, [], 0, []⟩ ∧
      (⟨7, [], 0, []⟩ : Executing).reach = .stop [] ∧ (⟨7, [0x32], 0, []⟩ : Executing).reach =
        .stop [⟨0, .malformed, .empty⟩] ∧
      (inFrame [] (busyTx State.reset)).settleCommit.ports.holding = [] ++ .executing ⟨7, [], 0, []⟩ :: [] ∧
      (inFrame [] (busyTx State.reset)).settleCommit.ports.gatewayTx ≠ none ∧
      (inFrame [] State.reset).settleCommit.ports.gatewayTx = none := by
  refine ⟨rfl, by decide, by decide, rfl, by decide +kernel, by decide +kernel⟩

theorem test_witness_OffMoment :
    (∀ v, (inFrame [] State.reset).Reaches v → v.code ≠ CommandCode.commit.byte) ∧
      (.summary : Due) ∉ State.reset.due := by
  refine ⟨?_, by decide⟩
  rintro v ⟨e, h1, _, h3⟩
  cases (Option.some.inj h1).symm
  exact absurd h3 (by simp [Executing.reach, reachFrom, stopItems])

/-! ### The limit table -/

/-- The state an item of the command is judged on. -/
def settled (c : CommandCode) (o : List Byte) (s : State) : State := (at_ c o s).settleCommit

theorem test_witness_LoadEntries :
    (at_ .loadEntries (byte1 63 ++ byte1 1 ++ site.image) State.reset).Takes .loadEntries
        (view .loadEntries (byte1 63 ++ byte1 1 ++ site.image)) ∧
      (at_ .loadEntries (byte1 64 ++ byte1 0) State.reset).Takes .loadEntries
        (view .loadEntries (byte1 64 ++ byte1 0)) ∧
      (at_ .loadEntries (byte1 0 ++ byte1 1 ++ certified.image) frozen0).Takes .loadEntries
        (view .loadEntries (byte1 0 ++ byte1 1 ++ certified.image)) ∧
      State.reset.table.FrozenEqual ∧ frozen0.table.FrozenEqual :=
  ⟨takes_at _ (by decide) ⟨by decide, rfl⟩, takes_at _ (by decide) ⟨by decide, rfl⟩,
    takes_at _ (by decide) ⟨by decide, rfl⟩, ⟨by decide, by decide, fun _ _ => rfl⟩,
    ⟨by decide, by decide, fun _ _ => rfl⟩⟩

theorem test_witness_LoadEntries_clauses :
    LimitEntry.ofImage site.image = some site ∧ LimitEntry.ofImage certified.image = some certified ∧
      LimitEntry.ofImage ({ site with maxLength := 241 }).image = none ∧
      (recordsOf 28 1 ((byte1 63 ++ byte1 1 ++ site.image).drop 2)).map LimitEntry.ofImage = [some site] ∧
      (settled .loadEntries (byte1 63 ++ byte1 1 ++ site.image)
        (pendingCommit State.reset)).table.pending = true ∧
      (settled .loadEntries (byte1 63 ++ byte1 1 ++ site.image) State.reset).table.pending = false ∧
      (settled .loadEntries (byte1 63 ++ byte1 1 ++ site.image) State.reset).certifyAsserted = false ∧
      (settled .loadEntries (byte1 0 ++ byte1 1 ++ certified.image)
        (asserted State.reset)).certifyAsserted = true ∧
      (settled .loadEntries (byte1 0 ++ byte1 1 ++ certified.image)
        frozen0).table.frozen.getLsbD (8 * (0 / 8) + (0 + 0) % 8) = true ∧
      (settled .loadEntries (byte1 0 ++ byte1 1 ++ certified.image) (holding [(0, certified)])).table.staged.at 0 =
        some certified := by decide +kernel

theorem test_witness_RemoveFreezeProbeAndReadEntry_edits :
    (at_ .removeEntry (byte1 64) State.reset).Takes .removeEntry (view .removeEntry (byte1 64)) ∧
      (at_ .removeEntry (byte1 63) State.reset).Takes .removeEntry (view .removeEntry (byte1 63)) ∧
      (at_ .freezeEntry (byte2 2) (asserted (holding [(0, certified)]))).Takes .freezeEntry
        (view .freezeEntry (byte2 2)) ∧
      (settled .freezeEntry (byte2 2) (asserted (holding [(0, certified)]))).certifyAsserted = true ∧
      (settled .freezeEntry (byte2 2) (asserted (holding [(0, certified)]))).table.pending = false ∧
      (settled .freezeEntry (byte2 2) (asserted (holding [(0, certified)]))).table.active.find 2 =
        some (0, certified) ∧
      (settled .freezeEntry (byte2 65535) (asserted (holding [(0, certified)]))).table.active.find 65535 =
        none ∧
      (settled .freezeEntry (byte2 2) (pendingCommit State.reset)).table.pending = true ∧
      (settled .freezeEntry (byte2 2) State.reset).certifyAsserted = false :=
  ⟨takes_at _ (by decide) rfl, takes_at _ (by decide) rfl, takes_at _ (by decide) rfl, by decide +kernel⟩

theorem test_witness_CommitRevertAndClearResult_commit :
    (at_ .commit [] State.reset).Takes .commit (view .commit []) ∧
      (at_ .clearCommitResult [] State.reset).Takes .clearCommitResult (view .clearCommitResult []) ∧
      (settled .commit [] (pendingCommit State.reset)).table.pending = true ∧
      (settled .commit [] (holding [(0, certified)])).protectedDifference = false ∧
      (settled .commit [] { State.reset with table :=
        { State.reset.table with staged := tableOf [(0, certified)] } }).protectedDifference = true :=
  ⟨takes_at _ (by decide) rfl, takes_at _ (by decide) rfl, by decide +kernel⟩

theorem test_witness_CommitRevertAndClearResult_revert :
    (at_ .revertStaging [] frozen0).Takes .revertStaging (view .revertStaging []) ∧
      (settled .revertStaging [] frozen0).table.pending = false ∧
      (settled .revertStaging [] (pendingCommit frozen0)).table.pending = true ∧
      (at_ .revertStaging [] frozen0).table.FrozenEqual ∧
      (settled .revertStaging [] frozen0).table.frozen.getLsbD 0 = true :=
  ⟨takes_at _ (by decide) rfl, by decide +kernel, by decide +kernel,
    ⟨by decide, by decide, fun _ _ => rfl⟩, by decide +kernel⟩

theorem test_witness_RemoveFreezeProbeAndReadEntry_reads :
    (at_ .probeEntry (byte1 127) frozen0).Takes .probeEntry (view .probeEntry (byte1 127)) ∧
      (at_ .readEntry (byte1 63) frozen0).Takes .readEntry (view .readEntry (byte1 63)) ∧
      (inFrame ([2, 0] ++ item CommandCode.readEntry.byte (byte1 0)) frozen0).Takes .readEntry
        ⟨7, [], [.staged], CommandCode.readEntry.byte, byte1 0, [], 2⟩ :=
  ⟨takes_at _ (by decide) rfl, takes_at _ (by decide) rfl, ⟨⟨_, rfl, rfl, by decide +kernel⟩, rfl, rfl, rfl⟩⟩

/-- The entry `site` is in the ranges of R39. -/
theorem test_witness_LoadImages : site.Valid ∧ LimitEntry.ofImage site.image = some site ∧
    site.image.length = 28 ∧
    bandOfImage (bandImage 13 (some ⟨0x1FF, 1439, 1440⟩)) = some (13, some ⟨0x1FF, 1439, 1440⟩) ∧
    exceptionOfImage (ExceptionRecord.image ⟨65535, .special⟩) = some ⟨65535, .special⟩ ∧
    plantOfImage (PlantRecord.image 7 ⟨true, .low, 15, 7, 60⟩) = some (7, ⟨true, .low, 15, 7, 60⟩) := by
  refine ⟨?_, by decide +kernel, by decide, by decide, by decide, by decide⟩
  constructor <;> simp [site]

/-- The image of `site`, byte by byte from the table of load images. -/
def siteImage : List Byte :=
  [0, 1, 0, 1, 255, 255, 1, 0, 0, 0, 2, 0, 15, 0, 0, 0, 1, 4, 2, 88, 0, 0, 80, 3, 0, 0, 10, 60]

/-- The image written out; what is refused in it; and its reserved flag bits, which are not. -/
theorem test_witness_LoadImages_bytes :
    site.image = siteImage ∧ field siteImage 18 2 = 600 ∧ field siteImage 27 1 = 60 ∧
      ([siteImage.set 2 0x10, siteImage.set 7 1, siteImage.set 8 1, (certified.image).set 12 15,
        siteImage.set 14 1, siteImage.set 15 2, siteImage.set 21 1, siteImage.set 16 3,
        (siteImage.set 17 0).set 24 1, siteImage.set 23 1].map LimitEntry.ofImage).all (· == none) = true ∧
      certified.image.length = 28 ∧ (LimitEntry.ofImage certified.image).isSome = true ∧
      LimitEntry.ofImage (siteImage.set 17 0xFC) = some site := by decide +kernel

/-- Band, exception and plant images where their clauses meet. -/
theorem test_witness_LoadImages_records :
    [[13, 0, 1, 2, 3, 4, 5, 6], [14, 0, 0, 1, 0, 0, 0, 1], [0, 2, 0, 1, 0, 0, 0, 1], [0, 1, 0, 0, 0, 0, 0, 1],
        [0, 1, 0xFE, 1, 0, 5, 0, 5], [13, 1, 0xFF, 1, 5, 159, 5, 160]].map bandOfImage =
        [some (13, none), none, none, none, none, some (13, some ⟨0x101, 1439, 1440⟩)] ∧
      [[1, 2, 8], [1, 2, 9]].map exceptionOfImage = [some ⟨258, .special⟩, none] ∧
      [[7, 0xFF, 1, 15, 7, 60], [8, 0, 0, 2, 0, 0], [0, 0, 2, 2, 0, 0], [0, 0xFE, 0, 2, 0, 0],
        [0, 0, 0, 1, 0, 0]].map plantOfImage =
        [some (7, ⟨true, .high, 15, 7, 60⟩), none, none, some (0, ⟨false, .low, 2, 0, 0⟩), none] := by
  decide +kernel

/-- Contents at the ends of a frame, and the fields whose clauses have hypotheses. -/
theorem test_witness_RecordLayouts :
    ([1, 246, 247, 600, 31488].map fun n => (n + 245) / 246) = [1, 1, 2, 3, 128] ∧
      ([1, 246, 247].map fun n => (runOf .report 2 (List.replicate n 0)).length) = [1, 1, 2] ∧
      List.replicate 31488 (0 : Byte) ≠ [] ∧
      (runOf .report 2 (List.replicate 247 0))[1]? = some (envelope .report [2, 129, 0]) ∧
      (verdictOf (some ⟨.leq, .slice, .gt, true, 600⟩)).judged = some ⟨.leq, .slice, .gt, true, 600⟩ ∧
      (verdictOf none).judged = none ∧ (SlotLink.waiting 3).boundId = some 3 ∧
      (⟨.powerOn, 14, [(0, none), (11, some 650)]⟩ : Mark).levels[1]? = some (11, some 650) ∧
      field (Mark.bytes ⟨.powerOn, 14, [(0, none), (11, some 650)]⟩) 16 2 = 650 ∧
      (⟨0, ⟨.readWindow 258 none, 7⟩, ⟨0x60, .ok, .empty⟩⟩ : QueryRecord).query.command = .readWindow 258 none ∧
      (∀ key slot, QueryCommand.readTime ≠ .readWindow key slot) := by
  refine ⟨by decide +kernel, by decide +kernel, List.cons_ne_nil _ _, by decide +kernel, by decide, by decide,
    by decide, by decide, by decide +kernel, by decide, fun _ _ => nofun⟩

/-! ### The schedule and the clock -/

/-- Band 13 on every day of the week from 22:00 to midnight. -/
def evening : BandRecord := ⟨0x7F, 1320, 1440⟩

theorem test_witness_LoadBandsAndExceptions :
    (at_ .loadBands (byte1 1 ++ bandImage 13 (some evening)) State.reset).Takes .loadBands
        (view .loadBands (byte1 1 ++ bandImage 13 (some evening))) ∧
      (at_ .loadBands (byte1 1 ++ bandImage 13 (some evening)) State.reset).BandLegal ∧
      (at_ .loadBands (byte1 0) State.reset).Takes .loadBands (view .loadBands (byte1 0)) ∧
      (at_ .loadExceptions (byte1 2 ++ (ExceptionRecord.image ⟨0, .holiday⟩ ++
        ExceptionRecord.image ⟨65535, .special⟩)) State.reset).Takes .loadExceptions
        (view .loadExceptions (byte1 2 ++ (ExceptionRecord.image ⟨0, .holiday⟩ ++
          ExceptionRecord.image ⟨65535, .special⟩))) :=
  ⟨takes_at _ (by decide) ⟨by decide, rfl⟩, ⟨by decide, by decide, by decide, by decide⟩,
    takes_at _ (by decide) ⟨by decide, rfl⟩, takes_at _ (by decide) ⟨by decide, rfl⟩⟩

theorem test_witness_LoadBandsAndExceptions_clauses :
    (recordsOf 8 1 (bandImage 13 (some evening))).map bandOfImage = [some (13, some evening)] ∧
      bandOfImage (bandImage 14 none) = none ∧
      (holding [(0, certified)]).bandProtected 0 = true ∧
      (holding [(0, certified)]).bandProtected 13 = false ∧
      ([0, 65535] : List Nat).Pairwise (· < ·) ∧ ¬([1, 1] : List Nat).Pairwise (· < ·) ∧
      exceptionOfImage [0, 0, 10] = none ∧ (holding [(0, certified)]).anyCertified = true := by
  decide +kernel

theorem test_witness_SetTime :
    (at_ .setTime (byte2 65535 ++ byte3 691199 ++ byte1 6) (holding [(0, certified)])).Takes .setTime
        (view .setTime (byte2 65535 ++ byte3 691199 ++ byte1 6)) ∧
      (at_ .setTime (byte2 0 ++ byte3 691200 ++ byte1 7) State.reset).Takes .setTime
        (view .setTime (byte2 0 ++ byte3 691200 ++ byte1 7)) ∧
      (settled .setTime (byte2 65535 ++ byte3 691199 ++ byte1 6) (holding [(0, certified)])).anyCertified =
        true ∧
      (settled .setTime (byte2 65535 ++ byte3 691199 ++ byte1 6) (holding [(0, certified)])).certifyAsserted =
        false ∧
      (settled .setTime (byte2 65535 ++ byte3 691199 ++ byte1 6) State.reset).anyCertified = false ∧
      (settled .setTime (byte2 65535 ++ byte3 691199 ++ byte1 6)
        (asserted (holding [(0, certified)]))).certifyAsserted = true :=
  ⟨takes_at _ (by decide) rfl, takes_at _ (by decide) rfl, by decide +kernel⟩

/-- A SET TIME in another band than UNTIMED is a band-change event, in UNTIMED none. -/
theorem test_witness_SetTime_band :
    let s := fun band => settled .setTime (byte2 5 ++ byte3 9 ++ byte1 6) (clocked .running 3 0 band
      { State.reset with plant := { State.reset.plant with
          lines := State.reset.plant.lines.set 0 { PlantLine.powerOn with bandRun := 7 } } })
    let t := fun band => match exec .setTime (s band) with
      | .next t => (t.plant.lines.map (·.bandRun), t.plant.bandStart)
      | _ => ([], .powerOn)
    (s 15).clock.band = 15 ∧ (s 14).clock.band ≠ 15 ∧
      t 15 = ([7, 0, 0, 0, 0, 0, 0, 0], State.reset.plant.bandStart) ∧
      t 14 = (List.replicate 8 0, ⟨⟨5, 9, .stopped⟩, 0⟩) := by decide +kernel

theorem test_witness_StartTimeAndTrim :
    (at_ .startTime [] State.reset).Takes .startTime (view .startTime []) ∧
      (settled .startTime [] State.reset).clock.state = .unset ∧
      (settled .startTime [] (clocked .stopped 3 0 15 (holding [(0, certified)]))).clock.state = .stopped ∧
      (settled .startTime [] (clocked .stopped 3 0 15 (holding [(0, certified)]))).anyCertified = true ∧
      (settled .startTime [] (clocked .stopped 3 0 15 State.reset)).anyCertified = false ∧
      (settled .startTime [] (clocked .running 3 0 14 State.reset)).clock.state = .running ∧
      (at_ .trim (byte2 0xFF80) State.reset).Takes .trim (view .trim (byte2 0xFF80)) ∧
      (BitVec.ofNat 16 (field (byte2 0xFF80) 0 2)).toInt = -128 ∧
      (at_ .trim (byte2 128) State.reset).Takes .trim (view .trim (byte2 128)) ∧
      (BitVec.ofNat 16 (field (byte2 128) 0 2)).toInt = 128 :=
  ⟨takes_at _ (by decide) rfl, by decide +kernel, by decide +kernel, by decide +kernel,
    by decide +kernel, by decide +kernel, takes_at _ (by decide) rfl, by decide +kernel,
    takes_at _ (by decide) rfl, by decide +kernel⟩

theorem test_witness_StartTimeAndTrim_units :
    let u := settled .startTime [] (withUnit 0 0 ⟨false, .idle⟩ (clocked .stopped 3 0 15 (holding [(0, site)])))
    let x := State.decideBand false false { u with clock := { u.clock with state := .running } }
    x.windows.unitAt 0 0 = some ⟨false, .idle⟩ ∧ x.table.active.at 0 = some site ∧ x.clock.band = 14 ∧
      site.slots.getLsbD 0 = true ∧ site.bands.getLsbD 14 = true ∧ site.slots.getLsbD 11 = false := by
  decide +kernel

/-- A stopped clock started under an entry over OTHER opens its window. -/
theorem test_start_time_opens :
    ((at_ .startTime [] (withUnit 0 0 ⟨false, .idle⟩ (clocked .stopped 3 0 15
      (holding [(0, always)])))).takeItem .startTime noOperands startTimeBody).windows.accAt 0 0 =
        .window (Tally.begin ⟨⟨3, 0, .running⟩, 0⟩ false) := by decide +kernel

/-! ### Slots and plant lines -/

theorem test_witness_BindAndUnbindSlot :
    (at_ .bindSlot (byte1 11 ++ byte1 63) State.reset).Takes .bindSlot
        (view .bindSlot (byte1 11 ++ byte1 63)) ∧
      (at_ .bindSlot (byte1 12 ++ byte1 64) State.reset).Takes .bindSlot
        (view .bindSlot (byte1 12 ++ byte1 64)) ∧
      (at_ .unbindSlot (byte1 0) (bound (.waiting 3))).Takes .unbindSlot (view .unbindSlot (byte1 0)) ∧
      (settled .unbindSlot (byte1 0) (bound (.waiting 3))).slots[0]? = some (.cleared (.waiting 3)) ∧
      (settled .bindSlot (byte1 11 ++ byte1 3) (bound (.waiting 3))).slots[0]? =
        some (.cleared (.waiting 3)) ∧
      (settled .bindSlot (byte1 11 ++ byte1 63) (holding [(0, certified)])).slotProtected 1 = true ∧
      (settled .bindSlot (byte1 11 ++ byte1 63) (holding [(0, certified)])).slotProtected 11 = false :=
  ⟨takes_at _ (by decide) rfl, takes_at _ (by decide) rfl, takes_at _ (by decide) rfl, by decide +kernel⟩

theorem test_witness_LoadPlant :
    (at_ .loadPlant (byte1 1 ++ PlantRecord.image 7 ⟨true, .low, 15, 7, 60⟩) State.reset).Takes .loadPlant
        (view .loadPlant (byte1 1 ++ PlantRecord.image 7 ⟨true, .low, 15, 7, 60⟩)) ∧
      (at_ .loadPlant (byte1 0) State.reset).Takes .loadPlant (view .loadPlant (byte1 0)) ∧
      (recordsOf 6 1 (PlantRecord.image 7 ⟨true, .low, 15, 7, 60⟩)).map plantOfImage =
        [some (7, ⟨true, .low, 15, 7, 60⟩)] ∧
      plantOfImage (PlantRecord.image 7 ⟨true, .low, 16, 7, 60⟩) = none ∧
      State.reset.plant.lines[7]? = some PlantLine.powerOn ∧
      (current [episode .opened 0] State.reset).episodes.current[0]? = some (episode .opened 0) ∧
      PlantLine.powerOn.sampler.level = .low ∧ PlantLine.powerOn.active = false :=
  ⟨takes_at _ (by decide) ⟨by decide, rfl⟩, takes_at _ (by decide) ⟨by decide, rfl⟩, by decide +kernel⟩

/-- The line that becomes active and enabled joins the ever-active lines; the one left inactive does not. -/
theorem test_load_plant_ever_active :
    ((current [episode .opened 0] State.reset).loadPlant
      [(7, ⟨true, .low, 15, 7, 60⟩), (6, ⟨true, .high, 15, 7, 60⟩)]).episodes.current =
        [{ episode .opened 0 with everActive := 0x80 }] := by decide +kernel

/-! ### Reads -/

theorem test_witness_SystemReadsAndFetches :
    (at_ .readBands [] State.reset).Takes .readBands (view .readBands []) ∧
      (inFrame ([2, 0] ++ item CommandCode.readBands.byte []) State.reset).Takes .readBands
        ⟨7, [], [.staged], CommandCode.readBands.byte, [], [], 2⟩ ∧
      (at_ .readPlant [] State.reset).Takes .readPlant (view .readPlant []) ∧
      (at_ .readStatus [] State.reset).Takes .readStatus (view .readStatus []) ∧
      (at_ .fetchCoincidence [] State.reset).Takes .fetchCoincidence (view .fetchCoincidence []) ∧
      (at_ .fetchNotices [] State.reset).Takes .fetchNotices (view .fetchNotices []) :=
  ⟨takes_at _ (by decide) rfl, ⟨⟨_, rfl, rfl, by decide +kernel⟩, rfl, rfl, rfl⟩,
    takes_at _ (by decide) rfl, takes_at _ (by decide) rfl, takes_at _ (by decide) rfl,
    takes_at _ (by decide) rfl⟩

/-- READ HISTOGRAM behind a SLOT prefix. -/
def histogramAt (slot : Byte) (o : List Byte) (s : State) : State :=
  inFrame ([1, 1, slot] ++ item CommandCode.readHistogram.byte o) s

theorem test_witness_ReadHistogramAndWorkedFigures_read :
    (histogramAt 0 (byte2 3 ++ byte1 119 ++ byte1 32 ++ byte1 32) (holding [(0, histogram)])).Takes
        .readHistogram ⟨7, [], [.slot 0], CommandCode.readHistogram.byte,
          byte2 3 ++ byte1 119 ++ byte1 32 ++ byte1 32, [], 2⟩ ∧
      (histogramAt 12 (byte2 0 ++ byte1 120 ++ byte1 0 ++ byte1 1) (holding [(0, histogram)])).Takes
        .readHistogram ⟨7, [], [.slot 12], CommandCode.readHistogram.byte,
          byte2 0 ++ byte1 120 ++ byte1 0 ++ byte1 1, [], 2⟩ ∧
      (holding [(0, histogram)]).table.active.find 3 = some (0, histogram) ∧
      (holding [(0, histogram)]).table.active.find 4 = none ∧ histogram.slots.getLsbD 0 = true ∧
      histogram.slots.getLsbD 1 = false ∧ histogram.metric = .ln 10 ∧
      (holding [(0, site)]).table.active.find 1 = some (0, site) ∧ (∀ p, site.metric ≠ .ln p) ∧
      (holding [(0, histogram)]).windows.accAt 0 0 = .idle ∧
      (withUnit 0 0 ⟨true, .window (Tally.begin .powerOn false)⟩ (holding [(0, histogram)])).windows.accAt 0 0 =
        .window (Tally.begin .powerOn false) :=
  ⟨⟨⟨_, rfl, rfl, by decide +kernel⟩, rfl, rfl, rfl⟩, ⟨⟨_, rfl, rfl, by decide +kernel⟩, rfl, rfl, rfl⟩,
    by decide +kernel, by decide +kernel, by decide, by decide, rfl, by decide +kernel,
    fun p h => by simp [site] at h, by decide +kernel, by decide +kernel⟩

theorem test_witness_ReadHistogramAndWorkedFigures_figures : ((119 : Nat) ≤ 119 ∧ (1 : Nat) ≤ 32 ∧ (0 : Nat) ∈ [0, 8, 16, 32]) ∧
    histogramBins 119 32 32 = (List.range 32).map (fun k => 96 + (23 + k) % 24) := by decide +kernel

/-- READ TIME behind a KEEP. -/
def kept (s : State) : State := inFrame ([3, 0] ++ item CommandCode.readTime.byte []) s

theorem test_witness_KeptReads :
    (kept State.reset).Takes QueryCommand.readTime.commandCode
        ⟨7, [], [.keep], CommandCode.readTime.byte, [], [], 2⟩ ∧
      (at_ .readTime [] State.reset).Takes QueryCommand.readTime.commandCode (view .readTime []) ∧
      (at_ .readWindow (byte2 1) State.reset).Takes
        (QueryCommand.readWindow 1 none).commandCode (view .readWindow (byte2 1)) ∧
      (view .readTime []).modifiers.slot = QueryCommand.readTime.slotField ∧
      ((kept State.reset).settleCommit.readQuery .readTime).result = .ok ∧
      ((kept State.reset).settleCommit.readQuery (.readWindow 1 none)).result = .notFound ∧
      (kept (standing [⟨.readTime, 5⟩] State.reset)).settleCommit.cadence.queries = [⟨.readTime, 5⟩] ∧
      (kept State.reset).settleCommit.cadence.queries = [] ∧
      4 ≤ (kept (standing (List.replicate 4 ⟨.readEpisodes, 5⟩)
        State.reset)).settleCommit.cadence.queries.length :=
  ⟨⟨⟨_, rfl, rfl, by decide +kernel⟩, rfl, rfl, rfl⟩, takes_at _ (by decide) rfl,
    takes_at _ (by decide) rfl, rfl, by decide +kernel⟩

theorem test_witness_Readouts :
    (bound (.live 3 0 0)).slots[0]? = some (.cleared (.live 3 0 0)) ∧ State.reset.slots[11]? =
      some (.cleared .unbound) ∧ (holding [(63, site)]).table.active.find 1 = some (63, site) ∧
      (holding [(63, site)]).table.active.find 2 = none ∧ site.slots.getLsbD 0 = true ∧
      site.slots.getLsbD 11 = false ∧ site.slots ≠ 0 := by decide +kernel

/-! ### The analysis -/

theorem test_witness_RestartAnalysis :
    (at_ .restartAnalysis [] State.reset).Takes .restartAnalysis (view .restartAnalysis []) ∧
      (settled .restartAnalysis [] (pendingCommit State.reset)).table.pending = true ∧
      (settled .restartAnalysis [] (holding [(0, certified)])).table.pending = false ∧
      (settled .restartAnalysis [] (holding [(0, certified)])).anyCertified = true ∧
      (settled .restartAnalysis [] (withUnit 0 0 ⟨false, .idle⟩ (holding [(0, site)]))).anyCertified = false ∧
      (settled .restartAnalysis [] (withUnit 0 0 ⟨false, .idle⟩ (holding [(0, site)]))).windows.unitAt 0 0 =
        some ⟨false, .idle⟩ :=
  ⟨takes_at _ (by decide) rfl, by decide +kernel⟩

/-- A reading with a metric and a coverage. -/
def reading (metric : Option Nat) (coverage : Nat) : Reading :=
  { Reading.ofSlice certified ⟨3, 0, 0, 0, 0, false, false⟩ .powerOn with metric := metric, coverage := coverage }

theorem test_witness_TestsGiveOutcomes :
    certified.test = .rise ∧ certified.rawOutcome (reading (some 701) 50) none none = .isTrue ∧
      certified.rawOutcome (reading (some 701) 50) (some .above) none = .isFalse ∧
      certified.rawOutcome (reading (some 700) 50) none none = .isFalse ∧
      certified.rawOutcome (reading (some 701) 49) none none = .undetermined ∧
      certified.rawOutcome (reading none 100) none none = .undetermined ∧
      ({ site with test := .excess 2 } : LimitEntry).rawOutcome (reading (some 1400) 80) none (some 799) =
        .isTrue ∧
      ({ site with test := .excess 2 } : LimitEntry).rawOutcome (reading (some 1400) 80) none (some 800) =
        .isFalse ∧
      ({ site with test := .excess 2 } : LimitEntry).rawOutcome (reading (some 1400) 80) none none =
        .undetermined ∧
      ({ site with test := .invalid } : LimitEntry).rawOutcome (reading none 79) none none = .isTrue ∧
      ({ site with test := .invalid } : LimitEntry).rawOutcome (reading none 80) none none = .isFalse ∧
      ({ site with test := .always } : LimitEntry).rawOutcome (reading none 0) none none = .isTrue ∧
      ({ site with test := .countGe } : LimitEntry).rawOutcome (reading (some 600) 80) none none = .isTrue ∧
      site.rawOutcome (reading (some 600) 80) none none = .isFalse ∧
      ({ site with test := .invalid } : LimitEntry).minCoverage ≤ 100 := by decide +kernel

theorem test_witness_FinalOutcomeActs_none :
    certified.action = .none ∧ gridAt (holding [(63, certified)]).windows.cells 63 11 = some .empty := by
  decide +kernel

/-- An outcome handed to the episode table for `site` on slot 0. -/
def handed (o : TestOutcome) (closing : Bool) (hold : Nat) : Handed :=
  ⟨1, 0, 0, hold, o, some 700, .powerOn, .powerOn, false, closing⟩

/-- `site` negated, with an action. -/
def negated (a : Action) : LimitEntry := { site with negate := true, action := a }

theorem test_witness_FinalOutcomeActs :
    gridAt (holding [(63, site)]).windows.cells 63 11 = some .empty ∧
      (negated .both).rawOutcome (reading (some 600) 80) none none = .isFalse ∧
      (negated .both).rawOutcome (reading (some 601) 80) none none = .isTrue ∧
      (negated .both).rawOutcome (reading (some 601) 79) none none = .undetermined ∧
      (negated .both).negate = true ∧ site.negate = false ∧ certified.action = .none ∧
      histogram.action = .report ∧ site.action = .both ∧
      (handed .undetermined false 10).outcome = .undetermined ∧
      (queued 47 State.reset).report.queue.length < 48 ∧ 48 ≤ (queued 48 State.reset).report.queue.length ∧
      (busyTx State.reset).ports.gatewayTx ≠ none := by decide +kernel

/-- The reference value of an EXCESS test: the valid metric of the key's cell on the slot; none where the entry
does not name the slot, and none where no entry has the key. -/
theorem test_witness_FinalOutcomeActs_reference :
    let s := { holding [(0, site), (5, { certified with key := 1 })] with windows := { State.reset.windows with
      cells := gridModify State.reset.windows.cells 0 0 (fun c => { c with valid := some 640 }) } }
    let e := fun key => { certified with test := .excess key }
    (e 1).test = .excess 1 ∧ s.table.active.at 0 = some site ∧ site.key = 1 ∧ site.slots.getLsbD 0 = true ∧
      s.referenceValue (e 1) 0 = some 640 ∧ s.referenceValue (e 1) 1 = none ∧ s.referenceValue (e 7) 0 = none ∧
      s.referenceValue certified 0 = none ∧ s.table.active.find 7 = none := by decide +kernel

/-- A body of a kind that an offer drops on a full queue. -/
theorem test_witness_FinalOutcomeActs_dropped :
    (∃ q : QueryRecord, RecordBody.query ⟨0, ⟨.readTime, 5⟩, ⟨0x40, .ok, .empty⟩⟩ = .query q) ∧
      ((queued 48 State.reset).offer (.query ⟨0, ⟨.readTime, 5⟩, ⟨0x40, .ok, .empty⟩⟩)).report.dropped = 1 :=
  ⟨⟨_, rfl⟩, by decide +kernel⟩

/-- What each action makes of a final TRUE that negation gives: episodes opened and records queued. -/
theorem test_final_outcome_acts :
    ([Action.none, .report, .episode, .both].map fun a =>
      let t := (busyTx (holding [(0, negated a)])).evaluate 0 0 (negated a) (reading (some 600) 80) false
      (t.episodes.current.length, t.report.queue.length)) = [(0, 0), (0, 1), (1, 0), (1, 1)] := by
  decide +kernel

/-- An open window, an open ring and an idle unit. -/
def opened (a : Acc) (e : LimitEntry) : State := withUnit 0 0 ⟨false, a⟩ (holding [(0, e)])

/-- A ROLLING entry of two steps of a second. -/
def rolling : LimitEntry := { site with window := .rolling 1 2 }

/-- A tally that began a tick before the present. -/
def begun : Tally := Tally.begin ⟨⟨0, 0, .running⟩, 0⟩ false

theorem test_witness_Readouts_windows :
    certified.window = .slice ∧ site.window = .fixed 15 ∧ rolling.window = .rolling 1 2 ∧
      (opened .idle site).windows.accAt 0 0 = .idle ∧
      (opened (.window begun) site).windows.accAt 0 0 = .window begun ∧
      (opened (.ring (begun :: [begun])) rolling).windows.accAt 0 0 = .ring (begun :: [begun]) := by
  decide +kernel

/-- Data of READ TIME with a negative trim, of READ HISTOGRAM with two bins, and the queries' fields. -/
theorem test_witness_Readouts_data :
    ReplyData.bytes (.time ⟨⟨1203, 547000, .running⟩, 9⟩ 6 .special 15 (-128)) =
        [0x04, 0xB3, 0x08, 0x58, 0xB8, 0x02, 0, 0, 0, 9, 6, 8, 15, 0xFF, 0x80] ∧
      (ReplyData.bytes (.histogram .powerOn 0 true none 3 [(0, 1), (119, 2)])).drop 27 =
        [2, 0, 0, 0, 0, 1, 119, 0, 0, 0, 2] ∧
      (⟨.readWindow 258 none, 7⟩ : Query).bytes 3 = [3, 0x50, 1, 2, 0xFF, 7] ∧
      (⟨.readSlot (some 11), 7⟩ : Query).bytes 0 = [0, 0x42, 0, 0, 11, 7] ∧
      (⟨.readEpisodes, 7⟩ : Query).bytes 0 = [0, 0x58, 0, 0, 0xFF, 7] := by decide +kernel

theorem test_witness_SliceIntegrated :
    (opened (.window begun) site).table.active.at 0 = some site ∧ site.slots.getLsbD 0 = true ∧
      (opened (.window begun) site).windows.accAt 0 0 = .window begun ∧
      (opened (.ring ([begun] ++ [begun])) rolling).windows.accAt 0 0 = .ring ([begun] ++ [begun]) ∧
      (opened .idle site).windows.accAt 0 0 = .idle ∧ begun.counted < 4294967295 ∧
      4294967295 ≤ ({ begun with counted := 4294967295 } : Tally).counted := by decide +kernel

/-- A tally that has counted slices of these levels. -/
def heard (levels : List Nat) : Tally :=
  { begun with counted := levels.length, energy := EnergySum.ofLevels levels, maxFast := some 720 }

/-- The metrics of a tally that counted nothing, and of one that counted. -/
theorem test_witness_SliceIntegrated_metrics :
    begun.counted = 0 ∧ Metric.leq.over begun = none ∧
      (heard [600, 700]).counted = [600, 700].length ∧ [600, 700].length ≤ 2 ^ 36 ∧
      (∀ l, l ∈ [600, 700] → l ≤ 1400) ∧ Metric.leq.over (heard [600, 700]) = some 674 ∧
      Metric.leq.over (heard [1400]) = some 1400 ∧ Metric.lmax.over (heard [0]) = some 720 ∧
      (Metric.ln 1).over (heard [0]) = none ∧ slicesFrom 0 (heard [0]).bins = 0 ∧
      slicesFrom 0 [(0, 1), (119, 99)] ≠ 0 ∧
      ([1, 99].map fun n => (Metric.ln n).over { heard [0] with bins := [(0, 1), (119, 99)] }) =
        [some 1390, some 1390] ∧
      (Metric.ln 99).over { heard [0] with bins := [(0, 2), (119, 98)] } = some 200 ∧
      (Metric.events 800).over (heard [0]) = some 0 := by decide +kernel

/-- Accounts below their top and at it, and a ring whose events reach theirs. -/
theorem test_witness_SliceIntegrated_account :
    (⟨EnergySum.ofLevels [], 0⟩ : EnergyAccount).leq = none ∧
      (⟨EnergySum.ofLevels [600, 700], 2⟩ : EnergyAccount).leq = some 674 ∧
      4294967295 ≤ (List.replicate 4294967295 600).length ∧
      (ringTally [{ heard [600] with events := 65535 }, { heard [700] with events := 1 }]).map
        (fun t => (t.events, t.counted, Metric.leq.over t)) = some (65535, 2, some 674) := by
  refine ⟨by decide +kernel, by decide +kernel, ?_, by decide +kernel⟩
  rw [List.length_replicate]

theorem test_witness_SliceHandedOn :
    (opened (.window begun) site).table.active.at 0 = some site ∧ site.slots.getLsbD 0 = true ∧
      (opened (.window begun) site).windows.accAt 0 0 = .window begun ∧
      (opened (.ring ([begun] ++ [begun])) rolling).windows.accAt 0 0 = .ring ([begun] ++ [begun]) ∧
      rolling.window = .rolling 1 2 ∧ (opened .idle site).windows.accAt 0 0 = .idle ∧
      (⟨3, 0, 600, 600, 600, false, true⟩ : Slice).calibrating ≠
        (⟨3, 0, 600, 600, 600, false, false⟩ : Slice).calibrating := by decide +kernel

/-- A slice above the threshold of an active SLICE entry opens its episode, which then takes its energy. -/
theorem test_slice_handed_on :
    let t := (clocked .running 0 8 14 (holding [(0, { site with window := .slice, action := .episode })])
      ).handOn 0 ⟨3, 0, 700, 700, 700, false, false⟩
    t.episodes.current.map (fun e => (e.key, e.peak, e.energy.count)) = [(1, some 700, 1)] ∧
      (t.windows.cellAt 0 0).coverage = some 100 := by decide +kernel

/-- Such a state at a tick of the clock. -/
def ticked (eighth : Nat) (ticks : Tick) (s : State) : State :=
  let s := clocked .running 0 eighth 0 s
  { s with clock := { s.clock with tickCount := ticks } }

theorem test_witness_BoundaryEndsWindows :
    (gridAt (ticked 7200 5 (opened (.window begun) site)).windows.cells 0 0).isSome = true ∧
      site.window = .fixed 15 ∧ 7200 % (480 * 15) = 0 ∧ 7199 % (480 * 15) ≠ 0 ∧
      (ticked 7200 5 (opened (.window begun) site)).windows.accAt 0 0 = .window begun ∧
      begun.start.tick ≠ 5 ∧ begun.start.tick = 0 ∧ rolling.window = .rolling 1 2 ∧ 8 % (8 * 1) = 0 ∧
      (ticked 8 5 (opened (.ring ([begun] ++ [begun])) rolling)).windows.accAt 0 0 =
        .ring ([begun] ++ [begun]) ∧ (ringTally ([begun] ++ [begun])).isSome = true ∧
      (ticked 8 5 (opened .idle site)).windows.accAt 0 0 = .idle := by decide +kernel

/-- A boundary whose window is above the threshold hands a TRUE outcome on: an episode and a WINDOW record. -/
theorem test_boundary_hands_on :
    let full := begun.add .leq ⟨3, 0, 700, 700, 700, false, false⟩
    let t := (busyTx (ticked 7200 1 (opened (.window full) site))).endWindow (0, site, 0)
    t.episodes.current.map (fun e => (e.peak, e.start, e.lastTrue.stamp.eighth)) =
        [(some 700, begun.start, 7200)] ∧
      t.report.queue.length = 1 := by decide +kernel

/-- A BAND entry over OTHER. -/
def banded : LimitEntry := { site with window := .band, bands := 0x4000 }

/-- The episodes outside a band of a table can be told, as the statement's first part asks. -/
theorem outside_exists (t : EntryTable) (band : Nat) : ∃ outside : Episode → Bool, ∀ e,
    outside e = true ↔ ∀ i x, t.find e.key = some (i, x) → x.bands.getLsbD band = false := by
  refine ⟨fun e => (t.find e.key).all (fun p => !p.2.bands.getLsbD band), fun e => ?_⟩
  cases h : t.find e.key with
  | none => simp [h]
  | some p => simp [h, Prod.ext_iff]

theorem test_witness_BandChange :
    (let s := ticked 480 5 (holding [(0, site)])
     s.bandNow ≠ s.clock.band ∧ ∃ outside : Episode → Bool,
      ∀ e, outside e = true ↔ ∀ i x, s.table.active.find e.key = some (i, x) →
        x.bands.getLsbD s.bandNow = false) ∧
      State.reset.bandNow = State.reset.clock.band ∧
      (ticked 480 5 (opened (.window begun) banded)).windows.accAt 0 0 = .window begun ∧
      banded.window = .band ∧ site.window = .fixed 15 ∧ rolling.window = .rolling 1 2 ∧
      certified.window = .slice ∧ banded.bands.getLsbD 0 = false ∧ banded.bands.getLsbD 14 = true ∧
      begun.start.tick ≠ 5 ∧ begun.start.tick = (ticked 480 0 State.reset).clock.tickCount ∧
      (ticked 480 5 (opened (.ring [begun]) rolling)).windows.accAt 0 0 = .ring [begun] ∧
      (ticked 480 5 (opened .idle banded)).windows.accAt 0 0 = .idle ∧
      (ticked 480 5 State.reset).clock.running = true := by
  exact ⟨⟨by decide +kernel, outside_exists _ _⟩, by decide +kernel⟩

/-- What a band change does to a pair, where the band left is 0 and the band entered OTHER or 1: windows and
rings left open, begun, or closed with their evaluation. -/
theorem test_band_window :
    let at14 (a : Acc) (e : LimitEntry) (minute : Bool) :=
      let s := { ticked 480 5 (opened a e) with clock := { (ticked 480 5 State.reset).clock with band := 14 } }
      ((s.bandWindow 0 minute (0, e, 0)).windows.accAt 0 0,
        ((s.bandWindow 0 minute (0, e, 0)).windows.cellAt 0 0).truncated)
    let now : Moment := ⟨⟨0, 480, .running⟩, 5⟩
    let left : LimitEntry := { site with bands := 1 }
    at14 .idle banded false = (.window (Tally.begin now true), none) ∧
      at14 .idle banded true = (.window (Tally.begin now false), none) ∧
      at14 (.window begun) { banded with bands := 1 } true = (.idle, some false) ∧
      at14 (.window begun) left true = (.idle, some true) ∧
      at14 (.window (Tally.begin now false)) left true = (.idle, none) ∧
      at14 (.window (Tally.begin now false)) left false = (.idle, some true) ∧
      at14 (.ring [begun]) { rolling with bands := 1 } true = (.idle, none) ∧
      at14 (.ring [begun]) rolling true = (.ring [begun], none) := by decide +kernel

/-- The episodes and records a TRUE close leaves at a band change that makes the entry inactive: by window
type and by whether the BAND_END closure comes first. A BAND close is no closing evaluation, a FIXED one is
(R79). -/
theorem test_inactive_close :
    let full := begun.add .leq ⟨3, 0, 700, 700, 700, false, false⟩
    let at_ (w : WindowType) (first : Bool) :=
      let t := (busyTx (ticked 480 1 (opened (.window full) { site with window := w, bands := 1 }))).decideBand
        true first
      (t.episodes.current.length, t.report.queue.map fun r => match r.body with
        | .window _ => some none
        | .verdict v => some (some v.reason)
        | _ => none)
    at_ .band false = (0, [some none, some (some .bandEnd)]) ∧ at_ .band true = (1, [some none]) ∧
      at_ (.fixed 15) false = (0, [some none]) ∧ at_ (.fixed 15) true = (0, [some none]) := by decide +kernel

/-- Thirty-two current episodes of other keys. -/
def taken : State := current (List.replicate 32 { episode .opened 0 with key := 9 }) State.reset

theorem test_witness_OutcomesAct :
    State.reset.episodes.find (handed .isTrue false 10).key (handed .isTrue false 10).slot = none ∧
      (handed .isTrue true 10).closing = true ∧ (handed .isFalse false 10).outcome ≠ .isTrue ∧
      State.reset.episodes.used < 32 ∧ taken.episodes.find 1 0 = none ∧ 32 ≤ taken.episodes.used ∧
      (current [episode .opened 0] State.reset).episodes.find 1 0 = some (episode .opened 0) ∧
      (episode .opened 0).state = .opened ∧ (handed .isFalse false 0).holdOff = 0 ∧
      (current [episode (.holdOff 80) 0] State.reset).episodes.find 1 0 = some (episode (.holdOff 80) 0) := by
  decide +kernel

/-- An OPEN episode that enters HOLDOFF at a tick whose counts were still due is not counted down at it. -/
theorem test_witness_OutcomesAct_due :
    let s := due [.holdOff 1 0, .commit] (current [episode .opened 0] State.reset)
    (s.applyOutcome (handed .isFalse false 10)).due = [.commit] ∧
      (s.applyOutcome (handed .isTrue false 10)).due = [.holdOff 1 0, .commit] ∧
      (handed .isFalse false 10).holdOff ≠ 0 ∧ (handed .isTrue false 0).outcome = .isTrue ∧
      (episode (.holdOff 80) 0).state ≠ .opened := by decide +kernel

/-- An OPEN episode not extended starts its hold-off; with hold-off 0 it closes. -/
theorem test_hold_off_and_quiet :
    ((current [episode .opened 0] State.reset).applyOutcome (handed .isFalse false 10)).episodes.current =
        [episode (.holdOff 80) 0] ∧
      ((current [episode .opened 0] State.reset).applyOutcome (handed .isFalse false 0)).episodes.current =
        [] := by decide +kernel

/-- A clock at a day and minute under two bands for Mondays and holidays and an exception on day 8. -/
def scheduled (day minute : Nat) : State :=
  { clocked .running day (480 * minute) 14 State.reset with
    schedule := { State.reset.schedule with
      activeBands := [none, some ⟨0x001, 60, 120⟩, some ⟨0x081, 90, 1440⟩] ++ List.replicate 11 none
      activeExceptions := [⟨8, .holiday⟩] } }

theorem test_witness_DayTypes :
    (scheduled 8 0).schedule.activeExceptions = [] ++ ⟨8, .holiday⟩ :: [] ∧ (scheduled 8 0).clock.day = 8 ∧
      (∀ x, x ∈ (scheduled 7 0).schedule.activeExceptions → x.day ≠ (scheduled 7 0).clock.day) ∧
      (scheduled 7 60).clock.state = .running ∧ (scheduled 7 60).bandNow < 14 := by decide +kernel

/-- The band at the minutes where bands begin and end, on a Monday, a Tuesday and a holiday. -/
theorem test_bands :
    ([(7, 59), (7, 60), (7, 119), (7, 120), (7, 1439), (8, 60), (8, 90), (9, 90)].map
      (fun p => (scheduled p.1 p.2).bandNow)) = [14, 1, 1, 2, 2, 14, 2, 14] := by decide +kernel

theorem test_witness_BandChange_bands :
    State.reset.clock.state ≠ .running ∧ IsLowest (scheduled 7 119).BandHolds 1 ∧
      ∀ b, ¬State.BandHolds (clocked .running 0 0 14 State.reset) b := by
  refine ⟨by decide, ⟨⟨⟨0x001, 60, 120⟩, by decide +kernel⟩, fun j hj => ?_⟩, ?_⟩
  · rintro ⟨r, h, -⟩
    obtain rfl : j = 0 := by omega
    have h0 : (scheduled 7 119).schedule.activeBands[0]? = some none := by decide +kernel
    simp [h0] at h
  · rintro b ⟨r, h, -⟩
    have hr : State.reset.schedule.activeBands[b]? = some (some r) := h
    simp only [State.reset, State.powerOn, Schedule.powerOn, List.getElem?_replicate] at hr
    split at hr <;> simp at hr

/-! ### Beacons, notices and the cadence unit -/

theorem test_witness_SetBeaconAndOverride_set :
    (at_ .setBeacon (byte1 3 ++ byte1 2 ++ byte1 60) State.reset).Takes .setBeacon
        (view .setBeacon (byte1 3 ++ byte1 2 ++ byte1 60)) ∧
      (at_ .setBeacon (byte1 4 ++ byte1 3 ++ byte1 0) State.reset).Takes .setBeacon
        (view .setBeacon (byte1 4 ++ byte1 3 ++ byte1 0)) ∧
      beaconModeOf 2 = some .flash ∧
      (settled .setBeacon (byte1 3 ++ byte1 2 ++ byte1 60) State.reset).beacons[3]? = some .afterReset ∧
      (current [episode .opened 0] (holding [(0, site)])).demand 0 ≠ [] := by
  refine ⟨takes_at _ (by decide) rfl, takes_at _ (by decide) rfl, by decide +kernel⟩

/-- The demand, outputs and reports of a demanded STEADY line, and of one forced on. -/
theorem test_witness_SetBeaconAndOverride_demand :
    let s := { current [episode .opened 0, { episode .opened 0 with key := 9 }] (holding [(0, site)]) with
      beacons := State.reset.beacons.set 3 { BeaconLine.afterReset with override := .forceOn } }
    s.beacons[0]? = some .afterReset ∧ s.demand 0 = [1] ∧ s.demand 3 = [] ∧
      s.outputs = [true, false, false, true] ∧
      s.beaconReports[0]? = some ⟨.steady, 5, .auto, 1, 0, true, true⟩ ∧
      s.beaconReports[3]? = some ⟨.steady, 5, .forceOn, 0, 0, false, true⟩ := by decide +kernel

theorem test_witness_SetBeaconAndOverride_override :
    (at_ .beaconOverride (byte1 3 ++ byte1 1) State.reset).Reaches
        (view .beaconOverride (byte1 3 ++ byte1 1)) ∧
      (inFrame ([3, 0] ++ item CommandCode.beaconOverride.byte (byte1 3 ++ byte1 1)) State.reset).Reaches
        ⟨7, [], [.keep], CommandCode.beaconOverride.byte, byte1 3 ++ byte1 1, [], 2⟩ ∧
      (view .beaconOverride (byte1 3 ++ byte1 1)).operands.length = 2 ∧
      field (byte1 3 ++ byte1 1) 0 1 = 3 ∧ field (byte1 3 ++ byte1 1) 1 1 = 1 ∧
      (settled .beaconOverride (byte1 3 ++ byte1 1) State.reset).beacons[3]? = some .afterReset :=
  ⟨reaches_at _ (by decide), ⟨_, rfl, rfl, by decide +kernel⟩, rfl, by decide, by decide, by decide +kernel⟩

theorem test_witness_NoticesAndMask :
    (at_ .setNoticeMask (byte1 1 ++ byte2 0x3FFF) State.reset).Takes .setNoticeMask
        (view .setNoticeMask (byte1 1 ++ byte2 0x3FFF)) ∧
      (at_ .setNoticeMask (byte1 2 ++ byte2 0x4000) State.reset).Takes .setNoticeMask
        (view .setNoticeMask (byte1 2 ++ byte2 0x4000)) ∧
      field (byte1 1 ++ byte2 0x3FFF) 1 2 = 0x3FFF ∧ State.reset.notices.latch = false ∧
      (latched State.reset).notices.latch = true ∧
      ({ State.reset.notices with mask := 0x3FFF } : NoticeUnit).mask.getLsbD Notice.controlOverrun.bit =
        true ∧ State.reset.notices.mask.getLsbD Notice.commitDone.bit = false :=
  ⟨takes_at _ (by decide) rfl, takes_at _ (by decide) rfl, by decide +kernel⟩

/-- A notice pending and disabled, the latch clear. -/
def waitingNotice (s : State) : State := { s with notices := ⟨0x0001, 0, false⟩ }

theorem test_witness_NoticesAndMask_latch :
    (settled .setNoticeMask (byte1 1 ++ byte2 1) (waitingNotice State.reset)).notices = ⟨0x0001, 0, false⟩ ∧
      (waitingNotice (queued 47 (busyTx State.reset))).report.queue.length < 48 ∧
      48 ≤ (waitingNotice (queued 48 State.reset)).report.queue.length ∧
      (waitingNotice State.reset).report.queue = [] ∧ (waitingNotice State.reset).ports.gatewayTx = none := by
  decide +kernel

/-- SET NOTICE MASK that enables a pending notice offers the ATTENTION record of the moment. -/
theorem test_mask_sets_latch :
    let t := (at_ .setNoticeMask (byte1 1 ++ byte2 1) (waitingNotice (busyTx State.reset))).takeItem
      .setNoticeMask setNoticeMaskForm setNoticeMaskBody
    t.notices = ⟨0x0001, 1, true⟩ ∧ t.report.queue = [⟨0, .attention ⟨Moment.powerOn, 0x0001, 1⟩⟩] := by
  decide +kernel

theorem test_witness_SetCadenceAndCancelQuery :
    (at_ .setCadence (byte2 3600 ++ byte1 255 ++ byte1 1 ++ byte1 1 ++ byte1 1) State.reset).Takes
        .setCadence (view .setCadence (byte2 3600 ++ byte1 255 ++ byte1 1 ++ byte1 1 ++ byte1 1)) ∧
      (at_ .setCadence (byte2 0 ++ byte1 0 ++ byte1 2 ++ byte1 0 ++ byte1 0) State.reset).Takes
        .setCadence (view .setCadence (byte2 0 ++ byte1 0 ++ byte1 2 ++ byte1 0 ++ byte1 0)) ∧
      field (byte2 3600 ++ byte1 255 ++ byte1 1 ++ byte1 1 ++ byte1 1) 0 2 = 3600 ∧
      (at_ .cancelQuery (byte1 255) State.reset).Takes .cancelQuery (view .cancelQuery (byte1 255)) ∧
      (at_ .cancelQuery (byte1 3) (standing (List.replicate 4 ⟨.readEpisodes, 5⟩) State.reset)).Takes
        .cancelQuery (view .cancelQuery (byte1 3)) :=
  ⟨takes_at _ (by decide) rfl, takes_at _ (by decide) rfl, by decide, takes_at _ (by decide) rfl,
    takes_at _ (by decide) rfl⟩

end Sys2Proof.Tests
end

/-! The day type of a day under an exception list (R29), and what a user band that is in force says of the
present day and minute (R34). -/

namespace Sys2Proof.Machine

/-! ### The day type of a day -/

/-- The first record of the day number decides its day type. -/
theorem dayTypeOf_of_first_record {before after : List ExceptionRecord} {x : ExceptionRecord}
    {day : Nat} (offset : Nat) (hx : x.day = day) (hbefore : ∀ y, y ∈ before → y.day ≠ day) :
    dayTypeOf (before ++ x :: after) offset day = x.dayType := by
  have hnone : before.find? (fun y => y.day == day) = none :=
    List.find?_eq_none.2 fun y hy => by simpa using hbefore y hy
  have hfind : (before ++ x :: after).find? (fun y => y.day == day) = some x := by
    rw [List.find?_append, hnone, Option.none_or, List.find?_cons_of_pos (by simpa using hx)]
  simp only [dayTypeOf, hfind]

/-- A day number without a record has the day type of its weekday. -/
theorem dayTypeOf_of_no_record {exceptions : List ExceptionRecord} {day : Nat} (offset : Nat)
    (hno : ∀ x, x ∈ exceptions → x.day ≠ day) :
    some (dayTypeOf exceptions offset day) = (DayType.all.take 7)[weekdayOf day offset]? := by
  have hnone : exceptions.find? (fun x => x.day == day) = none :=
    List.find?_eq_none.2 fun x hx => by simpa using hno x hx
  have hweek : weekdayOf day offset < 7 := Nat.mod_lt _ (by decide)
  have hall : weekdayOf day offset < DayType.all.length := Nat.lt_trans hweek (by decide)
  calc some (dayTypeOf exceptions offset day)
      = some (DayType.all.getD (weekdayOf day offset) .mon) := by simp only [dayTypeOf, hnone]
    _ = DayType.all[weekdayOf day offset]? := by
        rw [List.getD_eq_getElem _ _ hall, List.getElem?_eq_getElem hall]
    _ = (DayType.all.take 7)[weekdayOf day offset]? := (List.getElem?_take_of_lt hweek).symm

/-! ### The band in force -/

theorem BandRecord.holds_iff (b : BandRecord) (d : DayType) (minute : Nat) :
    b.holds d minute = true ↔ b.days.getLsbD d.code = true ∧ b.start ≤ minute ∧ minute < b.stop := by
  simp [BandRecord.holds, and_assoc]

/-- The search for a band ends at OTHER or at the number of a defined band that holds. -/
theorem firstBand_other_or_holds (d : DayType) (minute n : Nat) (bands : List (Option BandRecord)) :
    firstBand d minute n bands = Config.other ∨
      ∃ (k : Nat) (r : BandRecord), firstBand d minute n bands = n + k ∧ bands[k]? = some (some r) ∧
        r.holds d minute = true := by
  induction bands generalizing n with
  | nil => exact .inl rfl
  | cons band rest ih =>
    have later : firstBand d minute (n + 1) rest = Config.other ∨
        ∃ (k : Nat) (r : BandRecord), firstBand d minute (n + 1) rest = n + k ∧
          (band :: rest)[k]? = some (some r) ∧ r.holds d minute = true :=
      (ih (n + 1)).imp_right fun ⟨k, r, hn, hr, hh⟩ => ⟨k + 1, r, by omega, by simpa using hr, hh⟩
    cases band with
    | none => simpa only [firstBand] using later
    | some b =>
      by_cases hb : b.holds d minute = true
      · exact .inr ⟨0, b, by simp [firstBand, hb], rfl, hb⟩
      · simpa only [firstBand, if_neg hb] using later

/-- While the clock is RUNNING, a user band in force is one that holds at the present day type and minute. -/
theorem bandHolds_bandNow {s : State} (hrun : s.clock.state = .running)
    (huser : s.bandNow < Config.other) : s.BandHolds s.bandNow := by
  have hband : s.bandNow = firstBand s.dayType s.clock.minute 0 s.schedule.activeBands := by
    simp [State.bandNow, Clock.running, hrun]
  obtain hother | ⟨k, r, hk, hr, hholds⟩ :=
    firstBand_other_or_holds s.dayType s.clock.minute 0 s.schedule.activeBands
  · omega
  · rw [hband, hk, Nat.zero_add]
    exact ⟨r, hr, (r.holds_iff _ _).1 hholds⟩

/-- Settles O42: the day type by the two cases of the exception list's search, the band by the search of the
band table; READ TIME and the staged list by the definitions of `readTime` and `State.dayType`. -/
theorem dayTypes : Obligations.DayTypes := by
  unfold Obligations.DayTypes
  intro s
  refine ⟨fun before x after hlist hx hbefore => ?_, fun hno => ?_, fun b hrun hb huser => ?_, rfl,
    fun _ => rfl⟩
  · rw [State.dayType, hlist]
    exact dayTypeOf_of_first_record _ hx hbefore
  · exact dayTypeOf_of_no_record s.clock.weekdayOffset hno
  · subst hb
    obtain ⟨r, hr, hdays, -⟩ := bandHolds_bandNow hrun huser
    exact ⟨r, hr, hdays⟩

end Sys2Proof.Machine

/-! The outcome of each of the six tests before negation (R43): one equation per test, on a metric that is
present with enough coverage, and what the outcome is where there is none. -/

namespace Sys2Proof.Machine

/-! ### The parts of an outcome -/

@[simp] theorem TestOutcome.ofBool_eq_isTrue (b : Bool) : TestOutcome.ofBool b = .isTrue ↔ b = true := by
  cases b <;> simp [TestOutcome.ofBool]

@[simp] theorem TestOutcome.ofBool_eq_isFalse (b : Bool) : TestOutcome.ofBool b = .isFalse ↔ b = false := by
  cases b <;> simp [TestOutcome.ofBool]

theorem Reading.validMetric_of_covered {r : Reading} {minCoverage : Nat} (h : minCoverage ≤ r.coverage) :
    r.validMetric minCoverage = r.metric := if_pos h

theorem Reading.validMetric_eq_none_iff (r : Reading) (minCoverage : Nat) :
    r.validMetric minCoverage = none ↔ r.coverage < minCoverage ∨ r.metric = none := by
  unfold Reading.validMetric
  split
  case isTrue hcovered => simp [Nat.not_lt.2 hcovered]
  case isFalse hshort => simp [Nat.not_le.1 hshort]

/-! ### The tests that do not depend on coverage -/

section
variable {e : LimitEntry} (r : Reading) (previous : Option Comparison) (reference : Option Nat)

theorem LimitEntry.rawOutcome_always (htest : e.test = .always) :
    e.rawOutcome r previous reference = .isTrue := by
  simp only [LimitEntry.rawOutcome, htest]

theorem LimitEntry.rawOutcome_invalid (htest : e.test = .invalid) :
    e.rawOutcome r previous reference = .ofBool (r.coverage < e.minCoverage) := by
  simp only [LimitEntry.rawOutcome, htest]

/-- A SLICE window's coverage is 100 by its definition, so no minimum coverage within the range of R39 is
above it. -/
theorem LimitEntry.rawOutcome_invalid_ofSlice (htest : e.test = .invalid) (hmin : e.minCoverage ≤ 100)
    (x : Slice) (arrival : Moment) :
    e.rawOutcome (Reading.ofSlice e x arrival) previous reference = .isFalse := by
  rw [LimitEntry.rawOutcome_invalid _ _ _ htest, TestOutcome.ofBool_eq_isFalse, decide_eq_false_iff_not]
  exact Nat.not_lt.2 hmin

/-! ### The tests that depend on coverage -/

theorem LimitEntry.rawOutcome_undetermined_of_no_valid_metric (halways : e.test ≠ .always)
    (hinvalid : e.test ≠ .invalid) (hvalid : r.validMetric e.minCoverage = none) :
    e.rawOutcome r previous reference = .undetermined := by
  cases htest : e.test with
  | always => exact absurd htest halways
  | invalid => exact absurd htest hinvalid
  | gt | rise | countGe => simp only [LimitEntry.rawOutcome, htest, hvalid, onValid]
  | excess key => cases reference <;> simp only [LimitEntry.rawOutcome, htest, hvalid, onValid]

theorem LimitEntry.rawOutcome_excess_no_reference {key : Nat} (htest : e.test = .excess key) :
    e.rawOutcome r previous none = .undetermined := by
  simp only [LimitEntry.rawOutcome, htest]

variable {r} {m : Nat}

theorem LimitEntry.rawOutcome_gt (htest : e.test = .gt) (hvalid : r.validMetric e.minCoverage = some m) :
    e.rawOutcome r previous reference = .ofBool (e.threshold < m) := by
  simp only [LimitEntry.rawOutcome, htest, hvalid, onValid]

theorem LimitEntry.rawOutcome_countGe (htest : e.test = .countGe)
    (hvalid : r.validMetric e.minCoverage = some m) :
    e.rawOutcome r previous reference = .ofBool (e.threshold ≤ m) := by
  simp only [LimitEntry.rawOutcome, htest, hvalid, onValid]

theorem LimitEntry.rawOutcome_rise (htest : e.test = .rise)
    (hvalid : r.validMetric e.minCoverage = some m) :
    e.rawOutcome r previous reference = .ofBool (e.threshold < m && previous != some .above) := by
  simp only [LimitEntry.rawOutcome, htest, hvalid, onValid]

/-- The model adds the reference to the threshold in the natural numbers where R43 subtracts it from the
metric. -/
theorem LimitEntry.rawOutcome_excess {key : Nat} (x : Nat) (htest : e.test = .excess key)
    (hvalid : r.validMetric e.minCoverage = some m) :
    e.rawOutcome r previous (some x) = .ofBool (x + e.threshold < m) := by
  simp only [LimitEntry.rawOutcome, htest, hvalid, onValid]

end

/-- Settles O52: the equation of each test, read as TRUE and as FALSE. -/
theorem testsGiveOutcomes : Obligations.TestsGiveOutcomes := by
  unfold Obligations.TestsGiveOutcomes
  intro e r previous reference
  refine ⟨LimitEntry.rawOutcome_always r previous reference, fun hinvalid => ?_,
    fun halways hinvalid hnone => ?_, fun m hm hcovered => ?_,
    fun hinvalid hmin x arrival => ⟨rfl, LimitEntry.rawOutcome_invalid_ofSlice _ _ hinvalid hmin x arrival⟩⟩
  · simp [LimitEntry.rawOutcome_invalid _ _ _ hinvalid]
  · exact LimitEntry.rawOutcome_undetermined_of_no_valid_metric _ _ _ halways hinvalid
      ((r.validMetric_eq_none_iff _).2 hnone)
  · have hvalid : r.validMetric e.minCoverage = some m :=
      (Reading.validMetric_of_covered hcovered).trans hm
    refine ⟨fun hgt => ?_, fun hcount => ?_, fun hrise => ?_, fun key hexcess => ⟨?_, ?_⟩⟩
    · simp [LimitEntry.rawOutcome_gt _ _ hgt hvalid]
    · simp [LimitEntry.rawOutcome_countGe _ _ hcount hvalid]
    · simp [LimitEntry.rawOutcome_rise _ _ hrise hvalid]
    · rintro rfl
      exact LimitEntry.rawOutcome_excess_no_reference _ _ hexcess
    · rintro x rfl
      rw [LimitEntry.rawOutcome_excess _ x hexcess hvalid, TestOutcome.ofBool_eq_isTrue,
        TestOutcome.ofBool_eq_isFalse, decide_eq_true_iff, decide_eq_false_iff_not]
      omega

end Sys2Proof.Machine

/-! One step of the machine: what every command but a reset keeps, what the resets keep, and the step as its front
command executed on the rest. The statements on capacities, the clock, the band and the frozen entries follow. -/

namespace Sys2Proof.Machine

/-! ### What every command but a reset keeps -/

theorem exec_keeps {c : Instr} {s : State} (hpower : ∀ a, c ≠ .powerOnReset a)
    (hline : ∀ a p, c ≠ .lineReset a p) (hassert : c ≠ .resetAsserted) :
    ∃ t, exec c s = .next t ∧ Keeps s t := by
  cases c with
  | powerOnReset a => exact absurd rfl (hpower a)
  | resetAsserted => exact absurd rfl hassert
  | lineReset a p => exact absurd rfl (hline a p)
  | tick choice => exact ⟨_, rfl, keeps_tick _ _⟩
  | fieldPortFrame bytes => exact ⟨_, rfl, keeps_receiveField _ _⟩
  | controlFrame bytes => exact ⟨_, rfl, keeps_receiveGateway _ _⟩
  | unknownItem => exact ⟨_, rfl, keeps_takeUnknown _⟩
  | controlFrameEnd => exact ⟨_, rfl, keeps_takeEnd _⟩
  | loadEntries =>
    refine ⟨_, rfl, keeps_takeItem (fun _ ops _ _ s => ?_) _⟩
    unfold loadEntriesBody
    split
    · split
      · exact keeps_writeEntries _ _ _
      · exact Keeps.refl s
    · exact Keeps.refl s
  | removeEntry => exact ⟨_, rfl, keeps_takeItem (fun _ _ _ _ _ => keeps_removeEntryBody _ _ _) _⟩
  | revertStaging =>
    refine ⟨_, rfl, keeps_takeItem (fun _ _ _ _ s => ?_) _⟩
    unfold revertStagingBody
    split
    · exact Keeps.refl s
    · exact (keeps_setTable (carries_revert s.table)).trans
        (keeps_of rfl rfl rfl rfl rfl (Nat.le_refl _) rfl rfl (.inr rfl) rfl)
  | commit =>
    refine ⟨_, rfl, keeps_takeItem (fun _ _ _ _ s => ?_) _⟩
    unfold commitBody
    split
    · exact Keeps.refl s
    · split
      · exact Keeps.refl s
      · exact keeps_setTable (carries_result _ _ _)
  | clearCommitResult =>
    refine ⟨_, rfl, keeps_takeItem (fun _ _ _ _ s => ?_) _⟩
    unfold clearCommitResultBody
    split
    · exact Keeps.refl s
    · exact keeps_setTable (carries_result _ _ _)
  | freezeEntry => exact ⟨_, rfl, keeps_takeItem (fun _ _ _ _ _ => keeps_freezeEntryBody _ _ _) _⟩
  | probeEntry => exact ⟨_, rfl, keeps_takeItem_of_eq (fun _ _ _ => rfl) _⟩
  | readEntry => exact ⟨_, rfl, keeps_takeItem_of_eq (fun _ _ _ => rfl) _⟩
  | loadBands => exact ⟨_, rfl, keeps_takeItem (fun _ _ _ _ _ => keeps_loadBandsBody _ _ _) _⟩
  | loadExceptions => exact ⟨_, rfl, keeps_takeItem (fun _ _ _ _ _ => keeps_loadExceptionsBody _ _ _) _⟩
  | readBands => exact ⟨_, rfl, keeps_takeItem_of_eq (fun _ _ _ => rfl) _⟩
  | setTime => exact ⟨_, rfl, keeps_takeItem (fun _ _ ho _ _ => keeps_setTimeBody _ _ ho _ _) _⟩
  | startTime => exact ⟨_, rfl, keeps_takeItem (fun _ _ _ _ _ => keeps_startTimeBody _ _) _⟩
  | readTime => exact ⟨_, rfl, keeps_takeItem (fun _ _ _ _ _ => keeps_readKept _ _ _) _⟩
  | trim => exact ⟨_, rfl, keeps_takeItem (fun _ _ _ _ _ => keeps_trimBody _ _ _) _⟩
  | bindSlot => exact ⟨_, rfl, keeps_takeItem (fun _ _ _ _ _ => keeps_bindSlotBody _ _ _) _⟩
  | unbindSlot => exact ⟨_, rfl, keeps_takeItem (fun _ _ _ _ _ => keeps_unbindSlotBody _ _ _) _⟩
  | readSlot => exact ⟨_, rfl, keeps_takeItem (fun _ _ _ _ _ => keeps_readKept _ _ _) _⟩
  | loadPlant => exact ⟨_, rfl, keeps_takeItem (fun _ _ _ _ _ => keeps_loadPlantBody _ _ _) _⟩
  | readPlant => exact ⟨_, rfl, keeps_takeItem_of_eq (fun _ _ _ => rfl) _⟩
  | fetchCoincidence =>
    exact ⟨_, rfl, keeps_takeItem (fun _ _ _ _ s => (works_clearCoincidence s).keeps) _⟩
  | readWindow => exact ⟨_, rfl, keeps_takeItem (fun _ _ _ _ _ => keeps_readKept _ _ _) _⟩
  | readHistogram => exact ⟨_, rfl, keeps_takeItem_of_eq (fun _ _ _ => rfl) _⟩
  | readEpisodes => exact ⟨_, rfl, keeps_takeItem (fun _ _ _ _ _ => keeps_readKept _ _ _) _⟩
  | restartAnalysis => exact ⟨_, rfl, keeps_takeItem (fun _ _ _ _ _ => keeps_restartAnalysisBody _ _) _⟩
  | setBeacon => exact ⟨_, rfl, keeps_takeItem (fun _ _ _ _ _ => keeps_setBeaconBody _ _ _) _⟩
  | beaconOverride => exact ⟨_, rfl, keeps_takeItem (fun _ _ _ _ _ => keeps_beaconOverrideBody _ _ _) _⟩
  | setNoticeMask => exact ⟨_, rfl, keeps_takeItem (fun _ _ _ _ _ => keeps_setNoticeMaskBody _ _ _) _⟩
  | fetchNotices => exact ⟨_, rfl, keeps_takeItem (fun _ _ _ _ s => keeps_setNotices s _) _⟩
  | setCadence => exact ⟨_, rfl, keeps_takeItem (fun _ _ _ _ _ => keeps_setCadenceBody _ _ _) _⟩
  | cancelQuery => exact ⟨_, rfl, keeps_takeItem (fun _ _ _ _ _ => keeps_cancelQueryBody _ _ _) _⟩
  | readStatus => exact ⟨_, rfl, keeps_takeItem_of_eq (fun _ _ _ => rfl) _⟩
  | gatewayTxDone offerNow => exact ⟨_, rfl, keeps_gatewayDone _ _⟩
  | fieldTxDone => exact ⟨_, rfl, keeps_fieldDone _⟩
  | sample pins =>
    exact ⟨_, rfl, (takesAll_takeRecognitions s).keeps.trans (works_samplePins _ _).keeps⟩
  | plantLineRecognition _ | markPress | certifyChange | commitChecks _ | stallTimerExpiry _
  | holdOffExpiry _ _ | maximumLength _ _ | pulseEnd _ | flashTurn _ | baseUnderflow
  | summaryUnderflow | waitingVerdictOffer | markRecordOffer =>
    exact ⟨_, rfl, (takesAll_takeDue _ _ _).keeps⟩

/-! ### The resets -/

theorem holdPins_whole (s : State) : s.holdPins = { s with held := s.holdPins.held } := by
  unfold State.holdPins
  split <;> rfl

/-- The state a line reset leaves but for the band and the contents of the units it keeps. -/
def State.lineCleared (straps : BitVec 2) (position : Nat) (s : State) : State :=
  { s with
    due := []
    schedule := s.schedule.reverted
    slots := s.slots.map SlotRecord.lineReset
    table := s.table.lineReset
    windows := s.windows.lineReset s.table.frozen
    episodes := s.episodes.lineReset
    plant := s.plant.lineReset s.now
    beacons := List.replicate Config.beaconLines .afterReset
    notices := .afterReset
    report := ⟨[], 0⟩
    cadence := .afterReset
    ports := s.ports.lineReset straps position
    held := none }

theorem lineReset_eq (straps : BitVec 2) (position : Nat) (s : State) :
    s.lineReset straps position =
      (s.takeRecognitions.lineCleared straps position).decideQuietly.restartAccs
        ((s.takeRecognitions.lineCleared straps position).decideQuietly.pairsWhere (fun _ _ => true)) :=
  rfl

theorem capacities_lineCleared (straps : BitVec 2) (position : Nat) (s : State) :
    (s.lineCleared straps position).Capacities where
  links := by constructor <;> exact Nat.zero_le _
  records := Nat.zero_le _
  queries := Nat.zero_le _

theorem bandLegal_decideQuietly {s : State} (ha : s.schedule.activeBands.length = Config.userBands)
    (hs : s.schedule.stagedBands.length = Config.userBands) : s.decideQuietly.BandLegal :=
  ⟨(bandNow_untimed ha).1, (bandNow_untimed ha).2, ha, hs⟩

theorem carries_lineReset (t : LimitTable) : t.Carries t.lineReset where
  equal h := ⟨(length_frozenOnly _ _).trans h.active, (length_frozenOnly _ _).trans h.active, fun _ _ => rfl⟩
  frozen _ h := h
  active _ i hi := by
    show (t.active.frozenOnly t.frozen).at i = _
    rw [at_frozenOnly, if_pos hi]

theorem lineReset_capacities (straps : BitVec 2) (position : Nat) (s : State) :
    (s.lineReset straps position).Capacities := by
  rw [lineReset_eq]
  have h := capacities_lineCleared straps position s.takeRecognitions
  exact (evaluates_restartAccs _ _).runs.keeps.sizes
    ⟨linkBounds_of (s := s.takeRecognitions.lineCleared straps position) rfl rfl h.links, h.records, h.queries⟩

theorem lineReset_legal (straps : BitVec 2) (position : Nat) {s : State} (l : s.clock.Legal) (b : s.BandLegal) :
    (s.lineReset straps position).clock.Legal ∧ (s.lineReset straps position).BandLegal := by
  obtain ⟨l1, b1⟩ := (takesAll_takeRecognitions s).keeps.legal l b
  rw [lineReset_eq]
  exact (evaluates_restartAccs _ _).runs.keeps.legal
    (legal_of (c := s.takeRecognitions.clock) rfl l1) (bandLegal_decideQuietly b1.active b1.active)

theorem lineReset_carries (straps : BitVec 2) (position : Nat) (s : State) :
    s.table.Carries (s.lineReset straps position).table := by
  rw [lineReset_eq]
  exact ((takesAll_takeRecognitions s).tables.trans (carries_lineReset _)).trans
    (evaluates_restartAccs _ (s.takeRecognitions.lineCleared straps position).decideQuietly).runs.tables

theorem lineReset_pending (straps : BitVec 2) (position : Nat) (s : State) :
    (s.lineReset straps position).pending = s.pending := by
  rw [lineReset_eq]
  exact (evaluates_restartAccs _ _).pending.trans (takesAll_takeRecognitions s).pending

theorem powerOn_capacities (straps : BitVec 2) : (State.powerOn straps).Capacities where
  links := by constructor <;> exact Nat.zero_le _
  records := Nat.zero_le _
  queries := Nat.zero_le _

theorem powerOn_clockLegal (straps : BitVec 2) : (State.powerOn straps).clock.Legal where
  eighth := show 0 < Config.eighthsPerDay by decide
  day := Nat.zero_le _
  offset := show 0 < 7 by decide
  trimLow := show (-128 : Int) ≤ 0 by decide
  trimHigh := show (0 : Int) ≤ 127 by decide
  unset _ := ⟨rfl, rfl⟩

theorem powerOn_bandLegal (straps : BitVec 2) : (State.powerOn straps).BandLegal :=
  ⟨⟨fun _ => rfl, fun _ => rfl⟩, Nat.le_refl _, rfl, rfl⟩

theorem powerOn_frozenEqual (straps : BitVec 2) : (State.powerOn straps).table.FrozenEqual :=
  ⟨rfl, rfl, fun _ _ => rfl⟩

/-! ### The step -/

theorem step_nil {s : State} (h : s.pending = []) : step s = .next s := by
  simp only [step, h]

theorem step_cons {c : Instr} {rest : List Instr} {s : State} (h : s.pending = c :: rest) :
    step s = exec c { s with pending := rest } := by
  simp only [step, h]

/-- What a step can do: idle, or execute the front command on the rest. -/
theorem step_cases {s t : State} (h : step s = .next t) :
    (s.pending = [] ∧ t = s) ∨
      ∃ c rest, s.pending = c :: rest ∧ exec c { s with pending := rest } = .next t := by
  cases hp : s.pending with
  | nil =>
    rw [step_nil hp] at h
    exact .inl ⟨rfl, (Host.Outcome.next.inj h).symm⟩
  | cons c rest => exact .inr ⟨c, rest, rfl, step_cons hp ▸ h⟩

/-- What a command can do: a reset of its kind, or what the law of every other command says. -/
theorem exec_cases {c : Instr} {s t : State} (h : exec c s = .next t) :
    (∃ straps, c = .powerOnReset straps ∧ t = { State.powerOn straps with pending := s.pending }) ∨
      (c = .resetAsserted ∧ t = s.holdPins) ∨
      (∃ straps position, c = .lineReset straps position ∧ (t = s ∨ t = s.lineReset straps position)) ∨
      ((∀ a, c ≠ .powerOnReset a) ∧ Keeps s t) := by
  by_cases hpower : ∃ a, c = .powerOnReset a
  · obtain ⟨a, rfl⟩ := hpower
    exact .inl ⟨a, rfl, (Host.Outcome.next.inj h).symm⟩
  · refine .inr ?_
    by_cases hassert : c = .resetAsserted
    · subst hassert
      exact .inl ⟨rfl, (Host.Outcome.next.inj h).symm⟩
    · refine .inr ?_
      by_cases hline : ∃ a p, c = .lineReset a p
      · obtain ⟨a, p, rfl⟩ := hline
        have ht : t = if s.held.isSome then s.lineReset a p else s := (Host.Outcome.next.inj h).symm
        refine .inl ⟨a, p, rfl, ?_⟩
        split at ht
        · exact .inr ht
        · exact .inl ht
      · have hp : ∀ a, c ≠ .powerOnReset a := fun a e => hpower ⟨a, e⟩
        obtain ⟨u, hu, hk⟩ := exec_keeps (s := s) hp (fun a p e => hline ⟨a, p, e⟩) hassert
        rw [h] at hu
        exact .inr ⟨hp, Host.Outcome.next.inj hu ▸ hk⟩

theorem exec_capacities {c : Instr} {s t : State} (hs : s.Capacities) (h : exec c s = .next t) :
    t.Capacities := by
  obtain ⟨a, -, rfl⟩ | ⟨-, rfl⟩ | ⟨a, p, -, rfl | rfl⟩ | ⟨-, hk⟩ := exec_cases h
  · have hc := powerOn_capacities a
    exact ⟨linkBounds_of (s := State.powerOn a) rfl rfl hc.links, hc.records, hc.queries⟩
  · rw [holdPins_whole]
    exact ⟨linkBounds_of (s := s) rfl rfl hs.links, hs.records, hs.queries⟩
  · exact hs
  · exact lineReset_capacities a p s
  · exact hk.sizes hs

theorem exec_legal {c : Instr} {s t : State} (l : s.clock.Legal) (b : s.BandLegal) (h : exec c s = .next t) :
    t.clock.Legal ∧ t.BandLegal := by
  obtain ⟨a, -, rfl⟩ | ⟨-, rfl⟩ | ⟨a, p, -, rfl | rfl⟩ | ⟨-, hk⟩ := exec_cases h
  · have hb := powerOn_bandLegal a
    exact ⟨powerOn_clockLegal a, hb.untimed, hb.band, hb.active, hb.staged⟩
  · rw [holdPins_whole]
    exact ⟨l, b.untimed, b.band, b.active, b.staged⟩
  · exact ⟨l, b⟩
  · exact lineReset_legal a p l b
  · exact hk.legal l b

theorem exec_carries {c : Instr} {s t : State} (hpower : ∀ a, c ≠ .powerOnReset a) (h : exec c s = .next t) :
    s.table.Carries t.table := by
  obtain ⟨a, hc, -⟩ | ⟨-, rfl⟩ | ⟨a, p, -, rfl | rfl⟩ | ⟨-, hk⟩ := exec_cases h
  · exact absurd hc (hpower a)
  · rw [holdPins_whole]
    exact .refl _
  · exact .refl _
  · exact lineReset_carries a p s
  · exact hk.tables

/-! ### The statements -/

/-- Settles O1: the two cases of the definition of a step. -/
theorem stepRunsFrontCommand : Obligations.StepRunsFrontCommand := by
  unfold Obligations.StepRunsFrontCommand
  exact ⟨fun _ _ _ h => step_cons h, fun _ h => step_nil h⟩

/-- Settles O2: the law of every command but a reset, and the resets one by one. -/
theorem everyCommandAnswersNext : Obligations.EveryCommandAnswersNext := by
  unfold Obligations.EveryCommandAnswersNext
  intro c s
  by_cases hassert : c = .resetAsserted
  · subst hassert
    refine ⟨s.holdPins, rfl, ?_⟩
    rw [holdPins_whole]
    exact ⟨rfl, fun _ _ => ⟨rfl, fun h => absurd rfl h⟩⟩
  · by_cases hpower : ∃ a, c = .powerOnReset a
    · obtain ⟨a, rfl⟩ := hpower
      exact ⟨_, rfl, rfl, fun h => absurd rfl (h a)⟩
    · by_cases hline : ∃ a p, c = .lineReset a p
      · obtain ⟨a, p, rfl⟩ := hline
        refine ⟨_, rfl, ?_, fun _ h => absurd rfl (h a p)⟩
        split
        · exact lineReset_pending a p s
        · rfl
      · obtain ⟨t, ht, hk⟩ := exec_keeps (s := s) (fun a e => hpower ⟨a, e⟩) (fun a p e => hline ⟨a, p, e⟩) hassert
        exact ⟨t, ht, hk.pending, fun _ _ => ⟨hk.strap, fun _ => hk.held⟩⟩

/-- Settles O4, by the law of every command and the resets. -/
theorem stepKeepsCapacities : Obligations.StepKeepsCapacities := by
  unfold Obligations.StepKeepsCapacities
  intro s t hs h
  obtain ⟨-, rfl⟩ | ⟨c, rest, -, hc⟩ := step_cases h
  · exact hs
  · exact exec_capacities (s := { s with pending := rest })
      ⟨linkBounds_of (s := s) rfl rfl hs.links, hs.records, hs.queries⟩ hc

/-- Settles O5, by the law of every command and the resets. -/
theorem stepKeepsClockAndBandLegal : Obligations.StepKeepsClockAndBandLegal := by
  unfold Obligations.StepKeepsClockAndBandLegal
  intro s t l b h
  obtain ⟨-, rfl⟩ | ⟨c, rest, -, hc⟩ := step_cases h
  · exact ⟨l, b⟩
  · exact exec_legal (s := { s with pending := rest }) l ⟨b.untimed, b.band, b.active, b.staged⟩ hc

/-- Settles O6: but for a power-on reset every step carries the frozen entries, and where the tables agree the
staged copy of a frozen index is its active one. -/
theorem stepKeepsFrozenEntries : Obligations.StepKeepsFrozenEntries := by
  unfold Obligations.StepKeepsFrozenEntries
  intro s t hs h
  have of_carries (k : s.table.Carries t.table) : t.table.FrozenEqual ∧ ∀ i, s.table.frozen.getLsbD i = true →
      t.table.frozen.getLsbD i = true ∧ t.table.active.at i = s.table.active.at i ∧
        t.table.staged.at i = s.table.staged.at i := by
    refine ⟨k.equal hs, fun i hi => ⟨k.frozen i hi, k.active hs i hi, ?_⟩⟩
    rw [(k.equal hs).equal i (k.frozen i hi), k.active hs i hi, hs.equal i hi]
  obtain ⟨-, rfl⟩ | ⟨c, rest, hp, hc⟩ := step_cases h
  · exact (of_carries (.refl _)).imp_right fun k _ => k
  · by_cases hpower : ∃ a, c = .powerOnReset a
    · obtain ⟨a, rfl⟩ := hpower
      obtain rfl := Host.Outcome.next.inj hc
      exact ⟨powerOn_frozenEqual a, fun hno => absurd hp (hno a rest)⟩
    · exact (of_carries (exec_carries (s := { s with pending := rest }) (fun a e => hpower ⟨a, e⟩) hc)).imp_right
        fun k _ => k

end Sys2Proof.Machine

/-! What the window engine, the episode table and the notice unit uphold: the pool, the episodes and latches, and
the names of the due work. One relation says that the three kinds of invariant are carried from one state to
another; this file holds it for each operation of a block. -/

namespace Sys2Proof.Machine

/-! ### The relation -/

/-- The latch sets for every enabled pending notice (R146). -/
def State.Settled (s : State) : Prop :=
  s.notices.latch = false → s.notices.pending &&& s.notices.mask = 0

/-- From `s` to `t` the pool, the episodes and latches, and the names of the due work stay legal. -/
structure Upholds (s t : State) : Prop where
  pool  : s.PoolLegal → t.PoolLegal
  legal : s.EpisodesLegal → s.LatchesLegal → t.EpisodesLegal ∧ t.LatchesLegal
  names : s.NamesExist → t.NamesExist

theorem Upholds.refl (s : State) : Upholds s s := ⟨id, fun h k => ⟨h, k⟩, id⟩

theorem Upholds.trans {s t u : State} (h : Upholds s t) (k : Upholds t u) : Upholds s u where
  pool p := k.pool (h.pool p)
  legal e l := (h.legal e l).elim k.legal
  names n := k.names (h.names n)

theorem upholds_foldl {α : Type} {f : State → α → State} (hf : ∀ s a, Upholds s (f s a)) (xs : List α)
    (s : State) : Upholds s (xs.foldl f s) := by
  induction xs generalizing s with
  | nil => exact .refl s
  | cons x xs ih => exact (hf s x).trans (ih _)

/-- The kinds of the units that pairs hold. -/
def WindowEngine.kinds (w : WindowEngine) : List (List (Option Bool)) :=
  w.units.map (fun row => row.map (fun u => u.map (·.histogram)))

theorem unitAt_kind (w : WindowEngine) (i slot : Nat) :
    (w.unitAt i slot).map (·.histogram) = (gridAt w.kinds i slot).join := by
  unfold WindowEngine.unitAt WindowEngine.kinds gridAt
  rw [List.getElem?_map]
  cases w.units[i]? with
  | none => rfl
  | some row =>
    simp only [Option.map_some, Option.bind_some, List.getElem?_map]
    cases row[slot]? <;> rfl

theorem inUse_eq_kinds (b : Bool) (w : WindowEngine) :
    w.inUse b = ((w.kinds.flatten.filterMap id).filter (· == b)).length := by
  unfold WindowEngine.inUse WindowEngine.kinds
  rw [← List.map_flatten, List.filterMap_map]
  have h : (w.units.flatten.filterMap (id ∘ fun u : Option PoolUnit => u.map (·.histogram))) =
      (w.units.flatten.filterMap id).map (·.histogram) := by
    rw [List.map_filterMap]
    rfl
  rw [h, List.filter_map, List.length_map]
  rfl

/-- A pool whose units keep their kinds stays legal under the same table. -/
theorem poolLegal_of_kinds {s t : State} (h : s.PoolLegal) (hk : t.windows.kinds = s.windows.kinds)
    (ha : t.table.active = s.table.active)
    (hidle : t.clock.running = false → ∀ i slot u, t.windows.unitAt i slot = some u → u.acc = .idle) :
    t.PoolLegal := by
  have unit_kind (i slot : Nat) : (t.windows.unitAt i slot).map (·.histogram) =
      (s.windows.unitAt i slot).map (·.histogram) := by rw [unitAt_kind, unitAt_kind, hk]
  have rows_map : t.windows.units.map (·.length) = s.windows.units.map (·.length) := by
    have hm := congrArg (List.map List.length) hk
    simpa [WindowEngine.kinds, List.map_map, Function.comp_def] using hm
  constructor
  · have hl := congrArg List.length rows_map
    simp only [List.length_map] at hl
    exact hl.trans h.rows
  · intro row hrow
    have hmem : row.length ∈ s.windows.units.map (·.length) := rows_map ▸ List.mem_map_of_mem hrow
    obtain ⟨row', hrow', hlen⟩ := List.mem_map.1 hmem
    exact hlen ▸ h.slots row' hrow'
  · rw [inUse_eq_kinds, hk, ← inUse_eq_kinds]
    exact h.plain
  · rw [inUse_eq_kinds, hk, ← inUse_eq_kinds]
    exact h.hist
  · intro i slot hi hs
    rw [← Option.isSome_map, unit_kind, Option.isSome_map, ha]
    exact h.pairs i slot hi hs
  · intro i slot e u he hln hu
    have hkind := unit_kind i slot
    rw [hu, Option.map_some] at hkind
    obtain ⟨v, hv, hvu⟩ := Option.map_eq_some_iff.1 hkind.symm
    exact hvu ▸ h.ln i slot e v (ha ▸ he) hln hv
  · exact hidle

theorem poolLegal_of_eq {s t : State} (h : s.PoolLegal) (hu : t.windows.units = s.windows.units)
    (ha : t.table.active = s.table.active) (hr : t.clock.running = s.clock.running) : t.PoolLegal := by
  refine poolLegal_of_kinds h (by rw [WindowEngine.kinds, hu, WindowEngine.kinds]) ha fun hrun i slot u hiu => ?_
  exact h.idle (hr ▸ hrun) i slot u (by rwa [WindowEngine.unitAt, ← hu])

/-- The keys and slots of the current episodes. -/
def EpisodeTable.places (t : EpisodeTable) : List (Nat × Nat) := t.current.map (fun e => (e.key, e.slot))

theorem mem_places {t : EpisodeTable} {e : Episode} (h : e ∈ t.current) : (e.key, e.slot) ∈ t.places :=
  List.mem_map.2 ⟨e, h, rfl⟩

theorem episodesLegal_of_sublist {s t : State} (h : s.EpisodesLegal)
    (hp : t.episodes.places.Sublist s.episodes.places) : t.EpisodesLegal where
  one := hp.nodup h.one
  slots e he := by
    obtain ⟨e', he', heq⟩ := List.mem_map.1 (hp.subset (mem_places he))
    exact (Prod.mk.inj heq).2 ▸ h.slots e' he'

theorem namesExist_of {s t : State} (h : s.NamesExist) (hd : ∀ d, d ∈ t.due → d ∈ s.due ∨ dueExists d)
    (hs : t.slots.length = s.slots.length) (ht : t.table.active = s.table.active)
    (hg : t.table.staged = s.table.staged) (hp : t.episodes.places.Sublist s.episodes.places) : t.NamesExist where
  due d hd' := (hd d hd').elim (h.due d) id
  slots := hs.trans h.slots
  active := ht ▸ h.active
  staged := hg ▸ h.staged
  episodes e he := by
    obtain ⟨e', he', heq⟩ := List.mem_map.1 (hp.subset (mem_places he))
    obtain ⟨hk, hslot⟩ := Prod.mk.inj heq
    exact hk ▸ hslot ▸ h.episodes e' he'

/-- What changes neither the kinds of the units, the tables nor the coincidence, and opens no episode, upholds the
invariants. -/
theorem upholds_of {s t : State} (hu : t.windows.units = s.windows.units) (htable : t.table = s.table)
    (hr : t.clock.running = s.clock.running) (hs : t.slots.length = s.slots.length)
    (hp : t.episodes.places.Sublist s.episodes.places) (hc : t.plant.coincidence = s.plant.coincidence)
    (hn : s.Settled → t.Settled) (hd : ∀ d, d ∈ t.due → d ∈ s.due ∨ dueExists d) : Upholds s t where
  pool h := poolLegal_of_eq h hu (by rw [htable]) hr
  legal h k := ⟨episodesLegal_of_sublist h hp, ⟨hc ▸ k.two, hc ▸ k.latch, hc ▸ k.stamp, hn k.attention⟩⟩
  names h := namesExist_of h hd hs (by rw [htable]) (by rw [htable]) hp

theorem upholds_told {s t : State} (h : s.Told t) (hn : s.Settled → t.Settled) : Upholds s t := by
  refine upholds_of (by rw [h.windows]) h.table (by rw [h.clock]) (by rw [h.slots])
    (by rw [h.episodes]) (by rw [h.plant]) hn fun d hd => ?_
  exact (h.due d hd).imp_right fun hv => by rw [hv]; trivial

/-! ### Notices and the report queue -/

theorem settled_settleLatch (s : State) : s.settleLatch.Settled := by
  unfold State.settleLatch
  split
  · intro h
    exact absurd (alerted_setLatch s).latch (by simp [h])
  · next hno =>
    intro hl
    exact not_not.1 fun hp => hno ⟨hl, hp⟩

theorem settled_raise (n : Notice) (s : State) : (s.raise n).Settled := settled_settleLatch _

theorem upholds_raise (n : Notice) (s : State) : Upholds s (s.raise n) :=
  upholds_told (told_raise n s) fun _ => settled_raise n s

theorem settled_of_notices {s t : State} (h : t.notices = s.notices) (k : s.Settled) : t.Settled := by
  unfold State.Settled
  rw [h]
  exact k

theorem settled_admit (b : RecordBody) {s : State} (h : s.Settled) : (s.admitRecord b).Settled := by
  unfold State.admitRecord
  refine settled_of_notices (notices_arbitrate _) ?_
  split
  · exact settled_raise _ _
  · exact h

theorem upholds_admit (b : RecordBody) (s : State) : Upholds s (s.admitRecord b) :=
  upholds_told (told_admit b s) (settled_admit b)

theorem upholds_arbitrate (s : State) : Upholds s s.arbitrate :=
  upholds_told (told_arbitrate s) (settled_of_notices (notices_arbitrate s))

theorem upholds_offer (b : RecordBody) (s : State) : Upholds s (s.offer b) := by
  refine upholds_told (told_offer b s) fun h => ?_
  unfold State.offer
  split
  · exact settled_admit b h
  · exact settled_raise _ _

/-- New waiting verdicts, report queue, ports, beacon lines, uncaptured counters and the like touch no invariant. -/
theorem upholds_same {s t : State} (hw : t.windows.units = s.windows.units) (ht : t.table = s.table)
    (hr : t.clock.running = s.clock.running) (hs : t.slots.length = s.slots.length)
    (he : t.episodes.current = s.episodes.current) (hc : t.plant.coincidence = s.plant.coincidence)
    (hn : t.notices = s.notices) (hd : t.due = s.due) : Upholds s t :=
  upholds_of hw ht hr hs (by rw [EpisodeTable.places, he]; exact List.Sublist.refl _) hc (settled_of_notices hn)
    (fun _ h => .inl (hd ▸ h))

theorem upholds_offerVerdict (v : Verdict) (s : State) : Upholds s (s.offerVerdict v) := by
  unfold State.offerVerdict
  split
  · exact upholds_admit _ _
  · exact upholds_same rfl rfl rfl rfl rfl rfl rfl rfl

theorem upholds_offerVerdicts (vs : List Verdict) (s : State) : Upholds s (State.offerVerdicts vs s) := by
  induction vs generalizing s with
  | nil => exact .refl s
  | cons v rest ih =>
    unfold State.offerVerdicts
    split
    · refine Upholds.trans (Upholds.trans ?_ (upholds_admit _ _)) (ih _)
      exact upholds_same rfl rfl rfl rfl rfl rfl rfl rfl
    · exact .refl s

theorem upholds_offerMark (s : State) : Upholds s s.offerMark := by
  unfold State.offerMark
  split
  · exact .refl s
  · split
    · refine Upholds.trans ?_ (upholds_admit _ _)
      exact upholds_same rfl rfl rfl rfl rfl rfl rfl rfl
    · exact .refl s

/-! ### The episode table -/

theorem upholds_setCurrent {es : List Episode} {s : State}
    (h : (es.map (fun e => (e.key, e.slot))).Sublist s.episodes.places) : Upholds s (s.setCurrent es) :=
  upholds_of rfl rfl rfl rfl h rfl id fun _ hd => .inl hd

theorem places_map {f : Episode → Episode} (hf : ∀ e, (f e).key = e.key ∧ (f e).slot = e.slot)
    (es : List Episode) : (es.map f).map (fun e => (e.key, e.slot)) = es.map (fun e => (e.key, e.slot)) := by
  simp [hf]

theorem places_modifyEpisode {f : Episode → Episode} (hf : ∀ e, (f e).key = e.key ∧ (f e).slot = e.slot)
    (key slot : Nat) (es : List Episode) :
    (modifyEpisode key slot f es).map (fun e => (e.key, e.slot)) = es.map (fun e => (e.key, e.slot)) := by
  induction es with
  | nil => rfl
  | cons e es ih =>
    unfold modifyEpisode
    split
    · simp [hf]
    · simp [ih]

theorem upholds_modifyEpisode {f : Episode → Episode} (key slot : Nat) (s : State)
    (hf : ∀ e, (f e).key = e.key ∧ (f e).slot = e.slot := by exact fun _ => ⟨rfl, rfl⟩) :
    Upholds s (s.modifyEpisode key slot f) :=
  upholds_setCurrent (by rw [places_modifyEpisode hf]; exact List.Sublist.refl _)

theorem upholds_mapCurrent {f : Episode → Episode} (hf : ∀ e, (f e).key = e.key ∧ (f e).slot = e.slot)
    (s : State) : Upholds s (s.setCurrent (s.episodes.current.map f)) :=
  upholds_setCurrent (by rw [places_map hf]; exact List.Sublist.refl _)

theorem upholds_removeEpisode (key slot : Nat) (s : State) : Upholds s (s.removeEpisode key slot) :=
  upholds_setCurrent (List.eraseP_sublist.map _)

theorem upholds_clearDue (d : Due) (s : State) : Upholds s (s.clearDue d) :=
  upholds_of rfl rfl rfl rfl (List.Sublist.refl _) rfl id fun _ h => .inl (List.mem_filter.1 h).1

theorem upholds_addDue {d : Due} (h : dueExists d) (s : State) : Upholds s (s.addDue d) := by
  unfold State.addDue
  split
  · exact .refl s
  · refine upholds_of rfl rfl rfl rfl (List.Sublist.refl _) rfl id fun x hx => ?_
    obtain hx | hx := List.mem_append.1 hx
    · exact .inl hx
    · exact .inr (List.mem_singleton.1 hx ▸ h)

theorem upholds_followDemand (s : State) : Upholds s s.followDemand :=
  upholds_same rfl rfl rfl rfl rfl rfl rfl rfl

theorem upholds_countUncaptured (index : Nat) (s : State) : Upholds s (s.countUncaptured index) := by
  refine Upholds.trans ?_ (upholds_raise _ _)
  exact upholds_same rfl rfl rfl rfl rfl rfl rfl rfl

theorem upholds_closeEpisode (e : Episode) (r : CloseReason) (m : Moment) (s : State) :
    Upholds s (s.closeEpisode e r m) :=
  ((upholds_removeEpisode _ _ s).trans (upholds_followDemand _)).trans (upholds_offerVerdict _ _)

theorem upholds_closeOf (key slot : Nat) (r : CloseReason) (m : Moment) (s : State) :
    Upholds s (s.closeOf key slot r m) := by
  unfold State.closeOf
  split
  · exact upholds_closeEpisode _ _ _ _
  · exact .refl s

theorem upholds_demandClose (named : Episode → Bool) (r : CloseReason) (s : State) :
    Upholds s (s.demandClose named r) :=
  upholds_foldl (fun _ _ => upholds_closeOf _ _ _ _ _) _ _

theorem upholds_retire (e : Episode) (r : CloseReason) (m : Moment) (s : State) : Upholds s (s.retire e r m) :=
  (upholds_removeEpisode _ _ s).trans (upholds_offerVerdict _ _)

theorem places_retire (e : Episode) (r : CloseReason) (m : Moment) (s : State) :
    (s.retire e r m).episodes.current = s.episodes.current.eraseP (Episode.of e.key e.slot) :=
  current_offerVerdict _ _

/-! ### Openings -/

theorem bit_of_ne_zero {w : Nat} {m : BitVec w} (h : m ≠ 0) : ∃ i, m.getLsbD i = true := by
  by_contra hno
  exact h (BitVec.eq_of_getLsbD_eq fun i _ => by simpa using fun hb => hno ⟨i, hb⟩)

theorem partner_ne {slot i : Nat} {es : List Episode} (h : (partnerSlots slot es).getLsbD i = true) :
    i ≠ slot := by
  have hi : i < 12 := BitVec.lt_of_getLsbD h
  obtain hz | ⟨hne, -⟩ := (mem_partnerSlots_foldl slot es 0 i hi).1 h
  · simp at hz
  · exact hne

/-- A coincidence with a partner slot gives the mask two slots and its stamp. -/
theorem latchesLegal_coincide {slot i : Nat} {at_ : Moment} {partners : SlotMask} {s : State}
    (h : s.LatchesLegal) (hslot : slot < 12) (hi : partners.getLsbD i = true) (hne : i ≠ slot) :
    (s.coincide slot at_ partners).LatchesLegal := by
  have hin : (setInsert partners slot).getLsbD slot = true := by
    rw [getLsbD_setInsert_iff]
    simp [hslot]
  have hii : (setInsert partners slot).getLsbD i = true := getLsbD_setInsert hi
  have two_of (c : Coincidence) (hc : ∀ j, (setInsert partners slot).getLsbD j = true → c.mask.getLsbD j = true) :
      ∃ a b, a ≠ b ∧ c.mask.getLsbD a = true ∧ c.mask.getLsbD b = true :=
    ⟨i, slot, hne, hc i hii, hc slot hin⟩
  unfold State.coincide
  by_cases hz : s.plant.coincidence.mask = 0
  · have hg : s.plant.coincidence.gain (setInsert partners slot) at_ =
        ⟨setInsert partners slot, true, some at_⟩ := if_pos hz
    have hmask : setInsert partners slot ≠ 0 := fun h0 => by simp [h0] at hii
    simp only [hz, hg, if_true]
    have hp := (told_raise .coincidence { s with plant := { s.plant with
      coincidence := ⟨setInsert partners slot, true, some at_⟩ } }).plant
    exact ⟨fun _ => by rw [hp]; exact two_of _ fun _ hj => hj, by rw [hp]; simpa using hmask,
      by rw [hp]; simpa using hmask, settled_raise _ _⟩
  · have hg : s.plant.coincidence.gain (setInsert partners slot) at_ =
        { s.plant.coincidence with mask := s.plant.coincidence.mask ||| setInsert partners slot } := if_neg hz
    have hmask : s.plant.coincidence.mask ||| setInsert partners slot ≠ 0 := fun h0 => by
      have hb := congrArg (fun m => m.getLsbD i) h0
      simp [hii] at hb
    simp only [hz, hg, if_false]
    exact ⟨fun _ => two_of _ fun j hj => by simp [hj], iff_of_true (h.latch.2 hz) hmask,
      iff_of_true (h.stamp.2 hz) hmask, h.attention⟩

theorem places_gainCoincident (slot : Nat) (es : List Episode) :
    (gainCoincident slot es).map (fun e => (e.key, e.slot)) = es.map (fun e => (e.key, e.slot)) :=
  places_map (fun e => by split <;> exact ⟨rfl, rfl⟩) es

/-- The state of an opening when its record has been written and nobody told. -/
def State.withOpened (o : Opening) (s : State) : State :=
  { s with episodes := { s.episodes with
    current := gainCoincident o.slot s.episodes.current ++
      [o.episode s.episodes.next s.plant (partnerSlots o.slot s.episodes.current)]
    next := nextNumber s.episodes.next } }

theorem places_withOpened (o : Opening) (s : State) :
    (s.withOpened o).episodes.places = s.episodes.places ++ [(o.key, o.slot)] := by
  show ((gainCoincident _ _ ++ _).map _) = _
  rw [List.map_append, places_gainCoincident]
  rfl

theorem find_none_iff {t : EpisodeTable} {key slot : Nat} :
    t.find key slot = none ↔ (key, slot) ∉ t.places := by
  simp only [EpisodeTable.find, List.find?_eq_none, EpisodeTable.places, List.mem_map, Episode.of, Bool.and_eq_true,
    beq_iff_eq, Prod.mk.injEq, not_exists, not_and]

theorem episodesLegal_withOpened {o : Opening} {s : State} (h : s.EpisodesLegal)
    (hfree : s.episodes.find o.key o.slot = none) (hslot : o.slot < Config.slotCount) :
    (s.withOpened o).EpisodesLegal where
  one := by
    show (s.withOpened o).episodes.places.Nodup
    rw [places_withOpened]
    exact List.nodup_append.2 ⟨h.one, List.nodup_singleton _, fun a ha b hb heq =>
      find_none_iff.1 hfree (List.mem_singleton.1 hb ▸ heq ▸ ha)⟩
  slots e he := by
    have hm := mem_places he
    rw [places_withOpened] at hm
    obtain hm | hm := List.mem_append.1 hm
    · obtain ⟨e', he', heq⟩ := List.mem_map.1 hm
      exact (Prod.mk.inj heq).2 ▸ h.slots e' he'
    · exact (Prod.mk.inj (List.mem_singleton.1 hm)).2 ▸ hslot

theorem namesExist_withOpened {o : Opening} {s : State} (h : s.NamesExist)
    (hname : keyExists o.key ∧ o.slot < Config.slotCount) : (s.withOpened o).NamesExist where
  due := h.due
  slots := h.slots
  active := h.active
  staged := h.staged
  episodes e he := by
    have hm := mem_places he
    rw [places_withOpened] at hm
    obtain hm | hm := List.mem_append.1 hm
    · obtain ⟨e', he', heq⟩ := List.mem_map.1 hm
      obtain ⟨hk, hslot⟩ := Prod.mk.inj heq
      exact hk ▸ hslot ▸ h.episodes e' he'
    · obtain ⟨hk, hslot⟩ := Prod.mk.inj (List.mem_singleton.1 hm)
      exact hk ▸ hslot ▸ hname

/-- The opening once the record has been written: the coincidence, the beacon lines and the notice. -/
def State.tellOpened (o : Opening) (partners : SlotMask) (s : State) : State :=
  let s := if partners = 0 then s else s.coincide o.slot o.lastTrue partners
  let s := s.followDemand
  let s := if o.continuationOf.isNone then s.startPulses o.key else s
  s.raise .episodeOpened

theorem openEpisode_eq (o : Opening) (s : State) :
    s.openEpisode o = (s.withOpened o).tellOpened o (partnerSlots o.slot s.episodes.current) := rfl

/-- What a coincidence changes but for its own mask, latch and stamp upholds the invariants. -/
theorem coincide_whole (slot : Nat) (at_ : Moment) (partners : SlotMask) (s : State) :
    ∃ c : Coincidence, State.Told { s with plant := { s.plant with coincidence := c } }
      (s.coincide slot at_ partners) := by
  refine ⟨s.plant.coincidence.gain (setInsert partners slot) at_, ?_⟩
  unfold State.coincide
  simp only
  split
  · exact told_raise _ _
  · exact State.Told.refl _

theorem poolLegal_tellOpened {o : Opening} {partners : SlotMask} {s : State} (h : s.PoolLegal) :
    (s.tellOpened o partners).PoolLegal := by
  unfold State.tellOpened
  extract_lets s1 s2 s3
  have h1 : s1.PoolLegal := by
    unfold s1
    split
    · exact h
    · obtain ⟨c, hc⟩ := coincide_whole o.slot o.lastTrue partners s
      exact poolLegal_of_eq h (by rw [hc.windows]) (by rw [hc.table]) (by rw [hc.clock])
  have h3 : s3.PoolLegal := by
    unfold s3
    split
    · exact poolLegal_of_eq h1 rfl rfl rfl
    · exact poolLegal_of_eq h1 rfl rfl rfl
  exact (upholds_raise _ _).pool h3

theorem namesExist_tellOpened {o : Opening} {partners : SlotMask} {s : State} (h : s.NamesExist) :
    (s.tellOpened o partners).NamesExist := by
  unfold State.tellOpened
  extract_lets s1 s2 s3
  have h1 : s1.NamesExist := by
    unfold s1
    split
    · exact h
    · obtain ⟨c, hc⟩ := coincide_whole o.slot o.lastTrue partners s
      exact namesExist_of h (fun d hd => (hc.due d hd).imp_right fun hv => by rw [hv]; trivial) (by rw [hc.slots])
        (by rw [hc.table]) (by rw [hc.table]) (by rw [hc.episodes])
  have h3 : s3.NamesExist := by
    unfold s3
    split
    · exact ⟨h1.due, h1.slots, h1.active, h1.staged, h1.episodes⟩
    · exact ⟨h1.due, h1.slots, h1.active, h1.staged, h1.episodes⟩
  exact (upholds_raise _ _).names h3

theorem legal_tellOpened {o : Opening} {partners : SlotMask} {s : State} (h : s.EpisodesLegal)
    (k : s.LatchesLegal) (hslot : o.slot < Config.slotCount)
    (hp : ∀ i, partners.getLsbD i = true → i ≠ o.slot) :
    (s.tellOpened o partners).EpisodesLegal ∧ (s.tellOpened o partners).LatchesLegal := by
  unfold State.tellOpened
  extract_lets s1 s2 s3
  have h1 : s1.EpisodesLegal ∧ s1.LatchesLegal := by
    unfold s1
    split
    · exact ⟨h, k⟩
    · next hne =>
      obtain ⟨i, hi⟩ := bit_of_ne_zero hne
      obtain ⟨c, hc⟩ := coincide_whole o.slot o.lastTrue partners s
      exact ⟨episodesLegal_of_sublist h (by rw [hc.episodes]), latchesLegal_coincide k hslot hi (hp i hi)⟩
  have h3 : s3.EpisodesLegal ∧ s3.LatchesLegal := by
    unfold s3
    split
    · exact (upholds_same (s := s1) (t := s2.startPulses o.key) rfl rfl rfl rfl rfl rfl rfl rfl).legal h1.1 h1.2
    · exact (upholds_followDemand s1).legal h1.1 h1.2
  exact (upholds_raise _ _).legal h3.1 h3.2

theorem poolLegal_openEpisode {o : Opening} {s : State} (h : s.PoolLegal) : (s.openEpisode o).PoolLegal := by
  rw [openEpisode_eq]
  exact poolLegal_tellOpened (poolLegal_of_eq h rfl rfl rfl)

theorem legal_openEpisode {o : Opening} {s : State} (h : s.EpisodesLegal) (k : s.LatchesLegal)
    (hfree : s.episodes.find o.key o.slot = none) (hslot : o.slot < Config.slotCount) :
    (s.openEpisode o).EpisodesLegal ∧ (s.openEpisode o).LatchesLegal := by
  rw [openEpisode_eq]
  exact legal_tellOpened (episodesLegal_withOpened h hfree hslot) ⟨k.two, k.latch, k.stamp, k.attention⟩ hslot
    fun _ => partner_ne

theorem namesExist_openEpisode {o : Opening} {s : State} (h : s.NamesExist)
    (hname : keyExists o.key ∧ o.slot < Config.slotCount) : (s.openEpisode o).NamesExist := by
  rw [openEpisode_eq]
  exact namesExist_tellOpened (namesExist_withOpened h hname)

theorem upholds_tryOpen {o : Opening} {s : State} (hfree : s.episodes.find o.key o.slot = none)
    (hslot : o.slot < Config.slotCount) (hkey : s.NamesExist → keyExists o.key) : Upholds s (s.tryOpen o) := by
  unfold State.tryOpen
  split
  · exact ⟨poolLegal_openEpisode, fun h k => legal_openEpisode h k hfree hslot,
      fun h => namesExist_openEpisode h ⟨hkey h, hslot⟩⟩
  · exact upholds_countUncaptured _ _

/-! ### Outcomes and ticks -/

theorem upholds_endTrueRun (h : Handed) (s : State) : Upholds s (s.endTrueRun h) := by
  unfold State.endTrueRun
  split
  · exact upholds_closeOf _ _ _ _ _
  · exact (upholds_clearDue _ s).trans (upholds_modifyEpisode _ _ _)

theorem upholds_applyOutcome {h : Handed} {s : State} (hslot : h.slot < Config.slotCount)
    (hkey : s.NamesExist → keyExists h.key) : Upholds s (s.applyOutcome h) := by
  unfold State.applyOutcome
  split
  · next hfree =>
    split
    · exact upholds_tryOpen (o := h.opening) hfree hslot hkey
    · exact .refl s
  · refine Upholds.trans (upholds_modifyEpisode (f := Episode.markTruncated h) h.key h.slot s) ?_
    extract_lets s1
    split
    · exact upholds_modifyEpisode _ _ _
    · exact upholds_endTrueRun h s1
    · exact upholds_modifyEpisode _ _ _
    · exact .refl s1

theorem upholds_countHoldOff (key slot : Nat) (s : State) : Upholds s (s.countHoldOff key slot) := by
  unfold State.countHoldOff
  split
  · split
    · split
      · exact upholds_closeEpisode _ _ _ _
      · exact upholds_modifyEpisode _ _ _
    · exact .refl s
  · exact .refl s

/-- The record of an episode taken out leaves its key and slot free. -/
theorem find_retire {e : Episode} {r : CloseReason} {m : Moment} {s : State} (h : s.EpisodesLegal)
    (he : e ∈ s.episodes.current) : (s.retire e r m).episodes.find e.key e.slot = none := by
  rw [find_none_iff, EpisodeTable.places, places_retire]
  have gone (es : List Episode) (hn : (es.map (fun e => (e.key, e.slot))).Nodup) (he : e ∈ es) :
      (e.key, e.slot) ∉ (es.eraseP (Episode.of e.key e.slot)).map (fun e => (e.key, e.slot)) := by
    induction es with
    | nil => simp
    | cons x xs ih =>
      rw [List.map_cons, List.nodup_cons] at hn
      by_cases hx : x.of e.key e.slot = true
      · rw [List.eraseP_cons_of_pos hx]
        simp only [Episode.of, Bool.and_eq_true, beq_iff_eq] at hx
        exact hx.1 ▸ hx.2 ▸ hn.1
      · rw [List.eraseP_cons_of_neg hx, List.map_cons, List.mem_cons, not_or]
        have hmem : e ∈ xs := (List.mem_cons.1 he).resolve_left fun heq => hx (heq ▸ of_self e)
        refine ⟨fun heq => hx ?_, ih hn.2 hmem⟩
        obtain ⟨hk, hs⟩ := Prod.mk.inj heq
        simp [Episode.of, hk, hs]
  exact gone _ h.one he

theorem upholds_continueEpisode {e : Episode} {s : State} (he : e ∈ s.episodes.current) :
    Upholds s (s.continueEpisode e) := by
  have hr := upholds_retire e .continued s.tickNow s
  unfold State.continueEpisode
  extract_lets s'
  split
  · refine ⟨fun p => poolLegal_openEpisode (hr.pool p), fun h k => ?_, fun n => ?_⟩
    · obtain ⟨h', k'⟩ := hr.legal h k
      exact legal_openEpisode h' k' (find_retire h he) (h.slots e he)
    · exact namesExist_openEpisode (hr.names n) (n.episodes e he)
  · exact (hr.trans (upholds_followDemand _)).trans (upholds_countUncaptured _ _)

theorem upholds_checkLength (key slot : Nat) (s : State) : Upholds s (s.checkLength key slot) := by
  unfold State.checkLength
  split
  · next e he =>
    split
    · split
      · exact upholds_continueEpisode (find_mem he).1
      · exact upholds_closeEpisode _ _ _ _
    · exact .refl s
  · exact .refl s

end Sys2Proof.Machine

/-! What the analyser's own work upholds: the window engine, slices, inputs, the cadence unit and the band, each on
the pairs of the active table. -/

namespace Sys2Proof.Machine

/-! ### Pairs of the active table -/

/-- The pair is of the active table: an entry at its index, a slot of its mask. -/
def State.HasPair (s : State) (p : Nat × LimitEntry × Nat) : Prop :=
  s.table.active.at p.1 = some p.2.1 ∧ p.2.1.slots.getLsbD p.2.2 = true

theorem hasPair_pairsWhere {s : State} {keep : LimitEntry → Nat → Bool} {p : Nat × LimitEntry × Nat}
    (h : p ∈ s.pairsWhere keep) : s.HasPair p :=
  have ⟨hat, hslot, _⟩ := mem_pairsWhere.1 h
  ⟨hat, hslot⟩

theorem mem_evaluationPairs {s : State} {bands : List Nat} {p : Nat × LimitEntry × Nat} :
    p ∈ s.evaluationPairs bands ↔ s.HasPair p := by
  unfold State.evaluationPairs State.HasPair
  simp only [List.partition_eq_filter_filter, List.mem_flatMap, List.mem_append, List.mem_filter, entryPairs,
    List.mem_map]
  constructor
  · rintro ⟨⟨i, e⟩, hmem, m, hm, rfl⟩
    have hin : (i, e) ∈ s.table.active.entries := hmem.elim (·.1) (·.1)
    exact ⟨mem_entries.1 hin, (mem_members _ _).1 hm⟩
  · rintro ⟨hat, hslot⟩
    refine ⟨(p.1, p.2.1), ?_, p.2.2, (mem_members _ _).2 hslot, rfl⟩
    have hin := mem_entries.2 hat
    by_cases hr : s.table.active.refersTo bands p.2.1.key = true
    · exact .inl ⟨hin, hr⟩
    · exact .inr ⟨hin, by simpa using hr⟩

theorem State.HasPair.slot_lt {s : State} {p : Nat × LimitEntry × Nat} (h : s.HasPair p) :
    p.2.2 < Config.slotCount := BitVec.lt_of_getLsbD h.2

theorem State.HasPair.of_table {s t : State} {p : Nat × LimitEntry × Nat} (h : s.HasPair p)
    (ht : t.table = s.table) : t.HasPair p := by
  unfold State.HasPair
  rw [ht]
  exact h

/-- Work done pair by pair that leaves the table upholds what each pair's work does. -/
theorem upholds_pairs {f : State → Nat × LimitEntry × Nat → State} (hf : ∀ s p, s.HasPair p → Upholds s (f s p))
    (ht : ∀ s p, (f s p).table = s.table) {ps : List (Nat × LimitEntry × Nat)} {s : State}
    (hp : ∀ p, p ∈ ps → s.HasPair p) : Upholds s (ps.foldl f s) := by
  induction ps generalizing s with
  | nil => exact .refl s
  | cons p ps ih =>
    obtain ⟨hhead, htail⟩ := List.forall_mem_cons.1 hp
    exact (hf s p hhead).trans (ih fun q hq => (htail q hq).of_table (ht s p))

/-! ### Units and cells -/

/-- While the clock is not RUNNING no pair of a legal pool has anything but an IDLE accumulator. -/
theorem accAt_idle {s : State} (h : s.PoolLegal) (hr : s.clock.running = false) (i slot : Nat) :
    s.windows.accAt i slot = .idle := by
  unfold WindowEngine.accAt
  cases hu : s.windows.unitAt i slot with
  | none => rfl
  | some u => exact h.idle hr i slot u hu

theorem kinds_setAcc (i slot : Nat) (a : Acc) (s : State) :
    (s.setAcc i slot a).windows.kinds = s.windows.kinds := by
  show (List.modify _ i _).map _ = _
  refine List.ext_getElem? fun j => ?_
  unfold WindowEngine.kinds
  rw [List.getElem?_map, List.getElem?_map, List.getElem?_modify]
  cases s.windows.units[j]? with
  | none => rfl
  | some row =>
    simp only [Option.map_some, Option.some.injEq, Option.map_eq_map]
    split
    · refine List.ext_getElem? fun n => ?_
      rw [List.getElem?_map, List.getElem?_map, List.getElem?_modify]
      cases row[n]? with
      | none => rfl
      | some u =>
        simp only [Option.map_some, Option.map_eq_map]
        split
        · cases u <;> rfl
        · rfl
    · rfl

theorem upholds_setAcc {i slot : Nat} {a : Acc} {s : State}
    (ha : s.PoolLegal → s.clock.running = false → a = .idle) : Upholds s (s.setAcc i slot a) where
  pool h := by
    refine poolLegal_of_kinds h (kinds_setAcc _ _ _ _) rfl fun hr j n u hu => ?_
    rw [unitAt_setAcc] at hu
    split at hu
    · obtain ⟨v, -, rfl⟩ := Option.map_eq_some_iff.1 hu
      exact ha h hr
    · exact h.idle hr j n u hu
  legal h k := ⟨⟨h.one, h.slots⟩, ⟨k.two, k.latch, k.stamp, k.attention⟩⟩
  names h := ⟨h.due, h.slots, h.active, h.staged, h.episodes⟩

theorem upholds_setCell (i slot : Nat) (c : ResultCell) (s : State) : Upholds s (s.setCell i slot c) :=
  upholds_same rfl rfl rfl rfl rfl rfl rfl rfl

theorem opensNow_running {e : LimitEntry} {s : State} (h : s.opensNow e = true) : s.clock.running = true := by
  unfold State.opensNow at h
  exact (Bool.and_eq_true_iff.1 h).2

theorem restartedAcc_idle (e : LimitEntry) {s : State} (hr : s.clock.running = false) :
    s.restartedAcc e = .idle := by
  unfold State.restartedAcc
  exact if_neg fun h => by simp [opensNow_running h] at hr

/-- Contents where the clock shows that they can only be IDLE. -/
theorem ite_opensNow_idle {e : LimitEntry} {s : State} {a : Acc} (hr : s.clock.running = false) :
    (if s.opensNow e then a else .idle) = .idle :=
  if_neg fun h => by simp [opensNow_running h] at hr

theorem upholds_restartAccs (ps : List (Nat × LimitEntry × Nat)) (s : State) : Upholds s (s.restartAccs ps) :=
  upholds_foldl (fun _ p => upholds_setAcc fun _ hr => restartedAcc_idle p.2.1 hr) _ _

theorem upholds_openIdle (minute : Bool) (p : Nat × LimitEntry × Nat) (s : State) :
    Upholds s (s.openIdle minute p) := by
  unfold State.openIdle
  split
  · split
    · next hopen => exact upholds_setAcc fun _ hr => by simp [opensNow_running hopen] at hr
    · exact .refl s
  · exact .refl s

theorem upholds_openIdles (minute : Bool) (ps : List (Nat × LimitEntry × Nat)) (s : State) :
    Upholds s (s.openIdles minute ps) :=
  upholds_foldl (fun _ _ => upholds_openIdle _ _ _) _ _

/-- An accumulator that holds something tells that the clock is RUNNING. -/
theorem contents_contradict {s : State} {i slot : Nat} {a b : Acc} (hacc : s.windows.accAt i slot = a)
    (hne : a ≠ .idle) (h : s.PoolLegal) (hr : s.clock.running = false) : b = .idle :=
  absurd (hacc ▸ accAt_idle h hr i slot) hne

/-! ### Evaluations -/

theorem upholds_evaluate {i slot : Nat} {e : LimitEntry} {r : Reading} {closing : Bool} {s : State}
    (h : s.HasPair (i, e, slot)) : Upholds s (s.evaluate i slot e r closing) := by
  unfold State.evaluate
  extract_lets cell reference raw final s1 s2
  have h1 : Upholds s s1 := upholds_setCell _ _ _ _
  have h2 : Upholds s1 s2 := by
    unfold s2
    split
    · exact upholds_applyOutcome (h := handedOf i slot e r final closing) h.slot_lt fun n => n.active i e h.1
    · exact .refl s1
  refine h1.trans (h2.trans ?_)
  split
  · exact upholds_offer _ _
  · exact .refl s2

theorem upholds_endWindow {p : Nat × LimitEntry × Nat} {s : State} (h : s.HasPair p) :
    Upholds s (s.endWindow p) := by
  unfold State.endWindow
  split
  · split
    · next t hacc =>
      split
      · exact .refl s
      · refine (upholds_setAcc fun hp hr => ?_).trans (upholds_evaluate (h.of_table rfl))
        exact contents_contradict hacc (by simp) hp hr
    · next steps hacc =>
      split
      · split
        · exact .refl s
        · refine (upholds_setAcc fun hp hr => ?_).trans (upholds_evaluate (h.of_table rfl))
          exact contents_contradict hacc (by simp) hp hr
      · exact .refl s
    · exact .refl s
  · exact .refl s

theorem upholds_endWindows (s : State) : Upholds s s.endWindows := by
  unfold State.endWindows
  split
  · exact upholds_pairs (fun _ _ => upholds_endWindow) (fun _ _ => (evaluates_endWindow _ _).table)
      fun _ hp => mem_evaluationPairs.1 hp
  · exact .refl s

theorem upholds_bandWindow {old : Nat} {minute : Bool} {p : Nat × LimitEntry × Nat} {s : State}
    (h : s.HasPair p) : Upholds s (s.bandWindow old minute p) := by
  unfold State.bandWindow
  extract_lets now active
  split
  · exact (upholds_setAcc fun _ hr => ite_opensNow_idle hr).trans (upholds_evaluate (h.of_table rfl))
  · split
    · exact .refl s
    · split
      · exact upholds_setAcc fun _ _ => rfl
      · exact (upholds_setAcc fun _ _ => rfl).trans (upholds_evaluate (h.of_table rfl))
  · split
    · exact .refl s
    · exact upholds_setAcc fun _ _ => rfl
  · split
    · exact .refl s
    · exact upholds_openIdle _ _ _
  · exact .refl s

theorem upholds_bandWindows (old : Nat) (minute : Bool) (s : State) : Upholds s (s.bandWindows old minute) :=
  upholds_pairs (fun _ _ => upholds_bandWindow) (fun _ _ => (evaluates_bandWindow _ _ _ _).table)
    fun _ hp => mem_evaluationPairs.1 hp

theorem upholds_bandPlant (s : State) : Upholds s s.bandPlant :=
  upholds_same rfl rfl rfl rfl rfl rfl rfl rfl

theorem upholds_bandEvent (old : Nat) (minute first : Bool) (s : State) :
    Upholds s (s.bandEvent old minute first) := by
  unfold State.bandEvent
  split
  · exact ((upholds_demandClose _ _ _).trans (upholds_bandWindows _ _ _)).trans (upholds_bandPlant _)
  · exact ((upholds_bandWindows _ _ _).trans (upholds_demandClose _ _ _)).trans (upholds_bandPlant _)

theorem upholds_decideBand (minute first : Bool) (s : State) : Upholds s (s.decideBand minute first) := by
  unfold State.decideBand
  split
  · exact .refl s
  · refine Upholds.trans ?_ (upholds_bandEvent _ _ _ _)
    exact upholds_same rfl rfl rfl rfl rfl rfl rfl rfl

/-! ### Slices -/

theorem Acc.take_idle (m : Metric) (x : Slice) : Acc.take m x .idle = .idle := rfl

theorem upholds_integrate (slot : Nat) (x : Slice) (s : State) : Upholds s (s.integrate slot x) :=
  upholds_foldl (fun _ _ => upholds_setAcc fun hp hr => by rw [accAt_idle hp hr, Acc.take_idle]) _ _

theorem upholds_evaluateSlice (slot : Nat) (x : Slice) (s : State) : Upholds s (s.evaluateSlice slot x) := by
  unfold State.evaluateSlice
  have on_slot (p : Nat × LimitEntry × Nat) (hp : p ∈ (s.evaluationPairs [s.clock.band]).filter (fun p =>
      p.2.2 == slot && p.2.1.window == .slice && p.2.1.activeIn s.clock.band)) : s.HasPair p ∧ p.2.2 = slot := by
    obtain ⟨hmem, hkeep⟩ := List.mem_filter.1 hp
    simp only [Bool.and_eq_true, beq_iff_eq] at hkeep
    exact ⟨mem_evaluationPairs.1 hmem, hkeep.1.1⟩
  generalize (s.evaluationPairs [s.clock.band]).filter _ = ps at on_slot
  suffices hgen : ∀ t : State, t.table = s.table → Upholds t (ps.foldl (fun s' p =>
      s'.evaluate p.1 slot p.2.1 (.ofSlice p.2.1 x s.now) false) t) from hgen s rfl
  induction ps with
  | nil => exact fun t _ => .refl t
  | cons p ps ih =>
    intro t ht
    obtain ⟨⟨hpair, hslot⟩, hrest⟩ := List.forall_mem_cons.1 on_slot
    have hp : t.HasPair (p.1, p.2.1, slot) := hslot ▸ hpair.of_table ht
    exact (upholds_evaluate hp).trans (ih hrest _ ((evaluates_evaluate _ _ _ _ _ _).table.trans ht))

theorem upholds_modifySlot (n : Nat) (f : SlotRecord → SlotRecord) (s : State) : Upholds s (s.modifySlot n f) :=
  upholds_same rfl rfl rfl (by simp [State.modifySlot]) rfl rfl rfl rfl

theorem upholds_gainSlice (slot : Nat) (x : Slice) (s : State) : Upholds s (s.gainSlice slot x) :=
  upholds_mapCurrent (fun e => by split <;> exact ⟨rfl, rfl⟩) s

theorem upholds_handOn (slot : Nat) (x : Slice) (s : State) : Upholds s (s.handOn slot x) := by
  unfold State.handOn
  extract_lets s1
  have h1 : Upholds s s1 := upholds_integrate _ _ _
  split
  · exact h1
  · exact h1.trans (((upholds_evaluateSlice _ _ _).trans (upholds_gainSlice _ _ _)).trans (upholds_modifySlot _ _ _))

theorem Acc.resync_idle (e : LimitEntry) (m : Moment) : Acc.resync e m .idle = .idle := rfl

theorem upholds_resyncWindows (slot : Nat) (s : State) : Upholds s (s.resyncWindows slot) :=
  upholds_foldl (fun _ _ => upholds_setAcc fun hp hr => by rw [accAt_idle hp hr, Acc.resync_idle]) _ _

theorem upholds_judgeSlice (slot : Nat) (r : SlotRecord) (x : Slice) (s : State) :
    Upholds s (s.judgeSlice slot r x) := by
  unfold State.judgeSlice
  split
  · split
    · exact upholds_modifySlot _ _ _
    · next j _ =>
      extract_lets s1 s2
      have h1 : Upholds s s1 := upholds_modifySlot _ _ _
      have h2 : Upholds s1 s2 := by
        unfold s2
        split
        · exact (upholds_raise _ _).trans (upholds_resyncWindows _ _)
        · exact .refl s1
      exact h1.trans (h2.trans (upholds_handOn _ _ _))
  · exact upholds_modifySlot _ _ _

theorem upholds_intake (x : Slice) (s : State) : Upholds s (s.intake x) := by
  unfold State.intake
  split
  · exact .refl s
  · split
    · exact upholds_judgeSlice _ _ _ _
    · exact .refl s

theorem upholds_stallSlot (slot : Nat) (s : State) : Upholds s (s.stallSlot slot) := by
  unfold State.stallSlot
  split
  · split
    · exact ((upholds_modifySlot _ _ _).trans (upholds_raise _ _)).trans (upholds_demandClose _ _ _)
    · exact .refl s
  · exact .refl s

/-! ### Plant lines and inputs -/

theorem upholds_everActive (line : Nat) (s : State) : Upholds s (s.everActive line) :=
  upholds_mapCurrent (f := fun e => { e with everActive := setInsert e.everActive line }) (fun _ => ⟨rfl, rfl⟩) s

theorem upholds_changeLine (line : Nat) (f : PlantLine → PlantLine) (s : State) :
    Upholds s (s.changeLine line f) := by
  unfold State.changeLine
  split
  · exact .refl s
  · next old _ =>
    extract_lets new s1
    have h1 : Upholds s s1 := upholds_same rfl rfl rfl rfl rfl rfl rfl rfl
    split
    · exact h1.trans (upholds_everActive _ _)
    · exact h1

theorem upholds_press (s : State) : Upholds s s.press := by
  unfold State.press
  split
  · exact .refl s
  · refine Upholds.trans ?_ (upholds_raise _ _)
    exact upholds_same rfl rfl rfl rfl rfl rfl rfl rfl

theorem upholds_setMark (p : Sampler) (s : State) : Upholds s (s.setMark p) :=
  upholds_same rfl rfl rfl rfl rfl rfl rfl rfl

theorem upholds_setCertify (p : Sampler) (s : State) : Upholds s (s.setCertify p) :=
  upholds_same rfl rfl rfl rfl rfl rfl rfl rfl

theorem upholds_recognise (input : Input) (s : State) : Upholds s (s.recognise input) := by
  cases input with
  | plant line => exact upholds_changeLine _ _ _
  | mark => exact (upholds_setMark _ _).trans (upholds_press _)
  | certify => exact (upholds_setCertify _ _).trans (upholds_raise _ _)

theorem upholds_countRuns (s : State) : Upholds s s.countRuns :=
  upholds_same rfl rfl rfl rfl rfl rfl rfl rfl

theorem upholds_sampleLine {line : Nat} (hline : line < Config.plantLines) (pins : Pins) (s : State) :
    Upholds s (s.sampleLine pins line) := by
  unfold State.sampleLine
  split
  · exact .refl s
  · extract_lets s1
    have h1 : Upholds s s1 := by
      unfold s1
      split
      · exact upholds_addDue (d := .recognition (.plant line)) hline s
      · exact .refl s
    exact h1.trans (upholds_same rfl rfl rfl rfl rfl rfl rfl rfl)

theorem upholds_sampleMark (pin : Level) (s : State) : Upholds s (s.sampleMark pin) := by
  unfold State.sampleMark
  extract_lets p
  split
  · split
    · exact (upholds_addDue (d := .recognition .mark) trivial s).trans (upholds_setMark _ _)
    · exact upholds_setMark _ _
  · exact upholds_setMark _ _

theorem upholds_sampleCertify (pin : Level) (s : State) : Upholds s (s.sampleCertify pin) := by
  unfold State.sampleCertify
  extract_lets p s1
  have h1 : Upholds s s1 := by
    unfold s1
    split
    · exact upholds_addDue (d := .recognition .certify) trivial s
    · exact .refl s
  exact h1.trans (upholds_setCertify _ _)

theorem upholds_samplePins (pins : Pins) (s : State) : Upholds s (s.samplePins pins) := by
  have lines (ns : List Nat) (hn : ∀ n, n ∈ ns → n < Config.plantLines) (s : State) :
      Upholds s (ns.foldl (fun s' line => s'.sampleLine pins line) s) := by
    induction ns generalizing s with
    | nil => exact .refl s
    | cons n ns ih =>
      obtain ⟨hhead, htail⟩ := List.forall_mem_cons.1 hn
      exact (upholds_sampleLine hhead pins s).trans (ih htail _)
  exact ((lines _ (fun n hn => List.mem_range.1 hn) s).trans (upholds_sampleMark _ _)).trans
    (upholds_sampleCertify _ _)

/-! ### Cadence -/

theorem upholds_clearSummary (s : State) : Upholds s s.clearSummary :=
  upholds_same rfl rfl rfl (by simp [State.clearSummary]) rfl rfl rfl rfl

theorem upholds_drop (s : State) : Upholds s s.drop := by
  refine Upholds.trans ?_ (upholds_raise _ _)
  exact upholds_same rfl rfl rfl rfl rfl rfl rfl rfl

theorem upholds_offerSummary (s : State) : Upholds s s.offerSummary := by
  unfold State.offerSummary
  split
  · exact (upholds_clearSummary s).trans (upholds_admit _ _)
  · exact upholds_drop s

theorem upholds_offerQueries (rs : List QueryRecord) (s : State) : Upholds s (s.offerQueries rs) :=
  upholds_foldl (fun _ _ => upholds_offer _ _) _ _

/-- A single action leaves the attention latch judged, whatever it did to it. -/
theorem upholds_asOneAction {f : State → State} (hf : ∀ s, Upholds s (f s)) (s : State) :
    Upholds s (s.asOneAction f) := by
  unfold State.asOneAction
  have hu := hf (s.withLatch true)
  generalize f (s.withLatch true) = u at hu
  have judged : Upholds u (u.withLatch s.notices.latch).settleLatch := by
    refine ⟨fun p => ?_, fun h k => ?_, fun n => ?_⟩
    · have ht := told_settleLatch (u.withLatch s.notices.latch)
      exact poolLegal_of_eq p (by rw [ht.windows]; rfl) (by rw [ht.table]; rfl) (by rw [ht.clock]; rfl)
    · have ht := told_settleLatch (u.withLatch s.notices.latch)
      refine ⟨episodesLegal_of_sublist h (by rw [ht.episodes]; exact List.Sublist.refl _), ?_⟩
      have hp : (u.withLatch s.notices.latch).settleLatch.plant = u.plant := ht.plant
      exact ⟨hp ▸ k.two, hp ▸ k.latch, hp ▸ k.stamp, settled_settleLatch _⟩
    · exact (upholds_told (told_settleLatch _) fun _ => settled_settleLatch _).names
        (s := u.withLatch s.notices.latch) ⟨n.due, n.slots, n.active, n.staged, n.episodes⟩
  have started : Upholds s (s.withLatch true) :=
    upholds_of rfl rfl rfl rfl (List.Sublist.refl _) rfl (fun _ h => absurd h (by simp [State.withLatch]))
      fun _ h => .inl h
  exact started.trans (hu.trans judged)

theorem upholds_summaryUnderflow (s : State) : Upholds s s.summaryUnderflow := by
  unfold State.summaryUnderflow
  extract_lets src s1 records s2
  have h1 : Upholds s s1 := upholds_same rfl rfl rfl rfl rfl rfl rfl rfl
  have h2 : Upholds s1 s2 :=
    upholds_asOneAction (fun s => (upholds_offerSummary s).trans (upholds_offerQueries _ _)) s1
  exact (h1.trans h2).trans (upholds_same rfl rfl rfl rfl rfl rfl rfl rfl)

theorem upholds_countCadence (s : State) : Upholds s s.countCadence := by
  unfold State.countCadence
  extract_lets c s1
  have h1 : Upholds s s1 := upholds_same rfl rfl rfl rfl rfl rfl rfl rfl
  split
  · exact h1.trans (upholds_addDue (d := .summary) trivial s1)
  · exact h1

end Sys2Proof.Machine

/-! The pool after a swap: the windowed pairs of a table counted by the kind of unit they need, and which pairs hold
which units (R60, R66, R67). -/

namespace Sys2Proof.Machine

/-! ### The entries and pairs of a table -/

theorem entries_ascend (t : EntryTable) : t.entries.Pairwise (fun p q => p.1 < q.1) := by
  unfold EntryTable.entries
  rw [List.pairwise_filterMap]
  have hz : t.zipIdx.Pairwise (fun a b => a.2 < b.2) := by
    rw [List.pairwise_iff_getElem]
    intro i j hi hj hij
    simpa using hij
  refine hz.imp fun {a b} hab p hp q hq => ?_
  obtain ⟨e, -, rfl⟩ := Option.map_eq_some_iff.1 hp
  obtain ⟨f, -, rfl⟩ := Option.map_eq_some_iff.1 hq
  exact hab

/-- The pairs of the entries that a condition keeps, as indices with slots. -/
def EntryTable.pairsOf (t : EntryTable) (keep : LimitEntry → Bool) : List (Nat × Nat) :=
  t.entries.flatMap (fun p => if keep p.2 then (members p.2.slots).map (fun m => (p.1, m)) else [])

theorem mem_pairsOf {t : EntryTable} {keep : LimitEntry → Bool} {i slot : Nat} :
    (i, slot) ∈ t.pairsOf keep ↔ ∃ e, t.at i = some e ∧ keep e = true ∧ e.slots.getLsbD slot = true := by
  unfold EntryTable.pairsOf
  simp only [List.mem_flatMap]
  constructor
  · rintro ⟨⟨j, e⟩, hmem, hp⟩
    split at hp
    · next hk =>
      obtain ⟨m, hm, heq⟩ := List.mem_map.1 hp
      obtain ⟨rfl, rfl⟩ := Prod.mk.inj heq
      exact ⟨e, mem_entries.1 hmem, hk, (mem_members _ _).1 hm⟩
    · simp at hp
  · rintro ⟨e, hat, hk, hslot⟩
    refine ⟨(i, e), mem_entries.2 hat, ?_⟩
    rw [if_pos hk]
    exact List.mem_map.2 ⟨slot, (mem_members _ _).2 hslot, rfl⟩

theorem members_nodup {w : Nat} (m : BitVec w) : (members m).Nodup := List.nodup_range.filter _

theorem nodup_pairsOf (t : EntryTable) (keep : LimitEntry → Bool) : (t.pairsOf keep).Nodup := by
  unfold EntryTable.pairsOf
  refine List.nodup_flatMap.2 ⟨fun p _ => ?_, (entries_ascend t).imp fun {p q} hpq => ?_⟩
  · split
    · exact (members_nodup _).map fun a b h => (Prod.mk.inj h).2
    · exact List.nodup_nil
  · have index_of (p : Nat × LimitEntry) (x : Nat × Nat)
        (hx : x ∈ if keep p.2 then (members p.2.slots).map (fun m => (p.1, m)) else []) : x.1 = p.1 := by
      split at hx
      · obtain ⟨m, -, rfl⟩ := List.mem_map.1 hx
        rfl
      · simp at hx
    intro x hx hy
    exact absurd ((index_of p x hx).symm.trans (index_of q x hy)) (Nat.ne_of_lt hpq)

/-- The entries of a sum of needs over a table. -/
theorem sum_need_eq_pairs (t : EntryTable) (keep : LimitEntry → Bool) (n : LimitEntry → Nat)
    (hn : ∀ e, n e = if keep e then (members e.slots).length else 0) :
    (t.entries.map (fun p => n p.2)).sum = (t.pairsOf keep).length := by
  unfold EntryTable.pairsOf
  rw [List.length_flatMap]
  congr 1
  refine List.map_congr_left fun p _ => ?_
  rw [hn]
  split <;> simp

theorem need_eq_pairs (t : EntryTable) : t.need = (t.pairsOf (fun e => e.window.windowed)).length :=
  sum_need_eq_pairs t _ _ fun _ => rfl

theorem histogramNeed_eq_pairs (t : EntryTable) :
    t.histogramNeed = (t.pairsOf (fun e => e.window.windowed && e.metric.isLn)).length := by
  refine sum_need_eq_pairs t _ (fun e => if e.metric.isLn then e.need else 0) fun e => ?_
  unfold LimitEntry.need
  cases e.metric.isLn <;> cases e.window.windowed <;> rfl

theorem nodup_plainPairs (t : EntryTable) : t.plainPairs.Nodup :=
  nodup_pairsOf t fun e => e.window.windowed && !e.metric.isLn

theorem plainPairs_eq (t : EntryTable) :
    t.plainPairs = t.pairsOf (fun e => e.window.windowed && !e.metric.isLn) := rfl

/-- What a table needs is the pairs of LN entries and the plain ones. -/
theorem need_split (t : EntryTable) : t.need = t.histogramNeed + t.plainPairs.length := by
  have each (e : LimitEntry) : (if e.window.windowed then (members e.slots).length else 0) =
      (if e.metric.isLn then e.need else 0) +
        (if e.window.windowed && !e.metric.isLn then (members e.slots).length else 0) := by
    unfold LimitEntry.need
    cases e.metric.isLn <;> cases e.window.windowed <;> simp
  rw [plainPairs_eq, ← sum_need_eq_pairs t (fun e => e.window.windowed && !e.metric.isLn) _ fun _ => rfl]
  unfold EntryTable.need EntryTable.histogramNeed
  rw [← List.sum_map_add]
  exact congrArg List.sum (List.map_congr_left fun p _ => each p.2)

/-! ### The holders of plain units (R60, log 10) -/

theorem nodup_eraseDups {α : Type} [BEq α] [LawfulBEq α] (l : List α) : l.eraseDups.Nodup := by
  induction hn : l.length using Nat.strong_induction_on generalizing l with
  | _ n ih =>
    cases l with
    | nil => simp
    | cons a as =>
      rw [List.eraseDups_cons, List.nodup_cons]
      refine ⟨by simp, ih _ ?_ _ rfl⟩
      exact hn ▸ Nat.lt_succ_of_le (List.length_filter_le _ _)

theorem mem_plainOrder {t : EntryTable} {first : List (Nat × Nat)} {p : Nat × Nat} :
    p ∈ t.plainOrder first ↔ p ∈ t.plainPairs := by
  unfold EntryTable.plainOrder
  extract_lets chosen
  rw [List.mem_append]
  have in_plain : p ∈ chosen → p ∈ t.plainPairs := fun h => by simpa using (List.mem_filter.1 h).2
  by_cases hc : p ∈ chosen
  · exact iff_of_true (Or.inl hc) (in_plain hc)
  · rw [List.mem_filter]
    simp [hc]

theorem nodup_plainOrder (t : EntryTable) (first : List (Nat × Nat)) : (t.plainOrder first).Nodup := by
  unfold EntryTable.plainOrder
  extract_lets chosen
  have hchosen : chosen.Nodup := (nodup_eraseDups first).filter (fun p => t.plainPairs.contains p)
  refine List.nodup_append.2 ⟨hchosen, (nodup_plainPairs t).filter _, fun a ha b hb heq => ?_⟩
  have hno := (List.mem_filter.1 hb).2
  rw [← heq] at hno
  simp [ha] at hno

theorem length_plainOrder (t : EntryTable) (first : List (Nat × Nat)) :
    (t.plainOrder first).length = t.plainPairs.length :=
  ((List.perm_ext_iff_of_nodup (nodup_plainOrder t first) (nodup_plainPairs t)).2 fun _ => mem_plainOrder).length_eq

theorem plainHolders_subset {t : EntryTable} {first : List (Nat × Nat)} {p : Nat × Nat}
    (h : p ∈ t.plainHolders first) : p ∈ t.plainPairs := mem_plainOrder.1 (List.mem_of_mem_take h)

theorem nodup_plainHolders (t : EntryTable) (first : List (Nat × Nat)) : (t.plainHolders first).Nodup :=
  (nodup_plainOrder t first).sublist (List.take_sublist _ _)

theorem length_plainHolders (t : EntryTable) (first : List (Nat × Nat)) :
    (t.plainHolders first).length = min Config.plainUnits t.plainPairs.length := by
  rw [EntryTable.plainHolders, List.length_take, length_plainOrder]

/-- The plain pairs that hold no plain unit are those beyond the first 72. -/
theorem length_without_plain (t : EntryTable) (first : List (Nat × Nat)) :
    (t.plainPairs.filter (fun p => !(t.plainHolders first).contains p)).length ≤
      t.plainPairs.length - Config.plainUnits := by
  rw [← length_plainOrder t first, ← List.length_drop]
  refine (List.subperm_of_subset ((nodup_plainPairs t).filter _) fun p hp => ?_).length_le
  obtain ⟨hin, hno⟩ := List.mem_filter.1 hp
  have hord := mem_plainOrder (first := first).2 hin
  rw [← List.take_append_drop Config.plainUnits (t.plainOrder first), List.mem_append] at hord
  exact hord.resolve_left fun h => by simp [EntryTable.plainHolders, h] at hno

/-! ### Grids counted -/

/-- Every index with every slot. -/
def gridPlaces : List (Nat × Nat) := (List.range Config.entryCount).product (List.range Config.slotCount)

theorem mem_gridPlaces {i slot : Nat} : (i, slot) ∈ gridPlaces ↔ i < Config.entryCount ∧ slot < Config.slotCount := by
  exact List.mem_product.trans (and_congr List.mem_range List.mem_range)

theorem nodup_gridPlaces : gridPlaces.Nodup := List.nodup_range.product List.nodup_range

theorem flatten_grid {α : Type} (f : Nat → Nat → α) :
    (grid f).flatten = gridPlaces.map (fun p => f p.1 p.2) := by
  unfold grid gridPlaces List.product
  rw [← List.flatMap_def, List.map_flatMap]
  simp [List.map_map, Function.comp_def]

theorem gridAt_grid {α : Type} (f : Nat → Nat → α) (i slot : Nat) :
    gridAt (grid f) i slot = if i < Config.entryCount ∧ slot < Config.slotCount then some (f i slot) else none := by
  unfold gridAt grid
  rw [List.getElem?_map]
  by_cases hi : i < Config.entryCount
  · by_cases hs : slot < Config.slotCount <;> simp [hi, hs]
  · simp [hi]

/-- The units in use of a kind are those that a pair holds. -/
theorem inUse_eq_filter (w : WindowEngine) (kind : Bool) :
    w.inUse kind = (w.units.flatten.filter (fun u => match u with
      | some x => x.histogram == kind
      | none => false)).length := by
  unfold WindowEngine.inUse
  induction w.units.flatten with
  | nil => rfl
  | cons u us ih =>
    cases u with
    | none => simpa using ih
    | some x =>
      by_cases hx : (x.histogram == kind) = true <;> simp_all

theorem inUse_grid (f : Nat → Nat → Option PoolUnit) (cells : List (List ResultCell)) (kind : Bool) :
    WindowEngine.inUse kind ⟨grid f, cells⟩ =
      (gridPlaces.filter (fun p => (f p.1 p.2).any (fun u => u.histogram == kind))).length := by
  rw [inUse_eq_filter, flatten_grid, List.filter_map, List.length_map]
  congr 2
  funext p
  simp only [Function.comp]
  cases f p.1 p.2 <;> rfl

/-! ### The pool after the exchange of the tables -/

section
variable (w : WindowEngine) (old new : EntryTable) (first : List (Nat × Nat))

/-- The pair holds a unit of the kind after the exchange. -/
theorem movedUnit_any {plain : List (Nat × Nat)} {kind : Bool} {i slot : Nat} :
    (w.movedUnit old new plain i slot).any (fun u => u.histogram == kind) = true ↔
      (i, slot) ∈ new.pairsOf (fun e => e.window.windowed) ∧ (!plain.contains (i, slot)) = kind := by
  rw [mem_pairsOf]
  unfold WindowEngine.movedUnit
  cases hat : new.at i with
  | none => simp
  | some e =>
    by_cases hw : (e.window.windowed && e.slots.getLsbD slot) = true
    · obtain ⟨hwin, hslot⟩ := Bool.and_eq_true_iff.1 hw
      simp [hwin, hslot]
    · have hw' : ¬(e.window.windowed = true ∧ e.slots.getLsbD slot = true) := by simpa using hw
      simp only [hw]
      simpa using fun h1 h2 => absurd ⟨h1, h2⟩ hw'

theorem movedUnit_histogram {plain : List (Nat × Nat)} {i slot : Nat} {u : PoolUnit}
    (h : w.movedUnit old new plain i slot = some u) :
    (i, slot) ∈ new.pairsOf (fun e => e.window.windowed) ∧ u.histogram = !plain.contains (i, slot) := by
  have hany := (movedUnit_any w old new (plain := plain) (kind := u.histogram) (i := i) (slot := slot)).1
    (by rw [h]; simp)
  exact ⟨hany.1, hany.2.symm⟩

theorem moved_plain_le : (w.moved old new first).inUse false ≤ (new.plainHolders first).length := by
  unfold WindowEngine.moved
  rw [inUse_grid]
  refine (List.subperm_of_subset (nodup_gridPlaces.filter _) fun p hp => ?_).length_le
  have hkind := ((movedUnit_any w old new).1 (List.mem_filter.1 hp).2).2
  simpa using hkind

theorem moved_hist_le (hneed : new.need ≤ Config.poolUnits) (hhist : new.histogramNeed ≤ Config.histogramUnits) :
    (w.moved old new first).inUse true ≤ Config.histogramUnits := by
  have bound : (w.moved old new first).inUse true ≤ (new.pairsOf (fun e => e.window.windowed && e.metric.isLn) ++
      new.plainPairs.filter (fun p => !(new.plainHolders first).contains p)).length := by
    unfold WindowEngine.moved
    rw [inUse_grid]
    refine (List.subperm_of_subset (nodup_gridPlaces.filter _) fun p hp => ?_).length_le
    obtain ⟨hwin, hkind⟩ := (movedUnit_any w old new).1 (List.mem_filter.1 hp).2
    obtain ⟨e, hat, hw, hslot⟩ := mem_pairsOf.1 hwin
    by_cases hln : e.metric.isLn = true
    · exact List.mem_append_left _ (mem_pairsOf.2 ⟨e, hat, by simp [hw, hln], hslot⟩)
    · refine List.mem_append_right _ (List.mem_filter.2 ⟨?_, hkind⟩)
      rw [plainPairs_eq]
      exact mem_pairsOf.2 ⟨e, hat, by simp [hw, hln], hslot⟩
  rw [List.length_append, ← histogramNeed_eq_pairs] at bound
  have hrest := length_without_plain new first
  have hsplit := need_split new
  simp only [Config.poolUnits, Config.histogramUnits, Config.plainUnits] at *
  omega

theorem isLn_iff {m : Metric} : m.isLn = true ↔ ∃ n, m = .ln n := by
  cases m <;> simp [Metric.isLn]

theorem windowed_iff {x : WindowType} : x.windowed = true ↔ x ≠ .slice := by
  cases x <;> simp [WindowType.windowed]

theorem unitAt_moved (i slot : Nat) : (w.moved old new first).unitAt i slot =
    if i < Config.entryCount ∧ slot < Config.slotCount then w.movedUnit old new (new.plainHolders first) i slot
    else none := by
  show (gridAt (grid _) i slot).join = _
  rw [gridAt_grid]
  split <;> rfl

theorem cellAt_moved {i slot : Nat} (hi : i < Config.entryCount) (hs : slot < Config.slotCount) :
    (w.moved old new first).cellAt i slot = w.movedCell old new i slot := by
  show (gridAt (grid _) i slot).getD ResultCell.empty = _
  rw [gridAt_grid, if_pos ⟨hi, hs⟩]
  rfl

theorem movedUnit_isSome {plain : List (Nat × Nat)} {i slot : Nat} :
    (w.movedUnit old new plain i slot).isSome ↔
      ∃ e, new.at i = some e ∧ e.window ≠ .slice ∧ e.slots.getLsbD slot = true := by
  unfold WindowEngine.movedUnit
  cases hat : new.at i with
  | none => simp
  | some e =>
    simp [windowed_iff]

/-- A pair of an LN entry holds a histogram-capable unit. -/
theorem moved_ln {i slot : Nat} {e : LimitEntry} {u : PoolUnit} (hat : new.at i = some e) (hln : e.metric.isLn = true)
    (hu : (w.moved old new first).unitAt i slot = some u) : u.histogram = true := by
  rw [unitAt_moved] at hu
  split at hu
  · rw [(movedUnit_histogram w old new hu).2]
    have hno : (i, slot) ∉ new.plainHolders first := fun h => by
      have hp := plainHolders_subset h
      rw [plainPairs_eq] at hp
      obtain ⟨f, hf, hk, -⟩ := mem_pairsOf.1 hp
      rw [hat, Option.some.injEq] at hf
      simp [← hf, hln] at hk
    simpa using hno
  · cases hu

/-- Another pair holds a histogram-capable unit only where the 72 plain ones are held. -/
theorem moved_plain_full {i slot : Nat} {e : LimitEntry} {u : PoolUnit} (hlen : new.length = Config.entryCount)
    (hat : new.at i = some e) (hln : e.metric.isLn = false)
    (hu : (w.moved old new first).unitAt i slot = some u) (hh : u.histogram = true) :
    (w.moved old new first).inUse false = Config.plainUnits := by
  rw [unitAt_moved] at hu
  split at hu
  · obtain ⟨hwin, hkind⟩ := movedUnit_histogram w old new hu
    have hin : (i, slot) ∈ new.plainPairs := by
      obtain ⟨f, hf, hk, hslot⟩ := mem_pairsOf.1 hwin
      rw [hat, Option.some.injEq] at hf
      rw [plainPairs_eq]
      exact mem_pairsOf.2 ⟨e, hat, by rw [hln, hf, hk]; rfl, hf ▸ hslot⟩
    have hout : (i, slot) ∉ new.plainHolders first := by simpa [hh] using hkind.symm
    have hlong : Config.plainUnits ≤ new.plainPairs.length := by
      by_contra hshort
      have hall : new.plainHolders first = new.plainOrder first :=
        List.take_of_length_le (by rw [length_plainOrder]; omega)
      exact hout (hall ▸ mem_plainOrder.2 hin)
    refine Nat.le_antisymm ?_ ?_
    · exact (moved_plain_le w old new first).trans (by rw [length_plainHolders]; exact Nat.min_le_left _ _)
    · calc Config.plainUnits = (new.plainHolders first).length := by
            rw [length_plainHolders, Nat.min_eq_left hlong]
        _ ≤ _ := by
            unfold WindowEngine.moved
            rw [inUse_grid]
            refine (List.subperm_of_subset (nodup_plainHolders new first) fun p hp => ?_).length_le
            have hp' := plainHolders_subset hp
            rw [plainPairs_eq] at hp'
            obtain ⟨f, hf, hk, hslot⟩ := mem_pairsOf.1 hp'
            refine List.mem_filter.2 ⟨mem_gridPlaces.2 ⟨hlen ▸ at_lt hf, BitVec.lt_of_getLsbD hslot⟩, ?_⟩
            refine (movedUnit_any w old new).2 ⟨mem_pairsOf.2 ⟨f, hf, (Bool.and_eq_true_iff.1 hk).1, hslot⟩, ?_⟩
            simpa using hp
  · cases hu

end

/-- What passes the checks needs no more than the pool has (R60). -/
theorem need_of_passing {s : State} (h : s.commitFailure = none) :
    s.table.staged.need ≤ Config.poolUnits ∧ s.table.staged.histogramNeed ≤ Config.histogramUnits := by
  unfold State.commitFailure at h
  simp only at h
  split at h
  · cases h
  · cases h
  · cases h
  · split at h
    · cases h
    · split at h
      · cases h
      · omega

theorem poolLegal_moveKeys {first : List (Nat × Nat)} {s : State} (h : s.PoolLegal)
    (hneed : s.table.staged.need ≤ Config.poolUnits)
    (hhist : s.table.staged.histogramNeed ≤ Config.histogramUnits) : (s.moveKeys first).PoolLegal where
  rows := by
    show (grid _).length = _
    simp [grid]
  slots row hrow := by
    obtain ⟨i, -, rfl⟩ := List.mem_map.1 hrow
    simp
  plain := (moved_plain_le _ _ _ _).trans (by rw [length_plainHolders]; exact Nat.min_le_left _ _)
  hist := moved_hist_le _ _ _ _ hneed hhist
  pairs i slot hi hs := by
    show ((s.windows.moved s.table.active s.table.staged first).unitAt i slot).isSome ↔ _
    rw [unitAt_moved, if_pos ⟨hi, hs⟩]
    exact movedUnit_isSome _ _ _
  ln i slot e u hat hln hu := moved_ln _ _ _ _ hat (isLn_iff.2 hln) hu
  idle hr i slot u hu := by
    have hu' : (s.windows.moved s.table.active s.table.staged first).unitAt i slot = some u := hu
    rw [unitAt_moved] at hu'
    split at hu'
    · unfold WindowEngine.movedUnit at hu'
      split at hu'
      · split at hu'
        · obtain rfl := Option.some.inj hu'
          show s.windows.movedAcc _ _ _ = _
          unfold WindowEngine.movedAcc
          split
          · exact accAt_idle h hr _ _
          · rfl
        · cases hu'
      · cases hu'
    · cases hu'

theorem upholds_moveKeys {first : List (Nat × Nat)} {s : State} (hneed : s.table.staged.need ≤ Config.poolUnits)
    (hhist : s.table.staged.histogramNeed ≤ Config.histogramUnits) : Upholds s (s.moveKeys first) := by
  have hplaces : (s.moveKeys first).episodes.places = s.episodes.places :=
    places_map (fun e => by unfold Episode.moved; split <;> exact ⟨rfl, rfl⟩) _
  refine ⟨fun h => poolLegal_moveKeys h hneed hhist, fun h k => ⟨?_, k.two, k.latch, k.stamp, k.attention⟩,
    fun h => ?_⟩
  · exact episodesLegal_of_sublist h (hplaces ▸ List.Sublist.refl _)
  · refine ⟨h.due, h.slots, h.staged, h.staged, fun e he => ?_⟩
    have hm := mem_places he
    rw [hplaces] at hm
    obtain ⟨e', he', heq⟩ := List.mem_map.1 hm
    obtain ⟨hk, hslot⟩ := Prod.mk.inj heq
    exact hk ▸ hslot ▸ h.episodes e' he'

/-! ### The swap -/

theorem upholds_closeKey (s : State) (key : Nat) : Upholds s (s.closeKey key) := by
  unfold State.closeKey
  split
  · exact .refl s
  · exact (upholds_demandClose _ _ _).trans (upholds_demandClose _ _ _)

theorem upholds_closeKeys (keys : List Nat) (s : State) : Upholds s (s.closeKeys keys) :=
  upholds_foldl upholds_closeKey _ _

theorem upholds_endCommit (r : CommitResult) (n : Notice) (s : State) : Upholds s (s.endCommit r n) := by
  refine Upholds.trans ?_ (upholds_raise _ _)
  exact ⟨fun h => poolLegal_of_eq h rfl rfl rfl, fun h k => ⟨⟨h.one, h.slots⟩, k.two, k.latch, k.stamp, k.attention⟩,
    fun h => ⟨h.due, h.slots, h.active, h.staged, h.episodes⟩⟩

theorem upholds_swap {c : SwapChoice} {s : State} (h : s.commitFailure = none) : Upholds s (s.swap c) := by
  obtain ⟨hneed, hhist⟩ := need_of_passing h
  have ht : (s.closeKeys c.keys).table = s.table := (judges_closeKeys _ _).table
  unfold State.swap
  extract_lets s1 s2
  have h1 : Upholds s s1 := ((upholds_closeKeys _ _).trans
    (upholds_moveKeys (by rw [ht]; exact hneed) (by rw [ht]; exact hhist))).trans (upholds_followDemand _)
  have h2 : Upholds s1 s2 := by
    refine Upholds.trans ?_ (upholds_decideBand _ _ _)
    exact upholds_same rfl rfl rfl rfl rfl rfl rfl rfl
  exact ((h1.trans h2).trans (upholds_openIdles _ _ _)).trans (upholds_endCommit _ _ _)

theorem upholds_checkCommit (c : SwapChoice) (s : State) : Upholds s (s.checkCommit c) := by
  unfold State.checkCommit
  split
  · split
    · exact upholds_endCommit _ _ _
    · next h => exact upholds_swap h
  · exact .refl s

/-! ### Work that is due, and the tick -/

theorem upholds_work (c : TickChoice) (d : Due) (s : State) : Upholds s (s.work c d) := by
  cases d with
  | runCounts => exact upholds_countRuns s
  | windows => exact upholds_endWindows s
  | band => exact upholds_decideBand _ _ s
  | cadence => exact upholds_countCadence s
  | summary => exact upholds_summaryUnderflow s
  | verdicts => exact upholds_offerVerdicts _ s
  | mark => exact upholds_offerMark s
  | commit => exact upholds_checkCommit _ s
  | stall slot => exact upholds_stallSlot _ s
  | holdOff key slot => exact upholds_countHoldOff _ _ s
  | maximumLength key slot => exact upholds_checkLength _ _ s
  | pulse line | flash line => exact upholds_same rfl rfl rfl rfl rfl rfl rfl rfl
  | recognition input => exact upholds_recognise _ s

theorem upholds_takeDue (c : TickChoice) (d : Due) (s : State) : Upholds s (s.takeDue c d) := by
  unfold State.takeDue
  split
  · exact (upholds_clearDue d s).trans (upholds_work c d _)
  · exact .refl s

theorem upholds_takeTick (c : TickChoice) (d : Due) (s : State) : Upholds s (s.takeTick c d) := by
  unfold State.takeTick
  split
  · exact (upholds_takeDue _ _ _).trans (upholds_takeDue _ _ _)
  · exact upholds_takeDue _ _ _

theorem upholds_flush (c : TickChoice) (n : Nat) (s : State) : Upholds s (s.flush c n) := by
  induction n generalizing s with
  | zero => exact .refl s
  | succ n ih =>
    unfold State.flush
    split
    · exact .refl s
    · exact (upholds_takeTick _ _ _).trans (ih _)

theorem upholds_takeCounts (ds : List Due) (s : State) : Upholds s (s.takeCounts ds) :=
  upholds_foldl (fun s d => by
    split
    · exact upholds_takeDue _ _ _
    · exact .refl s) _ _

theorem upholds_takeRecognitions (s : State) : Upholds s s.takeRecognitions :=
  upholds_foldl (fun _ _ => upholds_takeDue _ _ _) _ _

theorem upholds_settleCommit (s : State) : Upholds s s.settleCommit := upholds_takeDue _ _ _

theorem upholds_finishStamped (s : State) : Upholds s s.finishStamped :=
  ((upholds_takeDue _ _ _).trans (upholds_takeDue _ _ _)).trans (upholds_takeDue _ _ _)

/-- What falls at a tick names what exists. -/
theorem dueExists_of_fallsDue {s : State} (h : s.NamesExist) {d : Due} (hd : s.FallsDue d) : dueExists d := by
  cases d with
  | stall slot =>
    obtain ⟨r, _, _, _, hr, -⟩ := hd
    exact Nat.lt_of_lt_of_eq (List.getElem?_eq_some_iff.1 hr).1 h.slots
  | holdOff key slot =>
    obtain ⟨e, _, he, rfl, rfl, -⟩ := hd
    exact h.episodes e he
  | maximumLength key slot =>
    obtain ⟨e, _, he, rfl, rfl, -⟩ := hd
    exact h.episodes e he
  | pulse line | flash line => exact hd
  | recognition input => exact hd.elim
  | runCounts | windows | band | cadence | summary | verdicts | mark | commit => exact trivial

theorem upholds_advance (s : State) : Upholds s s.advance where
  pool h := poolLegal_of_eq h rfl rfl (congrArg (· == ClockState.running) (band_tick s.clock).2)
  legal h k := ⟨⟨h.one, h.slots⟩, k.two, k.latch, k.stamp, k.attention⟩
  names h := by
    have ticked : State.NamesExist { s with clock := s.clock.tick } :=
      ⟨h.due, h.slots, h.active, h.staged, h.episodes⟩
    exact ⟨fun d hd => dueExists_of_fallsDue ticked ((mem_dueAtTick _ d).1 hd), h.slots, h.active, h.staged,
      h.episodes⟩

theorem upholds_tick (c : TickChoice) (s : State) : Upholds s (s.tick c) := by
  unfold State.tick
  extract_lets s1
  have h1 : Upholds s s1 := by
    refine ((Upholds.trans ?_ (upholds_advance _))).trans (upholds_foldl (fun _ _ => upholds_takeTick _ _ _) _ _)
    rw [finishDue_eq]
    exact upholds_flush _ _ _
  exact h1.trans (((upholds_takeCounts _ _).trans (upholds_takeTick _ _ _)).trans (upholds_takeTick _ _ _))

end Sys2Proof.Machine

/-! What the commands uphold: the links, the items of a control frame and the resets; then every command and every
step, and the statements on the pool, the episodes and the latches. -/

namespace Sys2Proof.Machine

/-! ### The links -/

theorem upholds_offerForward (frame : Frame) (s : State) : Upholds s (s.offerForward frame) := by
  unfold State.offerForward
  split
  · refine Upholds.trans ?_ (upholds_arbitrate _)
    exact upholds_same rfl rfl rfl rfl rfl rfl rfl rfl
  · refine Upholds.trans ?_ (upholds_raise _ _)
    exact upholds_same rfl rfl rfl rfl rfl rfl rfl rfl

theorem upholds_receiveField (bytes : List Byte) (s : State) : Upholds s (s.receiveField bytes) := by
  unfold State.receiveField
  split
  · exact .refl s
  · split
    · unfold State.takeFieldFrame
      extract_lets s1
      have h1 : Upholds s s1 := upholds_offerForward _ _
      split
      · exact h1.trans (upholds_intake _ _)
      · exact h1
    · exact upholds_same rfl rfl rfl rfl rfl rfl rfl rfl

theorem upholds_sendOnward (s : State) : Upholds s s.sendOnward := by
  unfold State.sendOnward
  split
  · exact upholds_same rfl rfl rfl rfl rfl rfl rfl rfl
  · exact .refl s

theorem upholds_offerOnward (frame : Frame) (s : State) : Upholds s (s.offerOnward frame) := by
  unfold State.offerOnward
  split
  · refine Upholds.trans ?_ (upholds_sendOnward _)
    exact upholds_same rfl rfl rfl rfl rfl rfl rfl rfl
  · refine Upholds.trans ?_ (upholds_raise _ _)
    exact upholds_same rfl rfl rfl rfl rfl rfl rfl rfl

theorem upholds_offerExecution (payload : List Byte) (s : State) : Upholds s (s.offerExecution payload) := by
  unfold State.offerExecution
  split
  · exact upholds_same rfl rfl rfl rfl rfl rfl rfl rfl
  · refine Upholds.trans ?_ (upholds_raise _ _)
    exact upholds_same rfl rfl rfl rfl rfl rfl rfl rfl

theorem upholds_receiveGateway (bytes : List Byte) (s : State) : Upholds s (s.receiveGateway bytes) := by
  unfold State.receiveGateway
  split
  · exact .refl s
  · split
    · unfold State.takeControlFrame
      extract_lets payload here s1
      have h1 : Upholds s s1 := by
        unfold s1
        split
        · exact upholds_offerOnward _ _
        · exact .refl s
      split
      · exact h1.trans (upholds_offerExecution _ _)
      · exact h1
    · exact upholds_same rfl rfl rfl rfl rfl rfl rfl rfl

theorem upholds_gatewayDone (offerNow : Bool) (s : State) : Upholds s (s.gatewayDone offerNow) := by
  unfold State.gatewayDone
  split
  · exact .refl s
  · extract_lets src s1
    have h1 : Upholds s s1 := by
      refine Upholds.trans ?_ (upholds_arbitrate _)
      exact upholds_same rfl rfl rfl rfl rfl rfl rfl rfl
    split
    · exact h1.trans (upholds_takeDue _ _ _)
    · exact h1

theorem upholds_fieldDone (s : State) : Upholds s s.fieldDone := by
  unfold State.fieldDone
  split
  · exact .refl s
  · refine Upholds.trans ?_ (upholds_sendOnward _)
    exact upholds_same rfl rfl rfl rfl rfl rfl rfl rfl

/-! ### Items -/

theorem upholds_writeItems (rest : List Byte) (taken : Nat) (items : List ReplyItem) (s : State) :
    Upholds s (s.writeItems rest taken items) :=
  upholds_same rfl rfl rfl rfl rfl rfl rfl rfl

theorem upholds_takeUnknown (s : State) : Upholds s s.takeUnknown := by
  unfold State.takeUnknown
  split
  · split
    · exact .refl s
    · exact (upholds_settleCommit s).trans (upholds_writeItems _ _ _ _)
  · exact .refl s

theorem upholds_takeEnd (s : State) : Upholds s s.takeEnd := by
  unfold State.takeEnd
  split
  · refine (upholds_settleCommit s).trans (Upholds.trans ?_ (upholds_arbitrate _))
    exact upholds_same rfl rfl rfl rfl rfl rfl rfl rfl
  · exact .refl s

theorem upholds_takeItem {α : Type} {c : CommandCode} {form : List Byte → Option α} {body : Body α}
    (hbody : ∀ ops m s, Upholds s (body ops m s).1) (s : State) : Upholds s (s.takeItem c form body) :=
  takeItem_keeps (P := Upholds s) (.refl s) (fun _ h => h.trans (upholds_settleCommit _))
    (fun _ _ _ h => h.trans (hbody _ _ _)) (fun _ _ _ _ h => h.trans (upholds_writeItems _ _ _ _))

theorem upholds_takeItem_of_eq {α : Type} {c : CommandCode} {form : List Byte → Option α} {body : Body α}
    (hbody : ∀ ops m s, (body ops m s).1 = s) (s : State) : Upholds s (s.takeItem c form body) :=
  upholds_takeItem (fun ops m s => by rw [hbody]; exact .refl s) s

theorem upholds_readKept (q : QueryCommand) (m : Modifiers) (s : State) : Upholds s (s.readKept q m).1 := by
  unfold State.readKept
  extract_lets a
  split
  · exact .refl s
  · split
    · unfold State.install
      split
      · exact upholds_same rfl rfl rfl rfl rfl rfl rfl rfl
      · split
        · exact upholds_same rfl rfl rfl rfl rfl rfl rfl rfl
        · exact .refl s
    · exact .refl s

/-! ### The limit table -/

/-- A new staged table upholds the invariants where its keys exist. -/
theorem upholds_setStaged {t : EntryTable} {s : State}
    (h : s.NamesExist → ∀ i e, t.at i = some e → keyExists e.key) : Upholds s (s.setStaged t) :=
  ⟨fun p => poolLegal_of_eq p rfl rfl rfl, fun e k => ⟨⟨e.one, e.slots⟩, k.two, k.latch, k.stamp, k.attention⟩,
    fun n => ⟨n.due, n.slots, n.active, h n, n.episodes⟩⟩

theorem keyExists_ofImage {o : List Byte} {e : LimitEntry} (h : LimitEntry.ofImage o = some e) :
    keyExists e.key := by
  have hkey := (LimitEntry.ofImage_fields h).1
  unfold LimitEntry.ofImage at h
  simp only [Option.bind_eq_some_iff] at h
  obtain ⟨_, _, _, _, _, _, _, _, _, _, hlast⟩ := h
  have hplain := (onlyIf_some hlast).1
  simp only [plainFieldsAllowed, Bool.and_eq_true, bne_iff_ne] at hplain
  have hne : field o 0 2 ≠ 0 := hplain.1.1.1.1.1.1.1.1.1.1
  have hlt := field_lt_two o 0
  refine ⟨by omega, ?_⟩
  show e.key ≤ 65535
  omega

theorem allOf_image {images : List (List Byte)} {entries : List LimitEntry}
    (h : allOf (images.map LimitEntry.ofImage) = some entries) :
    ∀ e, e ∈ entries → ∃ o, LimitEntry.ofImage o = some e := by
  induction images generalizing entries with
  | nil =>
    obtain rfl : [] = entries := Option.some.inj h
    simp
  | cons o os ih =>
    rw [List.map_cons] at h
    cases ho : LimitEntry.ofImage o with
    | none => simp [allOf, ho] at h
    | some e =>
      cases hos : allOf (os.map LimitEntry.ofImage) with
      | none => simp [allOf, ho, hos] at h
      | some es =>
        simp only [allOf, ho, hos, Option.map_some, Option.some.injEq] at h
        subst h
        exact List.forall_mem_cons.2 ⟨⟨o, ho⟩, ih hos⟩

/-- A property of every entry of a table and of every entry written holds of the table written. -/
theorem write_forall {P : LimitEntry → Prop} {start : Nat} {entries : List LimitEntry} {t : EntryTable}
    (ht : ∀ i e, t.at i = some e → P e) (he : ∀ e, e ∈ entries → P e) :
    ∀ i e, (t.write start entries).at i = some e → P e := by
  unfold EntryTable.write
  have hz : ∀ p, p ∈ entries.zipIdx → P p.1 := fun p hp => by
    rw [List.mem_zipIdx_iff_getElem?] at hp
    exact he _ (List.mem_of_getElem? hp)
  generalize entries.zipIdx = ps at hz
  induction ps generalizing t with
  | nil => exact ht
  | cons p ps ih =>
    obtain ⟨hhead, htail⟩ := List.forall_mem_cons.1 hz
    refine ih (fun i e hat => ?_) htail
    rw [at_set] at hat
    split at hat
    · exact Option.some.inj hat ▸ hhead
    · exact ht i e hat

theorem upholds_writeEntries {start : Nat} {entries : List LimitEntry}
    (h : ∀ e, e ∈ entries → keyExists e.key) (s : State) : Upholds s (s.writeEntries start entries).1 := by
  unfold State.writeEntries
  extract_lets indices
  split
  · exact .refl s
  · split
    · exact .refl s
    · split
      · exact .refl s
      · exact upholds_setStaged fun n => write_forall n.staged h

theorem upholds_loadEntriesBody (ops : Nat × List (List Byte)) (m : Modifiers) (s : State) :
    Upholds s (loadEntriesBody ops m s).1 := by
  unfold loadEntriesBody
  split
  · next entries hall =>
    split
    · refine upholds_writeEntries (fun e he => ?_) s
      obtain ⟨o, ho⟩ := allOf_image hall e he
      exact keyExists_ofImage ho
    · exact .refl s
  · exact .refl s

/-- A table with one index changed holds keys that exist where the new entry has one. -/
theorem set_keyExists {t : EntryTable} {j : Nat} {x : Option LimitEntry}
    (ht : ∀ i e, t.at i = some e → keyExists e.key) (hx : ∀ e, x = some e → keyExists e.key) :
    ∀ i e, EntryTable.at (t.set j x) i = some e → keyExists e.key := fun i e hat => by
  rw [at_set] at hat
  split at hat
  · exact hx e hat
  · exact ht i e hat

theorem upholds_removeEntryBody (i : Nat) (m : Modifiers) (s : State) : Upholds s (removeEntryBody i m s).1 := by
  unfold removeEntryBody
  split
  · exact .refl s
  · split
    · exact .refl s
    · split
      · exact .refl s
      · split
        · exact .refl s
        · exact upholds_setStaged fun n => set_keyExists n.staged fun _ h => by cases h

theorem upholds_freezeEntryBody (key : Nat) (m : Modifiers) (s : State) : Upholds s (freezeEntryBody key m s).1 := by
  unfold freezeEntryBody
  split
  · exact .refl s
  · split
    · exact .refl s
    · split
      · exact .refl s
      · split
        · next i e _ =>
          split
          · refine ⟨fun p => poolLegal_of_eq p rfl rfl rfl,
              fun e k => ⟨⟨e.one, e.slots⟩, k.two, k.latch, k.stamp, k.attention⟩,
              fun n => ⟨n.due, n.slots, n.active, ?_, n.episodes⟩⟩
            exact set_keyExists n.staged fun e h => n.active i e h
          · exact .refl s
        · exact .refl s

/-- The staged copies set to the active ones. -/
theorem upholds_revert (s : State) : Upholds s s.revert :=
  ⟨fun p => poolLegal_of_eq p rfl rfl rfl, fun e k => ⟨⟨e.one, e.slots⟩, k.two, k.latch, k.stamp, k.attention⟩,
    fun n => ⟨n.due, n.slots, n.active, n.active, n.episodes⟩⟩

/-- A new commit state or result touches no entry. -/
theorem upholds_result (p : Bool) (r : Option CommitResult) (s : State) :
    Upholds s { s with table := { s.table with pending := p, lastResult := r } } :=
  ⟨fun p => poolLegal_of_eq p rfl rfl rfl, fun e k => ⟨⟨e.one, e.slots⟩, k.two, k.latch, k.stamp, k.attention⟩,
    fun n => ⟨n.due, n.slots, n.active, n.staged, n.episodes⟩⟩

/-! ### The other bodies -/

theorem upholds_loadBandsBody (images : List (List Byte)) (m : Modifiers) (s : State) :
    Upholds s (loadBandsBody images m s).1 := by
  unfold loadBandsBody
  split
  · split
    · split
      · exact .refl s
      · split
        · exact .refl s
        · exact upholds_same rfl rfl rfl rfl rfl rfl rfl rfl
    · exact .refl s
  · exact .refl s

theorem upholds_loadExceptionsBody (images : List (List Byte)) (m : Modifiers) (s : State) :
    Upholds s (loadExceptionsBody images m s).1 := by
  unfold loadExceptionsBody
  split
  · split
    · split
      · exact .refl s
      · split
        · exact .refl s
        · exact upholds_same rfl rfl rfl rfl rfl rfl rfl rfl
    · exact .refl s
  · exact .refl s

theorem kinds_discardWindows (s : State) : s.discardWindows.windows.kinds = s.windows.kinds := by
  show (List.map _ (List.map _ _)) = _
  unfold WindowEngine.kinds
  rw [List.map_map]
  refine List.map_congr_left fun row _ => ?_
  rw [Function.comp, List.map_map]
  refine List.map_congr_left fun u _ => ?_
  cases u <;> rfl

theorem unitAt_discardWindows (s : State) (i slot : Nat) : s.discardWindows.windows.unitAt i slot =
    (s.windows.unitAt i slot).map (fun u => { u with acc := .idle }) := by
  unfold WindowEngine.unitAt gridAt State.discardWindows
  simp only [List.getElem?_map]
  cases s.windows.units[i]? with
  | none => rfl
  | some row =>
    simp only [Option.map_some, Option.bind_some, List.getElem?_map]
    cases row[slot]? <;> rfl

/-- A clock loaded and a clock stopped: the windows are discarded before anything else reads them. -/
theorem upholds_loadTime (day eighth weekday : Nat) (s : State) : Upholds s (s.loadTime day eighth weekday) := by
  unfold State.loadTime
  extract_lets s1 s2
  refine Upholds.trans ?_ ((upholds_decideBand _ _ s2).trans (upholds_raise _ _))
  have hw : (s1.demandClose (fun _ => true) .timeSet).windows = s.windows := (judges_demandClose _ _ s1).windows
  have ht : (s1.demandClose (fun _ => true) .timeSet).table = s.table := (judges_demandClose _ _ s1).table
  have hd := upholds_demandClose (fun _ => true) .timeSet s1
  refine ⟨fun p => ?_, fun e k => ?_, fun n => ?_⟩
  · refine poolLegal_of_kinds p ((kinds_discardWindows _).trans (by rw [hw])) ?_ fun _ i slot u hu => ?_
    · show (s1.demandClose (fun _ => true) .timeSet).table.active = _
      rw [ht]
    · have hu' : (s1.demandClose (fun _ => true) .timeSet).discardWindows.windows.unitAt i slot = some u := hu
      rw [unitAt_discardWindows] at hu'
      obtain ⟨v, -, rfl⟩ := Option.map_eq_some_iff.1 hu'
      rfl
  · obtain ⟨e', k'⟩ := hd.legal ⟨e.one, e.slots⟩ ⟨k.two, k.latch, k.stamp, k.attention⟩
    exact ⟨⟨e'.one, e'.slots⟩, k'.two, k'.latch, k'.stamp, k'.attention⟩
  · have n' := hd.names ⟨n.due, n.slots, n.active, n.staged, n.episodes⟩
    exact ⟨n'.due, n'.slots, n'.active, n'.staged, n'.episodes⟩

theorem upholds_setTimeBody (ops : Nat × Nat × Nat) (m : Modifiers) (s : State) :
    Upholds s (setTimeBody ops m s).1 := by
  unfold setTimeBody
  split
  · exact .refl s
  · split
    · exact .refl s
    · exact (upholds_finishStamped s).trans (upholds_loadTime _ _ _ _)

theorem upholds_startClock (s : State) : Upholds s s.startClock := by
  unfold State.startClock
  extract_lets src s1
  refine Upholds.trans (Upholds.trans ?_ (upholds_decideBand false false _)) (upholds_openIdles _ _ s1)
  exact ⟨fun p => poolLegal_of_kinds p rfl rfl fun h => absurd (show true = false from h) (by decide),
    fun e k => ⟨⟨e.one, e.slots⟩, k.two, k.latch, k.stamp, k.attention⟩,
    fun n => ⟨n.due, n.slots, n.active, n.staged, n.episodes⟩⟩

theorem upholds_startTimeBody (ops : Unit) (m : Modifiers) (s : State) : Upholds s (startTimeBody ops m s).1 := by
  unfold startTimeBody
  split
  · exact .refl s
  · split
    · exact .refl s
    · exact (upholds_finishStamped s).trans (upholds_startClock _)
  · split <;> exact .refl s

theorem upholds_trimBody (trim : Int) (m : Modifiers) (s : State) : Upholds s (trimBody trim m s).1 := by
  unfold trimBody
  split
  · exact .refl s
  · split
    · exact .refl s
    · exact upholds_same rfl rfl rfl rfl rfl rfl rfl rfl

theorem upholds_restartSlot (slot : Nat) (s : State) : Upholds s (s.restartSlot slot) := by
  refine Upholds.trans (upholds_restartAccs (s.pairsWhere (fun _ n => n == slot)) s) ?_
  exact upholds_same rfl rfl rfl rfl rfl rfl rfl rfl

theorem upholds_restartAll (s : State) : Upholds s s.restartAll := by
  refine Upholds.trans (upholds_restartAccs (s.pairsWhere (fun _ _ => true)) s) ?_
  exact upholds_same rfl rfl rfl rfl rfl rfl rfl rfl

theorem upholds_rebind (slot : Nat) (link : SlotLink) (s : State) : Upholds s (s.rebind slot link) :=
  ((upholds_demandClose _ _ _).trans (upholds_restartSlot _ _)).trans (upholds_modifySlot _ _ _)

theorem upholds_bindSlotBody (ops : Nat × Nat) (m : Modifiers) (s : State) : Upholds s (bindSlotBody ops m s).1 := by
  unfold bindSlotBody
  split
  · exact .refl s
  · split
    · exact .refl s
    · exact upholds_rebind _ _ s

theorem upholds_unbindSlotBody (slot : Nat) (m : Modifiers) (s : State) :
    Upholds s (unbindSlotBody slot m s).1 := by
  unfold unbindSlotBody
  split
  · exact .refl s
  · split
    · exact .refl s
    · split
      · exact .refl s
      · exact upholds_rebind _ _ s

theorem upholds_loadPlantBody (images : List (List Byte)) (m : Modifiers) (s : State) :
    Upholds s (loadPlantBody images m s).1 := by
  unfold loadPlantBody
  split
  · split
    · exact upholds_foldl (fun _ _ => upholds_changeLine _ _ _) _ _
    · exact .refl s
  · exact .refl s

theorem upholds_clearCoincidence (s : State) : Upholds s s.clearCoincidence :=
  ⟨fun p => poolLegal_of_eq p rfl rfl rfl,
    fun e k => ⟨⟨e.one, e.slots⟩, fun h => absurd rfl h, by simp [State.clearCoincidence, Coincidence.empty],
      by simp [State.clearCoincidence, Coincidence.empty], k.attention⟩,
    fun n => ⟨n.due, n.slots, n.active, n.staged, n.episodes⟩⟩

theorem upholds_restartAnalysisBody (ops : Unit) (m : Modifiers) (s : State) :
    Upholds s (restartAnalysisBody ops m s).1 := by
  unfold restartAnalysisBody
  split
  · exact .refl s
  · split
    · exact .refl s
    · exact ((upholds_demandClose _ _ _).trans (upholds_restartAll _)).trans (upholds_clearCoincidence _)

theorem upholds_setBeaconBody (ops : Nat × Nat × Nat) (m : Modifiers) (s : State) :
    Upholds s (setBeaconBody ops m s).1 := by
  unfold setBeaconBody
  split
  · split
    · exact .refl s
    · exact upholds_same rfl rfl rfl rfl rfl rfl rfl rfl
  · exact .refl s

theorem upholds_beaconOverrideBody (ops : Nat × Nat) (m : Modifiers) (s : State) :
    Upholds s (beaconOverrideBody ops m s).1 := by
  unfold beaconOverrideBody
  split
  · split
    · exact .refl s
    · exact upholds_same rfl rfl rfl rfl rfl rfl rfl rfl
  · exact .refl s

theorem upholds_setMask (mask : NoticeSet) (s : State) : Upholds s (s.setMask mask) := by
  unfold State.setMask
  have h := told_settleLatch { s with notices := { s.notices with mask := mask } }
  refine upholds_of (by rw [h.windows]) h.table (by rw [h.clock]) (by rw [h.slots]) (by rw [h.episodes])
    (by rw [h.plant]) (fun _ => settled_settleLatch _) fun d hd => ?_
  exact (h.due d hd).imp_right fun hv => by rw [hv]; trivial

theorem upholds_setNoticeMaskBody (ops : Nat × Nat) (m : Modifiers) (s : State) :
    Upholds s (setNoticeMaskBody ops m s).1 := by
  unfold setNoticeMaskBody
  split
  · split
    · exact .refl s
    · exact upholds_setMask _ s
  · exact .refl s

theorem upholds_clearNotices (s : State) : Upholds s s.clearNotices :=
  upholds_of rfl rfl rfl rfl (List.Sublist.refl _) rfl (fun _ _ => BitVec.zero_and) fun _ h => .inl h

theorem upholds_setCadenceBody (ops : CadenceOperands) (m : Modifiers) (s : State) :
    Upholds s (setCadenceBody ops m s).1 := by
  unfold setCadenceBody
  split
  · split
    · exact .refl s
    · refine (upholds_takeDue plainTick .summary s).trans ?_
      exact upholds_same rfl rfl rfl rfl rfl rfl rfl rfl
  · exact .refl s

theorem upholds_cancelQueryBody (position : Nat) (m : Modifiers) (s : State) :
    Upholds s (cancelQueryBody position m s).1 := by
  unfold cancelQueryBody
  split
  · exact upholds_same rfl rfl rfl rfl rfl rfl rfl rfl
  · split
    · exact .refl s
    · split
      · exact .refl s
      · exact upholds_same rfl rfl rfl rfl rfl rfl rfl rfl

/-! ### The resets -/

theorem upholds_holdPins (s : State) : Upholds s s.holdPins := by
  rw [holdPins_whole]
  exact upholds_same rfl rfl rfl rfl rfl rfl rfl rfl

theorem length_filter_kinds_le {a b : List (Option PoolUnit)} (h : a.Sublist b) (kind : Bool) :
    ((a.filterMap id).filter (fun u => u.histogram == kind)).length ≤
      ((b.filterMap id).filter (fun u => u.histogram == kind)).length :=
  ((h.filterMap _).filter _).length_le

/-- The units a line reset keeps are among those that were held. -/
theorem unitAt_lineReset (frozen : BitVec 64) (w : WindowEngine) (i slot : Nat) :
    (w.lineReset frozen).unitAt i slot = if frozen.getLsbD i then w.unitAt i slot else none := by
  unfold WindowEngine.unitAt WindowEngine.lineReset gridAt
  simp only [List.getElem?_map, List.getElem?_zipIdx, Nat.zero_add]
  cases w.units[i]? with
  | none => cases frozen.getLsbD i <;> rfl
  | some row =>
    simp only [Option.map_some, Option.bind_some]
    cases frozen.getLsbD i with
    | true => rfl
    | false =>
      simp only [Bool.false_eq_true, if_false, List.getElem?_map]
      cases row[slot]? <;> rfl

theorem inUse_lineReset_le (frozen : BitVec 64) (w : WindowEngine) (kind : Bool) :
    (w.lineReset frozen).inUse kind ≤ w.inUse kind := by
  unfold WindowEngine.inUse WindowEngine.lineReset
  have rows (us : List (List (Option PoolUnit))) (n : Nat) :
      ((((us.zipIdx n).map (fun p => if frozen.getLsbD p.2 then p.1 else p.1.map (fun _ => none))).flatten.filterMap
        id).filter (fun u => u.histogram == kind)).length ≤
      ((us.flatten.filterMap id).filter (fun u => u.histogram == kind)).length := by
    induction us generalizing n with
    | nil => simp
    | cons row us ih =>
      simp only [List.zipIdx_cons, List.map_cons, List.flatten_cons, List.filterMap_append, List.filter_append,
        List.length_append]
      refine Nat.add_le_add ?_ (ih _)
      split
      · exact Nat.le_refl _
      · simp
  exact rows w.units 0

theorem poolLegal_lineCleared {straps : BitVec 2} {position : Nat} {s : State} (h : s.PoolLegal) :
    (s.lineCleared straps position).PoolLegal where
  rows := by
    show (List.map _ _).length = _
    rw [List.length_map, List.length_zipIdx]
    exact h.rows
  slots row hrow := by
    obtain ⟨⟨r, n⟩, hmem, rfl⟩ := List.mem_map.1 hrow
    have hr := h.slots r (List.mem_of_getElem? (List.mem_zipIdx_iff_getElem?.1 hmem))
    split
    · exact hr
    · rw [List.length_map]
      exact hr
  plain := (inUse_lineReset_le _ _ _).trans h.plain
  hist := (inUse_lineReset_le _ _ _).trans h.hist
  pairs i slot hi hs := by
    show ((s.windows.lineReset _).unitAt i slot).isSome ↔
      ∃ e, (s.table.active.frozenOnly s.table.frozen).at i = some e ∧ _
    rw [unitAt_lineReset, at_frozenOnly]
    split
    · exact h.pairs i slot hi hs
    · simp
  ln i slot e u hat hln hu := by
    have hat' : (s.table.active.frozenOnly s.table.frozen).at i = some e := hat
    have hu' : (s.windows.lineReset s.table.frozen).unitAt i slot = some u := hu
    rw [at_frozenOnly] at hat'
    rw [unitAt_lineReset] at hu'
    split at hat'
    · next hf => exact h.ln i slot e u hat' hln (by rwa [if_pos hf] at hu')
    · cases hat'
  idle hr i slot u hu := by
    have hu' : (s.windows.lineReset s.table.frozen).unitAt i slot = some u := hu
    rw [unitAt_lineReset] at hu'
    split at hu'
    · exact h.idle hr i slot u hu'
    · cases hu'

theorem legal_lineCleared (straps : BitVec 2) (position : Nat) (s : State) :
    (s.lineCleared straps position).EpisodesLegal ∧ (s.lineCleared straps position).LatchesLegal :=
  ⟨⟨List.nodup_nil, fun _ he => by cases he⟩, fun h => absurd rfl h,
    iff_of_false Bool.false_ne_true fun h => h rfl, iff_of_false Bool.false_ne_true fun h => h rfl,
    fun _ => BitVec.zero_and⟩

theorem namesExist_lineCleared {straps : BitVec 2} {position : Nat} {s : State} (h : s.NamesExist) :
    (s.lineCleared straps position).NamesExist := by
  have frozen_keys (i : Nat) (e : LimitEntry) (hat : (s.table.active.frozenOnly s.table.frozen).at i = some e) :
      keyExists e.key := by
    rw [at_frozenOnly] at hat
    split at hat
    · exact h.active i e hat
    · cases hat
  refine ⟨fun _ hd => absurd hd List.not_mem_nil, ?_, frozen_keys, frozen_keys,
    fun _ he => absurd he List.not_mem_nil⟩
  show (List.map _ _).length = _
  rw [List.length_map]
  exact h.slots

theorem upholds_lineReset (straps : BitVec 2) (position : Nat) (s : State) :
    Upholds s (s.lineReset straps position) := by
  rw [lineReset_eq]
  have cleared : Upholds s.takeRecognitions (s.takeRecognitions.lineCleared straps position) :=
    ⟨poolLegal_lineCleared, fun _ _ => legal_lineCleared _ _ _, namesExist_lineCleared⟩
  refine ((upholds_takeRecognitions s).trans cleared).trans (Upholds.trans ?_ (upholds_restartAccs _ _))
  exact upholds_same rfl rfl rfl rfl rfl rfl rfl rfl

theorem powerOn_unitAt (straps : BitVec 2) (i slot : Nat) : (State.powerOn straps).windows.unitAt i slot = none := by
  show (gridAt (List.replicate _ (List.replicate _ none)) i slot).join = none
  unfold gridAt
  rw [List.getElem?_replicate]
  split
  · simp only [Option.bind_some, List.getElem?_replicate]
    split <;> rfl
  · rfl

theorem powerOn_at (i : Nat) : EntryTable.empty.at i = none := by
  unfold EntryTable.empty EntryTable.at
  rw [List.getElem?_replicate]
  split <;> rfl

theorem powerOn_inUse (straps : BitVec 2) (kind : Bool) : (State.powerOn straps).windows.inUse kind = 0 := by
  have hnone (n m : Nat) : (List.replicate n (List.replicate m (none : Option PoolUnit))).flatten.filterMap id = [] := by
    rw [List.filterMap_eq_nil_iff]
    intro u hu
    obtain ⟨row, hrow, hmem⟩ := List.mem_flatten.1 hu
    rw [(List.mem_replicate.1 hrow).2] at hmem
    exact (List.mem_replicate.1 hmem).2
  show ((List.filterMap id (List.flatten (List.replicate _ (List.replicate _ none)))).filter _).length = 0
  rw [hnone]
  rfl

theorem powerOn_poolLegal (straps : BitVec 2) : (State.powerOn straps).PoolLegal where
  rows := rfl
  slots row hrow := (List.mem_replicate.1 hrow).2 ▸ rfl
  plain := powerOn_inUse straps false ▸ Nat.zero_le _
  hist := powerOn_inUse straps true ▸ Nat.zero_le _
  pairs i slot _ _ := by
    rw [powerOn_unitAt]
    exact iff_of_false (by simp) fun ⟨e, he, _⟩ => by cases (powerOn_at i).symm.trans he
  ln i slot e u _ _ hu := by cases (powerOn_unitAt straps i slot).symm.trans hu
  idle _ i slot u hu := by cases (powerOn_unitAt straps i slot).symm.trans hu

theorem powerOn_legal (straps : BitVec 2) :
    (State.powerOn straps).EpisodesLegal ∧ (State.powerOn straps).LatchesLegal :=
  ⟨⟨List.nodup_nil, fun _ he => by cases he⟩, fun h => absurd rfl h,
    iff_of_false Bool.false_ne_true fun h => h rfl, iff_of_false Bool.false_ne_true fun h => h rfl,
    fun _ => BitVec.zero_and⟩

theorem powerOn_namesExist (straps : BitVec 2) : (State.powerOn straps).NamesExist :=
  ⟨fun _ hd => absurd hd List.not_mem_nil, rfl, fun i _ he => (nomatch (powerOn_at i).symm.trans he),
    fun i _ he => (nomatch (powerOn_at i).symm.trans he), fun _ he => absurd he List.not_mem_nil⟩

/-! ### Every command, and the step -/

theorem exec_upholds {c : Instr} {s t : State} (h : exec c s = .next t) : Upholds s t := by
  suffices hex : ∃ u, exec c s = .next u ∧ Upholds s u by
    obtain ⟨u, hu, hup⟩ := hex
    rw [h] at hu
    exact Host.Outcome.next.inj hu ▸ hup
  cases c with
  | powerOnReset a =>
    have hl := powerOn_legal a
    have hp := powerOn_poolLegal a
    have hn := powerOn_namesExist a
    exact ⟨_, rfl, fun _ => poolLegal_of_eq hp rfl rfl rfl,
      fun _ _ => ⟨⟨hl.1.one, hl.1.slots⟩, hl.2.two, hl.2.latch, hl.2.stamp, hl.2.attention⟩,
      fun _ => ⟨hn.due, hn.slots, hn.active, hn.staged, hn.episodes⟩⟩
  | resetAsserted => exact ⟨_, rfl, upholds_holdPins s⟩
  | lineReset a p =>
    refine ⟨_, rfl, ?_⟩
    split
    · exact upholds_lineReset a p s
    · exact .refl s
  | tick choice => exact ⟨_, rfl, upholds_tick _ _⟩
  | fieldPortFrame bytes => exact ⟨_, rfl, upholds_receiveField _ _⟩
  | controlFrame bytes => exact ⟨_, rfl, upholds_receiveGateway _ _⟩
  | unknownItem => exact ⟨_, rfl, upholds_takeUnknown _⟩
  | controlFrameEnd => exact ⟨_, rfl, upholds_takeEnd _⟩
  | loadEntries => exact ⟨_, rfl, upholds_takeItem upholds_loadEntriesBody _⟩
  | removeEntry => exact ⟨_, rfl, upholds_takeItem upholds_removeEntryBody _⟩
  | revertStaging =>
    refine ⟨_, rfl, upholds_takeItem (fun _ _ s => ?_) _⟩
    unfold revertStagingBody
    split
    · exact .refl s
    · exact upholds_revert s
  | commit =>
    refine ⟨_, rfl, upholds_takeItem (fun _ _ s => ?_) _⟩
    unfold commitBody
    split
    · exact .refl s
    · split
      · exact .refl s
      · exact upholds_result _ _ s
  | clearCommitResult =>
    refine ⟨_, rfl, upholds_takeItem (fun _ _ s => ?_) _⟩
    unfold clearCommitResultBody
    split
    · exact .refl s
    · exact upholds_result _ _ s
  | freezeEntry => exact ⟨_, rfl, upholds_takeItem upholds_freezeEntryBody _⟩
  | loadBands => exact ⟨_, rfl, upholds_takeItem upholds_loadBandsBody _⟩
  | loadExceptions => exact ⟨_, rfl, upholds_takeItem upholds_loadExceptionsBody _⟩
  | setTime => exact ⟨_, rfl, upholds_takeItem upholds_setTimeBody _⟩
  | startTime => exact ⟨_, rfl, upholds_takeItem upholds_startTimeBody _⟩
  | trim => exact ⟨_, rfl, upholds_takeItem upholds_trimBody _⟩
  | bindSlot => exact ⟨_, rfl, upholds_takeItem upholds_bindSlotBody _⟩
  | unbindSlot => exact ⟨_, rfl, upholds_takeItem upholds_unbindSlotBody _⟩
  | loadPlant => exact ⟨_, rfl, upholds_takeItem upholds_loadPlantBody _⟩
  | fetchCoincidence => exact ⟨_, rfl, upholds_takeItem (fun _ _ s => upholds_clearCoincidence s) _⟩
  | restartAnalysis => exact ⟨_, rfl, upholds_takeItem upholds_restartAnalysisBody _⟩
  | setBeacon => exact ⟨_, rfl, upholds_takeItem upholds_setBeaconBody _⟩
  | beaconOverride => exact ⟨_, rfl, upholds_takeItem upholds_beaconOverrideBody _⟩
  | setNoticeMask => exact ⟨_, rfl, upholds_takeItem upholds_setNoticeMaskBody _⟩
  | fetchNotices => exact ⟨_, rfl, upholds_takeItem (fun _ _ s => upholds_clearNotices s) _⟩
  | setCadence => exact ⟨_, rfl, upholds_takeItem upholds_setCadenceBody _⟩
  | cancelQuery => exact ⟨_, rfl, upholds_takeItem upholds_cancelQueryBody _⟩
  | readTime | readSlot | readWindow | readEpisodes =>
    exact ⟨_, rfl, upholds_takeItem (fun _ _ _ => upholds_readKept _ _ _) _⟩
  | probeEntry | readEntry | readBands | readPlant | readHistogram | readStatus =>
    exact ⟨_, rfl, upholds_takeItem_of_eq (fun _ _ _ => rfl) _⟩
  | gatewayTxDone offerNow => exact ⟨_, rfl, upholds_gatewayDone _ _⟩
  | fieldTxDone => exact ⟨_, rfl, upholds_fieldDone _⟩
  | sample pins => exact ⟨_, rfl, (upholds_takeRecognitions s).trans (upholds_samplePins _ _)⟩
  | plantLineRecognition _ | markPress | certifyChange | commitChecks _ | stallTimerExpiry _
  | holdOffExpiry _ _ | maximumLength _ _ | pulseEnd _ | flashTurn _ | baseUnderflow
  | summaryUnderflow | waitingVerdictOffer | markRecordOffer =>
    exact ⟨_, rfl, upholds_takeDue _ _ _⟩

theorem step_upholds {s t : State} (h : step s = .next t) : Upholds s t := by
  obtain ⟨-, rfl⟩ | ⟨c, rest, -, hc⟩ := step_cases h
  · exact .refl _
  · refine Upholds.trans ?_ (exec_upholds hc)
    exact upholds_same rfl rfl rfl rfl rfl rfl rfl rfl

/-! ### The statements -/

/-- Settles O7: every step upholds the invariants, the pool among them. -/
theorem stepKeepsPool : Obligations.StepKeepsPool := by
  unfold Obligations.StepKeepsPool
  exact fun _ _ hs h => (step_upholds h).pool hs

/-- Settles O8: every step upholds the invariants, the episodes and latches among them. -/
theorem stepKeepsEpisodesAndLatches : Obligations.StepKeepsEpisodesAndLatches := by
  unfold Obligations.StepKeepsEpisodesAndLatches
  exact fun _ _ he hl h => (step_upholds h).legal he hl

/-- Settles O3: the power-on values, invariant by invariant. -/
theorem resetMeetsInvariants : Obligations.ResetMeetsInvariants := by
  unfold Obligations.ResetMeetsInvariants
  exact ⟨rfl, fun straps => ⟨powerOn_capacities straps, powerOn_clockLegal straps, powerOn_bandLegal straps,
    powerOn_frozenEqual straps, powerOn_poolLegal straps, (powerOn_legal straps).1, (powerOn_legal straps).2,
    powerOn_namesExist straps⟩⟩

end Sys2Proof.Machine

/-! Operands that name nothing (log 29): an order, a key or a pair that names nothing the part has picks nothing, and
a position beyond the run being sent cuts nothing. -/

namespace Sys2Proof.Machine

/-! ### Rows that pick nothing -/

theorem takeDue_of_not_exists {d : Due} {s : State} (h : s.NamesExist) (hd : ¬dueExists d) (c : TickChoice) :
    s.takeDue c d = s :=
  takeDue_id fun hin => hd (h.due d hin)

theorem takeTick_of_not_exists {d : Due} {s : State} (h : s.NamesExist) (hd : ¬dueExists d) (c : TickChoice) :
    s.takeTick c d = s := by
  unfold State.takeTick
  split
  · exact absurd trivial hd
  · exact takeDue_of_not_exists h hd c

theorem not_keyExists {key : Nat} (h : key = 0 ∨ 65535 < key) : ¬keyExists key := by
  rintro ⟨h1, h2⟩
  simp only [Config.max16] at h2
  omega

/-! ### Ticks under choices that agree on what they do -/

section
variable {P : State → Prop} {c c' : TickChoice}

/-- Two choices of which every piece of work does the same, in the states that satisfy a kept property. -/
structure Agree (P : State → Prop) (c c' : TickChoice) : Prop where
  work  : ∀ d s, P s → s.work c d = s.work c' d
  clear : ∀ d s, P s → P (s.clearDue d)
  kept  : ∀ d s, P s → P (s.work c d)

theorem Agree.takeDue (h : Agree P c c') (d : Due) {s : State} (hs : P s) :
    s.takeDue c d = s.takeDue c' d ∧ P (s.takeDue c d) := by
  unfold State.takeDue
  split
  · exact ⟨h.work d _ (h.clear d s hs), h.kept d _ (h.clear d s hs)⟩
  · exact ⟨rfl, hs⟩

theorem Agree.takeTick (h : Agree P c c') (d : Due) {s : State} (hs : P s) :
    s.takeTick c d = s.takeTick c' d ∧ P (s.takeTick c d) := by
  unfold State.takeTick
  split
  · obtain ⟨heq, hp⟩ := h.takeDue .windows hs
    rw [← heq]
    exact h.takeDue .band hp
  · exact h.takeDue _ hs

theorem Agree.takeAll (h : Agree P c c') (ds : List Due) {s : State} (hs : P s) :
    s.takeAll c ds = s.takeAll c' ds ∧ P (s.takeAll c ds) := by
  unfold State.takeAll
  induction ds generalizing s with
  | nil => exact ⟨rfl, hs⟩
  | cons d ds ih =>
    obtain ⟨heq, hp⟩ := h.takeTick d hs
    rw [List.foldl_cons, List.foldl_cons, ← heq]
    exact ih hp

theorem Agree.flush (h : Agree P c c') (n : Nat) {s : State} (hs : P s) :
    s.flush c n = s.flush c' n ∧ P (s.flush c n) := by
  induction n generalizing s with
  | zero => exact ⟨rfl, hs⟩
  | succ n ih =>
    unfold State.flush
    split
    · exact ⟨rfl, hs⟩
    · next d ds _ =>
      obtain ⟨heq, hp⟩ := h.takeTick d hs
      rw [← heq]
      exact ih hp

end

/-- What a tick does after its order: the counts, the boundaries and the band decision. -/
def State.tickTail (c : TickChoice) (s : State) : State :=
  ((s.takeCounts s.due).takeTick c .windows).takeTick c .band

theorem tick_eq (c : TickChoice) (s : State) :
    s.tick c = (((s.finishDue c).advance).takeAll c c.order).tickTail c := rfl

theorem Agree.tickTail {P : State → Prop} {c c' : TickChoice} (h : Agree P c c')
    (hcounts : ∀ ds s, P s → P (s.takeCounts ds)) {s : State} (hs : P s) : s.tickTail c = s.tickTail c' := by
  unfold State.tickTail
  obtain ⟨heq, hp⟩ := h.takeTick .windows (hcounts s.due s hs)
  rw [← heq]
  exact (h.takeTick .band hp).1

/-! ### A piece of the order that names nothing -/

/-- Choices that differ in their order alone do the same work. -/
theorem work_order (order order' : List Due) (first : Bool) (swap : SwapChoice) (d : Due) (s : State) :
    s.work ⟨order, first, swap⟩ d = s.work ⟨order', first, swap⟩ d := by
  cases d <;> rfl

theorem agree_order (order order' : List Due) (first : Bool) (swap : SwapChoice) :
    Agree State.NamesExist ⟨order, first, swap⟩ ⟨order', first, swap⟩ :=
  ⟨fun d s _ => work_order order order' first swap d s, fun d s h => (upholds_clearDue d s).names h,
    fun d s h => (upholds_work _ d s).names h⟩

theorem takeAll_append (c : TickChoice) (ds es : List Due) (s : State) :
    s.takeAll c (ds ++ es) = (s.takeAll c ds).takeAll c es := List.foldl_append

theorem takeAll_of_not_exists {c : TickChoice} {before after : List Due} {d : Due} {s : State} (h : s.NamesExist)
    (hd : ¬dueExists d) : s.takeAll c (before ++ d :: after) = s.takeAll c (before ++ after) := by
  rw [takeAll_append, takeAll_append]
  have hb : (s.takeAll c before).NamesExist := (upholds_foldl (fun _ _ => upholds_takeTick _ _ _) before s).names h
  show State.takeAll c after ((s.takeAll c before).takeTick c d) = _
  rw [takeTick_of_not_exists hb hd]

theorem namesExist_finishDue {s : State} (h : s.NamesExist) (c : TickChoice) : (s.finishDue c).NamesExist := by
  rw [finishDue_eq]
  exact (upholds_flush _ _ _).names h

theorem tick_of_not_exists {before after : List Due} {d : Due} {first : Bool} {swap : SwapChoice} {s : State}
    (h : s.NamesExist) (hd : ¬dueExists d) :
    s.tick ⟨before ++ d :: after, first, swap⟩ = s.tick ⟨before ++ after, first, swap⟩ := by
  have agree := agree_order (before ++ d :: after) (before ++ after) first swap
  have hstart : s.finishDue ⟨before ++ d :: after, first, swap⟩ = s.finishDue ⟨before ++ after, first, swap⟩ := by
    rw [finishDue_eq, finishDue_eq]
    exact (agree.flush _ h).1
  have hadv := (upholds_advance _).names (namesExist_finishDue h ⟨before ++ after, first, swap⟩)
  rw [tick_eq, tick_eq, hstart]
  obtain ⟨hall, hnames⟩ := agree.takeAll (before ++ d :: after) hadv
  rw [agree.tickTail (fun ds s hs => (upholds_takeCounts ds s).names hs) hnames]
  congr 1
  exact hall.trans (takeAll_of_not_exists hadv hd)

/-! ### Keys and pairs of a swap that name nothing -/

theorem find_of_not_exists {t : EntryTable} {key : Nat} (h : ∀ i e, t.at i = some e → keyExists e.key)
    (hk : ¬keyExists key) : t.find key = none := by
  cases hf : t.find key with
  | none => rfl
  | some p =>
    obtain ⟨hat, rfl⟩ := find_entry (i := p.1) (e := p.2) hf
    exact absurd (h _ _ hat) hk

theorem closeKey_of_not_exists {s : State} {key : Nat} (h : s.NamesExist) (hk : ¬keyExists key) :
    s.closeKey key = s := by
  unfold State.closeKey
  rw [find_of_not_exists h.active hk]

theorem closeKeys_of_not_exists {s : State} {before after : List Nat} {key : Nat} (h : s.NamesExist)
    (hk : ¬keyExists key) : s.closeKeys (before ++ key :: after) = s.closeKeys (before ++ after) := by
  unfold State.closeKeys
  simp only [List.append_assoc, List.cons_append, List.foldl_append, List.foldl_cons]
  rw [closeKey_of_not_exists ((upholds_foldl upholds_closeKey before s).names h) hk]

theorem checkCommit_of_not_key {s : State} {before after : List Nat} {key : Nat} {plain : List (Nat × Nat)}
    {first : Bool} (h : s.NamesExist) (hk : ¬keyExists key) :
    s.checkCommit ⟨before ++ key :: after, plain, first⟩ = s.checkCommit ⟨before ++ after, plain, first⟩ := by
  unfold State.checkCommit State.swap
  simp only [closeKeys_of_not_exists h hk]

theorem filter_eraseDups {α : Type} [BEq α] [LawfulBEq α] (q : α → Bool) (l : List α) :
    l.eraseDups.filter q = (l.filter q).eraseDups := by
  induction hn : l.length using Nat.strong_induction_on generalizing l with
  | _ n ih =>
    cases l with
    | nil => rfl
    | cons a as =>
      have hrest := ih (as.filter (fun b => !b == a)).length
        (hn ▸ Nat.lt_succ_of_le (List.length_filter_le _ _)) (as.filter (fun b => !b == a)) rfl
      rw [List.eraseDups_cons]
      by_cases ha : q a = true
      · rw [List.filter_cons_of_pos ha, List.filter_cons_of_pos ha, List.eraseDups_cons, hrest, List.filter_filter,
          List.filter_filter]
        simp only [Bool.and_comm]
      · rw [List.filter_cons_of_neg ha, List.filter_cons_of_neg ha, hrest, List.filter_filter]
        congr 1
        refine List.filter_congr fun b _ => ?_
        by_cases hb : b = a
        · simp [hb, ha]
        · simp [hb]

theorem plainHolders_of_not_pair {t : EntryTable} {before after : List (Nat × Nat)} {pair : Nat × Nat}
    (h : pair ∉ t.plainPairs) : t.plainHolders (before ++ pair :: after) = t.plainHolders (before ++ after) := by
  unfold EntryTable.plainHolders EntryTable.plainOrder
  have hout : t.plainPairs.contains pair = false := by simpa using h
  simp only [filter_eraseDups, List.filter_append, List.filter_cons, hout, Bool.false_eq_true, if_false]

theorem not_plainPair {t : EntryTable} {pair : Nat × Nat} (hlen : t.length = Config.entryCount)
    (h : 64 ≤ pair.1 ∨ 12 ≤ pair.2) : pair ∉ t.plainPairs := fun hin => by
  rw [plainPairs_eq] at hin
  obtain ⟨e, hat, -, hslot⟩ := mem_pairsOf.1 hin
  have hi := at_lt hat
  have hs : pair.2 < 12 := BitVec.lt_of_getLsbD hslot
  simp only [Config.entryCount] at hlen
  omega

theorem checkCommit_of_not_pair {s : State} {keys : List Nat} {before after : List (Nat × Nat)} {pair : Nat × Nat}
    {first : Bool} (h : s.table.FrozenEqual) (hp : 64 ≤ pair.1 ∨ 12 ≤ pair.2) :
    s.checkCommit ⟨keys, before ++ pair :: after, first⟩ = s.checkCommit ⟨keys, before ++ after, first⟩ := by
  have ht : (s.closeKeys keys).table = s.table := (judges_closeKeys _ _).table
  have hmove : (s.closeKeys keys).moveKeys (before ++ pair :: after) =
      (s.closeKeys keys).moveKeys (before ++ after) := by
    unfold State.moveKeys WindowEngine.moved
    rw [plainHolders_of_not_pair (by rw [ht]; exact not_plainPair h.staged hp)]
  unfold State.checkCommit State.swap
  simp only [hmove]

/-- Choices whose swaps check commits alike agree. -/
theorem agree_swap {P : State → Prop} {order : List Due} {first : Bool} {swap swap' : SwapChoice}
    (hcheck : ∀ s, P s → s.checkCommit swap = s.checkCommit swap') (hclear : ∀ d s, P s → P (s.clearDue d))
    (hkept : ∀ c d s, P s → P (s.work c d)) : Agree P ⟨order, first, swap⟩ ⟨order, first, swap'⟩ where
  work d s hs := by
    cases d with
    | commit => exact hcheck s hs
    | _ => rfl
  clear := hclear
  kept d s hs := hkept _ d s hs

/-- Swaps that check commits alike make the same COMMIT_CHECKS and the same TICK. -/
theorem exec_swap_congr {P : State → Prop} {swap swap' : SwapChoice}
    (hcheck : ∀ s, P s → s.checkCommit swap = s.checkCommit swap') (hclear : ∀ d s, P s → P (s.clearDue d))
    (hkept : ∀ c d s, P s → P (s.work c d)) (hadv : ∀ s, P s → P s.advance) {s : State} (hs : P s)
    (order : List Due) (first : Bool) :
    exec (.commitChecks swap) s = exec (.commitChecks swap') s ∧
      exec (.tick ⟨order, first, swap⟩) s = exec (.tick ⟨order, first, swap'⟩) s := by
  have agree (order : List Due) (first : Bool) := agree_swap (order := order) (first := first) hcheck hclear hkept
  have hcounts (ds : List Due) (s : State) (hs : P s) : P (s.takeCounts ds) := by
    unfold State.takeCounts
    induction ds generalizing s with
    | nil => exact hs
    | cons d ds ih =>
      refine ih _ ?_
      beta_reduce
      split
      · exact ((agree_swap (order := []) (first := false) (swap := plainSwap) (fun _ _ => rfl) hclear hkept).takeDue d hs).2
      · exact hs
  refine ⟨congrArg Host.Outcome.next ((agree [] false).takeDue .commit hs).1, congrArg Host.Outcome.next ?_⟩
  have a := agree order first
  obtain ⟨hflush, hp⟩ := a.flush (s.due.length + 4) hs
  rw [tick_eq, tick_eq, finishDue_eq, finishDue_eq, ← hflush]
  obtain ⟨hall, hp'⟩ := a.takeAll order (hadv _ hp)
  rw [a.tickTail hcounts hp', hall]

/-! ### A position beyond the run being sent -/

theorem lineReset_position {straps : BitVec 2} {p q : Nat} {s : State}
    (h : ∀ run, s.takeRecognitions.ports.gatewayTx = some run → run.length ≤ p + 1 ∧ run.length ≤ q + 1) :
    s.lineReset straps p = s.lineReset straps q := by
  have hports : s.takeRecognitions.ports.lineReset straps p = s.takeRecognitions.ports.lineReset straps q := by
    unfold Ports.lineReset
    cases hrun : s.takeRecognitions.ports.gatewayTx with
    | none => rfl
    | some run =>
      obtain ⟨hp, hq⟩ := h run hrun
      simp only [Option.map_some, cutRun, List.take_of_length_le hp, List.take_of_length_le hq]
  rw [lineReset_eq, lineReset_eq]
  unfold State.lineCleared
  rw [hports]

/-! ### The statement -/

/-- Settles O9: every step upholds the names of the due work, so that what names nothing is never due, is no key of
a table and no pair that takes a plain unit. -/
theorem operandsThatNameNothing : Obligations.OperandsThatNameNothing := by
  unfold Obligations.OperandsThatNameNothing
  refine ⟨fun s t hs h => (step_upholds h).names hs, fun s hs => ?_, fun straps p q s h => ?_⟩
  · have row {d : Due} (hd : ¬dueExists d) :
        (Host.Outcome.next (s.takeDue plainTick d) : Host.Outcome State Fault Refusal) = .next s :=
      congrArg _ (takeDue_of_not_exists hs hd _)
    have no_pair {key slot : Nat} (h : key = 0 ∨ 65535 < key ∨ 12 ≤ slot) :
        ¬(keyExists key ∧ slot < Config.slotCount) := by
      rintro ⟨⟨h1, h2⟩, h3⟩
      simp only [Config.max16, Config.slotCount] at h2 h3
      omega
    refine ⟨fun line hl => row (d := .recognition (.plant line)) (Nat.not_lt.2 hl),
      fun slot hl => row (d := .stall slot) (Nat.not_lt.2 hl),
      fun key slot h => ⟨row (d := .holdOff key slot) (no_pair h), row (d := .maximumLength key slot) (no_pair h)⟩,
      fun line hl => ⟨row (d := .pulse line) (Nat.not_lt.2 hl), row (d := .flash line) (Nat.not_lt.2 hl)⟩,
      fun before d after first swap hd => congrArg Host.Outcome.next (tick_of_not_exists hs hd), ?_, ?_⟩
    · intro before key after plain order first1 first2 hk
      exact exec_swap_congr (P := State.NamesExist) (fun s h => checkCommit_of_not_key h (not_keyExists hk))
        (fun d s h => (upholds_clearDue d s).names h) (fun c d s h => (upholds_work c d s).names h)
        (fun s h => (upholds_advance s).names h) hs order first2
    · intro hf before pair after keys order first1 first2 hp
      exact exec_swap_congr (P := fun s => s.table.FrozenEqual) (fun s h => checkCommit_of_not_pair h hp)
        (fun _ _ h => h) (fun c d s h => (runs_work c d s).tables.equal h) (fun _ h => h) hf order first2
  · show Host.Outcome.next (if s.held.isSome then s.lineReset straps p else s) =
      Host.Outcome.next (if s.held.isSome then s.lineReset straps q else s)
    rw [lineReset_position h]

end Sys2Proof.Machine

/-! Searches of a limit table: the entry of a key is that of the lowest index, and what authority is judged on (R16,
R37, R53). -/

namespace Sys2Proof.Machine

/-! ### Searches in ascending order -/

/-- A search of a list in ascending order finds the lowest member with the property. -/
theorem find?_ascending {β : Type} {q : Nat × β → Bool} {l : List (Nat × β)}
    (h : l.Pairwise (fun a b => a.1 < b.1)) {p : Nat × β} :
    l.find? q = some p ↔ p ∈ l ∧ q p = true ∧ ∀ x, x ∈ l → q x = true → p.1 ≤ x.1 := by
  induction l with
  | nil => simp
  | cons a l ih =>
    rw [List.pairwise_cons] at h
    by_cases ha : q a = true
    · rw [List.find?_cons_of_pos ha, Option.some.injEq]
      constructor
      · rintro rfl
        refine ⟨List.mem_cons_self, ha, fun x hx _ => ?_⟩
        obtain rfl | hx := List.mem_cons.1 hx
        · exact Nat.le_refl _
        · exact Nat.le_of_lt (h.1 x hx)
      · rintro ⟨hmem, -, hlow⟩
        obtain rfl | hmem := List.mem_cons.1 hmem
        · rfl
        · exact absurd (hlow a List.mem_cons_self ha) (Nat.not_le.2 (h.1 p hmem))
    · rw [List.find?_cons_of_neg ha, ih h.2]
      constructor
      · rintro ⟨hmem, hq, hlow⟩
        refine ⟨List.mem_cons_of_mem _ hmem, hq, fun x hx hqx => ?_⟩
        obtain rfl | hx := List.mem_cons.1 hx
        · exact absurd hqx ha
        · exact hlow x hx hqx
      · rintro ⟨hmem, hq, hlow⟩
        refine ⟨(List.mem_cons.1 hmem).resolve_left fun heq => ha (heq ▸ hq), hq,
          fun x hx => hlow x (List.mem_cons_of_mem _ hx)⟩

/-- The lowest index of a table whose entry has a property. -/
theorem find_entries_some {t : EntryTable} {q : Nat × LimitEntry → Bool} {i : Nat} {e : LimitEntry} :
    t.entries.find? q = some (i, e) ↔
      t.at i = some e ∧ q (i, e) = true ∧ ∀ j x, t.at j = some x → q (j, x) = true → i ≤ j := by
  rw [find?_ascending (entries_ascend t), mem_entries]
  exact and_congr_right fun _ => and_congr_right fun _ =>
    ⟨fun h j x hx => h (j, x) (mem_entries.2 hx), fun h x hx => h x.1 x.2 (mem_entries.1 hx)⟩

theorem find_entries_none {t : EntryTable} {q : Nat × LimitEntry → Bool} :
    t.entries.find? q = none ↔ ∀ i e, t.at i = some e → q (i, e) = false := by
  rw [List.find?_eq_none]
  exact ⟨fun h i e he => by simpa using h (i, e) (mem_entries.2 he),
    fun h p hp => by simpa using h p.1 p.2 (mem_entries.1 hp)⟩

theorem any_entries {t : EntryTable} {q : Nat × LimitEntry → Bool} :
    t.entries.any q = true ↔ ∃ i e, t.at i = some e ∧ q (i, e) = true := by
  rw [List.any_eq_true]
  exact ⟨fun ⟨p, hp, hq⟩ => ⟨p.1, p.2, mem_entries.1 hp, hq⟩, fun ⟨i, e, he, hq⟩ => ⟨(i, e), mem_entries.2 he, hq⟩⟩

theorem at_eq_some {t : EntryTable} {i : Nat} {e : LimitEntry} : t.at i = some e ↔ t[i]? = some (some e) := by
  unfold EntryTable.at
  exact Option.join_eq_some_iff

theorem find_eq_some {t : EntryTable} {key i : Nat} {e : LimitEntry} :
    t.find key = some (i, e) ↔ t.at i = some e ∧ IsLowest (fun j => ∃ x, t.at j = some x ∧ x.key = key) i := by
  unfold EntryTable.find
  rw [find_entries_some]
  simp only [beq_iff_eq]
  constructor
  · rintro ⟨hat, hkey, hlow⟩
    refine ⟨hat, ⟨e, hat, hkey⟩, fun j hj ⟨x, hx, hxk⟩ => absurd (hlow j x hx hxk) (Nat.not_le.2 hj)⟩
  · rintro ⟨hat, ⟨x, hx, hxk⟩, hlow⟩
    obtain rfl : e = x := Option.some.inj (hat.symm.trans hx)
    exact ⟨hat, hxk, fun j y hy hyk => Nat.not_lt.1 fun hj => hlow j hj ⟨y, hy, hyk⟩⟩

theorem find_eq_none {t : EntryTable} {key : Nat} :
    t.find key = none ↔ ∀ i e, t.at i = some e → e.key ≠ key := by
  unfold EntryTable.find
  rw [find_entries_none]
  simp only [beq_eq_false_iff_ne]

/-! ### Authority -/

theorem certifyAsserted_iff (s : State) : s.certifyAsserted = true ↔ s.plant.certify.level = .low := by
  simp [State.certifyAsserted]

theorem anyCertified_iff (s : State) : s.anyCertified = true ↔ s.CertifiedActive := by
  unfold State.anyCertified State.CertifiedActive
  rw [any_entries]
  simp only [beq_iff_eq]

theorem bandProtected_iff (s : State) (band : Nat) : s.bandProtected band = true ↔ s.Protected band := by
  unfold State.bandProtected State.Protected
  rw [any_entries]
  simp only [Bool.and_eq_true, beq_iff_eq]

theorem slotProtected_iff (s : State) (slot : Nat) : s.slotProtected slot = true ↔
    ∃ i e, s.table.active.at i = some e ∧ e.custody = .certified ∧ e.slots.getLsbD slot = true := by
  unfold State.slotProtected
  rw [any_entries]
  simp only [Bool.and_eq_true, beq_iff_eq]

theorem certifiedAt_iff (t : EntryTable) (i : Nat) : t.certifiedAt i = true ↔ t.Certified i := by
  unfold EntryTable.certifiedAt EntryTable.Certified LimitEntry.certified
  cases t.at i <;> simp

theorem protectedDifference_iff (s : State) : s.protectedDifference = true ↔ s.DiffersProtected := by
  unfold State.protectedDifference State.DiffersProtected LimitTable.certifiedDifference State.bandDifference
  simp only [Bool.or_eq_true, Bool.and_eq_true, List.any_eq_true, List.mem_range, bne_iff_ne, certifiedAt_iff,
    bandProtected_iff, anyCertified_iff, Config.entryCount, Config.userBands, or_assoc, ne_eq]

/-- Settles O35: the searches of a table, then each judgement of authority as its search. -/
theorem authorityFollowsActiveTable : Obligations.AuthorityFollowsActiveTable := by
  unfold Obligations.AuthorityFollowsActiveTable
  exact ⟨fun t => ⟨fun i e => at_eq_some, fun key => ⟨find_eq_none, fun i e => find_eq_some⟩⟩,
    fun s => ⟨certifyAsserted_iff s, anyCertified_iff s, bandProtected_iff s, slotProtected_iff s,
      protectedDifference_iff s⟩⟩

end Sys2Proof.Machine

/-! The resets and the recognitions, row by row; commands off their moment; the tick count and the site time. -/

namespace Sys2Proof.Machine

/-! ### POWER_ON_RESET and RESET_ASSERTED -/

theorem beaconPin_of_held {s : State} {h : HeldPins} (hs : s.held = some h) (line : Nat) :
    s.beaconPin line = h.beacons.getD line false := by
  simp only [State.beaconPin, hs]

theorem beaconPin_of_high {s : State} (hs : s.held = none) (line : Nat) :
    s.beaconPin line = s.outputs.getD line false := by
  simp only [State.beaconPin, hs]

theorem attnPin_of_held {s : State} {h : HeldPins} (hs : s.held = some h) : s.attnPin = h.attnLow := by
  simp only [State.attnPin, hs]

theorem attnPin_of_high {s : State} (hs : s.held = none) : s.attnPin = s.notices.latch := by
  simp only [State.attnPin, hs]

theorem outputs_getElem? (s : State) (line : Nat) :
    s.outputs[line]? = s.beacons[line]?.map (fun b => b.output (!(s.demand line).isEmpty)) := by
  unfold State.outputs
  rw [getElem?_zipIdx_map]

/-- Settles O10: the power-on values as they are written, the pins by what holds them. -/
theorem powerOnAndResetAsserted : Obligations.PowerOnAndResetAsserted := by
  unfold Obligations.PowerOnAndResetAsserted
  refine ⟨fun straps s => ⟨_, rfl, rfl, rfl, rfl, rfl, rfl, rfl, rfl, rfl, rfl, rfl, rfl, rfl, rfl, rfl, rfl, rfl⟩,
    fun s => ⟨fun hs => ⟨?_, fun u hu => ⟨fun line => ?_, ?_⟩⟩, fun hs => ?_⟩, fun s => ⟨fun hs => ⟨?_, fun line b hb => ?_⟩,
      fun h hs => ⟨attnPin_of_held hs, fun line level hl => ?_⟩⟩⟩
  · show Host.Outcome.next s.holdPins = _
    rw [State.holdPins, hs]
  · rw [beaconPin_of_held hu, beaconPin_of_high hs]
  · rw [attnPin_of_held hu, attnPin_of_high hs]
  · show Host.Outcome.next s.holdPins = _
    obtain ⟨h, hh⟩ := Option.ne_none_iff_exists'.1 hs
    rw [State.holdPins, hh]
  · rw [attnPin_of_high hs]
  · rw [beaconPin_of_high hs, List.getD_eq_getElem?_getD, outputs_getElem?, hb]
    rfl
  · rw [beaconPin_of_held hs, List.getD_eq_getElem?_getD, hl]
    rfl

/-! ### Recognitions -/

/-- A recognition changes the inputs, the mark and the ever-active lines, and what a notice may change. -/
def State.Recognised (s t : State) : Prop :=
  t = { s with
    due := t.due
    notices := t.notices
    report := t.report
    ports := { s.ports with forward := t.ports.forward, holding := t.ports.holding, starve := t.ports.starve
                            gatewayTx := t.ports.gatewayTx }
    plant := { s.plant with lines := t.plant.lines, mark := t.plant.mark, certify := t.plant.certify
                            markLatch := t.plant.markLatch }
    episodes := { s.episodes with current := t.episodes.current } }

theorem State.Recognised.refl (s : State) : s.Recognised s := rfl

theorem State.Recognised.trans {s t u : State} (h : s.Recognised t) (k : t.Recognised u) : s.Recognised u := by
  unfold State.Recognised at *
  rw [k, h]

theorem State.Told.recognised {s t : State} (h : s.Told t) : s.Recognised t := by
  have hw := h.whole
  have hp := h.ports
  unfold State.Recognised
  rw [← hp, h.plant, h.episodes]
  exact hw

theorem recognised_changeLine (line : Nat) (f : PlantLine → PlantLine) (s : State) :
    s.Recognised (s.changeLine line f) := by
  unfold State.changeLine
  split
  · exact .refl s
  · extract_lets new s1
    split <;> rfl

theorem recognised_press (s : State) : s.Recognised s.press := by
  unfold State.press
  split
  · exact .refl s
  · refine State.Recognised.trans ?_ (told_raise _ _).recognised
    rfl

theorem recognised_recognise (input : Input) (s : State) : s.Recognised (s.recognise input) := by
  cases input with
  | plant line => exact recognised_changeLine _ _ _
  | mark =>
    have hset : s.Recognised (s.setMark s.plant.mark.recognise) := rfl
    exact hset.trans (recognised_press _)
  | certify =>
    have hset : s.Recognised (s.setCertify s.plant.certify.recognise) := rfl
    exact hset.trans (told_raise _ _).recognised

theorem recognised_takeRecognitions (s : State) : s.Recognised s.takeRecognitions := by
  unfold State.takeRecognitions
  have hall : ∀ d, d ∈ s.due.filter (fun d => match d with | .recognition _ => true | _ => false) →
      ∃ input, d = .recognition input := by
    intro d hd
    have hk := (List.mem_filter.1 hd).2
    cases d with
    | recognition input => exact ⟨input, rfl⟩
    | _ => cases hk
  generalize s.due.filter (fun d => match d with | .recognition _ => true | _ => false) = ds at hall
  induction ds generalizing s with
  | nil => exact .refl s
  | cons d ds ih =>
    obtain ⟨⟨input, rfl⟩, hrest⟩ := List.forall_mem_cons.1 hall
    refine State.Recognised.trans ?_ (ih _ hrest)
    unfold State.takeDue
    beta_reduce
    split
    · have hclear : s.Recognised (s.clearDue (.recognition input)) := rfl
      exact hclear.trans (recognised_recognise input _)
    · exact .refl s

/-- The line after its recognition, when its recorded level has turned. -/
theorem settle_recognise {l : PlantLine} {tick : Tick} {level : Level} (h : level ≠ l.sampler.level) :
    PlantLine.settle tick { l with sampler := l.sampler.recognise } = { l with
      sampler := ⟨level, 0⟩
      active := level == l.record.activeLevel
      activationTick := if level = l.record.activeLevel ∧ l.active = false then some tick else l.activationTick
      deactivationTick := if level ≠ l.record.activeLevel ∧ l.active = true
        then some tick else l.deactivationTick } := by
  have hlevel : l.sampler.recognise = ⟨level, 0⟩ := by
    unfold Sampler.recognise
    cases level <;> cases hl : l.sampler.level <;> simp_all [otherLevel]
  unfold PlantLine.settle PlantLine.level
  rw [hlevel]
  by_cases ha : level = l.record.activeLevel
  · cases l.active <;> simp [ha]
  · cases l.active <;> simp [ha]

/-- A member changed where it stands. -/
theorem modify_of_getElem? {α : Type} {l : List α} {i : Nat} {a : α} (h : l[i]? = some a) (f : α → α) :
    l.modify i f = l.set i (f a) := by
  refine List.ext_getElem? fun j => ?_
  rw [List.getElem?_modify, List.getElem?_set]
  by_cases hj : i = j
  · subst hj
    obtain ⟨hlt, rfl⟩ := List.getElem?_eq_some_iff.1 h
    simp [hlt]
  · simp [hj]

/-- A line changed: what its record and sampler make of it, and the episodes it joins where it gains. -/
theorem changeLine_eq {line : Nat} {f : PlantLine → PlantLine} {s : State} {l m : PlantLine}
    (hl : s.plant.lines[line]? = some l) (hm : m = (f l).settle s.clock.tickCount) :
    s.changeLine line f = { s with
      plant := { s.plant with lines := s.plant.lines.set line m }
      episodes := { s.episodes with current := s.episodes.current.map (fun e =>
        if m.record.enabled = true ∧ m.active = true ∧ ¬(l.record.enabled = true ∧ l.active = true)
        then { e with everActive := setInsert e.everActive line } else e) } } := by
  have hset : s.plant.lines.modify line (fun _ => m) = s.plant.lines.set line m := modify_of_getElem? hl _
  unfold State.changeLine
  simp only [hl, ← hm, Bool.and_eq_true, Bool.not_eq_true', Bool.and_eq_false_iff]
  by_cases hgain : m.record.enabled = true ∧ m.active = true ∧ ¬(l.record.enabled = true ∧ l.active = true)
  · have hgain' : (m.record.enabled = true ∧ m.active = true) ∧ (l.record.enabled = false ∨ l.active = false) := by
      simpa [and_assoc, imp_iff_not_or] using hgain
    rw [if_pos hgain']
    simp only [if_pos hgain]
    unfold State.everActive State.modifyLine State.setCurrent
    rw [hset]
  · have hgain' : ¬((m.record.enabled = true ∧ m.active = true) ∧ (l.record.enabled = false ∨ l.active = false)) := by
      simpa [and_assoc, imp_iff_not_or] using hgain
    rw [if_neg hgain']
    simp only [if_neg hgain, List.map_id']
    unfold State.modifyLine
    rw [hset]

theorem mem_liveLevels {slots : List SlotRecord} {i : Nat} {x : Option Nat} : (i, x) ∈ liveLevels slots ↔
    ∃ r id e last, slots[i]? = some r ∧ r.link = .live id e last ∧ x = r.latest := by
  unfold liveLevels
  simp only [List.mem_filterMap, Prod.exists, List.mem_zipIdx_iff_getElem?]
  constructor
  · rintro ⟨r, n, hr, h⟩
    split at h
    · next id e last hlink =>
      obtain ⟨rfl, rfl⟩ := Prod.mk.inj (Option.some.inj h)
      exact ⟨r, id, e, last, hr, hlink, rfl⟩
    · cases h
  · rintro ⟨r, id, e, last, hr, hlink, rfl⟩
    exact ⟨r, i, hr, by simp only [hlink]⟩

theorem liveLevels_ascend (slots : List SlotRecord) : ((liveLevels slots).map (·.1)).Pairwise (· < ·) := by
  rw [List.pairwise_map]
  unfold liveLevels
  rw [List.pairwise_filterMap]
  have hz : slots.zipIdx.Pairwise (fun a b => a.2 < b.2) := by
    rw [List.pairwise_iff_getElem]
    intro i j hi hj hij
    simpa using hij
  have index_of (p : SlotRecord × Nat) (x : Nat × Option Nat) (h : (match p.1.link with
      | .live _ _ _ => some (p.2, p.1.latest)
      | _ => none) = some x) : x.1 = p.2 := by
    split at h
    · exact (congrArg Prod.fst (Option.some.inj h)).symm
    · cases h
  refine hz.imp fun {a b} hab x hx y hy => ?_
  rw [index_of a x hx, index_of b y hy]
  exact hab

/-- A row whose work is due does it. -/
theorem exec_row {d : Due} {s : State} (h : d ∈ s.due) :
    (Host.Outcome.next (s.takeDue plainTick d) : Host.Outcome State Fault Refusal) =
      .next ((s.clearDue d).work plainTick d) := congrArg _ (takeDue_of h)

theorem certifyAsserted_turned {s t : State} (h : t.plant.certify.level = otherLevel s.plant.certify.level) :
    t.certifyAsserted = !s.certifyAsserted := by
  unfold State.certifyAsserted
  rw [h]
  cases s.plant.certify.level <;> rfl

/-- Settles O26: each recognition as the work of its row. -/
theorem plantMarkAndCertifyRecognitions : Obligations.PlantMarkAndCertifyRecognitions := by
  unfold Obligations.PlantMarkAndCertifyRecognitions
  refine ⟨fun line s l hd hl level m hlevel hm => ?_, fun s => ⟨fun hd hlatch => ?_, fun hd hlatch => ?_,
    fun hd => ?_, liveLevels_ascend _, fun i x => mem_liveLevels⟩, rfl, rfl⟩
  · refine (exec_row hd).trans (congrArg Host.Outcome.next ?_)
    have hm' := hm.trans (settle_recognise (tick := s.clock.tickCount) hlevel).symm
    refine (changeLine_eq (s := s.clearDue _) hl hm').trans ?_
    have hgain : (m.record.enabled = true ∧ m.active = true ∧ ¬(l.record.enabled = true ∧ l.active = true)) ↔
        (l.record.enabled = true ∧ l.active = false ∧ level = l.record.activeLevel) := by
      subst hm
      cases l.record.enabled <;> cases l.active <;> simp
    simp only [hgain]
    rfl
  · have hpress : (s.clearDue (.recognition .mark)).recogniseMark = State.raise .markTaken { s with
        due := s.due.filter (fun d => d != .recognition .mark)
        plant := { s.plant with
          mark := ⟨otherLevel s.plant.mark.level, 0⟩
          markLatch := some ⟨s.now, s.clock.band, liveLevels s.slots⟩ } } := by
      unfold State.recogniseMark State.press
      simp only [State.setMark, State.clearDue, hlatch]
      rfl
    exact ⟨_, (exec_row hd).trans (congrArg Host.Outcome.next hpress), notified_raise _ _, rfl⟩
  · obtain ⟨mark, hmark⟩ := Option.ne_none_iff_exists'.1 hlatch
    refine (exec_row hd).trans (congrArg Host.Outcome.next ?_)
    show (s.clearDue (.recognition .mark)).recogniseMark = _
    unfold State.recogniseMark State.press
    simp only [State.setMark, State.clearDue, hmark]
    rfl
  · refine ⟨_, exec_row hd, notified_raise _ _, ?_, rfl⟩
    have hplant := (told_raise .certifyChanged ((s.clearDue (.recognition .certify)).setCertify
      (s.clearDue (.recognition .certify)).plant.certify.recognise)).plant
    refine certifyAsserted_turned ?_
    show ((State.raise .certifyChanged _).plant).certify.level = _
    rw [hplant]
    rfl

/-! ### LINE_RESET -/

theorem kinds_restartAccs (ps : List (Nat × LimitEntry × Nat)) (s : State) :
    (s.restartAccs ps).windows.kinds = s.windows.kinds := by
  unfold State.restartAccs
  induction ps generalizing s with
  | nil => rfl
  | cons p ps ih => exact (ih _).trans (kinds_setAcc _ _ _ s)

theorem unitAt_none_of_kinds {w v : WindowEngine} (h : w.kinds = v.kinds) {i slot : Nat}
    (hv : v.unitAt i slot = none) : w.unitAt i slot = none := by
  rw [← Option.map_eq_none_iff (f := PoolUnit.histogram), unitAt_kind, h, ← unitAt_kind, hv]
  rfl

/-- Settles O11: the fields of the state that a line reset clears, under the recognitions taken first. -/
theorem lineReset : Obligations.LineReset := by
  unfold Obligations.LineReset
  refine ⟨fun s => piecesTaken_takeDues s fun d hd => ?_, fun straps position s => ⟨fun hs => ?_, fun hs => ?_⟩⟩
  · have hk := (List.mem_filter.1 hd).2
    rintro rfl
    cases hk
  · show Host.Outcome.next (if s.held.isSome then _ else s) = _
    rw [hs]
    rfl
  · have hsome : s.held.isSome = true := Option.isSome_iff_ne_none.2 hs
    have hr := recognised_takeRecognitions s
    have hclock : s.takeRecognitions.clock = s.clock := by rw [hr]
    have hslots : s.takeRecognitions.slots = s.slots := by rw [hr]
    have htable : s.takeRecognitions.table = s.table := by rw [hr]
    have hwindows : s.takeRecognitions.windows = s.windows := by rw [hr]
    have hschedule : s.takeRecognitions.schedule = s.schedule := by rw [hr]
    have hpending : s.takeRecognitions.pending = s.pending := by rw [hr]
    have hnext : s.takeRecognitions.episodes.next = s.episodes.next := by rw [hr]
    have hfield : s.takeRecognitions.ports.fieldTx = s.ports.fieldTx := by rw [hr]
    have hnow : s.takeRecognitions.now = s.now := by rw [State.now, hclock, State.now]
    have hw := restartAccs_whole ((s.takeRecognitions.lineCleared straps position).decideQuietly.pairsWhere
      (fun _ _ => true)) (s.takeRecognitions.lineCleared straps position).decideQuietly
    rw [← lineReset_eq] at hw
    have kinds : (s.lineReset straps position).windows.kinds = (s.windows.lineReset s.table.frozen).kinds := by
      rw [lineReset_eq, kinds_restartAccs]
      show (s.takeRecognitions.windows.lineReset s.takeRecognitions.table.frozen).kinds = _
      rw [hwindows, htable]
    refine ⟨s.lineReset straps position, ?_, ?_⟩
    · show Host.Outcome.next (if s.held.isSome then _ else s) = _
      rw [if_pos hsome]
    have hband : (s.lineReset straps position).clock =
        { s.clock with band := (s.lineReset straps position).bandNow } := by
      rw [hw, ← hclock]
      rfl
    have hactive (i : Nat) : (s.lineReset straps position).table.active.at i =
        if s.table.frozen.getLsbD i then s.table.active.at i else none := by
      rw [hw, ← htable]
      exact at_frozenOnly _ _ _
    refine ⟨?_, ?_, ?_, hband, ?_, ?_, hactive, ?_, ?_, ?_, ?_, ?_, fun i slot hf => ?_,
      fun i slot e u he hslot hu => ?_, ?_, ?_, ?_, ?_, ?_, ?_, ?_⟩
    · rw [hw]
      exact hpending
    · rw [hw]
      rfl
    · rw [hw]
      rfl
    · rw [hw, ← hschedule]
      rfl
    · rw [hw, ← hslots]
      rfl
    · rw [hw]
      rfl
    · rw [hw, ← htable]
      rfl
    · rw [hw]
      rfl
    · rw [hw]
      rfl
    · rw [hw]
      rfl
    · refine unitAt_none_of_kinds kinds ?_
      rw [unitAt_lineReset, hf]
      rfl
    · have hfrozen : s.table.frozen.getLsbD i = true := by
        by_contra hno
        rw [hactive, if_neg hno] at he
        cases he
      have hat : (s.takeRecognitions.lineCleared straps position).decideQuietly.table.active.at i = some e := by
        rw [hw] at he
        exact he
      have hunit : (s.takeRecognitions.lineCleared straps position).decideQuietly.windows.unitAt i slot = some u := by
        show (s.takeRecognitions.windows.lineReset s.takeRecognitions.table.frozen).unitAt i slot = _
        rw [hwindows, htable, unitAt_lineReset, if_pos hfrozen, hu]
      rw [lineReset_eq]
      have hclk := (evaluates_restartAccs ((s.takeRecognitions.lineCleared straps position).decideQuietly.pairsWhere
        (fun _ _ => true)) (s.takeRecognitions.lineCleared straps position).decideQuietly).clock
      refine (unitAt_restart_pair hat hslot rfl hunit).trans ?_
      rw [State.now, State.now, hclk]
    · rw [hw, ← hnext]
      rfl
    · rw [hw, ← hnow]
      rfl
    · rw [hw]
      rfl
    · rw [hw]
      rfl
    · rw [hw]
      rfl
    · rw [hw]
      rfl
    · rw [hw, ← hfield]
      rfl

/-! ### Commands off their moment -/

theorem exec_row_idle {d : Due} {s : State} (h : d ∉ s.due) :
    (Host.Outcome.next (s.takeDue plainTick d) : Host.Outcome State Fault Refusal) = .next s :=
  congrArg _ (takeDue_id h)

theorem takeUnknown_of_not_reaches {s : State} (h : ∀ v, ¬s.Reaches v) : s.takeUnknown = s := by
  unfold State.takeUnknown
  cases he : s.executing with
  | none => rfl
  | some e =>
    cases hr : e.reach with
    | item lead ps code operands rest taken =>
      exact absurd ⟨e, he, rfl, hr⟩ (h ⟨e.tag, lead, ps, code, operands, rest, taken⟩)
    | stop trail => simp [hr]

theorem takeEnd_of_not_reaches {s : State} (h : ∀ trail, ¬s.ReachesEnd trail) : s.takeEnd = s := by
  unfold State.takeEnd
  cases he : s.executing with
  | none => rfl
  | some e =>
    cases hr : e.reach with
    | item lead ps code operands rest taken => simp [hr]
    | stop trail => exact absurd ⟨e, he, hr⟩ (h trail)

/-- Settles O34: a command off its moment finds no item of its own and no work of its row. -/
theorem offMoment : Obligations.OffMoment := by
  unfold Obligations.OffMoment
  intro s
  refine ⟨fun c h => ?_, fun h => congrArg _ (takeUnknown_of_not_reaches h),
    fun h => congrArg _ (takeEnd_of_not_reaches h), fun choice h => congrArg _ (takeDue_id h),
    fun _ => exec_row_idle, fun _ _ => exec_row_idle, fun _ _ => exec_row_idle, fun _ => exec_row_idle,
    fun _ => exec_row_idle, exec_row_idle, exec_row_idle, exec_row_idle, exec_row_idle, fun _ => exec_row_idle,
    exec_row_idle, exec_row_idle⟩
  cases c <;> exact congrArg Host.Outcome.next (takeItem_of_not_reaches h)

/-! ### The site time of a tick -/

theorem tick_of_running {c : Clock} (h : c.state = .running) :
    c.tick = if c.eighth + 1 < Config.eighthsPerDay then
        { c with tickCount := c.tickCount + 1, intervalTrim := c.trim, eighth := c.eighth + 1
                 tickStamp := ⟨c.day, c.eighth + 1, .running⟩ }
      else if c.day < Config.max16 then
        { c with tickCount := c.tickCount + 1, intervalTrim := c.trim, eighth := 0, day := c.day + 1
                 tickStamp := ⟨c.day + 1, 0, .running⟩ }
      else { c with tickCount := c.tickCount + 1, intervalTrim := c.trim, eighth := 0, day := 0
                    weekdayOffset := (c.weekdayOffset + 2) % 7, tickStamp := ⟨0, 0, .running⟩ } := by
  unfold Clock.tick Clock.count
  have hrun : Clock.running { c with tickCount := c.tickCount + 1, intervalTrim := c.trim } = true := by
    simp [Clock.running, h]
  simp only [hrun, if_true, Clock.stamp]
  split
  · simp [h]
  · split <;> simp [h]

theorem tick_of_not_running {c : Clock} (h : c.state ≠ .running) :
    c.tick = { c with tickCount := c.tickCount + 1, intervalTrim := c.trim, tickStamp := ⟨c.day, c.eighth, c.state⟩ } := by
  unfold Clock.tick Clock.count
  have hrun : Clock.running { c with tickCount := c.tickCount + 1, intervalTrim := c.trim } = false := by
    simp [Clock.running, h]
  simp only [hrun, Bool.false_eq_true, if_false, Clock.stamp]

theorem tick_withBand (c : Clock) (band : Nat) : Clock.tick { c with band := band } = { c.tick with band := band } := by
  by_cases h : c.state = .running
  · rw [tick_of_running h, tick_of_running (c := { c with band := band }) h]
    by_cases he : c.eighth + 1 < Config.eighthsPerDay
    · simp only [if_pos he]
    · by_cases hd : c.day < Config.max16
      · simp only [if_neg he, if_pos hd]
      · simp only [if_neg he, if_neg hd]
  · rw [tick_of_not_running h, tick_of_not_running (c := { c with band := band }) h]

theorem tick_clock (choice : TickChoice) (s : State) :
    (s.tick choice).clock = { s.clock.tick with band := (s.tick choice).clock.band } := by
  have hfinish := (takesAll_finishDue choice s).clock
  have htail := ((takesAll_takeAll choice choice.order (s.finishDue choice).advance).weaken
    (q := fun _ => false) (fun _ h => h)).clock
  have hlast := (runs_tickTail choice ((s.finishDue choice).advance.takeAll choice choice.order)).clock
  have hadv : (s.finishDue choice).advance.clock = { s.clock.tick with band := (s.finishDue choice).clock.band } := by
    show Clock.tick _ = _
    rw [hfinish, tick_withBand]
  have hall : (s.tick choice).clock = { (s.finishDue choice).advance.clock with band := (s.tick choice).clock.band } := by
    rw [htail] at hlast
    exact hlast
  rw [hadv] at hall
  exact hall

theorem tick_fields (c : Clock) : c.tick.tickCount = c.tickCount + 1 ∧ c.tick.state = c.state ∧ c.tick.trim = c.trim ∧
    c.tick.intervalTrim = c.trim ∧ c.tick.tickStamp = ⟨c.tick.day, c.tick.eighth, c.tick.state⟩ := by
  by_cases h : c.state = .running
  · rw [tick_of_running h]
    split
    · simp [h]
    · split <;> simp [h]
  · rw [tick_of_not_running h]
    simp

/-- Settles O12: the clock of the state before, ticked, under the band that the tick leaves. -/
theorem tickAdvancesClock : Obligations.TickAdvancesClock := by
  unfold Obligations.TickAdvancesClock
  refine ⟨fun s => rfl, fun choice s => ⟨s.tick choice, rfl, ?_⟩⟩
  obtain ⟨hcount, hstate, htrim, hint, hstamp⟩ := tick_fields s.clock
  rw [tick_clock choice s]
  refine ⟨hcount, hstate, htrim, hint, hstamp, fun hs => ?_, fun hs => ?_⟩
  · rw [tick_of_not_running hs]
    exact ⟨rfl, rfl, rfl⟩
  have ht := tick_of_running hs
  refine ⟨fun he => ?_, fun he => ?_⟩
  · rw [if_pos (show s.clock.eighth + 1 < Config.eighthsPerDay from he)] at ht
    rw [ht]
    exact ⟨rfl, rfl, rfl⟩
  · rw [if_neg (show ¬s.clock.eighth + 1 < Config.eighthsPerDay from Nat.not_lt.2 he)] at ht
    refine ⟨?_, fun hd => ?_, fun hd => ?_⟩
    · rw [ht]
      split <;> rfl
    · rw [if_pos (show s.clock.day < Config.max16 from hd)] at ht
      rw [ht]
      exact ⟨rfl, rfl⟩
    · rw [if_neg (show ¬s.clock.day < Config.max16 from Nat.not_lt.2 hd)] at ht
      rw [ht]
      exact ⟨rfl, rfl⟩

end Sys2Proof.Machine

/-! The items of the commands: an item taken is the body of its command, and the system reads, the fetches and
the commands of the limit table by their bodies. -/

namespace Sys2Proof.Machine

/-! ### An item taken, by the form of its operands -/

/-- An item of fixed form is the body on what its operands read as. -/
theorem takeItem_fixed {α : Type} {n : Nat} {read : List Byte → α} {c : CommandCode} {body : Body α} {s : State}
    {v : ItemView} (h : s.Takes c v) (hn : v.operands.length = n) :
    s.takeItem c (fixedForm n read) body = v.finish (body (read v.operands) v.modifiers s.settleCommit) :=
  takeItem_of_takes h (fixedForm_of_length hn)

theorem countedForm_of_length {lead size : Nat} {o : List Byte} (hlead : lead ≤ o.length)
    (h : o.length = lead + size * field o (lead - 1) 1) :
    countedForm lead size o = some (recordsOf size (field o (lead - 1) 1) (o.drop lead)) := by
  unfold countedForm onlyIf
  rw [if_pos hlead]
  exact if_pos (beq_iff_eq.2 h)

theorem modifiers_staged (v : ItemView) : v.modifiers.staged = true ↔ .staged ∈ v.prefixes := by
  unfold ItemView.modifiers modifiersOf
  exact List.contains_iff_mem

theorem modifiers_not_staged {v : ItemView} (h : .staged ∉ v.prefixes) : v.modifiers.staged = false := by
  rw [← Bool.not_eq_true, modifiers_staged]
  exact h

theorem certifyAsserted_eq_false (s : State) : s.certifyAsserted = false ↔ s.plant.certify.level ≠ .low := by
  rw [← Bool.not_eq_true, certifyAsserted_iff]

/-- Authority is lacking where a protected item is touched and CERTIFY is not asserted. -/
theorem deniedFor_iff (b : Bool) (s : State) : s.deniedFor b = true ↔ b = true ∧ s.certifyAsserted = false := by
  simp [State.deniedFor]

/-! ### The system reads and the fetches -/

theorem readBands_eq (v : ItemView) (s : State) : s.readBands v.modifiers.staged = .ok (
    if .staged ∈ v.prefixes then
      .bands s.schedule.stagedBands ((List.range 14).map s.bandProtected) s.schedule.stagedExceptions s.clock.band
    else
      .bands s.schedule.activeBands ((List.range 14).map s.bandProtected) s.schedule.activeExceptions s.clock.band) := by
  unfold State.readBands
  by_cases h : .staged ∈ v.prefixes
  · simp only [(modifiers_staged v).2 h, h, if_true]
    rfl
  · have hf : v.modifiers.staged = false := modifiers_not_staged h
    simp only [hf, h, if_false, Bool.false_eq_true]
    rfl

theorem opened_add_holdOff (es : List Episode) :
    (es.filter (fun e => e.state == .opened)).length + (es.filter (fun e => e.state != .opened)).length = es.length := by
  have h := List.length_eq_length_filter_add (l := es) (fun e => e.state == .opened)
  simpa [bne] using h.symm

/-- Settles O47: each read and fetch is the body of its command. -/
theorem systemReadsAndFetches : Obligations.SystemReadsAndFetches := by
  unfold Obligations.SystemReadsAndFetches
  refine ⟨fun s v u hu => ⟨fun h => ?_, fun h => ?_, fun h => ?_⟩, fun s v u hu => ⟨fun h => ?_, fun h => ?_⟩⟩ <;> subst hu
  · refine (congrArg Host.Outcome.next (takeItem_fixed h h.form)).trans ?_
    show Host.Outcome.next (v.finish (s.settleCommit, s.settleCommit.readBands v.modifiers.staged)) = _
    rw [readBands_eq]
    rfl
  · exact congrArg Host.Outcome.next (takeItem_fixed h h.form)
  · exact ⟨_, congrArg Host.Outcome.next (takeItem_fixed h h.form), rfl, rfl, rfl, rfl, rfl, rfl, rfl, rfl, rfl,
      opened_add_holdOff _, rfl, rfl, rfl, rfl, rfl, rfl, rfl, rfl, rfl, rfl, rfl, rfl, rfl⟩
  · exact congrArg Host.Outcome.next (takeItem_fixed h h.form)
  · exact congrArg Host.Outcome.next (takeItem_fixed h h.form)

/-! ### REMOVE, FREEZE, PROBE and READ ENTRY -/

theorem certifiedAt_eq_any (t : EntryTable) (i : Nat) :
    t.certifiedAt i = (t.at i).any (fun e => e.custody == .certified) := rfl

theorem find_active {t : EntryTable} {key i : Nat} {e : LimitEntry} (h : t.find key = some (i, e)) :
    t.at i = some e := (find_eq_some.1 h).1

/-- What FREEZE ENTRY does once the key, the commit state and the authority let it. -/
theorem freezeEntryBody_of_authority {key : Nat} {m : Modifiers} {s : State} (hkey : key ≠ 0)
    (hbusy : s.table.pending = false) (hcert : s.certifyAsserted = true) :
    freezeEntryBody key m s = (s.table.active.find key).elim (refuse .notFound s) (fun p =>
      if p.2.certified then ({ s with table := s.table.freeze p.1 }, .done) else refuse .notFound s) := by
  unfold freezeEntryBody
  rw [if_neg hkey, if_neg (by simp [State.busy, hbusy]), if_neg (by simp [State.deniedFor, hcert])]
  cases s.table.active.find key <;> rfl

theorem readEntry_eq (v : ItemView) (i : Nat) (s : State) : v.finish (s, s.readEntry i v.modifiers.staged) =
    if 63 < i then s.refused v .range
    else if .staged ∈ v.prefixes then
      s.answered v .ok (.entry i (s.table.frozen.getLsbD i) (s.table.staged.at i) none)
    else
      s.answered v .ok (.entry i (s.table.frozen.getLsbD i) (s.table.active.at i)
        ((s.table.active.at i).map (fun e => e.bands.getLsbD s.clock.band))) := by
  unfold State.readEntry
  by_cases hi : 63 < i
  · rw [if_pos (show Config.entryCount ≤ i from hi), if_pos hi]
    rfl
  rw [if_neg (show ¬Config.entryCount ≤ i from hi), if_neg hi]
  by_cases h : .staged ∈ v.prefixes
  · simp only [(modifiers_staged v).2 h, h, if_true]
    rfl
  · have hf : v.modifiers.staged = false := modifiers_not_staged h
    simp only [hf, h, if_false, Bool.false_eq_true]
    rfl

/-- Settles O37: each command's body, check by check. -/
theorem removeFreezeProbeAndReadEntry : Obligations.RemoveFreezeProbeAndReadEntry := by
  unfold Obligations.RemoveFreezeProbeAndReadEntry
  refine ⟨⟨fun s v i u h hi hu => ?_, fun s v key u h hkey hu => ?_⟩, fun s v i u h hi hu => ?_,
    fun s v i u h hi hu => ?_⟩ <;> subst hu
  · refine congrArg Host.Outcome.next ((takeItem_fixed h h.form).trans ?_)
    subst hi
    rw [removeEntryBody, finish_ite, finish_ite, finish_ite, finish_ite]
    rfl
  · have ht : exec .freezeEntry s = .next (v.finish (freezeEntryBody key v.modifiers s.settleCommit)) := by
      subst hkey
      exact congrArg Host.Outcome.next (takeItem_fixed h h.form)
    rw [ht]
    refine ⟨fun hk => ?_, fun hk hbusy => ?_, fun hk hbusy hcert => ?_, fun hk hbusy hcert => ⟨fun hnone => ?_,
      fun i e he hc => ?_⟩⟩
    · rw [freezeEntryBody, if_pos hk, finish_refuse]
    · rw [freezeEntryBody, if_neg hk, if_pos (by simpa [State.busy] using hbusy), finish_refuse]
    · rw [freezeEntryBody, if_neg hk, if_neg (by simp [State.busy, hbusy]),
        if_pos ((deniedFor_iff _ _).2 ⟨rfl, hcert⟩), finish_refuse]
    · rw [freezeEntryBody_of_authority hk hbusy hcert]
      cases hf : s.settleCommit.table.active.find key with
      | none => rfl
      | some p =>
        have hsite := hnone p.1 p.2 hf
        simp only [Option.elim, LimitEntry.certified, hsite]
        rfl
    · rw [freezeEntryBody_of_authority hk hbusy hcert, he]
      simp only [Option.elim, LimitEntry.certified, hc, beq_self_eq_true, if_true, LimitTable.freeze, find_active he]
      rfl
  · subst hi
    exact congrArg Host.Outcome.next (takeItem_fixed h h.form)
  · subst hi
    exact congrArg Host.Outcome.next ((takeItem_fixed h h.form).trans (readEntry_eq _ _ _))

/-! ### COMMIT, CLEAR COMMIT RESULT and REVERT STAGING -/

theorem frozenEqual_settleCommit {s : State} (h : s.table.FrozenEqual) : s.settleCommit.table.FrozenEqual :=
  (runs_settleCommit s).tables.equal h

/-- Settles O38: each command's body, check by check. -/
theorem commitRevertAndClearResult : Obligations.CommitRevertAndClearResult := by
  unfold Obligations.CommitRevertAndClearResult
  refine ⟨fun s v u hu => ⟨fun h => ?_, fun h => ?_⟩, fun s v h => ⟨List.length_eq_zero_iff.1 h.form, fun u hu => ?_⟩⟩ <;> subst hu
  · refine congrArg Host.Outcome.next ((takeItem_fixed h h.form).trans ?_)
    rw [commitBody, finish_ite, finish_ite]
    rfl
  · refine congrArg Host.Outcome.next ((takeItem_fixed h h.form).trans ?_)
    rw [clearCommitResultBody, finish_ite]
    rfl
  · have ht : exec .revertStaging s = .next (v.finish (revertStagingBody () v.modifiers s.settleCommit)) :=
      congrArg Host.Outcome.next (takeItem_fixed h h.form)
    rw [ht]
    refine ⟨fun hbusy => ?_, fun hbusy => ?_, fun hf i hi => (frozenEqual_settleCommit hf).equal i hi⟩
    · rw [revertStagingBody, if_pos (by simpa [State.busy] using hbusy), finish_refuse]
    · rw [revertStagingBody, if_neg (by simp [State.busy, hbusy]), finish_mk]
      rfl

/-! ### LOAD ENTRIES -/

theorem field_one (o : List Byte) (k : Nat) : field o k 1 = (o.getD k 0).toNat := by
  unfold field
  rw [List.take_one, List.head?_drop, List.getD_eq_getElem?_getD]
  cases o[k]? <;> simp [bigEndian]

theorem length_recordsOf (size count : Nat) (o : List Byte) : (recordsOf size count o).length = count := by
  simp [recordsOf]

theorem allOf_eq_none {α : Type} {xs : List (Option α)} : allOf xs = none ↔ none ∈ xs := by
  induction xs with
  | nil => simp [allOf]
  | cons x xs ih => cases x <;> simp [allOf, ih]

theorem allOf_map_some {α : Type} (ys : List α) : allOf (ys.map some) = some ys := by
  induction ys with
  | nil => rfl
  | cons y ys ih => simp [allOf, ih]

theorem allOf_eq_some {α : Type} {xs : List (Option α)} {ys : List α} (h : allOf xs = some ys) :
    xs = ys.map some := by
  induction xs generalizing ys with
  | nil => simp_all [allOf]
  | cons x xs ih =>
    cases x with
    | none => simp [allOf] at h
    | some x =>
      obtain ⟨zs, hz, rfl⟩ := Option.map_eq_some_iff.1 h
      rw [ih hz, List.map_cons]

/-- Within a page the places of eight entries are distinct. -/
theorem pageIndex_inj {start j k : Nat} (hj : j < 8) (hk : k < 8) (h : pageIndex start j = pageIndex start k) : j = k := by
  unfold pageIndex at h
  omega

theorem pageIndex_lt {start k : Nat} (h : start ≤ 63) : pageIndex start k < 64 := by
  unfold pageIndex
  omega

/-- The entries written stand where they were written. -/
theorem write_at {start : Nat} {entries : List LimitEntry} {t : EntryTable} (hl : t.length = 64) (hs : start ≤ 63)
    (hn : entries.length ≤ 8) {k : Nat} {e : LimitEntry} (he : entries[k]? = some e) :
    (t.write start entries).at (pageIndex start k) = some e := by
  unfold EntryTable.write
  obtain ⟨before, after, hsplit, hk⟩ : ∃ before after, entries.zipIdx = before ++ (e, k) :: after ∧
      ∀ x, x ∈ after → x.2 < 8 ∧ x.2 ≠ k := by
    have hz : entries.zipIdx[k]? = some (e, k) := by simp [he]
    have hklt := (List.getElem?_eq_some_iff.1 hz).1
    refine ⟨entries.zipIdx.take k, entries.zipIdx.drop (k + 1), ?_, fun x hx => ?_⟩
    · rw [← (List.getElem?_eq_some_iff.1 hz).2, ← List.drop_eq_getElem_cons hklt, List.take_append_drop]
    · obtain ⟨j, hj, rfl⟩ := List.mem_iff_getElem.1 hx
      simp only [List.length_drop, List.length_zipIdx] at hj
      simp only [List.getElem_drop, List.getElem_zipIdx]
      omega
  have hkn : k < entries.length := (List.getElem?_eq_some_iff.1 he).1
  rw [hsplit, List.foldl_append, List.foldl_cons]
  have hset := at_set ((before.foldl (fun t' p => t'.set (pageIndex start p.2) (some p.1)) t)) (pageIndex start k)
    (pageIndex start k) (some e)
  rw [if_pos ⟨rfl, by rw [length_write, hl]; exact pageIndex_lt hs⟩] at hset
  refine Eq.trans ?_ hset
  generalize ((before.foldl (fun t' p => t'.set (pageIndex start p.2) (some p.1)) t)).set (pageIndex start k) (some e) = u
  clear hset hsplit
  induction after generalizing u with
  | nil => rfl
  | cons x xs ih =>
    obtain ⟨⟨hx8, hxk⟩, hrest⟩ := List.forall_mem_cons.1 hk
    refine (ih hrest _).trans ?_
    rw [at_set, if_neg fun hc => hxk (pageIndex_inj hx8 (by omega) hc.1)]

theorem write_at_other {start : Nat} {entries : List LimitEntry} {t : EntryTable} {i : Nat}
    (h : ∀ k, k < entries.length → i ≠ pageIndex start k) : (t.write start entries).at i = t.at i :=
  write_frozen (n := entries.length) (fun _ hx => (List.mem_zipIdx' hx).1) (fun k hk => (h k hk).symm) rfl

theorem any_writeSet {start count : Nat} {q : Nat → Bool} :
    (writeSet start count).any q = true ↔ ∃ k, k < count ∧ q (pageIndex start k) = true := by
  simp [writeSet]

/-- Settles O36: what the images read as, then the checks in their order, then the write. -/
theorem loadEntries : Obligations.LoadEntries := by
  unfold Obligations.LoadEntries
  intro s v start count images h hfrozen hstart hcount himages u index hu hindex
  obtain rfl : index = pageIndex start := funext hindex
  have hlen : images.length = count := by rw [himages, length_recordsOf]
  have ht : exec .loadEntries s = .next (v.finish (loadEntriesBody (start, images) v.modifiers u)) := by
    obtain ⟨h2, hform⟩ := h.form
    rw [← field_one] at hform
    refine congrArg Host.Outcome.next (hu ▸ takeItem_of_takes h ?_)
    rw [loadEntriesForm, countedForm_of_length h2 hform, himages, hstart, hcount]
    rfl
  have hstaged : u.table.staged.length = 64 := by
    rw [hu]
    exact (frozenEqual_settleCommit hfrozen).staged
  rw [ht]
  refine ⟨fun hbad => ?_, fun entries hread hs hlow hhigh => ?_⟩
  · unfold loadEntriesBody
    cases hall : allOf (images.map LimitEntry.ofImage) with
    | none => rfl
    | some entries =>
      have hmap := allOf_eq_some hall
      have hn : entries.length = count := by simpa [hlen] using (congrArg List.length hmap).symm
      have hno : ¬∃ x, x ∈ images ∧ LimitEntry.ofImage x = none := by
        rintro ⟨x, hx, hnone⟩
        have hmem : none ∈ images.map LimitEntry.ofImage := List.mem_map.2 ⟨x, hx, hnone⟩
        simp [hmap] at hmem
      have hout : ¬(start < Config.entryCount ∧ 1 ≤ entries.length ∧ entries.length ≤ 8) := by
        unfold Config.entryCount
        obtain hb | hb | hb | hb := hbad
        · omega
        · omega
        · omega
        · exact absurd hb hno
      simp only [if_neg hout]
      rfl
  have hn : entries.length = count := by simpa [hlen] using (congrArg List.length hread).symm
  have hbody : loadEntriesBody (start, images) v.modifiers u = u.writeEntries start entries := by
    unfold loadEntriesBody
    rw [hread, allOf_map_some]
    refine if_pos ?_
    unfold Config.entryCount
    omega
  rw [hbody, State.writeEntries, hn]
  refine ⟨fun hbusy => ?_, fun hbusy hany => ?_, fun hbusy hnone => ?_⟩
  · rw [if_pos (show u.busy = true from hbusy), finish_refuse]
  · rw [if_neg (by simp [State.busy, hbusy]), if_pos (any_writeSet.2 hany), finish_refuse]
  have hfree : ¬((writeSet start count).any (u.table.frozen.getLsbD ·) = true) := by
    rw [any_writeSet]
    rintro ⟨k, hk, hf⟩
    exact absurd hf (by rw [hnone k hk]; decide)
  have hprot : ((writeSet start count).any u.table.staged.certifiedAt || entries.any LimitEntry.certified) = true ↔
      (∃ k, k < count ∧ u.table.staged.Certified (pageIndex start k)) ∨ ∃ e, e ∈ entries ∧ e.custody = .certified := by
    rw [Bool.or_eq_true, any_writeSet, List.any_eq_true]
    simp only [certifiedAt_iff, LimitEntry.certified, beq_iff_eq]
  rw [if_neg (by simp [State.busy, hbusy]), if_neg hfree]
  refine ⟨fun ⟨hcert, hp⟩ => ?_, fun hok => ?_⟩
  · rw [if_pos ((deniedFor_iff _ _).2 ⟨hprot.2 hp, hcert⟩), finish_refuse]
  · have hallowed : ¬u.deniedFor ((writeSet start count).any u.table.staged.certifiedAt ||
        entries.any LimitEntry.certified) = true := by
      rw [deniedFor_iff, hprot]
      rintro ⟨hp, hcert⟩
      obtain hyes | ⟨hsites, hown⟩ := hok
      · exact absurd hyes (by rw [hcert]; decide)
      · obtain ⟨k, hk, hc⟩ | ⟨e, he, hc⟩ := hp
        · exact hsites k hk hc
        · exact absurd hc (by rw [hown e he]; decide)
    rw [if_neg hallowed]
    exact ⟨u.table.staged.write start entries, rfl, (length_write _ _ _).trans hstaged,
      fun k e he => write_at hstaged hs (hn ▸ hhigh) he, fun i hi => write_at_other (hn ▸ hi)⟩

end Sys2Proof.Machine

/-! The commands of the schedule's records, of the plant lines, of the standing queries and of the cadence. -/

namespace Sys2Proof.Machine

/-! ### Records that read from their images -/

/-- Where an image reads as nothing, the images read as no records. -/
theorem allOf_none_of {α : Type} {read : List Byte → Option α} {images : List (List Byte)}
    (h : ∃ x, x ∈ images ∧ read x = none) : allOf (images.map read) = none := by
  obtain ⟨x, hx, hnone⟩ := h
  exact allOf_eq_none.2 (List.mem_map.2 ⟨x, hx, hnone⟩)

theorem allOf_of_reads {α : Type} {read : List Byte → Option α} {images : List (List Byte)} {records : List α}
    (h : images.map read = records.map some) : allOf (images.map read) = some records := by
  rw [h, allOf_map_some]

/-- An item of counted form with one leading byte is the body on its records. -/
theorem takeItem_counted {n : Nat} {c : CommandCode} {body : Body (List (List Byte))} {s : State} {v : ItemView}
    (h : s.Takes c v) (hform : 1 ≤ v.operands.length ∧ v.operands.length = 1 + n * (v.operands.getD 0 0).toNat) :
    s.takeItem c (countedForm 1 n) body =
      v.finish (body (recordsOf n (field v.operands 0 1) (v.operands.drop 1)) v.modifiers s.settleCommit) := by
  obtain ⟨h1, hlen⟩ := hform
  rw [← field_one] at hlen
  exact takeItem_of_takes h (countedForm_of_length h1 hlen)

theorem distinct_iff (xs : List Nat) : distinct xs = true ↔ xs.Nodup := by
  unfold distinct
  rw [List.all_eq_true, List.nodup_iff_count_eq_one]
  refine forall₂_congr fun x _ => ?_
  rw [beq_iff_eq, List.count_eq_length_filter]

theorem ascending_iff (xs : List Nat) : ascending xs = true ↔ xs.Pairwise (· < ·) := by
  rw [← List.isChain_iff_pairwise]
  induction xs with
  | nil => simp [ascending]
  | cons a xs ih =>
    cases xs with
    | nil => simp [ascending]
    | cons b xs => simp [ascending, ih]

/-! ### LOAD BANDS and LOAD EXCEPTIONS -/

theorem foldl_set_other {β : Type} {ps : List (Nat × β)} {b : Nat} (h : ∀ p, p ∈ ps → p.1 ≠ b) (t : List β) :
    (ps.foldl (fun t p => t.set p.1 p.2) t)[b]? = t[b]? := by
  induction ps generalizing t with
  | nil => rfl
  | cons p ps ih =>
    obtain ⟨hp, hrest⟩ := List.forall_mem_cons.1 h
    rw [List.foldl_cons, ih hrest, List.getElem?_set_ne hp]

theorem foldl_set_at {β : Type} {ps : List (Nat × β)} (hn : (ps.map (·.1)).Nodup) {p : Nat × β} (hp : p ∈ ps)
    {t : List β} (ht : p.1 < t.length) : (ps.foldl (fun t p => t.set p.1 p.2) t)[p.1]? = some p.2 := by
  induction ps generalizing t with
  | nil => cases hp
  | cons q ps ih =>
    obtain ⟨hq, hrest⟩ := List.nodup_cons.1 hn
    obtain rfl | hp := List.mem_cons.1 hp
    · rw [List.foldl_cons, foldl_set_other (fun x hx he => hq (List.mem_map.2 ⟨x, hx, he⟩)),
        List.getElem?_set_self ht]
    · exact ih hrest hp (by simpa using ht)

theorem band_lt_of_image {o : List Byte} {p : Nat × Option BandRecord} (h : bandOfImage o = some p) : p.1 < 14 := by
  by_cases hb : Config.userBands ≤ field o 0 1
  · simp [bandOfImage, hb] at h
  have hlt : field o 0 1 < 14 := Nat.lt_of_not_le hb
  simp only [bandOfImage, if_neg hb] at h
  split at h
  · obtain rfl := Option.some.inj h
    exact hlt
  · obtain rfl := (onlyIf_some h).2
    exact hlt
  · cases h

theorem mem_reads {α : Type} {read : List Byte → Option α} {images : List (List Byte)} {records : List α}
    (h : images.map read = records.map some) {p : α} (hp : p ∈ records) : ∃ o, read o = some p := by
  have hmem : some p ∈ images.map read := h ▸ List.mem_map.2 ⟨p, hp, rfl⟩
  obtain ⟨o, -, ho⟩ := List.mem_map.1 hmem
  exact ⟨o, ho⟩

/-- Settles O41: what the images read as, then the checks in their order, then the write. -/
theorem loadBandsAndExceptions : Obligations.LoadBandsAndExceptions := by
  unfold Obligations.LoadBandsAndExceptions
  refine ⟨fun s v images u h hlegal himages hu => ?_, fun s v images u h himages hu => ?_⟩
  · have ht : exec .loadBands s = .next (v.finish (loadBandsBody images v.modifiers u)) := by
      subst himages hu
      exact congrArg Host.Outcome.next (takeItem_counted h h.form)
    rw [ht]
    refine ⟨fun hbad => ?_, fun records hread => ?_⟩
    · rw [loadBandsBody, allOf_none_of hbad, finish_refuse]
    have hbody : loadBandsBody images v.modifiers u =
        if 1 ≤ records.length ∧ records.length ≤ Config.userBands ∧ distinct (records.map (·.1)) then
          if u.busy then refuse .busy u
          else if u.deniedFor (records.any (fun p => u.bandProtected p.1)) then refuse .denied u
          else (u.stageBands records, .done)
        else refuse .range u := by
      simp only [loadBandsBody, allOf_of_reads hread]
    rw [hbody]
    refine ⟨fun hbad => ?_, fun hne hle hnodup => ?_⟩
    · rw [if_neg ?_, finish_refuse]
      rw [distinct_iff]
      rintro ⟨h1, h2, h3⟩
      obtain rfl | hlong | hdup := hbad
      · exact absurd h1 (by decide)
      · exact absurd hlong (Nat.not_lt.2 h2)
      · exact hdup h3
    rw [if_pos ⟨List.length_pos_iff.2 hne, hle, (distinct_iff _).2 hnodup⟩]
    have hprot : records.any (fun p => u.bandProtected p.1) = true ↔ ∃ p, p ∈ records ∧ u.bandProtected p.1 = true :=
      List.any_eq_true
    refine ⟨fun hbusy => ?_, fun hbusy hcert hp => ?_, fun hbusy hok => ?_⟩
    · rw [if_pos (show u.busy = true from hbusy), finish_refuse]
    · rw [if_neg (by simp [State.busy, hbusy]), if_pos ((deniedFor_iff _ _).2 ⟨hprot.2 hp, hcert⟩), finish_refuse]
    · have hallowed : ¬u.deniedFor (records.any (fun p => u.bandProtected p.1)) = true := by
        rw [deniedFor_iff, hprot]
        rintro ⟨⟨p, hp, hprotected⟩, hcert⟩
        obtain hyes | hnone := hok
        · exact absurd hyes (by rw [hcert]; decide)
        · exact absurd hprotected (by rw [hnone p hp]; decide)
      rw [if_neg (by simp [State.busy, hbusy]), if_neg hallowed]
      have hlen : u.schedule.stagedBands.length = 14 := by
        rw [hu]
        exact ((runs_settleCommit s).bands hlegal).staged
      refine ⟨_, rfl, (length_stageBands _ _).trans hlen, fun p hp => ?_, fun b hb => foldl_set_other hb _⟩
      obtain ⟨o, ho⟩ := mem_reads hread hp
      exact foldl_set_at hnodup hp (by rw [hlen]; exact band_lt_of_image ho)
  · have ht : exec .loadExceptions s = .next (v.finish (loadExceptionsBody images v.modifiers u)) := by
      subst himages hu
      exact congrArg Host.Outcome.next (takeItem_counted h h.form)
    rw [ht]
    refine ⟨fun hbad => ?_, fun records hread => ?_⟩
    · rw [loadExceptionsBody, allOf_none_of hbad, finish_refuse]
    have hbody : loadExceptionsBody images v.modifiers u =
        if records.length ≤ Config.exceptionCount ∧ ascending (records.map (·.day)) then
          if u.busy then refuse .busy u
          else if u.analysisDenied then refuse .denied u
          else (u.stageExceptions records, .done)
        else refuse .range u := by
      simp only [loadExceptionsBody, allOf_of_reads hread]
    rw [hbody]
    refine ⟨fun hbad => ?_, fun hle hasc => ?_⟩
    · rw [if_neg ?_, finish_refuse]
      rw [ascending_iff]
      rintro ⟨h1, h2⟩
      obtain hlong | hdup := hbad
      · exact absurd hlong (Nat.not_lt.2 h1)
      · exact hdup h2
    · rw [if_pos ⟨hle, (ascending_iff _).2 hasc⟩, finish_ite, finish_ite]
      rfl

/-! ### LOAD PLANT -/

theorem settle_eq (tick : Tick) (l : PlantLine) : l.settle tick = { l with
    active := l.level
    activationTick := if l.level = true ∧ l.active = false then some tick else l.activationTick
    deactivationTick := if ¬l.level = true ∧ l.active = true then some tick else l.deactivationTick } := by
  obtain ⟨record, sampler, active, act, deact, run, total⟩ := l
  unfold PlantLine.settle
  by_cases hlevel : PlantLine.level ⟨record, sampler, active, act, deact, run, total⟩ = true
  · cases active <;> simp [hlevel]
  · rw [Bool.not_eq_true] at hlevel
    cases active <;> simp [hlevel]

/-- A line under a new record. -/
def PlantLine.under (tick : Tick) (r : PlantRecord) (l : PlantLine) : PlantLine := { l with
  record := r
  active := l.sampler.level == r.activeLevel
  activationTick := if l.sampler.level = r.activeLevel ∧ l.active = false then some tick else l.activationTick
  deactivationTick := if l.sampler.level ≠ r.activeLevel ∧ l.active = true then some tick else l.deactivationTick }

theorem settle_record (tick : Tick) (r : PlantRecord) (l : PlantLine) :
    PlantLine.settle tick { l with record := r } = l.under tick r := by
  rw [settle_eq]
  simp only [PlantLine.level, PlantLine.under, beq_iff_eq, ne_eq]

/-- A record makes an enabled line active that was not both before. -/
def PlantLine.gains (l : PlantLine) (r : PlantRecord) : Prop :=
  r.enabled = true ∧ l.sampler.level = r.activeLevel ∧ ¬(l.record.enabled = true ∧ l.active = true)

/-- From `s` to `t` the records were written: the named lines are under them and the others stay, and each
current episode gained the lines that they made enabled and active. -/
structure State.Planted (records : List (Nat × PlantRecord)) (s t : State) : Prop where
  whole  : t = { s with plant := { s.plant with lines := t.plant.lines }
                        episodes := { s.episodes with current := t.episodes.current } }
  length : t.episodes.current.length = s.episodes.current.length
  gained : ∀ (k : Nat) (e : Episode), s.episodes.current[k]? = some e → ∃ lines : LineSet,
    t.episodes.current[k]? = some { e with everActive := lines } ∧
    ∀ i, i < 8 → (lines.getLsbD i = true ↔ e.everActive.getLsbD i = true ∨
      ∃ r l, (i, r) ∈ records ∧ s.plant.lines[i]? = some l ∧ l.gains r)
  named  : ∀ p (l : PlantLine), p ∈ records → s.plant.lines[p.1]? = some l →
    t.plant.lines[p.1]? = some (l.under s.clock.tickCount p.2)
  others : ∀ i, (∀ p, p ∈ records → p.1 ≠ i) → t.plant.lines[i]? = s.plant.lines[i]?

/-- One record written. -/
theorem planted_one (p : Nat × PlantRecord) (s : State) :
    State.Planted [p] s (s.changeLine p.1 (fun l => { l with record := p.2 })) := by
  cases hl : s.plant.lines[p.1]? with
  | none =>
    have hid : s.changeLine p.1 (fun l => { l with record := p.2 }) = s := by
      unfold State.changeLine
      rw [hl]
    rw [hid]
    refine ⟨rfl, rfl, fun k e he => ⟨e.everActive, he, fun i hi => (or_iff_left ?_).symm⟩, fun q l hq hline => ?_,
      fun i hi => rfl⟩
    · rintro ⟨r, l, hmem, hline, -⟩
      rw [← List.mem_singleton.1 hmem, hline] at hl
      cases hl
    · rw [List.mem_singleton.1 hq, hl] at hline
      cases hline
  | some l =>
    have hplt := (List.getElem?_eq_some_iff.1 hl).1
    rw [changeLine_eq hl (settle_record s.clock.tickCount p.2 l).symm]
    have hgains : ((l.under s.clock.tickCount p.2).record.enabled = true ∧
        (l.under s.clock.tickCount p.2).active = true ∧ ¬(l.record.enabled = true ∧ l.active = true)) ↔ l.gains p.2 := by
      simp [PlantLine.under, PlantLine.gains]
    refine ⟨rfl, List.length_map _, fun k e he => ?_, fun q m hq hm => ?_, fun i hi => ?_⟩
    · by_cases hg : l.gains p.2
      · refine ⟨setInsert e.everActive p.1, ?_, fun i hi => ?_⟩
        · rw [List.getElem?_map, he]
          exact congrArg some (if_pos (hgains.2 hg))
        rw [getLsbD_setInsert_iff]
        simp only [Bool.or_eq_true, Bool.and_eq_true, decide_eq_true_eq, List.mem_singleton]
        refine or_congr_right ⟨fun ⟨_, hpi⟩ => ⟨p.2, l, by rw [← hpi], by rw [← hpi, hl], hg⟩, ?_⟩
        rintro ⟨r, m, hr, -, -⟩
        exact ⟨hi, congrArg Prod.fst hr.symm⟩
      · refine ⟨e.everActive, ?_, fun i hi => (or_iff_left ?_).symm⟩
        · rw [List.getElem?_map, he]
          exact congrArg some (if_neg (hgains.not.2 hg))
        rintro ⟨r, m, hr, hm, hgm⟩
        obtain rfl := List.mem_singleton.1 hr
        obtain rfl := Option.some.inj (hl.symm.trans hm)
        exact hg hgm
    · obtain rfl := List.mem_singleton.1 hq
      obtain rfl := Option.some.inj (hl.symm.trans hm)
      exact List.getElem?_set_self hplt
    · exact List.getElem?_set_ne (hi p (List.mem_singleton.2 rfl))

theorem planted_loadPlant {records : List (Nat × PlantRecord)} (hn : (records.map (·.1)).Nodup) (s : State) :
    State.Planted records s (s.loadPlant records) := by
  induction records generalizing s with
  | nil => exact ⟨rfl, rfl, fun k e he => ⟨e.everActive, he, by simp⟩, fun p _ hp => (nomatch hp), fun _ _ => rfl⟩
  | cons p records ih =>
    obtain ⟨hp, hrest⟩ := List.nodup_cons.1 hn
    have one := planted_one p s
    have rest := ih hrest (s.changeLine p.1 (fun l => { l with record := p.2 }))
    show State.Planted _ _ ((s.changeLine p.1 (fun l => { l with record := p.2 })).loadPlant records)
    generalize s.changeLine p.1 (fun l => { l with record := p.2 }) = u at one rest
    generalize u.loadPlant records = t at rest
    have hclock : u.clock = s.clock := by rw [one.whole]
    have other (i : Nat) (hi : p.1 ≠ i) : u.plant.lines[i]? = s.plant.lines[i]? :=
      one.others i fun q hq => List.mem_singleton.1 hq ▸ hi
    have apart {q : Nat × PlantRecord} (hq : q ∈ records) : p.1 ≠ q.1 := fun he => hp (List.mem_map.2 ⟨q, hq, he.symm⟩)
    refine ⟨?_, rest.length.trans one.length, fun k e he => ?_, fun q l hq hl => ?_, fun i hi => ?_⟩
    · rw [rest.whole, one.whole]
    · obtain ⟨first, hfirst, hfirstIff⟩ := one.gained k e he
      obtain ⟨lines, hlines, hiff⟩ := rest.gained k _ hfirst
      refine ⟨lines, hlines, fun i hi => ?_⟩
      rw [hiff i hi, hfirstIff i hi, or_assoc]
      refine or_congr_right ⟨?_, ?_⟩
      · rintro (⟨r, l, hr, hl, hg⟩ | ⟨r, l, hr, hl, hg⟩)
        · exact ⟨r, l, List.mem_cons.2 (.inl (List.mem_singleton.1 hr)), hl, hg⟩
        · exact ⟨r, l, List.mem_cons_of_mem _ hr, by rw [← other i (apart hr)]; exact hl, hg⟩
      · rintro ⟨r, l, hr, hl, hg⟩
        obtain hr | hr := List.mem_cons.1 hr
        · exact .inl ⟨r, l, List.mem_singleton.2 hr, hl, hg⟩
        · exact .inr ⟨r, l, hr, by rw [other i (apart hr)]; exact hl, hg⟩
    · obtain rfl | hq := List.mem_cons.1 hq
      · rw [rest.others _ fun x hx => (apart hx).symm]
        exact one.named _ l (List.mem_singleton.2 rfl) hl
      · rw [← hclock]
        exact rest.named q l hq ((other q.1 (apart hq)).trans hl)
    · obtain ⟨hpi, hothers⟩ := List.forall_mem_cons.1 hi
      rw [rest.others i hothers, other i hpi]

/-- Settles O46: what the images read as, then the records written one by one. -/
theorem loadPlant : Obligations.LoadPlant := by
  unfold Obligations.LoadPlant
  intro s v images u h himages hu
  have ht : exec .loadPlant s = .next (v.finish (loadPlantBody images v.modifiers u)) := by
    subst himages hu
    exact congrArg Host.Outcome.next (takeItem_counted h h.form)
  rw [ht]
  refine ⟨fun hbad => ?_, fun records hread => ?_⟩
  · rw [loadPlantBody, allOf_none_of hbad, finish_refuse]
  have hbody : loadPlantBody images v.modifiers u =
      if 1 ≤ records.length ∧ records.length ≤ Config.plantLines ∧ distinct (records.map (·.1)) then
        (u.loadPlant records, .done)
      else refuse .range u := by
    simp only [loadPlantBody, allOf_of_reads hread]
  rw [hbody]
  refine ⟨fun hbad => ?_, fun hne hle hnodup => ?_⟩
  · rw [if_neg ?_, finish_refuse]
    rw [distinct_iff]
    rintro ⟨h1, h2, h3⟩
    obtain rfl | hlong | hdup := hbad
    · exact absurd h1 (by decide)
    · exact absurd hlong (Nat.not_lt.2 h2)
    · exact hdup h3
  · rw [if_pos ⟨List.length_pos_iff.2 hne, hle, (distinct_iff _).2 hnodup⟩]
    obtain ⟨hwhole, hlength, hgained, hnamed, hothers⟩ := planted_loadPlant hnodup u
    exact ⟨u.loadPlant records, rfl, hwhole, hlength, hgained, hnamed, hothers⟩

/-! ### The kept reads -/

theorem modifiers_keep (v : ItemView) : v.modifiers.keep = if .keep ∈ v.prefixes then some v.tag else none := by
  unfold ItemView.modifiers modifiersOf
  simp only [List.contains_iff_mem]

theorem any_query {q : QueryCommand} {qs : List Query} :
    qs.any (fun x => x.command == q) = true ↔ ∃ x, x ∈ qs ∧ x.command = q := by
  simp

theorem renewQuery_eq (q : QueryCommand) (tag : Byte) (qs : List Query) :
    renewQuery q tag qs = qs.map (fun x => if x.command = q then ⟨q, tag⟩ else x) := by
  unfold renewQuery
  refine List.map_congr_left fun x _ => ?_
  by_cases h : x.command = q
  · simp [← h]
  · simp [h]

/-- Each of the four commands is the read of its query, kept where KEEP says so. -/
theorem exec_readKept {q : QueryCommand} {s : State} {v : ItemView} (h : s.Takes q.commandCode v)
    (hslot : q.slotField = v.modifiers.slot) (hkey : ∀ key slot, q = .readWindow key slot → key = field v.operands 0 2) :
    exec q.commandCode.instr s = .next (v.finish (s.settleCommit.readKept q v.modifiers)) := by
  cases q with
  | readWindow key slot =>
    obtain rfl := hkey key slot rfl
    obtain rfl : slot = v.modifiers.slot := hslot
    exact congrArg Host.Outcome.next (takeItem_fixed h h.form)
  | readSlot slot =>
    obtain rfl : slot = v.modifiers.slot := hslot
    exact congrArg Host.Outcome.next (takeItem_fixed h h.form)
  | readEpisodes => exact congrArg Host.Outcome.next (takeItem_fixed h h.form)
  | readTime => exact congrArg Host.Outcome.next (takeItem_fixed h h.form)

/-- Settles O49: the read, then its installation. -/
theorem keptReads : Obligations.KeptReads := by
  unfold Obligations.KeptReads
  refine ⟨fun q => by cases q <;> exact ⟨rfl, rfl⟩, fun s v q u hu h hslot hkey a ha => ?_⟩
  subst hu ha
  rw [exec_readKept h hslot hkey, State.readKept, modifiers_keep]
  refine ⟨fun hno => ?_, fun hkeep hok => ?_⟩
  · by_cases hkeep : .keep ∈ v.prefixes
    · have hbad : ¬(s.settleCommit.readQuery q).result = .ok := hno.resolve_left (fun hn => hn hkeep)
      simp only [if_pos hkeep, if_neg hbad]
      rfl
    · simp only [if_neg hkeep]
      rfl
  · simp only [if_pos hkeep, if_pos hok, State.install]
    refine ⟨fun hany => ?_, fun hnone => ⟨fun hfew => ?_, fun hmany => ?_⟩⟩
    · rw [if_pos (any_query.2 hany), renewQuery_eq, finish_mk, hok]
      rfl
    · have hnot : ¬(s.settleCommit.cadence.queries.any (fun x => x.command == q) = true) := by
        rw [any_query]
        rintro ⟨x, hx, hc⟩
        exact hnone x hx hc
      rw [if_neg hnot, if_pos (show _ < Config.queryCount from hfew), finish_mk, hok]
      rfl
    · have hnot : ¬(s.settleCommit.cadence.queries.any (fun x => x.command == q) = true) := by
        rw [any_query]
        rintro ⟨x, hx, hc⟩
        exact hnone x hx hc
      rw [if_neg hnot, if_neg (show ¬_ < Config.queryCount from Nat.not_lt.2 hmany), finish_refuse]

/-! ### SET CADENCE and CANCEL QUERY -/

theorem cadenceModeOf_of_le {n : Nat} (h : n ≤ 1) :
    cadenceModeOf n = some (if n = 0 then .continuous else .oneShot) := by
  interval_cases n <;> rfl

theorem cadenceModeOf_of_gt {n : Nat} (h : 1 < n) : cadenceModeOf n = none := by
  unfold cadenceModeOf
  split
  · omega
  · omega
  · rfl

theorem flagOf_of_le {n : Nat} (h : n ≤ 1) : flagOf n = some (n == 1) := by
  interval_cases n <;> rfl

theorem flagOf_of_gt {n : Nat} (h : 1 < n) : flagOf n = none := by
  unfold flagOf
  split
  · omega
  · omega
  · rfl

/-- SET CADENCE with a mode and two flags that are codes. -/
theorem setCadenceBody_of_codes {ops : CadenceOperands} {m : Modifiers} {s : State} (hmode : ops.mode ≤ 1)
    (hrun : ops.run ≤ 1) (hforce : ops.force ≤ 1) : setCadenceBody ops m s =
      if ops.base < 1 ∨ 3600 < ops.base ∨ ops.summary < 1 ∨ 255 < ops.summary then refuse .range s
      else
        let t := (s.takeDue plainTick .summary).setCadence ops.base ops.summary
          (if ops.mode = 0 then .continuous else .oneShot) (ops.run == 1) (ops.force == 1)
        (t, .ok t.cadenceData) := by
  unfold setCadenceBody
  rw [cadenceModeOf_of_le hmode, flagOf_of_le hrun, flagOf_of_le hforce]

theorem setCadenceBody_of_bad {ops : CadenceOperands} {m : Modifiers} {s : State}
    (h : 1 < ops.mode ∨ 1 < ops.run ∨ 1 < ops.force) : setCadenceBody ops m s = refuse .range s := by
  unfold setCadenceBody
  obtain h | h | h := h
  · rw [cadenceModeOf_of_gt h]
  · rw [flagOf_of_gt h]
    cases cadenceModeOf ops.mode <;> rfl
  · rw [flagOf_of_gt h]
    cases cadenceModeOf ops.mode <;> cases flagOf ops.run <;> rfl

theorem setCadence_eq (base summary mode run force : Nat) (w : State) :
    w.setCadence base summary (if mode = 0 then .continuous else .oneShot) (run == 1) (force == 1) =
      { w with cadence := {
        second := if force = 1 ∨ (run = 1 ∧ w.cadence.running = false) then 8 else w.cadence.second
        baseLatch := base
        base := if force = 1 ∨ w.cadence.running = false then base else w.cadence.base
        summaryLatch := summary
        summary := if force = 1 ∨ w.cadence.running = false then summary else w.cadence.summary
        mode := if mode = 0 then .continuous else .oneShot
        running := run == 1
        queries := w.cadence.queries } } := by
  unfold State.setCadence Cadence.set
  simp only [Bool.or_eq_true, Bool.and_eq_true, Bool.not_eq_true', beq_iff_eq]

/-- Settles O60: the codes of the operands, then the latches and the counters. -/
theorem setCadenceAndCancelQuery : Obligations.SetCadenceAndCancelQuery := by
  unfold Obligations.SetCadenceAndCancelQuery
  refine fun s v => ⟨fun h u base summary mode run force hu hbase hsummary hmode hrun hforce => ?_,
    fun h u position hu hposition => ?_⟩
  · have ht : exec .setCadence s =
        .next (v.finish (setCadenceBody ⟨base, summary, mode, run, force⟩ v.modifiers u)) := by
      subst hbase hsummary hmode hrun hforce hu
      exact congrArg Host.Outcome.next (takeItem_fixed h h.form)
    rw [ht]
    refine ⟨fun hbad => ?_, fun hb1 hb2 hs1 hs2 hm hr hf w t hw ht => ?_⟩
    · by_cases hcode : 1 < mode ∨ 1 < run ∨ 1 < force
      · rw [setCadenceBody_of_bad hcode, finish_refuse]
      · rw [setCadenceBody_of_codes (show mode ≤ 1 by omega) (show run ≤ 1 by omega) (show force ≤ 1 by omega), if_pos ?_, finish_refuse]
        show base < 1 ∨ 3600 < base ∨ summary < 1 ∨ 255 < summary
        omega
    · rw [setCadenceBody_of_codes hm hr hf, if_neg ?_]
      · rw [ht, hw, ← setCadence_eq]
        rfl
      · show ¬(base < 1 ∨ 3600 < base ∨ summary < 1 ∨ 255 < summary)
        omega
  · subst hposition hu
    refine congrArg Host.Outcome.next ((takeItem_fixed h h.form).trans ?_)
    rw [cancelQueryBody, finish_ite, finish_ite, finish_ite]
    rfl

end Sys2Proof.Machine

/-! The beacon lines and the notice mask. -/

namespace Sys2Proof.Machine

/-! ### The demand and the outputs of the beacon lines -/

theorem mem_demand (s : State) (line number : Nat) : number ∈ s.demand line ↔
    ∃ e, e ∈ s.episodes.current ∧ e.number = number ∧ s.Names e.key line := by
  unfold State.demand
  simp only [List.mem_map, List.mem_filter, ← names_iff, and_assoc]
  exact exists_congr fun e => and_congr_right fun _ => and_comm

theorem demand_eq {s : State} {line : Nat} {named : Episode → Bool} (h : ∀ e, named e = true ↔ s.Names e.key line) :
    s.demand line = (s.episodes.current.filter named).map (·.number) := by
  unfold State.demand
  refine congrArg _ (List.filter_congr fun e _ => Bool.eq_iff_iff.2 ?_)
  rw [← names_iff, h]

theorem demanded_iff (s : State) (line : Nat) : (!(s.demand line).isEmpty) = true ↔
    ∃ e, e ∈ s.episodes.current ∧ s.Names e.key line := by
  rw [Bool.not_eq_true', ← Bool.not_eq_true, List.isEmpty_iff, List.eq_nil_iff_forall_not_mem, not_forall]
  simp only [not_not, mem_demand]
  exact ⟨fun ⟨_, e, he, _, hn⟩ => ⟨e, he, hn⟩, fun ⟨e, he, hn⟩ => ⟨_, e, he, rfl, hn⟩⟩

theorem beaconReports_getElem? (s : State) (line : Nat) : s.beaconReports[line]? = s.beacons[line]?.map (fun b =>
    ⟨b.mode, b.width, b.override, (s.demand line).length, b.pulse, b.automatic (!(s.demand line).isEmpty),
      b.output (!(s.demand line).isEmpty)⟩) := by
  unfold State.beaconReports
  rw [getElem?_zipIdx_map]

theorem output_eq (demanded : Bool) (b : BeaconLine) : b.output demanded = (match b.override with
    | .auto => b.automatic demanded
    | .forceOn => true
    | .forceOff => false) := by
  unfold BeaconLine.output
  cases b.override <;> rfl

/-- A line changed where one stands. -/
theorem modifyBeacon_eq {s : State} {line : Nat} {b : BeaconLine} (hb : s.beacons[line]? = some b)
    (f : BeaconLine → BeaconLine) : s.modifyBeacon line f = { s with beacons := s.beacons.set line (f b) } := by
  unfold State.modifyBeacon
  rw [modify_of_getElem? hb]

/-! ### SET BEACON and BEACON OVERRIDE -/

theorem beaconModeOf_none {code : Nat} (h : 2 < code) : beaconModeOf code = none := by
  unfold beaconModeOf
  split
  · omega
  · omega
  · omega
  · rfl

theorem beaconModeOf_some {code : Nat} {mode : BeaconMode} (h : beaconModeOf code = some mode) : code ≤ 2 :=
  Nat.not_lt.1 fun hlt => by
    rw [beaconModeOf_none hlt] at h
    cases h

theorem overrideOf_none {code : Nat} (h : 2 < code) : overrideOf code = none := by
  unfold overrideOf
  split
  · omega
  · omega
  · omega
  · rfl

/-- A change of mode clears the timers and takes the automatic level afresh. -/
theorem set_eq (demanded : Bool) (mode : BeaconMode) (width : Nat) (b : BeaconLine) : b.set demanded mode width =
    if b.mode = mode then { b with width := width }
    else { b with mode := mode, width := width, pulse := 0
                  flash := if mode = .flash ∧ demanded = true then some ⟨true, 4⟩ else none } := by
  unfold BeaconLine.set
  by_cases h : b.mode = mode
  · rw [if_pos h, if_pos h]
  · rw [if_neg h, if_neg h]
    cases mode <;> cases demanded <;> rfl

theorem setBeaconBody_of_mode {line code width : Nat} {mode : BeaconMode} (h : beaconModeOf code = some mode)
    (m : Modifiers) (s : State) : setBeaconBody (line, code, width) m s =
      if Config.beaconLines ≤ line ∨ width < 1 ∨ 60 < width then refuse .range s
      else
        let t := s.modifyBeacon line (BeaconLine.set (!(s.demand line).isEmpty) mode width)
        (t, .ok t.beaconsData) := by
  unfold setBeaconBody
  rw [h]

theorem beaconOverrideBody_of_value {line code : Nat} {value : Override} (h : overrideOf code = some value)
    (m : Modifiers) (s : State) : beaconOverrideBody (line, code) m s =
      if Config.beaconLines ≤ line then refuse .range s
      else
        let t := s.modifyBeacon line (fun b => { b with override := value })
        (t, .ok t.beaconsData) := by
  unfold beaconOverrideBody
  rw [h]

/-- Modifiers before BEACON OVERRIDE are refused: none applies to it. -/
theorem prefixes_of_beaconOverride (ps : List PrefixItem) :
    prefixesTaken ps .beaconOverride = true ↔ ps = [] := by
  cases ps with
  | nil => simp [prefixesTaken]
  | cons p ps => cases p <;> simp [prefixesTaken, PrefixItem.appliesTo]

/-- Settles O58: the codes of the operands, then the line changed and the outputs by its override. -/
theorem setBeaconAndOverride : Obligations.SetBeaconAndOverride := by
  unfold Obligations.SetBeaconAndOverride
  refine ⟨fun s v u line code width h hu hline hcode hwidth => ?_, fun s v hreach hcode hlen u line code hu hline hc => ?_,
    fun s line => ⟨mem_demand s line, fun named hn => demand_eq hn, fun b demanded output hb hd ho => ?_⟩,
    fun s => ⟨by simp [State.outputs], by simp [State.beaconReports]⟩, fun code => rfl⟩
  · have ht : exec .setBeacon s = .next (v.finish (setBeaconBody (line, code, width) v.modifiers u)) := by
      subst hline hcode hwidth hu
      exact congrArg Host.Outcome.next (takeItem_fixed h h.form)
    rw [ht]
    refine ⟨fun hbad => ?_, fun mode b hl hmode hw1 hw2 hb t ht => ?_⟩
    · cases hmode : beaconModeOf code with
      | none => rw [setBeaconBody, hmode, finish_refuse]
      | some mode =>
        have hle := beaconModeOf_some hmode
        have hout : Config.beaconLines ≤ line ∨ width < 1 ∨ 60 < width := by
          unfold Config.beaconLines
          omega
        rw [setBeaconBody_of_mode hmode, if_pos hout, finish_refuse]
    · have hin : ¬(Config.beaconLines ≤ line ∨ width < 1 ∨ 60 < width) := by
        unfold Config.beaconLines
        omega
      rw [setBeaconBody_of_mode hmode, if_neg hin, modifyBeacon_eq hb, set_eq, ht]
      simp only [Bool.not_eq_true', List.isEmpty_eq_false_iff]
      rfl
  · have ht : exec .beaconOverride s = .next (v.finish
        (u.runItem .beaconOverride byteByteForm beaconOverrideBody v.operands v.prefixes v.tag)) := by
      subst hu
      exact congrArg Host.Outcome.next (takeItem_of_reaches hreach hcode)
    have hform : byteByteForm v.operands = some (line, code) := by
      subst hline hc
      exact fixedForm_of_length hlen
    rw [ht]
    refine ⟨fun hps => ?_, fun hps hbad => ?_, fun value b hps hl hvalue hb t ht => ?_⟩
    · have hno : prefixesTaken v.prefixes .beaconOverride = false := by
        rw [← Bool.not_eq_true, prefixes_of_beaconOverride]
        exact hps
      rw [runItem_of_not_taken hno, finish_refuse]
    · rw [runItem_of_form hform ((prefixes_of_beaconOverride _).2 hps)]
      cases hv : overrideOf code with
      | none => rw [beaconOverrideBody, hv, finish_refuse]
      | some value =>
        have hle : ¬2 < code := fun hlt => by
          rw [overrideOf_none hlt] at hv
          cases hv
        rw [beaconOverrideBody_of_value hv, if_pos (show Config.beaconLines ≤ line from hbad.resolve_right hle),
          finish_refuse]
    · have hv : overrideOf code = some value := by
        obtain ⟨rfl, rfl⟩ | ⟨rfl, rfl⟩ | ⟨rfl, rfl⟩ := hvalue <;> rfl
      have hset : t.beacons[line]? = some { b with override := value } := by
        rw [ht]
        exact List.getElem?_set_self (List.getElem?_eq_some_iff.1 hb).1
      refine ⟨?_, ?_, fun hsame => ?_⟩
      · rw [runItem_of_form hform ((prefixes_of_beaconOverride _).2 hps), beaconOverrideBody_of_value hv,
          if_neg (show ¬Config.beaconLines ≤ line from Nat.not_le.2 (Nat.lt_succ_of_le hl)), modifyBeacon_eq hb, ht]
        rfl
      · rw [outputs_getElem?, hset]
        subst ht
        exact congrArg some (output_eq _ _)
      · have hid : u.beacons.set line { b with override := value } = u.beacons := by
          rw [← hsame]
          obtain ⟨hlt, rfl⟩ := List.getElem?_eq_some_iff.1 hb
          exact List.set_getElem_self hlt
        rw [ht, hid]
  · obtain rfl : (!(s.demand line).isEmpty) = demanded := Bool.eq_iff_iff.2 ((demanded_iff s line).trans hd.symm)
    have hout : b.output (!(s.demand line).isEmpty) = output := (output_eq _ b).trans ho.symm
    refine ⟨?_, ?_, fun hsteady hauto => ?_⟩
    · rw [outputs_getElem?, hb, ← hout]
      rfl
    · rw [beaconReports_getElem?, hb, ← hout]
      rfl
    · rw [← demanded_iff, ho, hauto]
      simp only [BeaconLine.automatic, hsteady]

/-! ### The notice mask -/

theorem and_ne_zero {w : Nat} {a b : BitVec w} :
    a &&& b ≠ 0 ↔ ∃ i, a.getLsbD i = true ∧ b.getLsbD i = true := by
  refine ⟨fun h => ?_, fun ⟨i, ha, hb⟩ h0 => ?_⟩
  · obtain ⟨i, hi⟩ := bit_of_ne_zero h
    rw [BitVec.getLsbD_and, Bool.and_eq_true] at hi
    exact ⟨i, hi⟩
  · have hi : (a &&& b).getLsbD i = true := by rw [BitVec.getLsbD_and, ha, hb]; rfl
    rw [h0] at hi
    simp at hi

/-- The latch sets where it was clear and a pending notice is enabled. -/
theorem settleLatch_of_enabled {s : State} (hl : s.notices.latch = false)
    (h : ∃ i, s.notices.pending.getLsbD i = true ∧ s.notices.mask.getLsbD i = true) : s.settleLatch = s.setLatch :=
  if_pos ⟨hl, and_ne_zero.2 h⟩

theorem alerted_settleLatch {s : State} (hl : s.notices.latch = false)
    (h : ∃ i, s.notices.pending.getLsbD i = true ∧ s.notices.mask.getLsbD i = true) : State.Alerted s s.settleLatch := by
  rw [settleLatch_of_enabled hl h]
  exact alerted_setLatch s

theorem settleLatch_of_quiet {s : State} (h : s.notices.latch = true ∨
    ∀ i, s.notices.pending.getLsbD i = true → s.notices.mask.getLsbD i = false) : s.settleLatch = s := by
  refine if_neg ?_
  rintro ⟨hl, hp⟩
  obtain hset | hno := h
  · exact absurd hset (by rw [hl]; decide)
  · obtain ⟨i, hi, hm⟩ := and_ne_zero.1 hp
    exact absurd hm (by rw [hno i hi]; decide)

theorem maskAfter_none {selector : Nat} (h : 1 < selector) (named mask : NoticeSet) :
    maskAfter selector named mask = none := by
  unfold maskAfter
  split
  · omega
  · omega
  · rfl

theorem maskAfter_of_le {selector : Nat} (h : selector ≤ 1) (named mask : NoticeSet) :
    maskAfter selector named mask = some (if selector = 0 then mask &&& ~~~named else mask ||| named) := by
  interval_cases selector <;> rfl

/-- The mask set is the one that holds the named notices as the selector says, and the others as before. -/
theorem mask_unique {selector named : Nat} {old mask : NoticeSet} (h : selector ≤ 1)
    (hm : ∀ i, i < 14 → mask.getLsbD i = (if named.testBit i then selector == 1 else old.getLsbD i)) :
    (if selector = 0 then old &&& ~~~(BitVec.ofNat 14 named) else old ||| BitVec.ofNat 14 named) = mask := by
  refine BitVec.eq_of_getLsbD_eq fun i hi => ?_
  rw [hm i hi]
  interval_cases selector
  · cases hb : named.testBit i <;>
      simp [BitVec.getLsbD_and, BitVec.getLsbD_not, BitVec.getLsbD_ofNat, hi, hb, -BitVec.getLsbD_eq_getElem]
  · cases hb : named.testBit i <;>
      simp [BitVec.getLsbD_or, BitVec.getLsbD_ofNat, hi, hb, -BitVec.getLsbD_eq_getElem]

/-- Settles O59: the mask by its bits, and the latch by the pending notices that are enabled. -/
theorem noticesAndMask : Obligations.NoticesAndMask := by
  unfold Obligations.NoticesAndMask
  refine ⟨fun w set i j => ?_, fun s v u selector named h hu hselector hnamed => ?_, fun n s w hw =>
    ⟨notified_raise n s, told_raise n s, fun hq => ?_, fun hl hm => ?_⟩⟩
  · rw [getLsbD_setInsert_iff, Bool.or_eq_true, Bool.and_eq_true, decide_eq_true_eq, decide_eq_true_eq]
    exact or_congr_right ⟨fun ⟨hj, hij⟩ => ⟨hij, hij ▸ hj⟩, fun ⟨hij, hi⟩ => ⟨hij ▸ hi, hij⟩⟩
  · have ht : exec .setNoticeMask s = .next (v.finish (setNoticeMaskBody (selector, named) v.modifiers u)) := by
      subst hselector hnamed hu
      exact congrArg Host.Outcome.next (takeItem_fixed h h.form)
    rw [ht, setNoticeMaskBody]
    refine ⟨fun hbad => ?_, fun hs hn mask w hmask hw => ?_⟩
    · by_cases hs : 1 < selector
      · rw [maskAfter_none hs, finish_refuse]
      · simp only [maskAfter_of_le (Nat.not_lt.1 hs), if_pos (hbad.resolve_left hs), finish_refuse]
    · simp only [maskAfter_of_le hs, mask_unique hs hmask, if_neg (Nat.not_le.2 hn)]
      subst hw
      exact ⟨_, rfl, fun hq => settleLatch_of_quiet hq, fun hl hp => alerted_settleLatch hl hp⟩
  · subst hw
    refine settleLatch_of_quiet (hq.imp_right fun ⟨hm, hno⟩ i hi => ?_)
    obtain hold | ⟨-, hbit⟩ := (by simpa using (getLsbD_setInsert_iff (m := s.notices.pending)).symm.trans hi :
      s.notices.pending.getLsbD i = true ∨ i < 14 ∧ n.bit = i)
    · exact hno i hold
    · exact hbit ▸ hm
  · subst hw
    exact alerted_settleLatch (s := s.joinNotice n) hl ⟨n.bit, by
      simp [State.joinNotice, getLsbD_setInsert_iff, BitVec.lt_of_getLsbD hm], hm⟩

end Sys2Proof.Machine

/-! Closes and closure demands: the named episodes leave, the lines follow, and their verdicts are offered. -/

namespace Sys2Proof.Machine

/-! ### Offers and the rest of the state -/

theorem State.Told.eq_offering {s t : State} (h : s.Told t) : t = s.offering t := by
  have hep := h.episodes
  have hw := h.whole
  unfold State.offering
  rw [hep]
  exact hw

theorem offerEach_eq_offering (vs : List Verdict) (s : State) : s.offerEach vs = s.offering (s.offerEach vs) := by
  have hc := closed_offerEach vs s
  unfold State.Closed at hc
  rw [current_offerEach, beacons_offerEach] at hc
  exact hc

/-- Offers do not read what a base of the same moment replaces. -/
theorem offerEach_on {base s : State} (hnow : base.now = s.now) (hbase : base.offering s = base) (vs : List Verdict) :
    base.offerEach vs = base.offering (s.offerEach vs) := by
  rw [← offering_offerEach hnow vs, hbase]

theorem State.Told.held {s t : State} (h : s.Told t) : t.held = s.held := by rw [h.whole]

theorem notified_offerEach {n : Notice} (vs : List Verdict) {s : State} (h : s.notified n) :
    (s.offerEach vs).notified n := by
  induction vs generalizing s with
  | nil => exact h
  | cons v vs ih =>
    refine ih (s := s.offerVerdict v) ?_
    unfold State.offerVerdict
    split
    · exact (told_admit _ s).notified h
    · exact h

theorem offerEach_append (vs ws : List Verdict) (s : State) :
    s.offerEach (vs ++ ws) = (s.offerEach vs).offerEach ws := List.foldl_append

/-! ### One close -/

/-- The state without the episode of a key and slot, its lines following the demand. -/
def State.without (key slot : Nat) (s : State) : State := (s.removeEpisode key slot).followDemand

theorem closeEpisode_eq (e : Episode) (r : CloseReason) (m : Moment) (s : State) :
    s.closeEpisode e r m = (s.without e.key e.slot).offerVerdict (e.verdict s.table.active r m) := rfl

theorem without_eq (key slot : Nat) (s : State) : s.without key slot = { s with
    episodes := { s.episodes with current := s.episodes.current.eraseP (Episode.of key slot) }
    beacons := (s.without key slot).beacons } := rfl

theorem demand_congr {s t : State} (he : t.episodes.current = s.episodes.current) (ht : t.table = s.table) (line : Nat) :
    t.demand line = s.demand line := by
  unfold State.demand
  rw [he, ht]

theorem follows_without (key slot : Nat) (s : State) : State.Follows s (s.without key slot) := fun i b hb =>
  follows_followDemand (s.removeEpisode key slot) i b hb

/-- Two followings make one, where the second demand is within the first. -/
theorem State.Follows.trans {s t u : State} (h : s.Follows t) (k : t.Follows u)
    (hd : ∀ i, u.demand i ≠ [] → t.demand i ≠ []) : s.Follows u := fun i b hb => by
  rw [k i _ (h i b hb), follow_follow]
  simpa [List.isEmpty_iff] using hd i

theorem demand_ne_nil_of_sublist {s t : State} (hc : t.episodes.current.Sublist s.episodes.current)
    (ht : t.table = s.table) (line : Nat) (h : t.demand line ≠ []) : s.demand line ≠ [] := by
  unfold State.demand at *
  rw [ht] at h
  intro hnil
  have hsub := (hc.filter (fun ep => s.table.active.names ep.key line)).map (·.number)
  rw [hnil] at hsub
  exact h (List.sublist_nil.1 hsub)

/-- A close after offers is the offers and the verdict after the episode has left. -/
theorem closeOf_offerEach {key slot : Nat} {e : Episode} {s : State} (he : s.episodes.find key slot = some e)
    (vs : List Verdict) (r : CloseReason) (m : Moment) : (s.offerEach vs).closeOf key slot r m =
      (s.without key slot).offerEach (vs ++ [e.verdict s.table.active r m]) := by
  obtain ⟨rfl, rfl⟩ := find_of he
  have hfind : (s.offerEach vs).episodes.find e.key e.slot = some e := by
    unfold EpisodeTable.find
    rw [current_offerEach]
    exact he
  have hcore : (s.offerEach vs).without e.key e.slot = (s.without e.key e.slot).offerEach vs := by
    rw [offerEach_on (base := s.without e.key e.slot) (s := s) rfl rfl vs, offerEach_eq_offering vs s]
    rfl
  unfold State.closeOf
  rw [hfind]
  show ((s.offerEach vs).without e.key e.slot).offerVerdict _ = _
  rw [hcore, offerEach_append, (closed_offerEach vs s).table]
  rfl

/-! ### A closure demand -/

/-- The named episodes have left the state and its lines follow the demand. -/
structure State.Leaves (named : Episode → Bool) (s t : State) : Prop where
  whole   : t = { s with
    episodes := { s.episodes with current := s.episodes.current.filter (fun e => !named e) }, beacons := t.beacons }
  idle    : (∀ e, e ∈ s.episodes.current → named e = false) → t = s
  follows : (∃ e, e ∈ s.episodes.current ∧ named e = true) → State.Follows s t

theorem find_named {named : Episode → Bool} (hn : ∀ a b : Episode, a.key = b.key → a.slot = b.slot → named a = named b)
    {l es : List Episode} {e : Episode} (h : l.filter named = e :: es) : l.find? (Episode.of e.key e.slot) = some e := by
  obtain ⟨before, after, rfl, hbefore, he, -⟩ := List.filter_eq_cons_iff.1 h
  rw [List.find?_append, List.find?_eq_none.2, List.find?_cons_of_pos (of_self e)]
  · rfl
  · intro x hx hof
    have hk : x.key = e.key ∧ x.slot = e.slot := by simpa [Episode.of] using hof
    exact hbefore x hx ((hn x e hk.1 hk.2).trans he)

theorem filter_eraseP_named {named : Episode → Bool}
    (hn : ∀ a b : Episode, a.key = b.key → a.slot = b.slot → named a = named b) {l es : List Episode} {e : Episode}
    (h : l.filter named = e :: es) : (l.eraseP (Episode.of e.key e.slot)).filter named = es ∧
      (l.eraseP (Episode.of e.key e.slot)).filter (fun x => !named x) = l.filter (fun x => !named x) := by
  obtain ⟨before, after, rfl, hbefore, he, hafter⟩ := List.filter_eq_cons_iff.1 h
  have hno : ∀ x, x ∈ before → ¬(Episode.of e.key e.slot x = true) := fun x hx hof => by
    have hk : x.key = e.key ∧ x.slot = e.slot := by simpa [Episode.of] using hof
    exact hbefore x hx ((hn x e hk.1 hk.2).trans he)
  rw [List.eraseP_append_right _ hno, List.eraseP_cons_of_pos (of_self e), List.filter_append, List.filter_append,
    List.filter_append, List.filter_eq_nil_iff.2 hbefore, hafter, List.filter_cons_of_neg (by simp [he])]
  exact ⟨rfl, rfl⟩

theorem foldl_closeOf_eq {named : Episode → Bool}
    (hn : ∀ a b : Episode, a.key = b.key → a.slot = b.slot → named a = named b) (r : CloseReason) (m : Moment)
    {es : List Episode} {s : State} (hes : s.episodes.current.filter named = es) (vs : List Verdict) :
    ∃ u : State, s.Leaves named u ∧ es.foldl (fun s' e => s'.closeOf e.key e.slot r m) (s.offerEach vs) =
      u.offerEach (vs ++ es.map (fun e => e.verdict s.table.active r m)) := by
  induction es generalizing s vs with
  | nil =>
    have hnone : ∀ e, e ∈ s.episodes.current → named e = false := fun e he => by
      simpa using List.filter_eq_nil_iff.1 hes e he
    have hall : s.episodes.current.filter (fun e => !named e) = s.episodes.current :=
      List.filter_eq_self.2 fun e he => by simp [hnone e he]
    refine ⟨s, ⟨?_, fun _ => rfl, fun ⟨e, he, hyes⟩ => absurd hyes (by rw [hnone e he]; decide)⟩, by simp⟩
    rw [hall]
  | cons e es ih =>
    have hfind := find_named hn hes
    obtain ⟨hrest, hothers⟩ := filter_eraseP_named hn hes
    obtain ⟨u, ⟨hwhole, hidle, hfollows⟩, hfold⟩ := ih (s := s.without e.key e.slot) hrest
      (vs ++ [e.verdict s.table.active r m])
    refine ⟨u, ⟨?_, fun hno => ?_, fun _ => ?_⟩, ?_⟩
    · refine hwhole.trans ?_
      rw [without_eq]
      simp only [hothers]
    · have hmem : e ∈ s.episodes.current.filter named := hes ▸ List.mem_cons_self
      obtain ⟨hmem, hyes⟩ := List.mem_filter.1 hmem
      exact absurd hyes (by rw [hno e hmem]; decide)
    · by_cases hmore : ∃ x, x ∈ (s.without e.key e.slot).episodes.current ∧ named x = true
      · refine (follows_without e.key e.slot s).trans (hfollows hmore) fun i => ?_
        refine demand_ne_nil_of_sublist ?_ (by rw [hwhole]) i
        rw [hwhole]
        exact List.filter_sublist
      · have hsame := hidle fun x hx => by
          simpa using fun hyes => hmore ⟨x, hx, hyes⟩
        rw [hsame]
        exact follows_without e.key e.slot s
    · rw [List.foldl_cons, closeOf_offerEach hfind, hfold, List.append_assoc]
      rfl

/-- A closure demand is the leaving of the named episodes and the offers of their verdicts. -/
theorem demandClose_eq {named : Episode → Bool}
    (hn : ∀ a b : Episode, a.key = b.key → a.slot = b.slot → named a = named b) (r : CloseReason) (s : State) :
    ∃ u : State, s.Leaves named u ∧ s.demandClose named r = u.offerEach (s.verdictsOf named r) := by
  obtain ⟨u, hu, hfold⟩ := foldl_closeOf_eq hn r s.now (s := s) rfl []
  exact ⟨u, hu, hfold⟩

/-! ### Verdicts offered one after another -/

theorem offerVerdict_waits {s : State} (h : s.episodes.waiting ≠ [] ∨ 48 ≤ s.report.queue.length) (v : Verdict) :
    s.offerVerdict v = { s with episodes := { s.episodes with waiting := s.episodes.waiting ++ [v] } } := by
  unfold State.offerVerdict
  refine if_neg ?_
  rw [Bool.and_eq_true, List.isEmpty_iff, State.queueHasRoom, decide_eq_true_eq]
  rintro ⟨hnil, hroom⟩
  obtain hne | hfull := h
  · exact hne hnil
  · exact absurd hroom (Nat.not_lt.2 hfull)

theorem offerVerdict_admits {s : State} (hw : s.episodes.waiting = []) (hr : s.report.queue.length < 48) (v : Verdict) :
    s.offerVerdict v = s.admitRecord (.verdict v) := by
  unfold State.offerVerdict
  refine if_pos ?_
  rw [hw, State.queueHasRoom, Bool.and_eq_true, decide_eq_true_eq]
  exact ⟨rfl, hr⟩

theorem offerEach_waits {vs : List Verdict} {s : State} (h : s.episodes.waiting ≠ [] ∨ 48 ≤ s.report.queue.length) :
    s.offerEach vs = { s with episodes := { s.episodes with waiting := s.episodes.waiting ++ vs } } := by
  induction vs generalizing s with
  | nil =>
    rw [List.append_nil]
    rfl
  | cons v vs ih =>
    show (s.offerVerdict v).offerEach vs = _
    rw [offerVerdict_waits h]
    have hstill : s.episodes.waiting ++ [v] ≠ [] ∨ 48 ≤ s.report.queue.length :=
      .inl (List.append_ne_nil_of_right_ne_nil _ (List.cons_ne_nil v []))
    refine (ih hstill).trans ?_
    simp only [List.append_assoc, List.singleton_append]

/-- Under a set latch and a busy transmitter the verdicts that find room join the queue and the others wait. -/
theorem offerEach_latched {vs : List Verdict} {s : State} (hw : s.episodes.waiting = []) (hl : s.notices.latch = true)
    (hb : s.ports.gatewayTx ≠ none) :
    (s.offerEach vs).report.queue = s.report.queue ++ (vs.take (48 - s.report.queue.length)).map
        (fun v => ⟨s.clock.tickCount, .verdict v⟩) ∧
      (s.offerEach vs).episodes.waiting = vs.drop (48 - s.report.queue.length) := by
  induction vs generalizing s with
  | nil => simp [State.offerEach, hw]
  | cons v vs ih =>
    by_cases hr : s.report.queue.length < 48
    · obtain ⟨hqueue, hlatch, hbusy, hep, hclock, -, -⟩ := admit_latched (.verdict v) s hl hb
      have hstep : s.offerEach (v :: vs) = (s.admitRecord (.verdict v)).offerEach vs := by
        rw [← offerVerdict_admits hw hr]
        rfl
      obtain ⟨ihq, ihw⟩ := ih (s := s.admitRecord (.verdict v)) (by rw [hep]; exact hw) hlatch hbusy
      obtain ⟨n, hn⟩ := Nat.exists_eq_succ_of_ne_zero (Nat.sub_ne_zero_of_lt hr)
      have hn' : 48 - (s.admitRecord (.verdict v)).report.queue.length = n := by
        rw [hqueue, List.length_append]
        simp only [List.length_cons, List.length_nil]
        omega
      rw [hstep, ihq, ihw, hn', hn, hqueue, hclock]
      simp
    · rw [offerEach_waits (.inr (Nat.not_lt.1 hr)), Nat.sub_eq_zero_of_le (Nat.not_lt.1 hr), hw]
      simp

/-- Settles O18: the demand as one leaving and its offers, the verdicts by their fields. -/
theorem closureDemands : Obligations.ClosureDemands := by
  unfold Obligations.ClosureDemands
  refine ⟨fun named reason s hn => ?_, fun named reason s k e he => ?_, fun vs s => ⟨offerEach_waits, offerEach_latched⟩⟩
  · obtain ⟨u, ⟨hwhole, hidle, hfollows⟩, heq⟩ := demandClose_eq hn reason s
    exact ⟨u, heq, hwhole, hidle, hfollows⟩
  · refine ⟨e.verdict s.table.active reason s.now, ?_, rfl, rfl, rfl, rfl, rfl, rfl, rfl, rfl, rfl, rfl, rfl, rfl, rfl,
      rfl, rfl, rfl, rfl, rfl, rfl, rfl, ?_, fun i x hx => ?_⟩
    · unfold State.verdictsOf
      rw [List.getElem?_map, he]
      rfl
    · show (e.clockNotRunning || s.clock.state != .running) = true ↔ _
      rw [Bool.or_eq_true, bne_iff_ne]
    · show (s.table.active.find e.key).map _ = _
      rw [hx]
      rfl

/-! ### STALL_TIMER_EXPIRY -/

theorem slot_named (slot : Nat) (a b : Episode) (_ : a.key = b.key) (h : a.slot = b.slot) :
    (a.slot == slot) = (b.slot == slot) := by rw [h]

/-- A notice raised and closures made after it: the closures read nothing that the notice told. -/
theorem leaves_raise {named : Episode → Bool} {n : Notice} {x u : State} (hu : (x.raise n).Leaves named u) :
    u = State.raise n { x with
        episodes := { x.episodes with current := x.episodes.current.filter (fun e => !named e) }
        beacons := u.beacons } ∧
      ((∀ e, e ∈ x.episodes.current → named e = false) → u.beacons = x.beacons) ∧
      ((∃ e, e ∈ x.episodes.current ∧ named e = true) → State.Follows x u) := by
  have htold := told_raise n x
  obtain ⟨hwhole, hidle, hfollows⟩ := hu
  rw [htold.episodes] at hidle hfollows
  refine ⟨?_, fun hno => by rw [hidle hno, htold.beacons], fun hyes i b hb => hfollows hyes i b (by rwa [htold.beacons])⟩
  have hbase := offering_raise (base := { x with
        episodes := { x.episodes with current := x.episodes.current.filter (fun e => !named e) }
        beacons := u.beacons }) (s := x) rfl n
  refine hwhole.trans (Eq.trans ?_ hbase.symm)
  conv_lhs => rw [htold.eq_offering]
  rfl

theorem expired_live {now last : Tick} {id e : Nat} :
    SlotLink.expired now (.live id e last) = true ↔ 16 ≤ (now - last).toNat := decide_eq_true_iff

/-- Settles O17: the slot stalls, the notice is raised, and its episodes are demanded closed. -/
theorem stallTimerExpiry : Obligations.StallTimerExpiry := by
  unfold Obligations.StallTimerExpiry
  intro slot s r hd hr
  have hr' : (s.clearDue (.stall slot)).slots[slot]? = some r := hr
  refine ⟨fun id e last hlink hold => ?_, fun hnot => (exec_row hd).trans (congrArg Host.Outcome.next ?_)⟩
  · have hexpired : r.link.expired (s.clearDue (.stall slot)).clock.tickCount = true := by
      rw [hlink]
      exact expired_live.2 hold
    have hstall : (s.clearDue (.stall slot)).modifySlot slot SlotRecord.stall = { s with
        due := s.due.filter (fun d => d != .stall slot)
        slots := s.slots.set slot { r with
          link := .stalled id e last
          counters := { r.counters with stalls := min (r.counters.stalls + 1) 65535 } } } := by
      unfold State.modifySlot
      rw [modify_of_getElem? hr', SlotRecord.stall, hlink]
      rfl
    have hwork : (s.clearDue (.stall slot)).work plainTick (.stall slot) =
        State.demandClose (fun e => e.slot == slot) .stalled
          (((s.clearDue (.stall slot)).modifySlot slot SlotRecord.stall).raise .slotStalled) := by
      show (s.clearDue (.stall slot)).stallSlot slot = _
      unfold State.stallSlot
      rw [hr']
      exact if_pos hexpired
    rw [hstall] at hwork
    generalize hx : ({ s with
        due := s.due.filter (fun d => d != .stall slot)
        slots := s.slots.set slot { r with
          link := .stalled id e last
          counters := { r.counters with stalls := min (r.counters.stalls + 1) 65535 } } } : State) = x at hwork
    have htold := told_raise .slotStalled x
    obtain ⟨w, hleaves, hclose⟩ := demandClose_eq (slot_named slot) .stalled (x.raise .slotStalled)
    obtain ⟨hwhole, hbeacons, hfollows⟩ := leaves_raise hleaves
    have hverdicts : (x.raise .slotStalled).verdictsOf (fun ep => ep.slot == slot) .stalled =
        s.verdictsOf (fun ep => ep.slot == slot) .stalled := by
      unfold State.verdictsOf State.now
      rw [htold.episodes, htold.table, htold.clock, ← hx]
    rw [hverdicts] at hclose
    have hclosed := closed_offerEach (s.verdictsOf (fun ep => ep.slot == slot) .stalled) w
    have hcurrent := current_offerEach (s.verdictsOf (fun ep => ep.slot == slot) .stalled) w
    have hw := told_raise .slotStalled { x with
      episodes := { x.episodes with current := x.episodes.current.filter (fun ep => ep.slot != slot) }
      beacons := w.beacons }
    have hbase : w = State.raise .slotStalled { x with
      episodes := { x.episodes with current := x.episodes.current.filter (fun ep => ep.slot != slot) }
      beacons := w.beacons } := hwhole
    rw [← hbase] at hw
    generalize ht : w.offerEach (s.verdictsOf (fun ep => ep.slot == slot) .stalled) = t at hclose hclosed hcurrent
    have hslots : t.slots = x.slots := hclosed.slots.trans hw.slots
    have hcur : t.episodes.current = x.episodes.current.filter (fun ep => ep.slot != slot) := by
      rw [hcurrent, hw.episodes]
    refine ⟨w, t, (exec_row hd).trans (congrArg Host.Outcome.next (hwork.trans hclose)), ?_, ht.symm, ?_, fun hno => ?_,
      fun ⟨ep, hep, hs⟩ => ?_, ?_, ?_, ?_, ?_, ?_, ?_, ?_, ?_, ?_, ?_, ?_⟩
    · rw [← ht]
      exact notified_offerEach _ (hbase ▸ notified_raise _ _)
    · rw [hslots, hcur, ← hx]
      rw [← hx] at hbase
      exact hbase
    · rw [hbeacons (by rw [← hx]; exact fun ep hep => by simpa using hno ep hep), ← hx]
    · have hf := hfollows ⟨ep, by rw [← hx]; exact hep, by simpa using hs⟩
      rw [← hx] at hf
      exact hf
    · rw [hslots, ← hx]
    · rw [hcur, ← hx]
    · rw [hclosed.next, hw.episodes, ← hx]
    · rw [hclosed.uncaptured, hw.episodes, ← hx]
    · rw [hclosed.windows, hw.windows, ← hx]
    · rw [hclosed.clock, hw.clock, ← hx]
    · rw [hclosed.schedule, hw.schedule, ← hx]
    · rw [hclosed.table, hw.table, ← hx]
    · rw [hclosed.plant, hw.plant, ← hx]
    · rw [hclosed.cadence, hw.cadence, ← hx]
    · rw [hclosed.held, hw.held, ← hx]
  · show (s.clearDue (.stall slot)).stallSlot slot = _
    unfold State.stallSlot
    rw [hr']
    refine if_neg ?_
    cases hlink : r.link with
    | live id e last =>
      rw [expired_live, Nat.not_le]
      exact hnot id e last hlink
    | _ => simp [SlotLink.expired]

end Sys2Proof.Machine

/-! RESTART ANALYSIS, BIND SLOT and UNBIND SLOT: a closure demand and a restart of accounts. -/

namespace Sys2Proof.Machine

/-! ### RESTART ANALYSIS -/

theorem restartAll_eq (s : State) : s.restartAll = { s with
    windows := { units := (s.restartAccs (s.pairsWhere (fun _ _ => true))).windows.units, cells := WindowEngine.noCells } } := by
  unfold State.restartAll
  rw [restartAccs_whole]

theorem allowed_analysis {s : State} (h : s.anyCertified = false ∨ s.certifyAsserted = true) : ¬s.analysisDenied = true := by
  unfold State.analysisDenied
  rw [deniedFor_iff]
  rintro ⟨hany, hcert⟩
  obtain hno | hyes := h
  · exact absurd hany (by rw [hno]; decide)
  · exact absurd hyes (by rw [hcert]; decide)

theorem denied_analysis {s : State} (hany : s.anyCertified = true) (hcert : s.certifyAsserted = false) :
    s.analysisDenied = true := (deniedFor_iff _ _).2 ⟨hany, hcert⟩

/-- A unit of an active pair after everything is restarted. -/
theorem unitAt_restartAll {s : State} {i n : Nat} {e : LimitEntry} {u : PoolUnit} (he : s.table.active.at i = some e)
    (hm : e.slots.getLsbD n = true) (hu : s.windows.unitAt i n = some u) : s.restartAll.windows.unitAt i n =
      some ⟨u.histogram, if e.activeIn s.clock.band && s.clock.running then e.openAcc s.now false else .idle⟩ := by
  rw [restartAll_eq]
  exact unitAt_restart_pair he hm rfl hu

/-- Settles O51: the demand on every episode, then the restart, then the coincidence. -/
theorem restartAnalysis : Obligations.RestartAnalysis := by
  unfold Obligations.RestartAnalysis
  intro s v u h hu
  have ht : exec .restartAnalysis s = .next (v.finish (restartAnalysisBody () v.modifiers u)) := by
    subst hu
    exact congrArg Host.Outcome.next (takeItem_fixed h h.form)
  rw [ht, restartAnalysisBody]
  refine ⟨fun hbusy => ?_, fun hbusy hany hcert => ?_, fun hbusy hok => ?_⟩
  · rw [if_pos (show u.busy = true from hbusy), finish_refuse]
  · rw [if_neg (by simp [State.busy, hbusy]), if_pos (denied_analysis hany hcert), finish_refuse]
  rw [if_neg (by simp [State.busy, hbusy]), if_neg (allowed_analysis hok)]
  obtain ⟨x, ⟨hwhole, hidle, hfollows⟩, hclose⟩ := demandClose_eq (named := fun _ => true) (fun _ _ _ _ => rfl) .restart u
  have hnone : u.episodes.current.filter (fun _ => !true) = [] := List.filter_eq_nil_iff.2 fun _ _ => by decide
  rw [hnone] at hwhole
  have hclosed := closed_offerEach (u.verdictsOf (fun _ => true) .restart) x
  have hcurrent := current_offerEach (u.verdictsOf (fun _ => true) .restart) x
  have hbeacons := beacons_offerEach (u.verdictsOf (fun _ => true) .restart) x
  generalize hy : x.offerEach (u.verdictsOf (fun _ => true) .restart) = y at hclose hclosed hcurrent hbeacons
  have htable : y.table = u.table := hclosed.table.trans (by rw [hwhole])
  have hclock : y.clock = u.clock := hclosed.clock.trans (by rw [hwhole])
  have hwindows : y.windows = u.windows := hclosed.windows.trans (by rw [hwhole])
  have hplant : y.plant = u.plant := hclosed.plant.trans (by rw [hwhole])
  have hrestart : u.restartAnalysis = y.restartAll.clearCoincidence := by
    unfold State.restartAnalysis
    rw [hclose]
  refine ⟨x, u.restartAnalysis, rfl, ?_, ?_, fun hne => ?_, fun hnil => ?_, ?_, ?_, ?_, ?_, fun i e slot a he hs ha => ?_, ?_,
    ?_, ?_, ?_, ?_, ?_, ?_⟩ <;> rw [hrestart, restartAll_eq]
  · show x = { u with episodes := _, beacons := y.beacons }
    rw [hbeacons]
    exact hwhole
  · rw [hy]
    rfl
  · intro i b hb
    have hf := hfollows ((List.exists_mem_of_ne_nil _ hne).imp fun e he => ⟨he, rfl⟩) i b hb
    show y.beacons[i]? = _
    rw [hbeacons, hf]
    refine congrArg (fun l : List Nat => some (b.follow (!l.isEmpty))) (demand_congr ?_ ?_ i).symm
    · exact hcurrent
    · exact htable.trans (by rw [hwhole])
  · show y.beacons = _
    rw [hbeacons, hidle fun e he => absurd (hnil ▸ he) List.not_mem_nil]
  · show y.episodes.current = _
    rw [hcurrent, hwhole]
  · show y.episodes.next = _
    rw [hclosed.next, hwhole]
  · show y.episodes.uncaptured = _
    rw [hclosed.uncaptured, hwhole]
  · rfl
  · rw [← restartAll_eq]
    refine (unitAt_restartAll (s := y) (by rw [htable]; exact he) hs (by rw [hwindows]; exact ha)).trans ?_
    rw [hclock, State.now, State.now, hclock]
  · rw [← hplant]
    rfl
  · exact hclock
  · exact hclosed.schedule.trans (by rw [hwhole])
  · exact hclosed.slots.trans (by rw [hwhole])
  · exact htable
  · exact hclosed.cadence.trans (by rw [hwhole])
  · exact hclosed.held.trans (by rw [hwhole])

/-! ### BIND SLOT and UNBIND SLOT -/

theorem boundElsewhere_iff {slot id : Nat} {slots : List SlotRecord} : boundElsewhere slot id slots = true ↔
    ∃ (i : Nat) (r : SlotRecord), i ≠ slot ∧ slots[i]? = some r ∧ r.link.boundId = some id := by
  unfold boundElsewhere
  rw [List.any_eq_true]
  simp only [Prod.exists, List.mem_zipIdx_iff_getElem?, Bool.and_eq_true, bne_iff_ne, beq_iff_eq]
  exact ⟨fun ⟨r, i, hr, hne, hid⟩ => ⟨i, r, hne, hr, hid⟩, fun ⟨i, r, hne, hr, hid⟩ => ⟨r, i, hr, hne, hid⟩⟩

theorem isUnbound_of {slot : Nat} {slots : List SlotRecord} {r : SlotRecord} (h : slots[slot]? = some r) :
    isUnbound slot slots = true ↔ r.link = .unbound := by
  unfold isUnbound
  rw [h]
  simp

theorem allowed_slot {s : State} {slot : Nat} (h : s.slotProtected slot = false ∨ s.certifyAsserted = true) :
    ¬s.deniedFor (s.slotProtected slot) = true := by
  rw [deniedFor_iff]
  rintro ⟨hprot, hcert⟩
  obtain hno | hyes := h
  · exact absurd hprot (by rw [hno]; decide)
  · exact absurd hyes (by rw [hcert]; decide)

theorem gridAt_modify_column {g : List (List ResultCell)} {slot i n : Nat} :
    gridAt (g.map (fun row => row.modify slot (fun _ => .empty))) i n =
      if slot = n then (gridAt g i n).map (fun _ => .empty) else gridAt g i n := by
  unfold gridAt
  rw [List.getElem?_map]
  cases g[i]? with
  | none => simp
  | some row =>
    simp only [Option.map_some, Option.bind_some, List.getElem?_modify]
    by_cases h : slot = n
    · simp [h]
    · simp [h]

/-- What a rebinding leaves: the slot's episodes have left, its record is cleared, its accounts are restarted. -/
theorem rebind_eq (slot : Nat) (link : SlotLink) (s : State) : ∃ x y : State,
    s.Leaves (fun ep => ep.slot == slot) x ∧ y = x.offerEach (s.verdictsOf (fun ep => ep.slot == slot) .unbound) ∧
    s.rebind slot link = { y with
      slots := y.slots.modify slot (fun _ => .cleared link)
      windows := {
        units := (y.restartAccs (y.pairsWhere (fun _ n => n == slot))).windows.units
        cells := y.windows.cells.map (fun row => row.modify slot (fun _ => .empty)) } } := by
  obtain ⟨x, hx, hclose⟩ := demandClose_eq (slot_named slot) .unbound s
  refine ⟨x, _, hx, rfl, ?_⟩
  unfold State.rebind State.restartSlot State.restartCellsOfSlot
  rw [hclose, restartAccs_whole]
  rfl

/-- Settles O45: the checks in their order, then the demand and the restart of the slot. -/
theorem bindAndUnbindSlot : Obligations.BindAndUnbindSlot := by
  unfold Obligations.BindAndUnbindSlot
  refine fun s v u hu slot hslot => ⟨fun h id hid => ?_, fun h => ?_, fun link t ht => ?_⟩
  · have ht : exec .bindSlot s = .next (v.finish (bindSlotBody (slot, id) v.modifiers u)) := by
      subst hslot hid hu
      exact congrArg Host.Outcome.next (takeItem_fixed h h.form)
    rw [ht, bindSlotBody]
    refine ⟨fun hbad => ?_, fun hs hi hfree => ?_⟩
    · rw [if_pos ?_, finish_refuse]
      exact hbad.imp_right (Or.imp_right boundElsewhere_iff.2)
    · have hin : ¬(Config.slotCount ≤ slot ∨ 63 < id ∨ boundElsewhere slot id u.slots = true) := by
        rw [boundElsewhere_iff]
        rintro (hout | hout | ⟨i, r, hne, hr, hbound⟩)
        · exact absurd hs (Nat.not_le.2 hout)
        · exact absurd hi (Nat.not_le.2 hout)
        · exact hfree i r hne hr hbound
      rw [if_neg hin]
      refine ⟨fun hprot hcert => ?_, fun hok => ?_⟩
      · rw [if_pos ((deniedFor_iff _ _).2 ⟨hprot, hcert⟩), finish_refuse]
      · rw [if_neg (allowed_slot hok)]
        exact ⟨_, rfl, rfl⟩
  · have ht : exec .unbindSlot s = .next (v.finish (unbindSlotBody slot v.modifiers u)) := by
      subst hslot hu
      exact congrArg Host.Outcome.next (takeItem_fixed h h.form)
    rw [ht, unbindSlotBody]
    refine ⟨fun hout => ?_, fun hs hprot hcert => ?_, fun r hs hr hok => ?_⟩
    · rw [if_pos (show Config.slotCount ≤ slot from hout), finish_refuse]
    · rw [if_neg (show ¬Config.slotCount ≤ slot from Nat.not_le.2 (Nat.lt_succ_of_le hs)),
        if_pos ((deniedFor_iff _ _).2 ⟨hprot, hcert⟩), finish_refuse]
    · rw [if_neg (show ¬Config.slotCount ≤ slot from Nat.not_le.2 (Nat.lt_succ_of_le hs)), if_neg (allowed_slot hok)]
      refine ⟨fun hlink => ?_, fun hlink => ?_⟩
      · rw [if_pos ((isUnbound_of hr).2 hlink)]
        rfl
      · rw [if_neg ((isUnbound_of hr).not.2 hlink)]
        exact ⟨_, rfl, rfl⟩
  · obtain ⟨x, y, ⟨hwhole, hidle, hfollows⟩, hy, hrebind⟩ := rebind_eq slot link u
    have hclosed := closed_offerEach (u.verdictsOf (fun ep => ep.slot == slot) .unbound) x
    have hcurrent := current_offerEach (u.verdictsOf (fun ep => ep.slot == slot) .unbound) x
    have hbeacons := beacons_offerEach (u.verdictsOf (fun ep => ep.slot == slot) .unbound) x
    rw [← hy] at hclosed hcurrent hbeacons
    have htable : y.table = u.table := hclosed.table.trans (by rw [hwhole])
    have hclock : y.clock = u.clock := hclosed.clock.trans (by rw [hwhole])
    have hwindows : y.windows = u.windows := hclosed.windows.trans (by rw [hwhole])
    have hslots : y.slots = u.slots := hclosed.slots.trans (by rw [hwhole])
    have hcur : y.episodes.current = u.episodes.current.filter (fun ep => ep.slot != slot) :=
      hcurrent.trans (by rw [hwhole]; rfl)
    rw [hrebind] at ht
    refine ⟨⟨x, ?_, ?_, fun hno => ?_, fun ⟨ep, hep, hs⟩ => ?_⟩, fun r hr => ?_, ?_, ?_, fun i c hc => ?_,
      fun i n hn => ⟨?_, ?_⟩, fun i e a he hm ha => ?_, ?_, ?_, ?_, ?_, ?_, ?_⟩ <;> subst ht
    · show x = { u with episodes := { u.episodes with current := y.episodes.current }, beacons := y.beacons }
      rw [hbeacons, hcurrent]
      rw [hwhole]
    · rw [← hy]
    · show y.beacons = _
      rw [hbeacons, hidle fun ep hep => by simpa using hno ep hep]
    · intro i b hb
      have hf := hfollows ⟨ep, hep, by simpa using hs⟩ i b hb
      show y.beacons[i]? = _
      rw [hbeacons, hf]
      refine congrArg (fun l : List Nat => some (b.follow (!l.isEmpty))) (demand_congr ?_ ?_ i).symm
      · exact hcurrent
      · exact htable.trans (by rw [hwhole])
    · show y.slots.modify slot _ = _
      rw [hslots, modify_of_getElem? hr]
      rfl
    · exact hcur
    · exact hclosed.next.trans (by rw [hwhole])
    · have hcol := (gridAt_modify_column (g := y.windows.cells) (slot := slot) (i := i) (n := slot)).symm.trans hc
      rw [if_pos rfl] at hcol
      obtain ⟨_, _, rfl⟩ := Option.map_eq_some_iff.1 hcol
      rfl
    · show (gridAt _ i n).getD ResultCell.empty = _
      rw [gridAt_modify_column, if_neg (Ne.symm hn), hwindows]
      rfl
    · exact (unitAt_restart_other hn).trans (by rw [hwindows])
    · refine (unitAt_restart_pair (s := y) (keep := fun _ n => n == slot) (by rw [htable]; exact he) hm
        (by simp) (by rw [hwindows]; exact ha)).trans ?_
      rw [hclock, State.now, State.now, hclock]
    · exact hclock
    · exact hclosed.schedule.trans (by rw [hwhole])
    · exact htable
    · exact hclosed.plant.trans (by rw [hwhole])
    · exact hclosed.cadence.trans (by rw [hwhole])
    · exact hclosed.held.trans (by rw [hwhole])

end Sys2Proof.Machine

/-! Openings, hold-offs and maximum lengths. -/

namespace Sys2Proof.Machine

/-! ### An opening -/

theorem State.Told.of_raise_if {p : Prop} [Decidable p] (n : Notice) (s : State) :
    s.Told (if p then s.raise n else s) := by
  split
  · exact told_raise n s
  · exact .refl s

theorem followDemand_raise (n : Notice) (s : State) : (s.raise n).followDemand = s.followDemand.raise n := by
  have hbase := offering_raise (base := s.followDemand) (s := s) rfl n
  refine Eq.trans ?_ hbase.symm
  conv_lhs => rw [(told_raise n s).eq_offering]
  rfl

theorem startPulses_raise (key : Nat) (n : Notice) (s : State) :
    (s.raise n).startPulses key = (s.startPulses key).raise n := by
  have hbase := offering_raise (base := s.startPulses key) (s := s) rfl n
  refine Eq.trans ?_ hbase.symm
  conv_lhs => rw [(told_raise n s).eq_offering]
  rfl

/-- The lines after an opening: they follow the demand, and one that is no continuation starts the pulses. -/
def State.lit (o : Opening) (s : State) : State :=
  if o.continuationOf.isNone then s.followDemand.startPulses o.key else s.followDemand

theorem lit_raise (o : Opening) (n : Notice) (s : State) : (s.raise n).lit o = (s.lit o).raise n := by
  unfold State.lit
  split
  · rw [followDemand_raise, startPulses_raise]
  · exact followDemand_raise n s

/-- The coincidence after an opening whose partners stand on the slots. -/
def Coincidence.opened (o : Opening) (partners : SlotMask) (c : Coincidence) : Coincidence :=
  if partners = 0 then c else c.gain (setInsert partners o.slot) o.lastTrue

/-- The state of an opening before any notice is raised. -/
def State.openedQuietly (o : Opening) (s : State) : State :=
  State.lit o { s.withOpened o with plant := { s.plant with
    coincidence := s.plant.coincidence.opened o (partnerSlots o.slot s.episodes.current) } }

theorem openEpisode_quietly (o : Opening) (s : State) : s.openEpisode o = State.raise .episodeOpened
    (if partnerSlots o.slot s.episodes.current ≠ 0 ∧ s.plant.coincidence.mask = 0
      then (s.openedQuietly o).raise .coincidence else s.openedQuietly o) := by
  have hopen : s.openEpisode o = State.raise .episodeOpened (State.lit o
      (if partnerSlots o.slot s.episodes.current = 0 then s.withOpened o
        else (s.withOpened o).coincide o.slot o.lastTrue (partnerSlots o.slot s.episodes.current))) := rfl
  rw [hopen]
  congr 1
  unfold State.openedQuietly Coincidence.opened
  by_cases hp : partnerSlots o.slot s.episodes.current = 0
  · rw [if_pos hp, if_pos hp, if_neg (fun h => h.1 hp)]
    rfl
  rw [if_neg hp, if_neg hp]
  by_cases hm : s.plant.coincidence.mask = 0
  · rw [if_pos ⟨hp, hm⟩, ← lit_raise]
    congr 1
    exact if_pos hm
  · rw [if_neg (fun h => hm h.2)]
    congr 1
    exact if_neg hm

theorem openedQuietly_whole (o : Opening) (s : State) : s.openedQuietly o = { s with
    episodes := (s.withOpened o).episodes
    beacons := (s.openedQuietly o).beacons
    plant := { s.plant with
      coincidence := s.plant.coincidence.opened o (partnerSlots o.slot s.episodes.current) } } := by
  unfold State.openedQuietly State.lit
  split <;> rfl

theorem told_openEpisode (o : Opening) (s : State) : (s.openedQuietly o).Told (s.openEpisode o) := by
  rw [openEpisode_quietly]
  exact (State.Told.of_raise_if _ _).trans (told_raise _ _)

theorem openEpisode_episodes (o : Opening) (s : State) : (s.openEpisode o).episodes = (s.withOpened o).episodes := by
  rw [(told_openEpisode o s).episodes, openedQuietly_whole]

theorem openEpisode_plant (o : Opening) (s : State) : (s.openEpisode o).plant = { s.plant with
    coincidence := s.plant.coincidence.opened o (partnerSlots o.slot s.episodes.current) } := by
  rw [(told_openEpisode o s).plant, openedQuietly_whole]

/-! ### The lines of an opening -/

theorem follow_mode (demanded : Bool) (b : BeaconLine) :
    (b.follow demanded).mode = b.mode ∧ (b.follow demanded).width = b.width := by
  unfold BeaconLine.follow
  split <;> exact ⟨rfl, rfl⟩

theorem followDemand_getElem? {s : State} {i : Nat} {b : BeaconLine} (h : s.beacons[i]? = some b) :
    s.followDemand.beacons[i]? = some (b.follow (!(s.demand i).isEmpty)) := follows_followDemand s i b h

theorem startPulses_getElem? {s : State} {key i : Nat} {b : BeaconLine} (h : s.beacons[i]? = some b) :
    (s.startPulses key).beacons[i]? = some (if s.table.active.names key i then b.startPulse else b) := by
  show (s.beacons.zipIdx.map _)[i]? = _
  rw [getElem?_zipIdx_map, h]
  rfl

theorem startPulse_pulse {b : BeaconLine} (h : b.mode = .pulse) : b.startPulse = { b with pulse := 8 * b.width } := by
  unfold BeaconLine.startPulse
  rw [h]

theorem startPulse_other {b : BeaconLine} (h : b.mode ≠ .pulse) : b.startPulse = b := by
  unfold BeaconLine.startPulse
  split
  · next hm => exact absurd hm h
  · rfl

/-- A line after an opening. -/
theorem lit_getElem? {o : Opening} {s : State} {i : Nat} {b : BeaconLine} (h : s.beacons[i]? = some b) :
    (o.continuationOf = none → s.Names o.key i → b.mode = .pulse →
      (s.lit o).beacons[i]? = some { b.follow (!(s.demand i).isEmpty) with pulse := 8 * b.width }) ∧
    (o.continuationOf ≠ none ∨ ¬s.Names o.key i ∨ b.mode ≠ .pulse →
      (s.lit o).beacons[i]? = some (b.follow (!(s.demand i).isEmpty))) := by
  have hf := followDemand_getElem? h
  obtain ⟨hmode, hwidth⟩ := follow_mode (!(s.demand i).isEmpty) b
  have hp := startPulses_getElem? (key := o.key) hf
  unfold State.lit
  refine ⟨fun hc hn hpulse => ?_, fun hno => ?_⟩
  · rw [if_pos (by rw [hc]; rfl), hp, if_pos ((names_iff s.followDemand o.key i).1 hn), startPulse_pulse (hmode.trans hpulse)]
    exact congrArg (fun n => some { b.follow (!(s.demand i).isEmpty) with pulse := 8 * n }) hwidth
  · by_cases hc : o.continuationOf = none
    · rw [if_pos (by rw [hc]; rfl), hp]
      obtain hno | hno := hno.resolve_left (fun h => h hc)
      · rw [if_neg ((names_iff s.followDemand o.key i).not.1 hno)]
      · rw [startPulse_other (by rw [hmode]; exact hno), ite_self]
    · rw [if_neg (by simpa [Option.isNone_iff_eq_none] using hc), hf]

/-! ### The record of an opening -/

theorem mem_partnerSlots {slot n : Nat} {es : List Episode} (hn : n < 12) :
    (partnerSlots slot es).getLsbD n = true ↔ n ≠ slot ∧ ∃ x, x ∈ es ∧ x.slot = n := by
  refine (mem_partnerSlots_foldl slot es 0 n hn).trans (or_iff_right ?_)
  simp

theorem mem_candidateSet (s : State) (tick : Tick) {i : Nat} (hi : i < 8) :
    (candidateSet (s.plant.candidates tick)).getLsbD i = true ↔ ∃ l, s.Candidate tick i l := by
  simp only [candidate_iff]
  refine (mem_candidateSet_foldl _ 0 i hi).trans (or_iff_right ?_)
  simp

theorem primaryOf_none (s : State) (tick : Tick) :
    primaryOf (s.plant.candidates tick) = none ↔ ∀ i l, ¬s.Candidate tick i l := by
  simp only [candidate_iff]
  cases s.plant.candidates tick with
  | nil => simp [primaryOf]
  | cons c rest => simp only [primaryOf, reduceCtorEq, false_iff, not_forall, not_not]; exact ⟨c.1, c.2, List.mem_cons_self⟩

theorem primaryOf_some {s : State} {tick : Tick} {i : Nat} (h : primaryOf (s.plant.candidates tick) = some i) :
    ∃ l, s.Candidate tick i l ∧ ∀ j m, s.Candidate tick j m →
      l.record.priority < m.record.priority ∨ l.record.priority = m.record.priority ∧ i ≤ j := by
  simp only [candidate_iff]
  have hasc := candidates_ascend s.plant tick
  cases hcs : s.plant.candidates tick with
  | nil =>
    rw [hcs] at h
    cases h
  | cons c rest =>
    rw [hcs] at h hasc
    obtain ⟨hmem, hbest⟩ := best_candidate rest c hasc [] (fun _ hx => (nomatch hx)) (fun _ _ hx => (nomatch hx)) _ rfl
    obtain rfl := Option.some.inj h
    exact ⟨_, hmem, fun j m hm => hbest (j, m) (.inr hm)⟩

/-- Settles O21: the record written, then the coincidence, the lines and the notices. -/
theorem openings : Obligations.Openings := by
  unfold Obligations.Openings
  intro o s t ht
  have htold := told_openEpisode o s
  have heps := openEpisode_episodes o s
  have hplant := openEpisode_plant o s
  have hquiet := openEpisode_quietly o s
  rw [← ht] at htold heps hplant hquiet
  have hnotice (hp : partnerSlots o.slot s.episodes.current ≠ 0) (hm : s.plant.coincidence.mask = 0) :
      t.notified .coincidence := by
    rw [hquiet, if_pos ⟨hp, hm⟩]
    exact (told_raise _ _).notified (notified_raise _ _)
  refine ⟨o.episode s.episodes.next s.plant (partnerSlots o.slot s.episodes.current),
    partnerSlots o.slot s.episodes.current, fun n hn => mem_partnerSlots hn, rfl, bne_iff_ne,
    fun i hi => mem_candidateSet s _ hi, primaryOf_none s _, fun i hi => primaryOf_some hi, ?_, ?_, fun w hw => ?_,
    fun hp => ?_, fun hp hm => ⟨hnotice hp hm, ?_⟩, fun hp hm => ?_, fun i b hb => ?_⟩
  · rw [heps]
    rfl
  · rw [hquiet]
    exact notified_raise _ _
  · have hq : w = s.openedQuietly o := by
      rw [hw, htold.episodes, htold.beacons, htold.plant]
      conv_rhs => rw [openedQuietly_whole]
      rw [openedQuietly_whole]
    rw [hq]
    exact hquiet
  · rw [hplant, Coincidence.opened, if_pos hp]
  · rw [hplant, Coincidence.opened, if_neg hp, Coincidence.gain, if_pos hm]
  · rw [hplant, Coincidence.opened, if_neg hp, Coincidence.gain, if_neg hm]
  · have hline := lit_getElem? (o := o) (s := { s.withOpened o with plant := { s.plant with
      coincidence := s.plant.coincidence.opened o (partnerSlots o.slot s.episodes.current) } }) hb
    have hdemand : t.demand i = (s.withOpened o).demand i := by
      refine demand_congr (by rw [heps]) ?_ i
      rw [htold.table, openedQuietly_whole]
      rfl
    have hbeacons : t.beacons = (s.openedQuietly o).beacons := htold.beacons
    rw [hdemand, hbeacons]
    exact hline

/-! ### An episode changed in its place -/

theorem find_modifyEpisode {key slot : Nat} {f : Episode → Episode} {es : List Episode} {e : Episode}
    (hf : (f e).of key slot = true) (h : es.find? (Episode.of key slot) = some e) :
    (modifyEpisode key slot f es).find? (Episode.of key slot) = some (f e) := by
  induction es with
  | nil => cases h
  | cons x es ih =>
    unfold modifyEpisode
    by_cases hx : x.of key slot = true
    · rw [List.find?_cons_of_pos hx] at h
      obtain rfl := Option.some.inj h
      rw [if_pos hx, List.find?_cons_of_pos hf]
    · rw [List.find?_cons_of_neg hx] at h
      rw [if_neg hx, List.find?_cons_of_neg hx, ih h]

theorem eraseP_modifyEpisode {key slot : Nat} {f : Episode → Episode} {es : List Episode}
    (hf : ∀ e, e.of key slot = true → (f e).of key slot = true) :
    (modifyEpisode key slot f es).eraseP (Episode.of key slot) = es.eraseP (Episode.of key slot) := by
  induction es with
  | nil => rfl
  | cons x es ih =>
    unfold modifyEpisode
    by_cases hx : x.of key slot = true
    · rw [if_pos hx, List.eraseP_cons_of_pos (hf x hx), List.eraseP_cons_of_pos hx]
    · rw [if_neg hx, List.eraseP_cons_of_neg hx, List.eraseP_cons_of_neg hx, ih]

/-! ### HOLD_OFF_EXPIRY -/

theorem countHoldOff_of_holdOff {key slot n : Nat} {e : Episode} {s : State} (he : s.episodes.find key slot = some e)
    (hs : e.state = .holdOff n) : s.countHoldOff key slot =
      if n ≤ 1 then s.closeEpisode e .quiet s.tickNow
      else s.modifyEpisode key slot (fun x => { x with state := .holdOff (n - 1) }) := by
  unfold State.countHoldOff
  rw [he]
  simp only [hs]

/-- Settles O19: the count of the episode that stands at the key and slot. -/
theorem holdOffExpiry : Obligations.HoldOffExpiry := by
  unfold Obligations.HoldOffExpiry
  intro key slot s hd
  have hexec : exec (.holdOffExpiry key slot) s = .next ((s.clearDue (.holdOff key slot)).countHoldOff key slot) :=
    exec_row hd
  rw [hexec]
  refine ⟨fun e n he hs hn => ?_, fun e n he hs hn => ?_, fun e he hs => congrArg Host.Outcome.next ?_,
    fun he => congrArg Host.Outcome.next ?_⟩
  · rw [countHoldOff_of_holdOff (s := s.clearDue (.holdOff key slot)) he hs, if_neg (Nat.not_le.2 hn)]
    have hof : Episode.of key slot { e with state := .holdOff (n - 1) } = true := by
      have hkey := List.find?_some he
      exact hkey
    exact ⟨_, rfl, find_modifyEpisode (f := fun x => { x with state := .holdOff (n - 1) }) hof he,
      eraseP_modifyEpisode fun _ h => h⟩
  · rw [countHoldOff_of_holdOff (s := s.clearDue (.holdOff key slot)) he hs, if_pos hn]
    obtain ⟨rfl, rfl⟩ := find_of he
    exact ⟨(s.clearDue (.holdOff e.key e.slot)).without e.key e.slot, rfl, rfl,
      follows_without _ _ (s.clearDue (.holdOff e.key e.slot))⟩
  · unfold State.countHoldOff
    rw [show (s.clearDue (.holdOff key slot)).episodes.find key slot = some e from he]
    simp only [hs]
    rfl
  · unfold State.countHoldOff
    rw [show (s.clearDue (.holdOff key slot)).episodes.find key slot = none from he]
    rfl

/-! ### MAXIMUM_LENGTH -/

theorem atMaximum_iff {e : Episode} {s : State} {p : Nat × LimitEntry} (h : s.table.active.find e.key = some p) :
    s.atMaximum e = true ↔ 480 * p.2.maxLength ≤ (s.clock.tickCount - e.openTick).toNat := by
  unfold State.atMaximum EntryTable.maximumTicks
  rw [h]
  exact decide_eq_true_iff

theorem checkLength_of {key slot : Nat} {e : Episode} {s : State} (he : s.episodes.find key slot = some e) :
    (s.atMaximum e = false → s.checkLength key slot = s) ∧
    (s.atMaximum e = true → e.state = .opened → s.checkLength key slot = s.continueEpisode e) ∧
    (∀ n, s.atMaximum e = true → e.state = .holdOff n → s.checkLength key slot = s.closeEpisode e .quiet s.tickNow) := by
  unfold State.checkLength
  rw [he]
  refine ⟨fun hm => ?_, fun hm hs => ?_, fun n hm hs => ?_⟩
  · simp only [hm]
    rfl
  · simp only [hm, hs, if_true]
  · simp only [hm, hs, if_true]

/-- A record is free for the continuation once its predecessor has left and its verdict waits or is queued. -/
theorem hasFree_retire {e : Episode} {s : State} (he : s.episodes.find e.key e.slot = some e) (r : CloseReason) (m : Moment) :
    (s.retire e r m).episodes.hasFree = true ↔ s.episodes.current.length + s.episodes.waiting.length < 32 ∨
      (s.episodes.waiting = [] ∧ s.report.queue.length < 48 ∧ s.episodes.current.length ≤ 32) := by
  have hlen := length_remove (find_mem he).1
  have hcurrent := current_offerVerdict (e.verdict s.table.active r m) (s.removeEpisode e.key e.slot)
  unfold EpisodeTable.hasFree EpisodeTable.used State.retire
  rw [decide_eq_true_iff, hcurrent]
  show (s.episodes.current.eraseP (Episode.of e.key e.slot)).length + _ < 32 ↔ _
  by_cases hroom : s.episodes.waiting = [] ∧ s.report.queue.length < 48
  · obtain ⟨hw, hq⟩ := hroom
    rw [offerVerdict_admits (s := s.removeEpisode e.key e.slot) hw hq, episodes_admit]
    show _ + s.episodes.waiting.length < 32 ↔ _
    simp only [hw, hq, true_and, List.length_nil, Nat.add_zero]
    omega
  · have hfull : s.episodes.waiting ≠ [] ∨ 48 ≤ s.report.queue.length := by
      by_cases hw : s.episodes.waiting = []
      · exact .inr (Nat.not_lt.1 fun hq => hroom ⟨hw, hq⟩)
      · exact .inl hw
    rw [offerVerdict_waits (s := s.removeEpisode e.key e.slot) hfull]
    show _ + (s.episodes.waiting ++ [_]).length < 32 ↔ _
    rw [List.length_append, List.length_singleton, or_iff_left fun h => hroom ⟨h.1, h.2.1⟩]
    omega

/-- Settles O20: the check of the episode that stands at the key and slot. -/
theorem maximumLength : Obligations.MaximumLength := by
  unfold Obligations.MaximumLength
  intro key slot s e p hd he hp at_ w hat hw
  obtain ⟨rfl, rfl⟩ := find_of he
  have hexec : exec (.maximumLength e.key e.slot) s =
      .next ((s.clearDue (.maximumLength e.key e.slot)).checkLength e.key e.slot) := exec_row hd
  obtain ⟨hshort, hopened, hheld⟩ := checkLength_of (s := s.clearDue (.maximumLength e.key e.slot)) he
  have hmax : (s.clearDue (.maximumLength e.key e.slot)).atMaximum e = true ↔
      480 * p.2.maxLength ≤ (s.clock.tickCount - e.openTick).toNat := atMaximum_iff (s := s.clearDue _) hp
  have hretire : (s.clearDue (.maximumLength e.key e.slot)).retire e .continued (s.clearDue (.maximumLength e.key e.slot)).tickNow = w := by
    rw [hw, hat]
    rfl
  have hfree := hasFree_retire (s := s.clearDue (.maximumLength e.key e.slot)) he .continued
    (s.clearDue (.maximumLength e.key e.slot)).tickNow
  rw [hretire] at hfree
  have hclosed : ({ s with
      due := s.due.filter (fun d => d != .maximumLength e.key e.slot)
      episodes := { s.episodes with current := s.episodes.current.eraseP (Episode.of e.key e.slot) } } : State).Closed w := by
    rw [hw]
    exact closed_offerVerdict _ _
  have hcurrent : w.episodes.current = s.episodes.current.eraseP (Episode.of e.key e.slot) := by
    rw [hw]
    exact current_offerVerdict _ _
  have hbeacons : w.beacons = s.beacons := by
    rw [hw]
    exact beacons_offerEach [_] _
  rw [hexec]
  refine ⟨fun hlt => congrArg _ (hshort ?_), fun hge hs hroom => ?_, fun hge hs hroom => ?_, fun hge n hs => ?_⟩
  · rw [← Bool.not_eq_true, hmax]
    exact Nat.not_le.2 hlt
  · rw [hopened (hmax.2 hge) hs, State.continueEpisode]
    simp only [hretire]
    rw [if_pos (hfree.2 hroom)]
    have htold := told_openEpisode (e.continuation (s.clearDue (.maximumLength e.key e.slot)).tickNow) w
    have heps := openEpisode_episodes (e.continuation (s.clearDue (.maximumLength e.key e.slot)).tickNow) w
    have hplant := openEpisode_plant (e.continuation (s.clearDue (.maximumLength e.key e.slot)).tickNow) w
    have hquiet := openEpisode_quietly (e.continuation (s.clearDue (.maximumLength e.key e.slot)).tickNow) w
    have hwhole := openedQuietly_whole (e.continuation (s.clearDue (.maximumLength e.key e.slot)).tickNow) w
    have hlen : w.episodes.current.length + 1 = s.episodes.current.length := by
      rw [hcurrent]
      exact length_remove (find_mem he).1
    refine ⟨_, Opening.episode (e.continuation (s.clearDue (.maximumLength e.key e.slot)).tickNow) w.episodes.next w.plant
      (partnerSlots e.slot w.episodes.current), rfl, ?_, ?_, ?_, ?_, ?_, ?_, rfl, rfl, rfl, rfl, rfl, ?_, ?_, rfl, rfl, rfl,
      rfl, rfl, rfl, ?_, ?_, ?_, ?_, ?_, ?_, ?_⟩
    · rw [hat]
      rfl
    · rw [hquiet]
      exact notified_raise _ _
    · rw [heps]
      show nextNumber w.episodes.next = _
      rw [hclosed.next]
      rfl
    · rw [heps]
      exact List.getLast?_concat ..
    · rw [heps]
      show (gainCoincident _ _ ++ [_]).length = _
      rw [List.length_append, gainCoincident, List.length_map]
      exact hlen
    · exact hclosed.next
    · rw [hat]
      rfl
    · rw [hat]
      rfl
    · exact bne_iff_ne
    · rw [htold.clock, hwhole]
      exact hclosed.clock
    · rw [htold.table, hwhole]
      exact hclosed.table
    · rw [htold.slots, hwhole]
      exact hclosed.slots
    · rw [htold.windows, hwhole]
      exact hclosed.windows
    · rw [htold.cadence, hwhole]
      exact hclosed.cadence
    · rw [hplant]
      show w.plant.lines = _
      rw [hclosed.plant]
  · rw [hopened (hmax.2 hge) hs, State.continueEpisode]
    simp only [hretire]
    rw [if_neg (hfree.not.2 hroom)]
    unfold State.countUncaptured
    generalize hx : ({ w.followDemand with episodes := { w.followDemand.episodes with
      uncaptured := w.followDemand.episodes.uncaptured.modify e.index (bumpTo Config.max16) } } : State) = x
    have htold := told_raise .episodeOverflow x
    refine ⟨_, rfl, notified_raise _ _, ?_, fun i b hb => ?_, ?_, ?_, ?_, ?_, ?_, ?_, ?_, ?_, ?_⟩
    · rw [htold.beacons, htold.episodes, ← hx]
      rfl
    · rw [htold.beacons, demand_congr (s := w) (by rw [htold.episodes, ← hx]; rfl) (by rw [htold.table, ← hx]; rfl) i, ← hx]
      exact follows_followDemand w i b hb
    · rw [htold.episodes, ← hx]
      exact hcurrent
    · rw [htold.episodes, ← hx]
      exact hclosed.next
    · rw [htold.episodes, ← hx]
      show w.episodes.uncaptured.modify e.index _ = _
      rw [hclosed.uncaptured]
      rfl
    · rw [htold.clock, ← hx]
      exact hclosed.clock
    · rw [htold.table, ← hx]
      exact hclosed.table
    · rw [htold.slots, ← hx]
      exact hclosed.slots
    · rw [htold.windows, ← hx]
      exact hclosed.windows
    · rw [htold.cadence, ← hx]
      exact hclosed.cadence
    · rw [htold.plant, ← hx]
      exact hclosed.plant
  · rw [hheld n (hmax.2 hge) hs]
    subst hat
    exact ⟨(s.clearDue (.maximumLength e.key e.slot)).without e.key e.slot, rfl, rfl, fun i b hb =>
      follows_without _ _ (s.clearDue (.maximumLength e.key e.slot)) i b hb⟩

end Sys2Proof.Machine

/-! The timers of a tick, the offers that wait, and the samplers. -/

namespace Sys2Proof.Machine

/-! ### Beacon and cadence timers -/

theorem follow_eq (demanded : Bool) (b : BeaconLine) : b.follow demanded = { b with
    flash := if b.mode = .flash ∧ demanded = true then b.flash.or (some ⟨true, 4⟩) else none } := by
  unfold BeaconLine.follow
  cases hm : b.mode <;> cases demanded <;> rfl

theorem mem_addDue {d x : Due} {s : State} : x ∈ (s.addDue d).due ↔ x ∈ s.due ∨ x = d := by
  unfold State.addDue
  split
  · next h =>
    have hd : d ∈ s.due := by simpa using h
    exact ⟨.inl, fun h => h.elim id fun he => he ▸ hd⟩
  · rw [List.mem_append, List.mem_singleton]

theorem addDue_of_not_mem {d : Due} {s : State} (h : d ∉ s.due) : s.addDue d = { s with due := s.due ++ [d] } := by
  unfold State.addDue
  rw [if_neg (by simpa using h)]

theorem addDue_whole (d : Due) (s : State) : s.addDue d = { s with due := (s.addDue d).due } := by
  unfold State.addDue
  split <;> rfl

theorem count_of_running {c : Cadence} (h : c.running = true) : c.count =
    if 1 < c.second then { c with second := c.second - 1 }
    else if 1 < c.base then { c with second := 8, base := c.base - 1 }
    else { c with second := 8, base := c.baseLatch, summary := c.summary - 1 } := by
  unfold Cadence.count
  rw [if_pos h]

theorem underflows_iff (c : Cadence) : c.underflows = true ↔ c.running = true ∧ c.second ≤ 1 ∧ c.base ≤ 1 := by
  simp [Cadence.underflows, and_assoc]

theorem not_underflows {c : Cadence} (h : c.running = false ∨ 1 < c.second ∨ 1 < c.base) : c.underflows = false := by
  rw [← Bool.not_eq_true, underflows_iff]
  rintro ⟨hrun, hsec, hbase⟩
  obtain h | h | h := h
  · exact absurd hrun (by rw [h]; decide)
  · exact absurd h (Nat.not_lt.2 hsec)
  · exact absurd h (Nat.not_lt.2 hbase)

/-- The count of a tick where no base period ends. -/
theorem countCadence_of_counting {s : State} (h : s.cadence.underflows = false) :
    s.countCadence = { s with cadence := s.cadence.count } := by
  unfold State.countCadence
  simp only [h, Bool.false_and]
  rfl

/-- The count of a tick that ends a base period. -/
theorem countCadence_of_underflow {s : State} (h : s.cadence.running = true) (hsec : s.cadence.second ≤ 1)
    (hbase : s.cadence.base ≤ 1) (hd : .summary ∉ s.due) : s.countCadence = { s with
      due := s.due ++ (if s.cadence.summary ≤ 1 then [.summary] else [])
      cadence := { s.cadence with second := 8, base := s.cadence.baseLatch, summary := s.cadence.summary - 1 } } := by
  unfold State.countCadence
  have hu := (underflows_iff s.cadence).2 ⟨h, hsec, hbase⟩
  have hcount : s.cadence.count =
      { s.cadence with second := 8, base := s.cadence.baseLatch, summary := s.cadence.summary - 1 } := by
    rw [count_of_running h, if_neg (Nat.not_lt.2 hsec), if_neg (Nat.not_lt.2 hbase)]
  simp only [hu, hcount, Bool.true_and, decide_eq_true_eq]
  by_cases hs : s.cadence.summary ≤ 1
  · rw [if_pos (by omega), if_pos hs]
    exact addDue_of_not_mem (s := { s with cadence := _ }) hd
  · rw [if_neg (by omega), if_neg hs, List.append_nil]

/-- Settles O22: the lines by their counts, the cadence by its counters. -/
theorem beaconAndCadenceTimers : Obligations.BeaconAndCadenceTimers := by
  unfold Obligations.BeaconAndCadenceTimers
  refine ⟨fun line s b hb => ⟨fun hd => ?_, fun hd level n hf => ?_, fun hd hf => ?_, fun hm demanded => ?_,
    fun hm demanded => ?_, fun hm demanded => ?_, fun demanded => ?_, fun hm hf => ?_, fun hm hf => ?_,
    fun demanded hno => ?_⟩, fun s hd hs => ?_⟩
  · exact (exec_row hd).trans (congrArg _ (modifyBeacon_eq (s := s.clearDue _) hb _))
  · refine (exec_row hd).trans (congrArg _ ((modifyBeacon_eq (s := s.clearDue _) hb _).trans ?_))
    rw [BeaconLine.countFlash, hf]
    rfl
  · refine (exec_row hd).trans (congrArg _ ((modifyBeacon_eq (s := s.clearDue _) hb _).trans ?_))
    have hsame : b.countFlash = b := by
      rw [BeaconLine.countFlash, hf, Option.map_none, ← hf]
    have hset : s.beacons.set line b = s.beacons := by
      obtain ⟨hlt, rfl⟩ := List.getElem?_eq_some_iff.1 hb
      exact List.set_getElem_self hlt
    rw [hsame]
    show { s.clearDue _ with beacons := s.beacons.set line b } = _
    rw [hset]
    rfl
  · unfold BeaconLine.automatic
    rw [hm]
    exact decide_eq_true_iff
  · unfold BeaconLine.automatic
    rw [hm]
  · unfold BeaconLine.automatic
    rw [hm]
    cases b.flash with
    | none => simp
    | some p =>
      simp only [Option.some.injEq]
      exact ⟨fun h => ⟨p.count, by rw [← h]⟩, fun ⟨n, h⟩ => by rw [h]⟩
  · rw [follow_eq]
  · rw [follow_eq, if_pos ⟨hm, rfl⟩, hf]
    rfl
  · rw [follow_eq, if_pos ⟨hm, rfl⟩]
    obtain ⟨p, hp⟩ := Option.ne_none_iff_exists'.1 hf
    rw [hp, Option.some_or, ← hp]
  · rw [follow_eq]
    refine if_neg ?_
    rintro ⟨hm, hdem⟩
    obtain hne | hfalse := hno
    · exact hne hm
    · exact absurd hdem (by rw [hfalse]; decide)
  · have hexec : exec .baseUnderflow s = .next (s.clearDue .cadence).countCadence := exec_row hd
    rw [hexec]
    refine ⟨fun hstop => congrArg _ ?_, fun hrun => ⟨fun hsec => congrArg _ ?_, fun hsec hbase => congrArg _ ?_,
      fun hsec hbase => congrArg _ ?_⟩⟩
    · rw [countCadence_of_counting (s := s.clearDue .cadence) (not_underflows (.inl hstop))]
      have hcount : s.cadence.count = s.cadence := if_neg (by rw [hstop]; decide)
      show { s.clearDue .cadence with cadence := s.cadence.count } = _
      rw [hcount]
      rfl
    · rw [countCadence_of_counting (s := s.clearDue .cadence) (not_underflows (.inr (.inl hsec)))]
      show { s.clearDue .cadence with cadence := s.cadence.count } = _
      rw [count_of_running hrun, if_pos hsec]
      rfl
    · rw [countCadence_of_counting (s := s.clearDue .cadence) (not_underflows (.inr (.inr hbase)))]
      show { s.clearDue .cadence with cadence := s.cadence.count } = _
      rw [count_of_running hrun, if_neg (Nat.not_lt.2 hsec), if_pos hbase]
      rfl
    · exact countCadence_of_underflow (s := s.clearDue .cadence) hrun hsec hbase
        fun hmem => hs (List.mem_filter.1 hmem).1

/-! ### Waiting verdicts and the mark -/

theorem queueHasRoom_iff {s : State} : s.queueHasRoom = true ↔ s.report.queue.length < 48 := decide_eq_true_iff

/-- What offering the waiting verdicts leaves: those sent have gone from the head, and nothing else of the
episodes has changed; it ends with none waiting or a full queue. -/
structure State.OffersFrame (s t : State) : Prop where
  episodes : t.episodes = { s.episodes with waiting := t.episodes.waiting }
  sent     : ∃ sent, s.episodes.waiting = sent ++ t.episodes.waiting
  ends     : t.episodes.waiting = [] ∨ 48 ≤ t.report.queue.length
  closed   : s.Closed t
  beacons  : t.beacons = s.beacons

theorem offersFrame {s t : State} (h : State.OffersWaiting s t) : s.OffersFrame t := by
  induction h with
  | ends s hend => exact ⟨rfl, ⟨[], rfl⟩, hend, .refl s, rfl⟩
  | offer s u t v rest hw _ hadm _ ih =>
    obtain ⟨heps, ⟨sent, hsent⟩, hend, hclosed, hbeacons⟩ := ih
    have htold := hadm.told
    have hueps := htold.episodes
    refine ⟨?_, ⟨v :: sent, ?_⟩, hend, ?_, ?_⟩
    · rw [heps, hueps]
    · rw [hueps] at hsent
      rw [hw, List.cons_append, ← hsent]
    · have hfirst : s.Closed { s with episodes := { s.episodes with waiting := rest } } := rfl
      exact (hfirst.trans htold.closed).trans hclosed
    · rw [hbeacons, htold.beacons]

/-- Under a set latch and a busy transmitter the verdicts that find room join the queue. -/
theorem offerVerdicts_latched {vs : List Verdict} {s : State} (hw : s.episodes.waiting = vs)
    (hl : s.notices.latch = true) (hb : s.ports.gatewayTx ≠ none) :
    (State.offerVerdicts vs s).episodes.waiting = vs.drop (48 - s.report.queue.length) ∧
    (State.offerVerdicts vs s).report.queue = s.report.queue ++ (vs.take (48 - s.report.queue.length)).map
      (fun v => ⟨s.clock.tickCount, .verdict v⟩) := by
  induction vs generalizing s with
  | nil => simp [State.offerVerdicts, hw]
  | cons v vs ih =>
    unfold State.offerVerdicts
    by_cases hr : s.report.queue.length < 48
    · rw [if_pos (queueHasRoom_iff.2 hr)]
      obtain ⟨hqueue, hlatch, hbusy, hep, hclock, -, -⟩ :=
        admit_latched (.verdict v) { s with episodes := { s.episodes with waiting := vs } } hl hb
      generalize State.admitRecord (.verdict v) { s with episodes := { s.episodes with waiting := vs } } = u at *
      obtain ⟨ihw, ihq⟩ := ih (s := u) (by rw [hep]) hlatch hbusy
      obtain ⟨n, hn⟩ := Nat.exists_eq_succ_of_ne_zero (Nat.sub_ne_zero_of_lt hr)
      have hn' : 48 - u.report.queue.length = n := by
        rw [hqueue, List.length_append]
        simp only [List.length_cons, List.length_nil]
        omega
      rw [ihw, ihq, hn', hn, hqueue, hclock]
      simp
    · rw [if_neg (queueHasRoom_iff.not.2 hr), hw, Nat.sub_eq_zero_of_le (Nat.not_lt.1 hr)]
      simp

theorem offerMark_of {s : State} {m : Mark} (h : s.plant.markLatch = some m) : s.offerMark =
    if s.queueHasRoom then State.admitRecord (.mark m) { s with plant := { s.plant with markLatch := none } } else s := by
  unfold State.offerMark
  rw [h]

/-- Settles O24: the offers one after another, and each as an admission. -/
theorem verdictAndMarkOffers : Obligations.VerdictAndMarkOffers := by
  unfold Obligations.VerdictAndMarkOffers
  refine ⟨fun s hd => ⟨?_, fun hb hl => ?_⟩, fun s m hd hm => ?_, fun v s => ⟨fun h => offerVerdict_waits h v,
    fun hw hr => ?_⟩⟩
  · have hoffers := offersWaiting_offerVerdicts s.episodes.waiting (s := s.clearDue .verdicts) rfl
    obtain ⟨heps, hsent, hend, hclosed, hbeacons⟩ := offersFrame hoffers
    exact ⟨_, exec_row hd, hoffers, heps, hsent, hend, hclosed.clock, hclosed.schedule, hclosed.slots, hclosed.table,
      hclosed.windows, hclosed.plant, hbeacons, hclosed.cadence, hclosed.held⟩
  · exact ⟨_, exec_row hd, offerVerdicts_latched (s := s.clearDue .verdicts) rfl hl hb⟩
  · have hexec : exec .markRecordOffer s = .next (s.clearDue .mark).offerMark := exec_row hd
    rw [hexec, offerMark_of (s := s.clearDue .mark) hm]
    refine ⟨fun hr => ⟨_, rfl, ?_⟩, fun hr => ?_⟩
    · rw [if_pos (queueHasRoom_iff (s := s.clearDue .mark).2 hr)]
      exact admitted_admit _ _
    · rw [if_neg (queueHasRoom_iff (s := s.clearDue .mark).not.2 (Nat.not_lt.2 hr))]
      rfl
  · rw [offerVerdict_admits hw hr]
    exact ⟨episodes_admit _ _, admitted_admit _ _⟩

/-! ### The samplers -/

theorem completes_iff {debounce : Nat} {pin : Level} {p : Sampler} :
    p.completes debounce pin = true ↔ pin ≠ p.level ∧ debounce ≤ p.run + 1 := by
  simp [Sampler.completes]

/-- A plant line after a sample. -/
def PlantLine.sampled (pin : Level) (l : PlantLine) : PlantLine := { l with sampler := l.sampler.sample pin }

theorem sampleLine_eq {pins : Pins} {n : Nat} {s : State} {l : PlantLine} (hl : s.plant.lines[n]? = some l) :
    s.sampleLine pins n = { s with
      due := if l.sampler.completes l.record.debounce (pinOf pins n) then (s.addDue (.recognition (.plant n))).due else s.due
      plant := { s.plant with lines := s.plant.lines.set n (l.sampled (pinOf pins n)) } } := by
  unfold State.sampleLine
  rw [hl]
  simp only
  unfold State.modifyLine
  split
  · rw [addDue_whole]
    show { s with due := _, plant := { s.plant with lines := s.plant.lines.modify n _ } } = _
    rw [modify_of_getElem? hl]
    rfl
  · rw [modify_of_getElem? hl]
    rfl

/-- From `s` to `t` the lines numbered were sampled once each. -/
structure State.LinesSampled (pins : Pins) (ns : List Nat) (s t : State) : Prop where
  whole  : t = { s with due := t.due, plant := { s.plant with lines := t.plant.lines } }
  length : t.plant.lines.length = s.plant.lines.length
  named  : ∀ i l, i ∈ ns → s.plant.lines[i]? = some l → t.plant.lines[i]? = some (l.sampled (pinOf pins i))
  others : ∀ i, i ∉ ns → t.plant.lines[i]? = s.plant.lines[i]?
  due    : ∀ d, d ∈ t.due ↔ d ∈ s.due ∨ ∃ i l, i ∈ ns ∧ d = .recognition (.plant i) ∧ s.plant.lines[i]? = some l ∧
    l.sampler.completes l.record.debounce (pinOf pins i) = true

theorem linesSampled_one (pins : Pins) (n : Nat) (s : State) : State.LinesSampled pins [n] s (s.sampleLine pins n) := by
  cases hl : s.plant.lines[n]? with
  | none =>
    have hid : s.sampleLine pins n = s := by
      unfold State.sampleLine
      rw [hl]
    rw [hid]
    refine ⟨rfl, rfl, fun i l hi hline => ?_, fun _ _ => rfl, fun d => (or_iff_left ?_).symm⟩
    · rw [List.mem_singleton.1 hi, hl] at hline
      cases hline
    · rintro ⟨i, l, hi, -, hline, -⟩
      rw [List.mem_singleton.1 hi, hl] at hline
      cases hline
  | some l =>
    rw [sampleLine_eq hl]
    refine ⟨rfl, List.length_set, fun i m hi hline => ?_, fun i hi => ?_, fun d => ?_⟩
    · obtain rfl := List.mem_singleton.1 hi
      obtain rfl := Option.some.inj (hl.symm.trans hline)
      exact List.getElem?_set_self (List.getElem?_eq_some_iff.1 hl).1
    · exact List.getElem?_set_ne fun he => hi (List.mem_singleton.2 he.symm)
    · simp only [List.mem_singleton]
      by_cases hc : l.sampler.completes l.record.debounce (pinOf pins n) = true
      · simp only [hc, if_true, mem_addDue]
        refine or_congr_right ⟨fun hd => ⟨n, l, rfl, hd, hl, hc⟩, ?_⟩
        rintro ⟨i, m, rfl, hd, -, -⟩
        exact hd
      · simp only [hc]
        refine (or_iff_left ?_).symm
        rintro ⟨i, m, rfl, -, hm, hcm⟩
        obtain rfl := Option.some.inj (hl.symm.trans hm)
        exact hc hcm

theorem linesSampled_foldl (pins : Pins) {ns : List Nat} (hn : ns.Nodup) (s : State) :
    State.LinesSampled pins ns s (ns.foldl (fun s' line => s'.sampleLine pins line) s) := by
  induction ns generalizing s with
  | nil => exact ⟨rfl, rfl, fun _ _ h => (nomatch h), fun _ _ => rfl, fun d => by simp⟩
  | cons n ns ih =>
    obtain ⟨hnot, hrest⟩ := List.nodup_cons.1 hn
    have one := linesSampled_one pins n s
    have rest := ih hrest (s.sampleLine pins n)
    rw [List.foldl_cons]
    generalize s.sampleLine pins n = u at one rest
    generalize ns.foldl (fun s' line => s'.sampleLine pins line) u = t at rest
    have other {i : Nat} (hi : i ∈ ns) : u.plant.lines[i]? = s.plant.lines[i]? :=
      one.others i fun h => hnot (List.mem_singleton.1 h ▸ hi)
    refine ⟨?_, rest.length.trans one.length, fun i l hi hl => ?_, fun i hi => ?_, fun d => ?_⟩
    · rw [rest.whole, one.whole]
    · obtain rfl | hi := List.mem_cons.1 hi
      · rw [rest.others i hnot]
        exact one.named i l (List.mem_singleton.2 rfl) hl
      · exact rest.named i l hi ((other hi).trans hl)
    · obtain ⟨hin, hins⟩ := not_or.1 (List.mem_cons.not.1 hi)
      rw [rest.others i hins]
      exact one.others i fun h => hin (List.mem_singleton.1 h)
    · rw [rest.due, one.due, or_assoc]
      refine or_congr_right ⟨?_, ?_⟩
      · rintro (⟨i, l, hi, hd, hl, hc⟩ | ⟨i, l, hi, hd, hl, hc⟩)
        · exact ⟨i, l, List.mem_cons.2 (.inl (List.mem_singleton.1 hi)), hd, hl, hc⟩
        · exact ⟨i, l, List.mem_cons_of_mem _ hi, hd, by rw [← other hi]; exact hl, hc⟩
      · rintro ⟨i, l, hi, hd, hl, hc⟩
        obtain hi | hi := List.mem_cons.1 hi
        · exact .inl ⟨i, l, List.mem_singleton.2 hi, hd, hl, hc⟩
        · exact .inr ⟨i, l, hi, hd, by rw [other hi]; exact hl, hc⟩

/-- The samplers and the due work are what has changed. -/
def State.Sampled (s t : State) : Prop :=
  t = { s with due := t.due, plant := { s.plant with lines := t.plant.lines, mark := t.plant.mark
                                                     certify := t.plant.certify } }

theorem State.Sampled.trans {s t u : State} (h : s.Sampled t) (k : t.Sampled u) : s.Sampled u := by
  unfold State.Sampled at *
  rw [k, h]

/-- The MARK sampler after a sample: a completed press waits for its recognition, a completed release turns. -/
theorem sampleMark_eq (pin : Level) (s : State) : s.sampleMark pin = { s with
    due := if pin = .low ∧ s.plant.mark.level = .high ∧ 4 ≤ s.plant.mark.run + 1
      then (s.addDue (.recognition .mark)).due else s.due
    plant := { s.plant with mark :=
      if pin = .high ∧ s.plant.mark.level = .low ∧ 4 ≤ s.plant.mark.run + 1 then ⟨.high, 0⟩
      else s.plant.mark.sample pin } } := by
  unfold State.sampleMark
  simp only
  by_cases hc : s.plant.mark.completes Config.markDebounce pin = true
  · rw [if_pos hc]
    obtain ⟨hne, hrun⟩ := completes_iff.1 hc
    have hrun' : 4 ≤ s.plant.mark.run + 1 := hrun
    cases hlevel : s.plant.mark.level with
    | high =>
      have hpin : pin = .low := by cases pin <;> simp_all
      simp only [hpin, hrun', and_self, if_true, reduceCtorEq, false_and, if_false]
      rw [addDue_whole]
      rfl
    | low =>
      have hpin : pin = .high := by cases pin <;> simp_all
      simp only [hpin, hrun', and_self, if_true, reduceCtorEq, false_and, if_false, Sampler.recognise, hlevel]
      rfl
  · rw [if_neg hc]
    have hno : ¬(pin ≠ s.plant.mark.level ∧ 4 ≤ s.plant.mark.run + 1) := fun h => hc (completes_iff.2 h)
    have h1 : ¬(pin = .low ∧ s.plant.mark.level = .high ∧ 4 ≤ s.plant.mark.run + 1) := fun ⟨hp, hl, hr⟩ =>
      hno ⟨by rw [hp, hl]; decide, hr⟩
    have h2 : ¬(pin = .high ∧ s.plant.mark.level = .low ∧ 4 ≤ s.plant.mark.run + 1) := fun ⟨hp, hl, hr⟩ =>
      hno ⟨by rw [hp, hl]; decide, hr⟩
    rw [if_neg h1, if_neg h2]
    rfl

theorem sampleCertify_eq (pin : Level) (s : State) : s.sampleCertify pin = { s with
    due := if pin ≠ s.plant.certify.level ∧ 16 ≤ s.plant.certify.run + 1
      then (s.addDue (.recognition .certify)).due else s.due
    plant := { s.plant with certify := s.plant.certify.sample pin } } := by
  unfold State.sampleCertify
  simp only
  by_cases hc : s.plant.certify.completes Config.certifyDebounce pin = true
  · rw [if_pos hc, if_pos (show pin ≠ s.plant.certify.level ∧ 16 ≤ s.plant.certify.run + 1 from completes_iff.1 hc),
      addDue_whole]
    rfl
  · rw [if_neg hc, if_neg (show ¬(pin ≠ s.plant.certify.level ∧ 16 ≤ s.plant.certify.run + 1) from
      fun h => hc (completes_iff.2 h))]
    rfl

theorem takeRecognitions_of_none {s : State} (h : ∀ input, .recognition input ∉ s.due) : s.takeRecognitions = s := by
  unfold State.takeRecognitions
  refine (congrArg (List.foldl _ s) (List.filter_eq_nil_iff.2 fun d hd => ?_)).trans List.foldl_nil
  cases d with
  | recognition input => exact absurd hd (h input)
  | _ => exact Bool.false_ne_true

/-- Settles O25: the recognitions outstanding first, then the ten samplers. -/
theorem sampleAdvancesSamplers : Obligations.SampleAdvancesSamplers := by
  unfold Obligations.SampleAdvancesSamplers
  refine ⟨fun pins s => ⟨s.takeRecognitions, ?_, recognition_takeRecognitions s, ?_⟩, fun pins line => rfl,
    fun pins s hnone hlen => ?_⟩
  · refine piecesTaken_takeDues s fun d hd => ?_
    have hk := (List.mem_filter.1 hd).2
    rintro rfl
    cases hk
  · show Host.Outcome.next (s.takeRecognitions.samplePins pins) = .next (s.takeRecognitions.takeRecognitions.samplePins pins)
    rw [takeRecognitions_of_none (recognition_takeRecognitions s)]
  · have hexec : exec (.sample pins) s = .next (s.samplePins pins) := by
      show Host.Outcome.next (s.takeRecognitions.samplePins pins) = _
      rw [takeRecognitions_of_none hnone]
    obtain ⟨hwhole, hlength, hnamed, -, hdue⟩ := linesSampled_foldl pins (List.nodup_range (n := Config.plantLines)) s
    have hsample : s.samplePins pins = (((List.range Config.plantLines).foldl
      (fun s' line => s'.sampleLine pins line) s).sampleMark pins.mark).sampleCertify pins.certify := rfl
    generalize (List.range Config.plantLines).foldl (fun s' line => s'.sampleLine pins line) s = u at *
    have humark : u.plant.mark = s.plant.mark := by rw [hwhole]
    have hucertify : u.plant.certify = s.plant.certify := by rw [hwhole]
    have hmark := sampleMark_eq pins.mark u
    rw [humark] at hmark
    generalize u.sampleMark pins.mark = w at *
    have hcert := sampleCertify_eq pins.certify w
    have hwcertify : w.plant.certify = s.plant.certify := by rw [hmark, ← hucertify]
    rw [hwcertify] at hcert
    have hwdue (d : Due) : d ∈ w.due ↔ d ∈ u.due ∨ (d = .recognition .mark ∧
        pins.mark = .low ∧ s.plant.mark.level = .high ∧ 4 ≤ s.plant.mark.run + 1) := by
      rw [hmark]
      by_cases hp : pins.mark = .low ∧ s.plant.mark.level = .high ∧ 4 ≤ s.plant.mark.run + 1
      · rw [if_pos hp, mem_addDue]
        exact or_congr_right (and_iff_left hp).symm
      · rw [if_neg hp]
        exact (or_iff_left fun h => hp h.2).symm
    have htdue (d : Due) : d ∈ (s.samplePins pins).due ↔ d ∈ w.due ∨ (d = .recognition .certify ∧
        pins.certify ≠ s.plant.certify.level ∧ 16 ≤ s.plant.certify.run + 1) := by
      rw [hsample, hcert]
      by_cases hp : pins.certify ≠ s.plant.certify.level ∧ 16 ≤ s.plant.certify.run + 1
      · rw [if_pos hp, mem_addDue]
        exact or_congr_right (and_iff_left hp).symm
      · rw [if_neg hp]
        exact (or_iff_left fun h => hp h.2).symm
    have hlines : (s.samplePins pins).plant.lines = u.plant.lines := by rw [hsample, hcert, hmark]
    have htmark : (s.samplePins pins).plant.mark =
        if pins.mark = .high ∧ s.plant.mark.level = .low ∧ 4 ≤ s.plant.mark.run + 1 then ⟨.high, 0⟩
        else s.plant.mark.sample pins.mark := by rw [hsample, hcert, hmark]
    have htcert : (s.samplePins pins).plant.certify = s.plant.certify.sample pins.certify := by rw [hsample, hcert]
    refine ⟨s.samplePins pins, hexec, ?_, ?_, fun i l hl pin hpin => ⟨?_, ?_⟩, fun hsame => ?_, fun hne hrun => ?_,
      fun hp hl hr => ?_, fun hp hl hr => ?_, ?_, ?_, ?_, fun d hd => ?_⟩
    · have hsu : s.Sampled u := by
        unfold State.Sampled
        rw [hwhole]
      have huw : u.Sampled w := by
        unfold State.Sampled
        rw [hmark]
      have hwt : w.Sampled (s.samplePins pins) := by
        unfold State.Sampled
        rw [hsample, hcert]
      exact (hsu.trans huw).trans hwt
    · rw [hlines, hlength, hlen]
    · have hi : i < Config.plantLines := by
        have hlt := (List.getElem?_eq_some_iff.1 hl).1
        rwa [hlen] at hlt
      rw [hlines, hnamed i l (List.mem_range.2 hi) hl, hpin]
      rfl
    · have hi : i < Config.plantLines := by
        have hlt := (List.getElem?_eq_some_iff.1 hl).1
        rwa [hlen] at hlt
      rw [htdue, hwdue, hdue, hpin]
      constructor
      · rintro (((hold | ⟨j, m, -, hd, hm, hc⟩) | ⟨hd, -⟩) | ⟨hd, -⟩)
        · exact absurd hold (hnone _)
        · obtain rfl := Input.plant.inj (Due.recognition.inj hd)
          obtain rfl := Option.some.inj (hl.symm.trans hm)
          exact completes_iff.1 hc
        · cases hd
        · cases hd
      · intro hc
        exact .inl (.inl (.inr ⟨i, l, List.mem_range.2 hi, rfl, hl, completes_iff.2 hc⟩))
    · rw [htmark, if_neg, Sampler.sample, if_pos hsame]
      rintro ⟨hp, hl, -⟩
      rw [hp, hl] at hsame
      cases hsame
    · rw [htmark, if_neg (fun h => absurd h.2.2 (Nat.not_le.2 hrun)), Sampler.sample, if_neg hne]
    · rw [htmark, if_pos ⟨hp, hl, hr⟩]
    · rw [htmark, if_neg, Sampler.sample, if_neg, hl]
      · rw [hp, hl]
        decide
      · rintro ⟨hp', -, -⟩
        rw [hp] at hp'
        cases hp'
    · rw [htdue, hwdue, hdue]
      constructor
      · rintro (((hold | ⟨j, m, -, hd, -, -⟩) | ⟨-, hp⟩) | ⟨hd, -⟩)
        · exact absurd hold (hnone _)
        · cases hd
        · exact hp
        · cases hd
      · exact fun hp => .inl (.inr ⟨rfl, hp⟩)
    · rw [htcert]
      rfl
    · rw [htdue, hwdue, hdue]
      constructor
      · rintro (((hold | ⟨j, m, -, hd, -, -⟩) | ⟨hd, -⟩) | ⟨-, hp⟩)
        · exact absurd hold (hnone _)
        · cases hd
        · cases hd
        · exact hp
      · exact fun hp => .inr ⟨rfl, hp⟩
    · rw [htdue, hwdue, hdue]
      constructor
      · rintro (((hold | ⟨j, m, -, rfl, -, -⟩) | ⟨rfl, -⟩) | ⟨rfl, -⟩)
        · exact hold
        · exact absurd rfl (hd _)
        · exact absurd rfl (hd _)
        · exact absurd rfl (hd _)
      · exact fun hold => .inl (.inl (.inl hold))

end Sys2Proof.Machine

/-! The summary underflow: what the SUMMARY record holds, its offer with those of the QUERY records, and the latch. -/

namespace Sys2Proof.Machine

/-! ### Accounts in ascending order -/

theorem pairwise_filterMap_zipIdx {α β : Type} {g : α × Nat → Option β} {idx : β → Nat}
    (h : ∀ p b, g p = some b → idx b = p.2) (l : List α) : ((l.zipIdx.filterMap g).map idx).Pairwise (· < ·) := by
  rw [List.pairwise_map, List.pairwise_filterMap]
  have hz : l.zipIdx.Pairwise (fun a b => a.2 < b.2) := by
    rw [List.pairwise_iff_getElem]
    intro i j hi hj hij
    simpa using hij
  refine hz.imp fun {a b} hab x hx y hy => ?_
  rw [h a x hx, h b y hy]
  exact hab

theorem mem_filterMap_zipIdx {α β : Type} {g : α × Nat → Option β} {idx : β → Nat}
    (h : ∀ p b, g p = some b → idx b = p.2) {l : List α} {b : β} :
    b ∈ l.zipIdx.filterMap g ↔ ∃ a, l[idx b]? = some a ∧ g (a, idx b) = some b := by
  simp only [List.mem_filterMap, Prod.exists, List.mem_zipIdx_iff_getElem?]
  constructor
  · rintro ⟨a, i, ha, hb⟩
    obtain rfl := h _ _ hb
    exact ⟨a, ha, hb⟩
  · rintro ⟨a, ha, hb⟩
    exact ⟨a, _, ha, hb⟩

/-- The account of a slot, where it has one. -/
def slotAccountOf (p : SlotRecord × Nat) : Option SlotAccount :=
  if p.1.link = .unbound then none else some ⟨p.2, p.1.link, p.1.counters, p.1.energy.leq, p.1.energy.count⟩

theorem slotAccounts_eq (slots : List SlotRecord) : slotAccounts slots = slots.zipIdx.filterMap slotAccountOf := by
  unfold slotAccounts
  refine List.filterMap_congr fun p _ => ?_
  unfold slotAccountOf
  cases p.1.link <;> rfl

theorem slotAccountOf_slot (p : SlotRecord × Nat) (a : SlotAccount) (h : slotAccountOf p = some a) : a.slot = p.2 := by
  unfold slotAccountOf at h
  split at h
  · cases h
  · exact congrArg SlotAccount.slot (Option.some.inj h).symm

theorem mem_slotAccounts {slots : List SlotRecord} {a : SlotAccount} : a ∈ slotAccounts slots ↔
    ∃ q : SlotRecord, slots[a.slot]? = some q ∧ q.link ≠ .unbound ∧
      a = ⟨a.slot, q.link, q.counters, q.energy.leq, q.energy.count⟩ := by
  rw [slotAccounts_eq, mem_filterMap_zipIdx slotAccountOf_slot]
  refine exists_congr fun q => and_congr_right fun _ => ?_
  unfold slotAccountOf
  by_cases hq : q.link = .unbound
  · simp [hq]
  · simp [hq, eq_comm]

theorem lineAccounts_line (p : PlantLine × Nat) (a : LineAccount)
    (h : (if p.1.record.enabled then some ⟨p.2, p.1.summaryRun, p.1.active⟩ else none : Option LineAccount) = some a) :
    a.line = p.2 := by
  split at h
  · exact congrArg LineAccount.line (Option.some.inj h).symm
  · cases h

theorem mem_lineAccounts {lines : List PlantLine} {a : LineAccount} : a ∈ lineAccounts lines ↔
    ∃ l : PlantLine, lines[a.line]? = some l ∧ l.record.enabled = true ∧ a = ⟨a.line, l.summaryRun, l.active⟩ := by
  unfold lineAccounts
  rw [mem_filterMap_zipIdx lineAccounts_line]
  refine exists_congr fun l => and_congr_right fun _ => ?_
  by_cases hl : l.record.enabled = true
  · simp [hl, eq_comm]
  · simp [hl]

theorem uncapturedAccounts_index (t : EntryTable) (p : Nat × Nat) (a : UncapturedAccount)
    (h : (if p.1 = 0 then none else some ⟨p.2, (t.at p.2).map (·.key), p.1⟩ : Option UncapturedAccount) = some a) :
    a.index = p.2 := by
  split at h
  · cases h
  · exact congrArg UncapturedAccount.index (Option.some.inj h).symm

theorem mem_uncapturedAccounts {t : EntryTable} {counters : List Nat} {a : UncapturedAccount} :
    a ∈ uncapturedAccounts t counters ↔ ∃ n : Nat, counters[a.index]? = some n ∧ n ≠ 0 ∧
      a = ⟨a.index, (t.at a.index).map (·.key), n⟩ := by
  unfold uncapturedAccounts
  rw [mem_filterMap_zipIdx (uncapturedAccounts_index t)]
  refine exists_congr fun n => and_congr_right fun _ => ?_
  by_cases hn : n = 0
  · simp [hn]
  · simp [hn, eq_comm]

/-! ### The offers of an underflow -/

theorem told_offerQueries (rs : List QueryRecord) (s : State) : s.Told (s.offerQueries rs) := by
  unfold State.offerQueries
  induction rs generalizing s with
  | nil => exact .refl s
  | cons r rs ih => exact (told_offer _ s).trans (ih _)

/-- What is told leaves the error and overrun counters of the ports. -/
theorem State.Told.counters {s t : State} (h : s.Told t) :
    t.ports.fieldErrors = s.ports.fieldErrors ∧ t.ports.gatewayErrors = s.ports.gatewayErrors ∧
      t.ports.forwardOverruns = s.ports.forwardOverruns ∧ t.ports.controlOverruns = s.ports.controlOverruns := by
  rw [h.ports]
  exact ⟨rfl, rfl, rfl, rfl⟩

theorem settleLatch_withCadence (c : Cadence) (s : State) :
    State.settleLatch { s with cadence := c } = { s.settleLatch with cadence := c } := by
  have hbase := offering_settleLatch (base := { s with cadence := c }) (s := s) rfl
  refine hbase.trans ?_
  conv_rhs => rw [(told_settleLatch s).eq_offering]
  rfl

/-- The cadence after a summary underflow. -/
def Cadence.reloaded (c : Cadence) : Cadence :=
  { c with summary := c.summaryLatch, running := c.running && c.mode == .continuous }

/-- The state in which the records of an underflow are offered: the underflow taken, the latch held set. -/
def State.offeringSummary (s : State) : State :=
  { s with
    due := s.due.filter (fun d => d != .summary)
    cadence := { s.cadence with summary := s.cadence.summaryLatch }
    notices := { s.notices with latch := true } }

/-- The offers of an underflow. -/
def State.summaryOffers (s : State) : State := s.offeringSummary.offerSummary.offerQueries s.queryRecords

theorem queryRecords_eq (s : State) : s.queryRecords = s.cadence.queries.zipIdx.map (fun p => ⟨p.2, p.1,
    ⟨p.1.command.commandCode.byte, (s.readQuery p.1.command).result, (s.readQuery p.1.command).data⟩⟩) := rfl

theorem queryRecords_underflow (s : State) : State.queryRecords { s with
    due := s.due.filter (fun d => d != .summary)
    cadence := { s.cadence with summary := s.cadence.summaryLatch } } = s.queryRecords := by
  unfold State.queryRecords
  refine List.map_congr_left fun p _ => ?_
  cases p.1.command <;> rfl

theorem cadence_summaryOffers (s : State) : s.summaryOffers.cadence = { s.cadence with summary := s.cadence.summaryLatch } := by
  have hq := told_offerQueries s.queryRecords s.offeringSummary.offerSummary
  have hs : s.offeringSummary.offerSummary.cadence = { s.cadence with summary := s.cadence.summaryLatch } := by
    unfold State.offerSummary
    split
    · rw [(told_admit _ _).cadence]
      rfl
    · rw [(told_drop _).cadence]
      rfl
  exact hq.cadence.trans hs

/-- An underflow taken is its offers under a set latch, then the latch as it was, which then may set. -/
theorem exec_summaryUnderflow {s : State} (hd : .summary ∈ s.due) : exec .summaryUnderflow s =
    .next (State.settleLatch { s.summaryOffers.withLatch s.notices.latch with cadence := s.cadence.reloaded }) := by
  refine (exec_row hd).trans (congrArg Host.Outcome.next ?_)
  rw [settleLatch_withCadence]
  have hcad : (s.summaryOffers.withLatch s.notices.latch).settleLatch.cadence =
      { s.cadence with summary := s.cadence.summaryLatch } :=
    (told_settleLatch _).cadence.trans (cadence_summaryOffers s)
  show (s.clearDue .summary).summaryUnderflow = _
  unfold State.summaryUnderflow State.asOneAction
  have hrec := queryRecords_underflow s
  simp only
  rw [show State.queryRecords { s.clearDue .summary with
    cadence := { (s.clearDue .summary).cadence with summary := (s.clearDue .summary).cadence.summaryLatch } } =
      s.queryRecords from hrec]
  show { (s.summaryOffers.withLatch s.notices.latch).settleLatch with cadence :=
    { (s.summaryOffers.withLatch s.notices.latch).settleLatch.cadence with running :=
      (s.summaryOffers.withLatch s.notices.latch).settleLatch.cadence.running &&
        (s.summaryOffers.withLatch s.notices.latch).settleLatch.cadence.mode == CadenceMode.continuous } } = _
  rw [hcad]
  rfl

/-! ### With room in the queue -/

theorem offerSummary_of_room {s : State} (h : s.report.queue.length < 48) :
    s.offerSummary = State.admitRecord (.summary s.summaryRecord) s.clearSummary :=
  if_pos (queueHasRoom_iff.2 h)

/-- With room, the figures the record reports are cleared, and the rest of the state is told. -/
theorem told_summaryOffers {s : State} (h : s.report.queue.length < 48) :
    s.offeringSummary.clearSummary.Told s.summaryOffers := by
  unfold State.summaryOffers
  rw [offerSummary_of_room (s := s.offeringSummary) h]
  exact (told_admit _ _).trans (told_offerQueries _ _)

/-! ### With the queue full -/

/-- Under a set latch a full queue drops and counts every record offered. -/
theorem offerQueries_full {rs : List QueryRecord} {s : State} (hl : s.notices.latch = true)
    (hq : 48 ≤ s.report.queue.length) (hd : s.report.dropped ≤ 65535)
    (hp : setInsert s.notices.pending Notice.reportDropped.bit = s.notices.pending) : s.offerQueries rs = { s with
      report := { s.report with dropped := min (s.report.dropped + rs.length) 65535 } } := by
  induction rs generalizing s with
  | nil =>
    rw [List.length_nil, Nat.add_zero, Nat.min_eq_left hd]
    rfl
  | cons r rs ih =>
    have hstep : s.offer (.query r) = { s with
        report := { s.report with dropped := min (s.report.dropped + 1) 65535 } } := by
      unfold State.offer State.drop
      rw [if_neg (queueHasRoom_iff.not.2 (Nat.not_lt.2 hq)), raise_latched (s := s.countDrop) hl]
      show { s with report := _, notices := { s.notices with pending := setInsert s.notices.pending _ } } = _
      rw [hp]
      rfl
    show (s.offer (.query r)).offerQueries rs = _
    rw [hstep]
    refine Eq.trans (ih ?_ ?_ ?_ ?_) ?_
    · exact hl
    · exact hq
    · exact Nat.min_le_right _ _
    · exact hp
    rw [List.length_cons]
    have hmin : min (min (s.report.dropped + 1) 65535 + rs.length) 65535 = min (s.report.dropped + (rs.length + 1)) 65535 := by
      omega
    simp only [hmin]

theorem summaryOffers_full {s : State} (hq : 48 ≤ s.report.queue.length) : s.summaryOffers = { s.offeringSummary with
    report := { s.report with dropped := min (s.report.dropped + 1 + s.cadence.queries.length) 65535 }
    notices := { s.notices with pending := setInsert s.notices.pending Notice.reportDropped.bit, latch := true } } := by
  have hdrop : s.offeringSummary.offerSummary = { s.offeringSummary with
      report := { s.report with dropped := min (s.report.dropped + 1) 65535 }
      notices := { s.notices with pending := setInsert s.notices.pending Notice.reportDropped.bit, latch := true } } := by
    unfold State.offerSummary State.drop
    rw [if_neg (queueHasRoom_iff (s := s.offeringSummary).not.2 (Nat.not_lt.2 hq)),
      raise_latched (s := s.offeringSummary.countDrop) rfl]
    rfl
  have hlen : s.queryRecords.length = s.cadence.queries.length := by simp [State.queryRecords]
  unfold State.summaryOffers
  rw [offerQueries_full (by rw [hdrop]) (by rw [hdrop]; exact hq) (by rw [hdrop]; exact Nat.min_le_right _ _)
    (by rw [hdrop]; exact setInsert_setInsert _ _), hdrop, hlen]
  have hmin : min (min (s.report.dropped + 1) 65535 + s.cadence.queries.length) 65535 =
      min (s.report.dropped + 1 + s.cadence.queries.length) 65535 := by omega
  simp only [hmin]

/-! ### The records in the queue -/

/-- The entries of the QUERY records of an underflow. -/
def State.queryEntries (s : State) : List Record := s.queryRecords.map (fun r => ⟨s.clock.tickCount, .query r⟩)

theorem length_queryEntries (s : State) : s.queryEntries.length = s.queryRecords.length := List.length_map _

/-- The state of an underflow with what its record reports cleared and its cadence reloaded. -/
def State.underflowBase (s : State) : State :=
  { s.clearSummary with
    due := s.due.filter (fun d => d != .summary)
    cadence := s.cadence.reloaded
    report := s.report }

/-- The pending notices after an underflow: QUEUE_HIGH where the depth reaches 40, REPORT_DROPPED where a record finds
no room. -/
def pendingAfter (depth offered : Nat) (pending : NoticeSet) : NoticeSet :=
  let high := if depth < 40 ∧ 40 ≤ depth + 1 + min offered (47 - depth)
    then setInsert pending Notice.queueHigh.bit else pending
  if 47 - depth < offered then setInsert high Notice.reportDropped.bit else high

theorem pendingAfter_eq (depth offered : Nat) (pending : NoticeSet) (h : depth < 48) :
    (let first := if depth + 1 = 40 then setInsert pending Notice.queueHigh.bit else pending
     let high := if depth + 1 < 40 ∧ 40 ≤ depth + 1 + min offered (48 - (depth + 1))
       then setInsert first Notice.queueHigh.bit else first
     if 48 - (depth + 1) < offered then setInsert high Notice.reportDropped.bit else high) =
      pendingAfter depth offered pending := by
  have hroom : 48 - (depth + 1) = 47 - depth := by omega
  unfold pendingAfter
  simp only [hroom]
  by_cases h40 : depth + 1 = 40
  · have hlow : ¬(depth + 1 < 40 ∧ 40 ≤ depth + 1 + min offered (47 - depth)) := by omega
    have hhigh : depth < 40 ∧ 40 ≤ depth + 1 + min offered (47 - depth) := by omega
    rw [if_pos h40, if_neg hlow, if_pos hhigh]
  · have hiff : (depth + 1 < 40 ∧ 40 ≤ depth + 1 + min offered (47 - depth)) ↔
        (depth < 40 ∧ 40 ≤ depth + 1 + min offered (47 - depth)) := by omega
    simp only [if_neg h40, hiff]

/-- On a busy transmitter with room: the records join the queue in their order. -/
theorem summaryOffers_busy {s : State} (hb : s.ports.gatewayTx ≠ none) (hr : s.report.queue.length < 48) :
    { s.summaryOffers.withLatch s.notices.latch with cadence := s.cadence.reloaded } = { s.underflowBase with
      report := ⟨s.report.queue ++ ⟨s.clock.tickCount, .summary s.summaryRecord⟩ ::
          s.queryEntries.take (47 - s.report.queue.length),
        min (s.queryEntries.length - (47 - s.report.queue.length)) 65535⟩
      notices := { s.notices with
        pending := pendingAfter s.report.queue.length s.queryEntries.length s.notices.pending } } := by
  have hadm := admitted_admit (.summary s.summaryRecord) s.offeringSummary.clearSummary
  have hfirst := (hadm.busy hb _ rfl).1 (.inr (.inl rfl))
  rw [hadm.high] at hfirst
  have hsummary : s.offeringSummary.offerSummary = State.admitRecord (.summary s.summaryRecord) s.offeringSummary.clearSummary :=
    offerSummary_of_room (s := s.offeringSummary) hr
  rw [← hsummary] at hfirst
  have hoffers := offers_latched s.queryRecords s.offeringSummary.offerSummary (by rw [hfirst]; rfl)
    (by rw [hfirst]; exact hb) (by rw [hfirst]; simpa [State.offeringSummary, State.clearSummary] using hr)
    (by rw [hfirst]; exact Nat.zero_le _)
  have hqueue : s.offeringSummary.offerSummary.report.queue =
      s.report.queue ++ [⟨s.clock.tickCount, .summary s.summaryRecord⟩] := by rw [hfirst]; rfl
  have hlen : s.offeringSummary.offerSummary.report.queue.length = s.report.queue.length + 1 := by
    rw [hqueue, List.length_append]
    rfl
  have hroom : 48 - (s.report.queue.length + 1) = 47 - s.report.queue.length := by omega
  have hreport : s.summaryOffers.report =
      ⟨s.report.queue ++ ⟨s.clock.tickCount, .summary s.summaryRecord⟩ ::
          s.queryEntries.take (47 - s.report.queue.length),
        min (s.queryEntries.length - (47 - s.report.queue.length)) 65535⟩ := by
    unfold State.summaryOffers
    rw [hoffers, hlen, hqueue, hroom, List.append_assoc, length_queryEntries]
    have hdropped : s.offeringSummary.offerSummary.report.dropped = 0 := by rw [hfirst]; rfl
    have hclock : s.offeringSummary.offerSummary.clock = s.clock := by rw [hfirst]; rfl
    simp only [hdropped, hclock, Nat.zero_add, State.queryEntries, List.singleton_append]
  have hpending : s.summaryOffers.notices.pending =
      pendingAfter s.report.queue.length s.queryEntries.length s.notices.pending := by
    unfold State.summaryOffers
    rw [hoffers, hlen, length_queryEntries, ← pendingAfter_eq _ _ _ hr]
    have hfirstPending : s.offeringSummary.offerSummary.notices.pending =
        if s.report.queue.length + 1 = 40 then setInsert s.notices.pending Notice.queueHigh.bit else s.notices.pending := by
      rw [hfirst]
      rfl
    simp only [hfirstPending]
  have hwhole : s.summaryOffers = { s.offeringSummary.offerSummary with
      report := s.summaryOffers.report
      notices := { s.offeringSummary.offerSummary.notices with pending := s.summaryOffers.notices.pending } } := by
    unfold State.summaryOffers
    rw [hoffers]
  rw [hwhole, hreport, hpending, hfirst]
  rfl

theorem quiet_of_and_eq_zero {w : Nat} {a b : BitVec w} (h : a &&& b = 0) :
    ∀ i, a.getLsbD i = true → b.getLsbD i = false := fun i ha => by
  rw [← Bool.not_eq_true]
  exact fun hb => and_ne_zero.2 ⟨i, ha, hb⟩ h

/-- On an idle transmitter with nothing waiting the SUMMARY record departs and the QUERY records wait. -/
theorem summaryOffers_idle {s : State} (hi : s.ports.gatewayTx = none) (hq : s.report.queue = [])
    (hf : s.ports.forward = []) (hr : ∀ r, .ready r ∉ s.ports.holding) (hfew : s.queryEntries.length ≤ 4) :
    ∃ due, { s.summaryOffers.withLatch s.notices.latch with cadence := s.cadence.reloaded } = { s.underflowBase with
        due := due
        report := ⟨s.queryEntries, 0⟩
        ports := { s.underflowBase.ports with starve := 0, gatewayTx := some (runOf .report s.ports.strap
          (Record.content ⟨s.clock.tickCount, .summary s.summaryRecord⟩)) } } ∧
      (s.episodes.waiting = [] → due = s.underflowBase.due) ∧
      (s.episodes.waiting ≠ [] → .verdicts ∈ due ∧ ∀ d, d ∈ s.underflowBase.due → d ∈ due) := by
  have hadm := admitted_admit (.summary s.summaryRecord) s.offeringSummary.clearSummary
  obtain ⟨hfirst, hnone, hsome⟩ := hadm.idle hi hq hf hr
  have hsummary : s.offeringSummary.offerSummary = State.admitRecord (.summary s.summaryRecord) s.offeringSummary.clearSummary :=
    offerSummary_of_room (s := s.offeringSummary) (by
      show s.report.queue.length < 48
      rw [hq]
      decide)
  rw [← hsummary] at hfirst hnone hsome
  have hempty : s.offeringSummary.offerSummary.report.queue = [] := by rw [hfirst]; exact hq
  have hzero : s.offeringSummary.offerSummary.report.dropped = 0 := by rw [hfirst]; rfl
  have hclock : s.offeringSummary.offerSummary.clock = s.clock := by rw [hfirst]; rfl
  have hfew' : s.queryRecords.length ≤ 4 := length_queryEntries s ▸ hfew
  have hoffers := offers_latched s.queryRecords s.offeringSummary.offerSummary (by rw [hfirst]; rfl)
    (by rw [hfirst]; exact Option.some_ne_none _) (by rw [hempty]; exact Nat.zero_le _) (by rw [hzero]; exact Nat.zero_le _)
  have hreport : s.summaryOffers.report = ⟨s.queryEntries, 0⟩ := by
    unfold State.summaryOffers
    rw [hoffers]
    simp only [hempty, hzero, hclock, List.nil_append, List.length_nil, Nat.sub_zero, Nat.zero_add]
    rw [List.take_of_length_le (by rw [List.length_map]; omega), Nat.sub_eq_zero_of_le (by omega)]
    rfl
  have hpending : s.summaryOffers.notices.pending = s.offeringSummary.offerSummary.notices.pending := by
    unfold State.summaryOffers
    rw [hoffers]
    simp only [hempty, List.length_nil, Nat.sub_zero, Nat.zero_add]
    rw [if_neg (by omega), if_neg (by omega)]
  have hwhole : s.summaryOffers = { s.offeringSummary.offerSummary with
      report := s.summaryOffers.report
      notices := { s.offeringSummary.offerSummary.notices with pending := s.summaryOffers.notices.pending } } := by
    unfold State.summaryOffers
    rw [hoffers]
  refine ⟨s.offeringSummary.offerSummary.due, ?_, hnone, hsome⟩
  rw [hwhole, hreport, hpending, hfirst]
  rfl

/-! ### The whole of an underflow -/

/-- What every summary underflow leaves alone. -/
theorem summaryOffers_keeps (s : State) : s.summaryOffers.clock = s.clock ∧ s.summaryOffers.schedule = s.schedule ∧
    s.summaryOffers.table = s.table ∧ s.summaryOffers.windows = s.windows ∧ s.summaryOffers.beacons = s.beacons ∧
    s.summaryOffers.held = s.held ∧ s.summaryOffers.episodes.current = s.episodes.current ∧
    s.summaryOffers.episodes.waiting = s.episodes.waiting ∧ s.summaryOffers.episodes.next = s.episodes.next := by
  by_cases hr : s.report.queue.length < 48
  · have h := told_summaryOffers hr
    refine ⟨h.clock, h.schedule, h.table, h.windows, h.beacons, h.held, ?_, ?_, ?_⟩ <;> rw [h.episodes] <;> rfl
  · rw [summaryOffers_full (Nat.not_lt.1 hr)]
    exact ⟨rfl, rfl, rfl, rfl, rfl, rfl, rfl, rfl, rfl⟩

/-- With the queue full the records are dropped and counted, and so is the ATTENTION record of a latch that sets. -/
theorem underflow_full {s t : State} (hq : 48 ≤ s.report.queue.length)
    (ht : t = State.settleLatch { s.summaryOffers.withLatch s.notices.latch with cadence := s.cadence.reloaded }) :
    t.slots = s.slots ∧ t.plant = s.plant ∧ t.episodes.uncaptured = s.episodes.uncaptured ∧ t.notified .reportDropped ∧
      t.report.queue = s.report.queue ∧ t.ports = s.ports ∧ t.due = s.due.filter (fun d => d != .summary) ∧
      t.report.dropped = min (s.report.dropped + 1 + s.cadence.queries.length +
        if s.notices.latch = false ∧ t.notices.latch = true then 1 else 0) 65535 := by
  rw [summaryOffers_full hq] at ht
  generalize hy : ({ State.withLatch s.notices.latch { s.offeringSummary with
    report := { s.report with dropped := min (s.report.dropped + 1 + s.cadence.queries.length) 65535 }
    notices := { s.notices with pending := setInsert s.notices.pending Notice.reportDropped.bit, latch := true } } with
      cadence := s.cadence.reloaded } : State) = y at ht
  have hbit : y.notices.pending.getLsbD Notice.reportDropped.bit = true := by
    rw [← hy]
    exact (getLsbD_setInsert_iff ..).trans (by simp [Notice.bit])
  have hslots : y.slots = s.slots := by rw [← hy]; rfl
  have hplant : y.plant = s.plant := by rw [← hy]; rfl
  have huncaptured : y.episodes.uncaptured = s.episodes.uncaptured := by rw [← hy]; rfl
  have hqueue : y.report.queue = s.report.queue := by rw [← hy]; rfl
  have hports : y.ports = s.ports := by rw [← hy]; rfl
  have hdue : y.due = s.due.filter (fun d => d != .summary) := by rw [← hy]; rfl
  have hdropped : y.report.dropped = min (s.report.dropped + 1 + s.cadence.queries.length) 65535 := by rw [← hy]; rfl
  have hlatch : y.notices.latch = s.notices.latch := by rw [← hy]; rfl
  by_cases hset : y.notices.latch = false ∧ y.notices.pending &&& y.notices.mask ≠ 0
  · have hfull := (alerted_setLatch y).full (by rw [hqueue]; exact hq)
    have hlatched : t = y.setLatch := ht.trans (if_pos hset)
    rw [hfull] at hlatched
    have hnow : t.notices.latch = true := by rw [hlatched]
    have hbefore : s.notices.latch = false := hlatch.symm.trans hset.1
    rw [if_pos ⟨hbefore, hnow⟩]
    refine ⟨?_, ?_, ?_, ?_, ?_, ?_, ?_, ?_⟩ <;> rw [hlatched]
    · exact hslots
    · exact hplant
    · exact huncaptured
    · exact getLsbD_setInsert hbit
    · exact hqueue
    · exact hports
    · exact hdue
    · show min (y.report.dropped + 1) 65535 = _
      rw [hdropped]
      omega
  · have hsame : t = y := ht.trans (if_neg hset)
    have hno : ¬(s.notices.latch = false ∧ t.notices.latch = true) := by
      rw [hsame, hlatch]
      exact fun h => absurd h.2 (by rw [h.1]; decide)
    rw [if_neg hno, hsame]
    exact ⟨hslots, hplant, huncaptured, hbit, hqueue, hports, hdue, hdropped⟩

/-- Settles O23: the offers of the underflow, by the room in the queue and the transmitter. -/
theorem summaryUnderflow : Obligations.SummaryUnderflow := by
  unfold Obligations.SummaryUnderflow
  intro s hd
  have hexec := exec_summaryUnderflow hd
  refine ⟨⟨_, hexec, ?_⟩, ⟨s.summaryRecord, rfl, rfl, rfl, rfl, rfl, rfl, rfl,
    ?_, fun a => mem_slotAccounts, pairwise_filterMap_zipIdx lineAccounts_line _, fun a => mem_lineAccounts,
    pairwise_filterMap_zipIdx (uncapturedAccounts_index _) _, fun a => mem_uncapturedAccounts⟩,
    fun offered base hoffered hbase => ?_⟩
  · have hlast := told_settleLatch { s.summaryOffers.withLatch s.notices.latch with cadence := s.cadence.reloaded }
    obtain ⟨hclock, hschedule, htable, hwindows, hbeacons, hheld, hcurrent, hwaiting, hnext⟩ := summaryOffers_keeps s
    refine ⟨hlast.cadence, hlast.clock.trans hclock, hlast.schedule.trans hschedule, hlast.table.trans htable,
      hlast.windows.trans hwindows, hlast.beacons.trans hbeacons, hlast.held.trans hheld, ?_, ?_, ?_, fun hr => ?_,
      fun hq => underflow_full hq rfl⟩
    · rw [hlast.episodes]
      exact hcurrent
    · rw [hlast.episodes]
      exact hwaiting
    · rw [hlast.episodes]
      exact hnext
    · have htold := told_summaryOffers hr
      obtain ⟨hfield, hgateway, hforward, hcontrol⟩ := hlast.counters
      obtain ⟨hfield', hgateway', hforward', hcontrol'⟩ := htold.counters
      refine ⟨hlast.slots.trans htold.slots, hlast.plant.trans htold.plant, ?_, hfield.trans hfield',
        hgateway.trans hgateway', hforward.trans hforward', hcontrol.trans hcontrol'⟩
      rw [hlast.episodes]
      show s.summaryOffers.episodes.uncaptured = _
      rw [htold.episodes]
      rfl
  · show ((slotAccounts s.slots).map (·.slot)).Pairwise (· < ·)
    rw [slotAccounts_eq]
    exact pairwise_filterMap_zipIdx slotAccountOf_slot _
  · have hentries : offered = s.queryEntries := by
      rw [hoffered, State.queryEntries, queryRecords_eq, List.map_map]
      rfl
    refine ⟨fun hb hr room high after u hroom hhigh hafter hu => ?_, fun hi hq hf hready hfew hquiet => ?_⟩
    · have hoffers : { s.summaryOffers.withLatch s.notices.latch with cadence := s.cadence.reloaded } = u := by
        rw [summaryOffers_busy hb hr, hu, hbase, hafter, hhigh, hroom, hentries]
        rfl
      have hlatch : u.notices.latch = s.notices.latch := by
        rw [hu, hbase]
      rw [hoffers] at hexec
      exact ⟨_, hexec, fun hq => settleLatch_of_quiet (hq.imp hlatch.trans quiet_of_and_eq_zero),
        fun hl hp => alerted_settleLatch (hlatch.trans hl) (and_ne_zero.1 hp)⟩
    · rw [hentries] at hfew
      obtain ⟨due, hoffers, hnone, hsome⟩ := summaryOffers_idle hi hq hf hready hfew
      rw [hoffers] at hexec
      have hsettled : State.settleLatch { s.underflowBase with
          due := due
          report := ⟨s.queryEntries, 0⟩
          ports := { s.underflowBase.ports with starve := 0, gatewayTx := some (runOf .report s.ports.strap
            (Record.content ⟨s.clock.tickCount, .summary s.summaryRecord⟩)) } } = _ :=
        settleLatch_of_quiet (hquiet.imp_right quiet_of_and_eq_zero)
      rw [hsettled] at hexec
      refine ⟨_, hexec, ?_, ?_, ?_⟩
      · rw [hbase, hentries]
        rfl
      · rw [hbase]
        exact hnone
      · rw [hbase]
        exact hsome

end Sys2Proof.Machine

/-! The link ports: what a received frame does at either port, the order of the arbiter, and the end of a frame. -/

namespace Sys2Proof.Machine

/-! ### The arbiter -/

theorem takeReady_some {before after : List Transaction} {r : Reply} (h : ∀ q, .ready q ∉ before) :
    takeReady (before ++ .ready r :: after) = some (r, before ++ after) := by
  induction before with
  | nil => rfl
  | cons t ts ih =>
    have hrest := ih fun q hq => h q (List.mem_cons_of_mem _ hq)
    cases t with
    | ready q => exact absurd List.mem_cons_self (h q)
    | queued tag items => rw [List.cons_append, takeReady, hrest]; rfl; exact nofun
    | executing e => rw [List.cons_append, takeReady, hrest]; rfl; exact nofun

theorem grant_of_ready {s : State} {before after : List Transaction} {r : Reply}
    (hh : s.ports.holding = before ++ .ready r :: after) (h : ∀ q, .ready q ∉ before) :
    s.grant = s.grantReply r (before ++ after) := by
  rw [State.grant, hh, takeReady_some h]

theorem grant_of_forward_only {s : State} {f : Frame} {fs : List Frame} (h : ∀ q, .ready q ∉ s.ports.holding)
    (hf : s.ports.forward = f :: fs) (hq : s.report.queue = []) : s.grant = s.grantForward f fs := by
  rw [State.grant, takeReady_none h, hf, hq]

theorem grant_of_forward_first {s : State} {f : Frame} {fs : List Frame} (h : ∀ q, .ready q ∉ s.ports.holding)
    (hf : s.ports.forward = f :: fs) (hq : s.report.queue ≠ []) (hn : s.ports.starve < 8) :
    s.grant = s.grantForward f fs := by
  obtain ⟨r, rs, hr⟩ := List.exists_cons_of_ne_nil hq
  rw [State.grant, takeReady_none h, hf, hr]
  exact if_pos hn

theorem grant_of_report {s : State} {r : Record} {rs : List Record} (h : ∀ q, .ready q ∉ s.ports.holding)
    (hq : s.report.queue = r :: rs) (hf : s.ports.forward = [] ∨ 8 ≤ s.ports.starve) :
    s.grant = s.grantReport r rs := by
  rw [State.grant, takeReady_none h, hq]
  cases hw : s.ports.forward with
  | nil => rfl
  | cons f fs => exact if_neg (Nat.not_lt.2 (hf.resolve_left (by simp [hw])))

theorem grant_of_none {s : State} (h : ∀ q, .ready q ∉ s.ports.holding) (hf : s.ports.forward = [])
    (hq : s.report.queue = []) : s.grant = s := by
  rw [State.grant, takeReady_none h, hf, hq]

theorem arbitrate_of_idle {s : State} (h : s.ports.gatewayTx = none) : s.arbitrate = s.grant := by
  rw [State.arbitrate, h]

theorem sendOnward_of_busy {s : State} (h : s.ports.fieldTx ≠ none) : s.sendOnward = s := by
  obtain ⟨f, hf⟩ := Option.ne_none_iff_exists'.1 h
  rw [State.sendOnward, hf]

theorem sendOnward_of_idle {s : State} {f : Frame} {rest : List Frame} (h : s.ports.fieldTx = none)
    (ho : s.ports.onward = f :: rest) :
    s.sendOnward = { s with ports := { s.ports with onward := rest, fieldTx := some f } } := by
  rw [State.sendOnward, h, ho]

theorem sendOnward_of_empty {s : State} (ho : s.ports.onward = []) : s.sendOnward = s := by
  rw [State.sendOnward, ho]
  cases s.ports.fieldTx <;> rfl

/-- A departure of a report changes only what is due: the offer of waiting verdicts, while any waits. -/
theorem handDeparture_whole (s : State) :
    s.handDeparture = { s with due := s.handDeparture.due } ∧
      (s.episodes.waiting = [] → s.handDeparture.due = s.due) ∧
      (s.episodes.waiting ≠ [] → .verdicts ∈ s.handDeparture.due ∧ ∀ d, d ∈ s.due → d ∈ s.handDeparture.due) := by
  unfold State.handDeparture
  by_cases hw : s.episodes.waiting = []
  · rw [if_pos (List.isEmpty_iff.2 hw)]
    exact ⟨rfl, fun _ => rfl, fun hne => absurd hw hne⟩
  · rw [if_neg (by simpa using hw)]
    exact ⟨addDue_whole _ s, fun he => absurd he hw,
      fun _ => ⟨mem_addDue.2 (Or.inr rfl), fun d hd => mem_addDue.2 (Or.inl hd)⟩⟩

/-! ### Received frames -/

theorem receiveField_valid {junk : List Byte} {frame : Frame} {kind : FrameKind} {s : State} (hj : Unmarked junk)
    (hm : frame.head? = some 0x7E) (hv : validate fieldTakes frame = some kind) :
    s.receiveField (junk ++ frame) = s.takeFieldFrame kind frame := by
  cases frame with
  | nil => exact absurd hm nofun
  | cons b rest => rw [State.receiveField, delimit_unmarked hj, delimit_marked hm]; simp only [hv]

theorem receiveField_invalid {junk : List Byte} {frame : Frame} {s : State} (hj : Unmarked junk)
    (hm : frame.head? = some 0x7E) (hv : validate fieldTakes frame = none) :
    s.receiveField (junk ++ frame) = s.countFieldError := by
  cases frame with
  | nil => exact absurd hm nofun
  | cons b rest => rw [State.receiveField, delimit_unmarked hj, delimit_marked hm]; simp only [hv]

theorem receiveGateway_valid {junk : List Byte} {frame : Frame} {kind : FrameKind} {s : State} (hj : Unmarked junk)
    (hm : frame.head? = some 0x7E) (hv : validate gatewayTakes frame = some kind) :
    s.receiveGateway (junk ++ frame) = s.takeControlFrame frame := by
  cases frame with
  | nil => exact absurd hm nofun
  | cons b rest => rw [State.receiveGateway, delimit_unmarked hj, delimit_marked hm]; simp only [hv]

theorem receiveGateway_invalid {junk : List Byte} {frame : Frame} {s : State} (hj : Unmarked junk)
    (hm : frame.head? = some 0x7E) (hv : validate gatewayTakes frame = none) :
    s.receiveGateway (junk ++ frame) = s.countGatewayError := by
  cases frame with
  | nil => exact absurd hm nofun
  | cons b rest => rw [State.receiveGateway, delimit_unmarked hj, delimit_marked hm]; simp only [hv]

theorem delimit_junk {junk : List Byte} (h : Unmarked junk) : delimit junk = [] := by
  simpa [delimit] using delimit_unmarked (bytes := []) h

/-- Settles O27: the forward FIFO first, then slice intake. -/
theorem fieldPortFrame : Obligations.FieldPortFrame := by
  unfold Obligations.FieldPortFrame
  refine ⟨fun channel sequence level1 level0 fast1 fast0 peak1 peak0 flags => ?_, fun junk s hj => ⟨?_, ?_, ?_⟩⟩
  · simp [sliceOf, bigEndian, Nat.mul_comm 256]
  · show Host.Outcome.next (s.receiveField junk) = _
    rw [State.receiveField, delimit_junk hj]
  · intro frame hm hnone
    refine congrArg Host.Outcome.next (receiveField_invalid hj hm ?_)
    refine Option.eq_none_iff_forall_ne_some.2 fun kind hk => hnone ⟨kind, _, (validate_field hm).1 hk⟩
  · intro kind payload frame hf
    have hm : frame.head? = some 0x7E := hf.1 ▸ head_envelope kind payload
    have hp : payloadOf frame = payload := hf.1 ▸ payloadOf_envelope kind payload
    refine ⟨s.offerForward frame, congrArg Host.Outcome.next ?_, fun hroom => ?_, fun hfull => ?_⟩
    · rw [receiveField_valid hj hm ((validate_field hm).2 (hp.symm ▸ hf)), State.takeFieldFrame, hp]
    · have hoffer : s.offerForward frame =
          State.arbitrate { s with ports := { s.ports with forward := s.ports.forward ++ [frame] } } := if_pos hroom
      refine ⟨fun hbusy => hoffer.trans (arbitrate_busy hbusy), fun hidle hempty hready hq => ?_⟩
      obtain ⟨x, hx⟩ : ∃ x : State, x = { s with ports := { s.ports with forward := s.ports.forward ++ [frame] } } := ⟨_, rfl⟩
      have hfx : x.ports.forward = [frame] := by rw [hx]; exact congrArg (· ++ [frame]) hempty
      rw [hoffer, ← hx, arbitrate_of_idle (by rw [hx]; exact hidle),
        grant_of_forward_only (by rw [hx]; exact hready) hfx (by rw [hx]; exact hq), State.grantForward,
        if_pos (show x.report.queue.isEmpty = true by rw [hx]; exact List.isEmpty_iff.2 hq), hx, ← hempty]
    · have hoffer : s.offerForward frame = State.raise .forwardOverrun { s with ports := { s.ports with
          forwardOverruns := min (s.ports.forwardOverruns + 1) 65535 } } := if_neg (Nat.not_lt.2 hfull)
      exact ⟨hoffer ▸ notified_raise _ _, hoffer⟩

/-! ### Control frames -/

theorem executingOf_none {ts : List Transaction} : executingOf ts = none ↔ ∀ e, .executing e ∉ ts := by
  induction ts with
  | nil => simp [executingOf]
  | cons t ts ih =>
    cases t with
    | executing e => exact iff_of_false nofun fun h => h e List.mem_cons_self
    | queued tag items => simp [executingOf, ih]
    | ready r => simp [executingOf, ih]

/-- What becomes of a control frame at the onward FIFO. -/
theorem offerOnward_room {frame : Frame} {s : State} (h : s.ports.onward.length < 4) :
    s.offerOnward frame = State.sendOnward { s with ports := { s.ports with onward := s.ports.onward ++ [frame] } } :=
  if_pos h

theorem offerOnward_full {frame : Frame} {s : State} (h : 4 ≤ s.ports.onward.length) :
    s.offerOnward frame = State.raise .forwardOverrun { s with ports := { s.ports with
      forwardOverruns := min (s.ports.forwardOverruns + 1) 65535 } } := if_neg (Nat.not_lt.2 h)

theorem offerExecution_room {payload : List Byte} {s : State} (h : s.ports.holding.length < 2) :
    s.offerExecution payload = s.setHolding (s.ports.holding ++
      [newTransaction (payload.getD 1 0) (payload.drop 2) s.ports.holding]) := if_pos h

theorem offerExecution_full {payload : List Byte} {s : State} (h : 2 ≤ s.ports.holding.length) :
    s.offerExecution payload = State.raise .controlOverrun { s with ports := { s.ports with
      controlOverruns := min (s.ports.controlOverruns + 1) 65535 } } := if_neg (Nat.not_lt.2 h)

theorem newTransaction_first {tag : Byte} {items : List Byte} {ts : List Transaction} (h : ∀ e, .executing e ∉ ts) :
    newTransaction tag items ts = .executing ⟨tag, items, 0, []⟩ := by
  rw [newTransaction, executingOf_none.2 h]

theorem newTransaction_later {tag : Byte} {items : List Byte} {ts : List Transaction} (h : ∃ e, .executing e ∈ ts) :
    newTransaction tag items ts = .queued tag items := by
  obtain ⟨e, he⟩ := h
  cases hx : executingOf ts with
  | none => exact absurd he (executingOf_none.1 hx e)
  | some f => rw [newTransaction, hx]

/-- What the onward path of a control frame leaves. -/
def State.onwardPath (payload : List Byte) (frame : Frame) (s : State) : State :=
  if s.passesOnward payload then s.offerOnward frame else s

theorem passesOnward_iff {payload : List Byte} {s : State} :
    s.passesOnward payload = true ↔ payload.head?.map BitVec.toNat ≠ some s.ports.strap.toNat := by
  simp [State.passesOnward, targetOf]

theorem executesHere_iff {payload : List Byte} {s : State} :
    s.executesHere payload = true ↔
      (payload.head?.map BitVec.toNat = some s.ports.strap.toNat ∨ payload.head?.map BitVec.toNat = some 7) := by
  simp [State.executesHere, targetOf, broadcast]

/-- Settles O30: the onward path first, then reply holding. -/
theorem controlFrame : Obligations.ControlFrame := by
  unfold Obligations.ControlFrame
  intro junk s hj
  refine ⟨?_, fun frame hm hnone => ?_, fun payload frame hf => ?_⟩
  · show Host.Outcome.next (s.receiveGateway junk) = _
    rw [State.receiveGateway, delimit_junk hj]
  · refine congrArg Host.Outcome.next (receiveGateway_invalid hj hm ?_)
    exact Option.eq_none_iff_forall_ne_some.2 fun kind hk => hnone ⟨_, ((validate_gateway hm).1 hk).2⟩
  have hm : frame.head? = some 0x7E := hf.1 ▸ head_envelope _ payload
  have hp : payloadOf frame = payload := hf.1 ▸ payloadOf_envelope _ payload
  refine ⟨s.onwardPath payload frame,
    if s.executesHere payload then (s.onwardPath payload frame).offerExecution payload else s.onwardPath payload frame,
    congrArg Host.Outcome.next ?_, fun hown => ?_, fun hother => ⟨fun hroom hbusy => ?_, fun hempty hidle => ?_, fun hfull => ?_⟩,
    fun hother hall => ?_, fun hhere => ?_⟩
  · rw [receiveGateway_valid hj hm ((validate_gateway hm).2 ⟨rfl, hp.symm ▸ hf⟩), State.takeControlFrame, hp]
    rfl
  · exact if_neg fun hpass => passesOnward_iff.1 hpass hown
  · rw [State.onwardPath, if_pos (passesOnward_iff.2 hother), offerOnward_room hroom]
    exact sendOnward_of_busy hbusy
  · rw [State.onwardPath, if_pos (passesOnward_iff.2 hother), offerOnward_room (by rw [hempty]; decide)]
    obtain ⟨x, hx⟩ : ∃ x : State, x = { s with ports := { s.ports with onward := s.ports.onward ++ [frame] } } := ⟨_, rfl⟩
    have hox : x.ports.onward = [frame] := by rw [hx]; exact congrArg (· ++ [frame]) hempty
    rw [← hx, sendOnward_of_idle (by rw [hx]; exact hidle) hox, hx, ← hempty]
  · have hu : s.onwardPath payload frame = _ :=
      (if_pos (passesOnward_iff.2 hother)).trans (offerOnward_full hfull)
    exact ⟨hu ▸ notified_raise _ _, hu⟩
  · exact if_neg fun h => (executesHere_iff.1 h).elim hother hall
  · rw [if_pos (executesHere_iff.2 hhere)]
    refine ⟨fun hroom => ⟨fun hnone => ?_, fun hsome => ?_⟩, fun hfull => ?_⟩
    · rw [offerExecution_room hroom, newTransaction_first hnone]
      rfl
    · rw [offerExecution_room hroom, newTransaction_later hsome]
      rfl
    · rw [offerExecution_full hfull]
      exact ⟨notified_raise _ _, rfl⟩

/-! ### The transmitters -/

/-- The gateway-port transmitter idle. -/
def State.freed (s : State) : State := { s with ports := { s.ports with gatewayTx := none } }

theorem gatewayDone_idle {s : State} (h : s.ports.gatewayTx = none) (now : Bool) : s.gatewayDone now = s := by
  rw [State.gatewayDone, h]

theorem gatewayDone_busy {s : State} (h : s.ports.gatewayTx ≠ none) (now : Bool) :
    s.gatewayDone now =
      if now then s.freed.grant.takeDue plainTick .verdicts else s.freed.grant := by
  obtain ⟨run, hrun⟩ := Option.ne_none_iff_exists'.1 h
  rw [State.gatewayDone, hrun]
  rfl

theorem fieldDone_idle {s : State} (h : s.ports.fieldTx = none) : s.fieldDone = s := by
  rw [State.fieldDone, h]

theorem fieldDone_busy {s : State} (h : s.ports.fieldTx ≠ none) :
    s.fieldDone = State.sendOnward { s with ports := { s.ports with fieldTx := none } } := by
  obtain ⟨f, hf⟩ := Option.ne_none_iff_exists'.1 h
  rw [State.fieldDone, hf]

/-- Settles O31: the arbiter's order, and the head of the onward FIFO. -/
theorem transmitters : Obligations.Transmitters := by
  unfold Obligations.Transmitters
  refine ⟨fun s => ⟨fun hidle now => congrArg Host.Outcome.next (gatewayDone_idle hidle now), fun hbusy => ?_⟩,
    fun s => ⟨fun hidle => congrArg Host.Outcome.next (fieldDone_idle hidle), fun hbusy => ⟨fun hempty => ?_, fun f fs ho => ?_⟩⟩⟩
  · refine ⟨s.freed.grant, congrArg Host.Outcome.next (gatewayDone_busy hbusy false),
      congrArg Host.Outcome.next (gatewayDone_busy hbusy true), fun before r after hh hb => grant_of_ready (s := s.freed) hh hb,
      fun hready => ⟨fun f fs hf hq => ?_, fun f fs hf hq hn => ?_, fun r rs hq hf => ?_,
        fun hf hq => grant_of_none (s := s.freed) hready hf hq⟩⟩
    · rw [grant_of_forward_only (s := s.freed) hready hf hq, State.grantForward,
        if_pos (show s.freed.report.queue.isEmpty = true from List.isEmpty_iff.2 hq)]
      rfl
    · rw [grant_of_forward_first (s := s.freed) hready hf hq hn, State.grantForward,
        if_neg (show ¬s.freed.report.queue.isEmpty = true from fun h => hq (List.isEmpty_iff.1 h))]
      rfl
    · rw [grant_of_report (s := s.freed) hready hq hf]
      exact handDeparture_whole _
  · exact congrArg Host.Outcome.next ((fieldDone_busy hbusy).trans (sendOnward_of_empty hempty))
  · exact congrArg Host.Outcome.next ((fieldDone_busy hbusy).trans (sendOnward_of_idle rfl ho))

/-! ### The end of a control frame -/

theorem mapExecuting_append (f : Executing → Transaction) (xs ys : List Transaction) :
    mapExecuting f (xs ++ ys) = mapExecuting f xs ++ mapExecuting f ys := List.map_append

theorem mapExecuting_of_none {f : Executing → Transaction} {ts : List Transaction}
    (h : ∀ x, x ∈ ts → ∀ e, x ≠ .executing e) : mapExecuting f ts = ts := by
  refine (List.map_congr_left fun x hx => ?_).trans (List.map_id ts)
  cases x with
  | executing e => exact absurd rfl (h _ hx e)
  | queued tag items => rfl
  | ready r => rfl

theorem beginQueued_append {before rest : List Transaction} (h : ∀ tag items, .queued tag items ∉ before) :
    beginQueued (before ++ rest) = before ++ beginQueued rest := by
  induction before with
  | nil => rfl
  | cons t ts ih =>
    have hrest := ih fun tag items hm => h tag items (List.mem_cons_of_mem _ hm)
    cases t with
    | queued tag items => exact absurd List.mem_cons_self (h tag items)
    | ready r => exact congrArg (List.cons _) hrest
    | executing e => exact congrArg (List.cons _) hrest

/-- Settles O33: the place becomes READY and the next frame begins. -/
theorem controlFrameEnd : Obligations.ControlFrameEnd := by
  unfold Obligations.ControlFrameEnd
  intro s trail e before after he hreach hh hothers hqueued reply hreply
  generalize hu : s.settleCommit = u at hh hreply
  have hend : s.takeEnd = (u.setHolding (before ++ .ready reply :: beginQueued after)).arbitrate := by
    have htake : s.takeEnd = u.endFrame trail := by
      rw [State.takeEnd, he, Option.map_some, hreach, ← hu]
    rw [htake, State.endFrame, hh, mapExecuting_append, mapExecuting_of_none fun x hx => hothers x (Or.inl hx),
      beginQueued_append hqueued]
    have hafter : mapExecuting (fun e => .ready ⟨e.tag, e.items ++ trail, u.notices.pending⟩) after = after :=
      mapExecuting_of_none fun x hx => hothers x (Or.inr hx)
    rw [show mapExecuting (fun e => .ready ⟨e.tag, e.items ++ trail, u.notices.pending⟩) (.executing e :: after) =
      .ready reply :: after by rw [hreply]; exact congrArg (List.cons _) hafter]
    rfl
  refine ⟨fun hbusy => congrArg Host.Outcome.next (hend.trans (arbitrate_busy hbusy)),
    fun hidle hready => congrArg Host.Outcome.next ?_, rfl, fun _ _ _ => rfl, fun x rest hx => ?_⟩
  · rw [hend, arbitrate_of_idle (s := u.setHolding (before ++ .ready reply :: beginQueued after)) hidle, grant_of_ready (before := before) (r := reply) rfl hready]
    rfl
  · cases x with
    | queued tag items => exact absurd rfl (hx tag items)
    | ready r => rfl
    | executing e => rfl

end Sys2Proof.Machine

/-! What the decoder reaches, and the items it cannot take. -/

namespace Sys2Proof.Machine

/-! ### The frame in execution and its items -/

theorem executingOf_some {ts : List Transaction} {e : Executing} :
    executingOf ts = some e ↔ ∃ before after, ts = before ++ .executing e :: after ∧ ∀ f, .executing f ∉ before := by
  induction ts with
  | nil => exact iff_of_false nofun fun ⟨before, after, h, _⟩ => by simp at h
  | cons t ts ih =>
    have hrest : (∀ f, t ≠ .executing f) → executingOf (t :: ts) = executingOf ts →
        (executingOf (t :: ts) = some e ↔
          ∃ before after, t :: ts = before ++ .executing e :: after ∧ ∀ f, .executing f ∉ before) := by
      intro hne htail
      rw [htail, ih]
      constructor
      · rintro ⟨before, after, rfl, hb⟩
        exact ⟨t :: before, after, rfl, fun f hf => (List.mem_cons.1 hf).elim (fun he => hne f he.symm) (hb f)⟩
      · rintro ⟨before, after, hsplit, hb⟩
        cases before with
        | nil => exact absurd (List.cons.inj hsplit).1 (hne e)
        | cons x before =>
          exact ⟨before, after, (List.cons.inj hsplit).2, fun f hf => hb f (List.mem_cons_of_mem _ hf)⟩
    cases t with
    | executing f =>
      refine ⟨fun h => ⟨[], ts, by rw [executingOf] at h; rw [Option.some.inj h]; rfl, nofun⟩, ?_⟩
      rintro ⟨before, after, hsplit, hb⟩
      cases before with
      | nil => rw [executingOf, Transaction.executing.inj (List.cons.inj hsplit).1]
      | cons x before => exact absurd ((List.cons.inj hsplit).1 ▸ List.mem_cons_self) (hb f)
    | queued tag items => exact hrest nofun rfl
    | ready r => exact hrest nofun rfl

theorem prefixesTaken_iff {ps : List PrefixItem} {c : CommandCode} :
    prefixesTaken ps c = true ↔ ∀ p, p ∈ ps →
      p.appliesTo c = true ∧ (ps.filter (fun q => q.code == p.code)).length = 1 := by
  simp [prefixesTaken]

theorem prefixesTaken_false {ps : List PrefixItem} {c : CommandCode}
    (h : ∃ p, p ∈ ps ∧ (p.appliesTo c = false ∨ 2 ≤ (ps.filter (fun q => q.code == p.code)).length)) :
    prefixesTaken ps c = false := by
  obtain ⟨p, hp, hbad⟩ := h
  refine Bool.eq_false_iff.2 fun ht => ?_
  obtain ⟨happ, hone⟩ := prefixesTaken_iff.1 ht p hp
  rcases hbad with hno | htwo
  · exact Bool.false_ne_true (hno.symm.trans happ)
  · omega

theorem modifiers_slot_some {v : ItemView} {n : Nat} (h : v.modifiers.slot = some n) : .slot n ∈ v.prefixes := by
  obtain ⟨p, hp, hn⟩ := List.exists_of_findSome?_eq_some h
  cases p with
  | slot m => exact Option.some.inj hn ▸ hp
  | staged => exact absurd hn nofun
  | keep => exact absurd hn nofun

theorem modifiers_slot_none {v : ItemView} : v.modifiers.slot = none ↔ ∀ n, .slot n ∉ v.prefixes := by
  refine List.findSome?_eq_none_iff.trans ⟨fun h n hn => absurd (h _ hn) nofun, fun h p hp => ?_⟩
  cases p with
  | slot n => exact absurd hp (h n)
  | staged => rfl
  | keep => rfl

/-- What an item taken makes of a place of reply holding. -/
def Transaction.answered (v : ItemView) (r : Result) (d : ReplyData) (x : Transaction) : Transaction :=
  match x with
  | .executing e => .executing ⟨e.tag, v.rest, v.taken, e.items ++ v.lead ++ [⟨v.code, r, d⟩]⟩
  | other => other

theorem answered_holding {v : ItemView} {r : Result} {d : ReplyData} {s : State} {k : Nat} {x : Transaction}
    (h : s.ports.holding[k]? = some x) : (s.answered v r d).ports.holding[k]? = some (x.answered v r d) := by
  refine (List.getElem?_map ..).trans ?_
  rw [h, Option.map_some]
  cases x with
  | executing e => simp [Transaction.answered]
  | queued tag items => rfl
  | ready q => rfl

/-! ### Items that are not taken -/

theorem takeUnknown_of_reaches {s : State} {v : ItemView} (h : s.Reaches v) :
    s.takeUnknown = if isCommandCode v.code then s else s.settleCommit.refused v .unknown := by
  obtain ⟨e, he, htag, hr⟩ := h
  rw [State.takeUnknown, he, Option.map_some, hr]
  rfl

theorem isCommandCode_iff {code : Byte} : isCommandCode code = true ↔ ∃ c : CommandCode, code = c.byte := by
  rw [isCommandCode, List.any_eq_true]
  constructor
  · rintro ⟨c, _, hc⟩
    exact ⟨c, (beq_iff_eq.1 hc).symm⟩
  · rintro ⟨c, rfl⟩
    exact ⟨c, by cases c <;> decide, beq_self_eq_true _⟩

section Malformed

variable {α : Type} {c : CommandCode} {s : State} {v : ItemView}

theorem takeItem_malformed {form : List Byte → Option α} {body : Body α} (h : s.Reaches v) (hc : v.code = c.byte)
    (hbad : form v.operands = none ∨ prefixesTaken v.prefixes c = false) :
    s.takeItem c form body = s.settleCommit.refused v .malformed := by
  have hrun : s.settleCommit.runItem c form body v.operands v.prefixes v.tag = refuse .malformed s.settleCommit :=
    hbad.elim runItem_of_not_form runItem_of_not_taken
  rw [takeItem_of_reaches h hc, hrun]
  rfl

theorem takeItem_fixed_malformed {n : Nat} {read : List Byte → α} {body : Body α} (h : s.Reaches v)
    (hc : v.code = c.byte) (hbad : ¬v.operands.length = n ∨ prefixesTaken v.prefixes c = false) :
    s.takeItem c (fixedForm n read) body = s.settleCommit.refused v .malformed :=
  takeItem_malformed h hc (hbad.imp_left fixedForm_of_length_ne)

theorem countedForm_none {lead size : Nat} {o : List Byte}
    (h : ¬(lead ≤ o.length ∧ o.length = lead + size * field o (lead - 1) 1)) : countedForm lead size o = none := by
  unfold countedForm onlyIf
  by_cases hlead : lead ≤ o.length
  · rw [if_pos hlead]
    exact if_neg fun he => h ⟨hlead, beq_iff_eq.1 he⟩
  · exact if_neg hlead

theorem countedForm_none_of_byte {lead size : Nat} {o : List Byte}
    (h : ¬(lead ≤ o.length ∧ o.length = lead + size * (o.getD (lead - 1) 0).toNat)) : countedForm lead size o = none :=
  countedForm_none fun hform => h (by rwa [field_one] at hform)

theorem takeItem_counted_malformed {lead size : Nat} {body : Body (List (List Byte))} (h : s.Reaches v)
    (hc : v.code = c.byte)
    (hbad : ¬(lead ≤ v.operands.length ∧
        v.operands.length = lead + size * (v.operands.getD (lead - 1) 0).toNat) ∨ prefixesTaken v.prefixes c = false) :
    s.takeItem c (countedForm lead size) body = s.settleCommit.refused v .malformed :=
  takeItem_malformed h hc (hbad.imp_left countedForm_none_of_byte)

theorem loadEntriesForm_none {o : List Byte} (h : ¬CommandCode.loadEntries.formOk o) : loadEntriesForm o = none :=
  congrArg (Option.map fun images => (field o 0 1, images)) (countedForm_none_of_byte (lead := 2) (size := 28) h)

end Malformed

theorem exec_malformed {c : CommandCode} {s : State} {v : ItemView} (h : s.Reaches v) (hc : v.code = c.byte)
    (hbad : ¬c.formOk v.operands ∨ prefixesTaken v.prefixes c = false) :
    exec c.instr s = .next (s.settleCommit.refused v .malformed) := by
  cases c with
  | loadEntries => exact congrArg Host.Outcome.next (takeItem_malformed h hc (hbad.imp_left loadEntriesForm_none))
  | loadBands => exact congrArg Host.Outcome.next (takeItem_counted_malformed (lead := 1) (size := 8) h hc hbad)
  | loadExceptions => exact congrArg Host.Outcome.next (takeItem_counted_malformed (lead := 1) (size := 3) h hc hbad)
  | loadPlant => exact congrArg Host.Outcome.next (takeItem_counted_malformed (lead := 1) (size := 6) h hc hbad)
  | _ => exact congrArg Host.Outcome.next (takeItem_fixed_malformed h hc hbad)

/-! ### Where the decoder stops -/

theorem reachFrom_whole_missing {fuel taken : Nat} {code length : Byte} {body : List Byte} {ps : List PrefixItem}
    {lead : List ReplyItem} (h : taken = 16 ∨ body.length < length.toNat) :
    reachFrom (fuel + 1) (code :: length :: body) taken ps lead = stopItems lead ps true := by
  rw [reachFrom]
  exact if_pos h

theorem reachFrom_seventeenth {fuel : Nat} {tail : List Byte} {ps : List PrefixItem} {lead : List ReplyItem}
    (h : tail ≠ []) : reachFrom (fuel + 1) tail 16 ps lead = stopItems lead ps true := by
  match tail with
  | [] => exact absurd rfl h
  | [_] => rfl
  | code :: length :: body => exact reachFrom_whole_missing (Or.inl rfl)

theorem danglingItem_eq {ps : List PrefixItem} {dangling : List ReplyItem} (hnil : ps = [] → dangling = [])
    (hlast : ∀ qs p, ps = qs ++ [p] → dangling = [malformedItem p.code]) : danglingItem ps = dangling := by
  rcases List.eq_nil_or_concat' ps with rfl | ⟨qs, p, rfl⟩
  · exact (hnil rfl).symm
  · rw [hlast qs p rfl, danglingItem, List.getLast?_concat]
    rfl

theorem isPrefixCode_iff {code : Byte} : isPrefixCode code = true ↔ code = 0x01 ∨ code = 0x02 ∨ code = 0x03 := by
  simp [isPrefixCode, slotCode, stagedCode, keepCode, or_assoc]

theorem prefixOf_none {code : Byte} {operands : List Byte}
    (h : code = 0x01 ∧ operands.length ≠ 1 ∨ (code = 0x02 ∨ code = 0x03) ∧ operands.length ≠ 0) :
    prefixOf code operands = none := by
  rcases h with ⟨rfl, hl⟩ | ⟨rfl | rfl, hl⟩
  · rw [prefixOf, if_pos (by decide)]
    exact fixedForm_of_length_ne hl
  · rw [prefixOf, if_neg (by decide), if_pos (by decide)]
    exact fixedForm_of_length_ne hl
  · rw [prefixOf, if_neg (by decide), if_neg (by decide), if_pos (by decide)]
    exact fixedForm_of_length_ne hl

/-- A malformed modifier behind standing ones: they are used up, and the next item starts afresh. -/
theorem reachFrom_malformed {fuel taken : Nat} {code length : Byte} {operands after : List Byte}
    {ps : List PrefixItem} (tag : Byte) (written : List ReplyItem) (ht : taken < 16) (hf : 16 ≤ fuel + taken)
    (hl : operands.length = length.toNat)
    (h : code = 0x01 ∧ operands.length ≠ 1 ∨ (code = 0x02 ∨ code = 0x03) ∧ operands.length ≠ 0) :
    reachFrom (fuel + 1) (code :: length :: (operands ++ after)) taken ps [] =
      (Executing.reach ⟨tag, after, taken + 1, written⟩).behind [malformedItem code] := by
  have hcode : isPrefixCode code = true := isPrefixCode_iff.2 (h.imp And.left And.left)
  rw [reachFrom_item ht hl, if_pos hcode, prefixOf_none h]
  show reachFrom fuel after (taken + 1) [] ([malformedItem code] ++ []) = _
  rw [reachFrom_behind, reachFrom_fuel fuel 17 (taken + 1) after [] [] (by omega) (by omega) (by omega)]
  rfl

/-- Settles O32: the decoder's items, the ones it answers without taking, and where it stops. -/
theorem unknownAndMalformedItems : Obligations.UnknownAndMalformedItems := by
  unfold Obligations.UnknownAndMalformedItems
  refine ⟨fun s => ⟨takeDue_id, fun _ => rfl⟩, fun v r d s t ht => ?_,
    ⟨fun s e => executingOf_some, fun c => ⟨fun n => ?_, ?_, ?_, fun ps => prefixesTaken_iff⟩, fun p => ?_,
      fun v => ⟨fun n => modifiers_slot_some, modifiers_slot_none⟩⟩,
    fun s v h => ⟨fun hno => congrArg Host.Outcome.next ?_, fun c hc => congrArg Host.Outcome.next ?_⟩,
    fun c s v h hc hbad => exec_malformed h hc (hbad.imp_right prefixesTaken_false), ⟨by decide, fun c => ?_⟩,
    fun tag taken written ps reach dangling hslot hreach hnil hlast => ?_⟩
  · subst ht
    exact ⟨rfl, length_mapExecuting _ _, fun k x hx => answered_holding hx, rfl⟩
  · simp [PrefixItem.appliesTo]
  · simp [PrefixItem.appliesTo]
  · simp [PrefixItem.appliesTo]
  · cases p <;> rfl
  · rw [takeUnknown_of_reaches h, if_neg fun hc => (isCommandCode_iff.1 hc).elim hno]
  · rw [takeUnknown_of_reaches h, if_pos (isCommandCode_iff.2 ⟨c, hc⟩)]
  · cases c <;> decide
  have hdangling := danglingItem_eq hnil hlast
  have hstop : ∀ stopped, stopItems [] ps stopped =
      .stop (dangling ++ if stopped then [malformedItem 0x00] else []) := by
    intro stopped
    rw [stopItems, hdangling]
    rfl
  refine ⟨fun ht => ?_, fun ht tail htail => ?_, fun ht code length operands after hl => ?_⟩
  all_goals
    obtain ⟨fuel, hfuel⟩ : ∃ fuel, 17 - ps.length = fuel + 1 := ⟨16 - ps.length, by omega⟩
    have hfrom : ∀ tail, reach tail = reachFrom (fuel + 1) tail (taken + ps.length) ps [] := fun tail => by
      rw [hreach, reach_prefixes hslot _ _ _ _ (by omega), hfuel]
  · refine ⟨?_, fun code => (hfrom _).trans (hstop true), fun code length body hb => ?_⟩
    · exact (hfrom _).trans ((hstop false).trans (congrArg _ (List.append_nil _)))
    · exact (hfrom _).trans ((reachFrom_whole_missing (Or.inr hb)).trans (hstop true))
  · rw [hfrom, ht, reachFrom_seventeenth htail]
    exact hstop true
  · refine ⟨fun h1 h2 h3 => ?_, fun hbad next hnext => ?_⟩
    · rw [hfrom, reachFrom_item ht hl, if_neg fun hp => ?_]
      exact (isPrefixCode_iff.1 hp).elim h1 (Or.rec h2 h3)
    · have hbehind : reach (code :: length :: (operands ++ after)) = next.behind [malformedItem code] := by
        rw [hfrom, hnext, reachFrom_malformed tag written ht (by omega) hl hbad]
      rw [hbehind]
      exact ⟨fun trail he => he ▸ rfl, fun lead qs c o rest n he => he ▸ rfl⟩

end Sys2Proof.Machine

/-! Slice intake: what a judgement does to the slot, and what an accepted slice is handed on to. -/

namespace Sys2Proof.Machine

/-! ### The judgement (R2, R5 to R9) -/

/-- The distance of a slice from the sequence its slot expects; 0 where it expects none. -/
def SlotLink.distanceOf (x : Slice) (l : SlotLink) : Nat :=
  match l with
  | .live _ e _ => distance x.sequence e
  | _ => 0

theorem distance_lt (a b : Nat) : distance a b < 256 := Nat.mod_lt _ (by decide)

theorem judgeDistance_eq (d : Nat) : judgeDistance d = if d = 0 then .inOrder else if d ≤ 31 then .gap d
    else if d ≤ 223 then .resync else .late := rfl

/-- A bound slot judges by distance; where it expects no sequence the slice gives the base. -/
theorem judge_of_bound {l : SlotLink} {id : Nat} (x : Slice) (h : l.boundId = some id) :
    l.judge x = judgeDistance (l.distanceOf x) ∨ l.judge x = .base ∧ l.distanceOf x = 0 := by
  cases l with
  | unbound => exact absurd h nofun
  | waiting n => exact Or.inr ⟨rfl, rfl⟩
  | live n e last => exact Or.inl rfl
  | stalled n e last => exact Or.inr ⟨rfl, rfl⟩

theorem judge_late {l : SlotLink} {id : Nat} {x : Slice} (h : l.boundId = some id) :
    l.judge x = .late ↔ 224 ≤ l.distanceOf x := by
  rcases judge_of_bound x h with hj | ⟨hj, hd⟩
  · rw [hj, judgeDistance_eq]
    split_ifs <;> simp <;> omega
  · rw [hj, hd]
    exact iff_of_false nofun (by decide)

theorem judge_resync {l : SlotLink} {id : Nat} {x : Slice} (h : l.boundId = some id)
    (hd : l.distanceOf x < 224) : l.judge x = .resync ↔ 32 ≤ l.distanceOf x := by
  rcases judge_of_bound x h with hj | ⟨hj, hz⟩
  · rw [hj, judgeDistance_eq]
    split_ifs <;> simp <;> omega
  · rw [hj, hz]
    exact iff_of_false nofun (by decide)

theorem judge_gap {l : SlotLink} {id : Nat} {x : Slice} {d : Nat} (h : l.boundId = some id) :
    l.judge x = .gap d ↔ l.distanceOf x = d ∧ 1 ≤ d ∧ d ≤ 31 := by
  rcases judge_of_bound x h with hj | ⟨hj, hz⟩
  · rw [hj, judgeDistance_eq]
    split_ifs <;> simp <;> omega
  · rw [hj, hz]
    exact iff_of_false nofun (by omega)

theorem judged_missing {l : SlotLink} {id : Nat} {x : Slice} (h : l.boundId = some id) (c : SlotCounters) :
    (c.judged (l.judge x)).missing = if 1 ≤ l.distanceOf x ∧ l.distanceOf x ≤ 31
      then min (c.missing + l.distanceOf x) 65535 else c.missing := by
  by_cases hd : 1 ≤ l.distanceOf x ∧ l.distanceOf x ≤ 31
  · rw [(judge_gap h).2 ⟨rfl, hd⟩, if_pos hd]
    rfl
  · rw [if_neg hd]
    cases hj : l.judge x with
    | gap d => exact absurd ((judge_gap h).1 hj) fun ⟨he, hb⟩ => hd (he ▸ hb)
    | base | inOrder | resync | late => rfl

theorem judged_resyncs {l : SlotLink} {id : Nat} {x : Slice} (h : l.boundId = some id) (hlate : l.distanceOf x < 224)
    (c : SlotCounters) : (c.judged (l.judge x)).resyncs = if 32 ≤ l.distanceOf x
      then min (c.resyncs + 1) 65535 else c.resyncs := by
  by_cases hd : 32 ≤ l.distanceOf x
  · rw [(judge_resync h hlate).2 hd, if_pos hd]
    rfl
  · rw [if_neg hd]
    cases hj : l.judge x with
    | resync => exact absurd ((judge_resync h hlate).1 hj) hd
    | base | inOrder | gap | late => rfl

/-- A judgement counts missing slices or a resync, and nothing else. -/
theorem judged_whole (j : Judgement) (c : SlotCounters) : c.judged j =
    { c with missing := (c.judged j).missing, resyncs := (c.judged j).resyncs } := by
  cases j <;> rfl

theorem accept_link {l : SlotLink} {id : Nat} (x : Slice) (arrival : Tick) (h : l.boundId = some id) :
    l.accept x arrival = .live id ((x.sequence + 1) % 256) arrival := by
  rw [SlotLink.accept, h]

/-! ### Slice intake (R1) -/

theorem boundSlot_none {id : Nat} {slots : List SlotRecord}
    (h : ∀ (i : Nat) (r : SlotRecord), slots[i]? = some r → r.link.boundId ≠ some id) : boundSlot id slots = none := by
  refine List.findIdx?_eq_none_iff.2 fun r hr => beq_eq_false_iff_ne.2 ?_
  obtain ⟨i, hi⟩ := List.getElem?_of_mem hr
  exact h i r hi

theorem boundSlot_some {id i : Nat} {r : SlotRecord} {slots : List SlotRecord} (hr : slots[i]? = some r)
    (hid : r.link.boundId = some id)
    (hfirst : ∀ (j : Nat) (q : SlotRecord), j < i → slots[j]? = some q → q.link.boundId ≠ some id) :
    boundSlot id slots = some i := by
  obtain ⟨hi, rfl⟩ := List.getElem?_eq_some_iff.1 hr
  refine List.findIdx?_eq_some_iff_getElem.2 ⟨hi, beq_iff_eq.2 hid, fun j hj => ?_⟩
  simpa using hfirst j _ hj (List.getElem?_eq_getElem (Nat.lt_trans hj hi))

theorem intake_of_none {x : Slice} {s : State}
    (h : ∀ (i : Nat) (r : SlotRecord), s.slots[i]? = some r → r.link.boundId ≠ some x.channel) : s.intake x = s := by
  rw [State.intake, boundSlot_none h]

theorem intake_of_bound {x : Slice} {s : State} {i : Nat} {r : SlotRecord} (hr : s.slots[i]? = some r)
    (hid : r.link.boundId = some x.channel)
    (hfirst : ∀ (j : Nat) (q : SlotRecord), j < i → s.slots[j]? = some q → q.link.boundId ≠ some x.channel) :
    s.intake x = s.judgeSlice i r x := by
  rw [State.intake, boundSlot_some hr hid hfirst]
  simp only [hr]

theorem inRange_iff {x : Slice} : x.inRange = true ↔ x.level ≤ 1400 ∧ x.fast ≤ 1400 ∧ x.peak ≤ 1600 := by
  simp [Slice.inRange, and_assoc]

theorem modifySlot_eq {s : State} {i : Nat} {r : SlotRecord} (f : SlotRecord → SlotRecord)
    (hr : s.slots[i]? = some r) : s.modifySlot i f = { s with slots := s.slots.set i (f r) } := by
  rw [State.modifySlot, modify_of_getElem? hr]

theorem judgeSlice_range {i : Nat} {r : SlotRecord} {x : Slice} {s : State} (h : ¬x.inRange = true) :
    s.judgeSlice i r x = s.modifySlot i SlotRecord.rejectRange := if_neg h

theorem judgeSlice_late {i : Nat} {r : SlotRecord} {x : Slice} {s : State} (h : x.inRange = true)
    (hj : r.link.judge x = .late) : s.judgeSlice i r x = s.modifySlot i SlotRecord.rejectLate := by
  rw [State.judgeSlice, if_pos h, hj]

/-- The slot of an accepted slice, and the demands of a resync, before the slice is handed on. -/
def State.accepted (i : Nat) (r : SlotRecord) (x : Slice) (s : State) : State :=
  let t := s.modifySlot i (SlotRecord.accept x (r.link.judge x) s.clock.tickCount)
  if r.link.judge x = .resync then t.demandResync i else t

theorem judgeSlice_accepted {i : Nat} {r : SlotRecord} {x : Slice} {s : State} (h : x.inRange = true)
    (hj : r.link.judge x ≠ .late) : s.judgeSlice i r x = (s.accepted i r x).handOn i x := by
  rw [State.judgeSlice, if_pos h]
  unfold State.accepted
  cases hx : r.link.judge x with
  | late => exact absurd hx hj
  | base | inOrder | gap | resync => rfl

/-! ### Handing on (R10, R12, R75, R76, R86) -/

/-- What handing a slice on does before the slot's own account. -/
def State.handedOn (i : Nat) (x : Slice) (s : State) : State :=
  if x.calibrating then s.integrate i x else ((s.integrate i x).evaluateSlice i x).gainSlice i x

theorem evaluates_handedOn (i : Nat) (x : Slice) (s : State) : Evaluates s (s.handedOn i x) := by
  unfold State.handedOn
  split
  · exact evaluates_integrate i x s
  · exact ((evaluates_integrate i x s).trans (evaluates_evaluateSlice i x _)).trans (judges_gainSlice i x _).evaluates

theorem handOn_eq (i : Nat) (x : Slice) (s : State) : s.handOn i x = { s.handedOn i x with
    slots := if x.calibrating then s.slots else s.slots.modify i (SlotRecord.gainSlice x) } := by
  have hslots := (evaluates_handedOn i x s).slots
  cases hc : x.calibrating with
  | true =>
    rw [State.handedOn, if_pos hc] at hslots ⊢
    rw [State.handOn, if_pos hc, if_pos rfl, ← hslots]
  | false =>
    have hno : ¬x.calibrating = true := by rw [hc]; exact Bool.false_ne_true
    rw [State.handedOn, if_neg hno] at hslots ⊢
    rw [State.handOn, if_neg hno, if_neg Bool.false_ne_true, State.modifySlot, hslots]

theorem evaluates_demandResync (i : Nat) (s : State) : Evaluates s (s.demandResync i) :=
  (emits_raise _ _).judges.evaluates.trans (evaluates_resyncWindows _ _)

theorem evaluates_accepted (i : Nat) (r : SlotRecord) (x : Slice) (s : State) :
    Evaluates (s.modifySlot i (SlotRecord.accept x (r.link.judge x) s.clock.tickCount)) (s.accepted i r x) := by
  unfold State.accepted
  by_cases h : r.link.judge x = .resync
  · simp only [if_pos h]
    exact evaluates_demandResync _ _
  · simp only [if_neg h]
    exact Evaluates.refl _

/-- The record an accepted slice leaves. -/
def SlotRecord.taken (x : Slice) (arrival : Tick) (r : SlotRecord) : SlotRecord :=
  if x.calibrating then r.accept x (r.link.judge x) arrival else (r.accept x (r.link.judge x) arrival).gainSlice x

theorem taken_link (x : Slice) (arrival : Tick) (r : SlotRecord) : (r.taken x arrival).link = r.link.accept x arrival := by
  unfold SlotRecord.taken
  split <;> rfl

theorem taken_counters (x : Slice) (arrival : Tick) (r : SlotRecord) :
    (r.taken x arrival).counters = (r.counters.accept x).judged (r.link.judge x) := by
  unfold SlotRecord.taken
  split <;> rfl

theorem taken_latest (x : Slice) (arrival : Tick) (r : SlotRecord) :
    (r.taken x arrival).latest = if x.calibrating then r.latest else some x.level := by
  unfold SlotRecord.taken
  split <;> rfl

theorem taken_energy (x : Slice) (arrival : Tick) (r : SlotRecord) :
    (r.taken x arrival).energy = if x.calibrating then r.energy else r.energy.add x.level := by
  unfold SlotRecord.taken
  split <;> rfl

theorem slots_accepted_handOn {i : Nat} {r : SlotRecord} {x : Slice} {s : State} (hr : s.slots[i]? = some r) :
    ((s.accepted i r x).handOn i x).slots = s.slots.set i (r.taken x s.clock.tickCount) := by
  have hslots : (s.accepted i r x).slots = s.slots.set i (r.accept x (r.link.judge x) s.clock.tickCount) :=
    (evaluates_accepted i r x s).slots.trans (modify_of_getElem? hr _)
  rw [handOn_eq]
  show (if x.calibrating then _ else _) = _
  rw [hslots, SlotRecord.taken]
  split
  · rfl
  · obtain ⟨hi, _⟩ := List.getElem?_eq_some_iff.1 hr
    rw [modify_of_getElem? (List.getElem?_set_self hi), List.set_set]

theorem accepted_plain {i : Nat} {r : SlotRecord} {x : Slice} {s : State} (hr : s.slots[i]? = some r)
    (h : r.link.judge x ≠ .resync) :
    s.accepted i r x = { s with slots := s.slots.set i (r.accept x (r.link.judge x) s.clock.tickCount) } :=
  (if_neg h).trans (modifySlot_eq _ hr)

theorem accepted_resync {i : Nat} {r : SlotRecord} {x : Slice} {s : State} (hr : s.slots[i]? = some r)
    (h : r.link.judge x = .resync) : s.accepted i r x = (State.raise .slotResync
      { s with slots := s.slots.set i (r.accept x (r.link.judge x) s.clock.tickCount) }).resyncWindows i :=
  (if_pos h).trans (congrArg (State.demandResync i) (modifySlot_eq _ hr))

theorem Evaluates.notified {s t : State} (h : Evaluates s t) {n : Notice} (hn : s.notified n) : t.notified n :=
  h.notices _ hn

/-- Settles O28: the range check, the sequence, and the hand-on. -/
theorem sliceJudged : Obligations.SliceJudged := by
  unfold Obligations.SliceJudged
  refine ⟨fun l => by cases l <;> rfl, fun x s => ⟨intake_of_none, fun i r hr hid hfirst => ?_⟩⟩
  rw [intake_of_bound hr hid hfirst]
  refine ⟨fun hout => ?_, fun hin => ⟨fun id e last hl hlate => ?_, fun hok => ?_⟩⟩
  · rw [judgeSlice_range (mt inRange_iff.1 hout), modifySlot_eq _ hr]
    rfl
  · have hj : r.link.judge x = .late := (judge_late hid).2 (by rw [hl]; exact hlate)
    rw [judgeSlice_late (inRange_iff.2 hin) hj, modifySlot_eq _ hr]
    rfl
  have hlt : r.link.distanceOf x < 224 := by
    cases hl : r.link with
    | live id e last => exact hok id e last hl
    | unbound | waiting | stalled => exact Nat.succ_pos _
  have hj : r.link.judge x ≠ .late := fun h => Nat.not_le.2 hlt ((judge_late hid).1 h)
  rw [judgeSlice_accepted (inRange_iff.2 hin) hj]
  have hframe := (evaluates_accepted i r x s).trans (evaluates_handedOn i x (s.accepted i r x))
  have hclock := hframe.clock
  refine ⟨r.taken x s.clock.tickCount, slots_accepted_handOn hr, (taken_link ..).trans (accept_link _ _ hid),
    taken_latest .., taken_energy .., ?_, ?_, ?_, ?_, ?_, fun d hd => ?_, ?_⟩
  · rw [taken_counters, judged_whole]; rfl
  · rw [taken_counters, judged_whole]; rfl
  · rw [taken_counters, judged_whole]; rfl
  · rw [taken_counters, judged_whole]; rfl
  · rw [taken_counters, judged_whole]; rfl
  · obtain rfl : d = r.link.distanceOf x := by
      rw [hd]
      cases r.link <;> rfl
    refine ⟨?_, ?_, fun hres => ?_, s.accepted i r x, rfl, ?_⟩
    · rw [taken_counters]
      exact judged_missing hid _
    · rw [taken_counters]
      exact judged_resyncs hid hlt _
    · rw [handOn_eq]
      have hu := accepted_resync hr ((judge_resync hid hlt).2 hres)
      exact (evaluates_handedOn i x _).notified (hu ▸ (evaluates_resyncWindows i _).notified (notified_raise _ _))
    · intro p hp
      obtain rfl : p = r.accept x (r.link.judge x) s.clock.tickCount := by
        rw [hp, taken_link, taken_counters]
        rfl
      refine ⟨fun hd => accepted_plain hr fun hj => ?_, fun hres => ?_⟩
      · exact Nat.not_le.2 hd ((judge_resync hid hlt).1 hj)
      · exact ⟨_, notified_raise _ _, rfl, accepted_resync hr ((judge_resync hid hlt).2 hres)⟩
  · rw [handOn_eq]
    exact ⟨hframe.clock, hframe.schedule, hframe.table, hframe.lines, hframe.cadence, hframe.held⟩

/-! ### A resync's demand on the windows (R82) -/

/-- The order of two pairs within a group: by index, then by slot. -/
def PairBefore (p q : Nat × LimitEntry × Nat) : Prop := p.1 < q.1 ∨ p.1 = q.1 ∧ p.2.2 < q.2.2

theorem pairs_ascend {es : List (Nat × LimitEntry)} (h : es.Pairwise (fun a b => a.1 < b.1)) :
    (es.flatMap entryPairs).Pairwise PairBefore := by
  rw [List.pairwise_flatMap]
  refine ⟨fun x _ => ?_, h.imp fun {x y} hxy p hp q hq => ?_⟩
  · rw [entryPairs, List.pairwise_map]
    exact ((List.pairwise_lt_range).filter _).imp fun hlt => Or.inr ⟨rfl, hlt⟩
  · obtain ⟨_, _, rfl⟩ := List.mem_map.1 hp
    obtain ⟨_, _, rfl⟩ := List.mem_map.1 hq
    exact Or.inl hxy

theorem pairsWhere_ascend (keep : LimitEntry → Nat → Bool) (s : State) : (s.pairsWhere keep).Pairwise PairBefore :=
  (pairs_ascend (entries_ascend _)).filter _

/-- Work on one pair at a time that gives its unit new contents, each from its present ones, at an unchanged clock. -/
def ActsOnUnits (ps : List (Nat × LimitEntry × Nat)) (f : State → Nat × LimitEntry × Nat → State)
    (g : LimitEntry → Acc → Acc) (c : Clock) : Prop :=
  ∀ (s : State) (p : Nat × LimitEntry × Nat), p ∈ ps → s.clock = c →
    f s p = { s with windows := { s.windows with units := (f s p).windows.units } } ∧
    ∀ j n, (f s p).windows.unitAt j n = if p.1 = j ∧ p.2.2 = n
      then (s.windows.unitAt j n).map (fun u => ⟨u.histogram, g p.2.1 u.acc⟩) else s.windows.unitAt j n

/-- What such work over ascending pairs leaves: each unit changed once, the others as they were. -/
theorem foldl_units {f : State → Nat × LimitEntry × Nat → State} {g : LimitEntry → Acc → Acc} {c : Clock}
    {ps : List (Nat × LimitEntry × Nat)} (hf : ActsOnUnits ps f g c) (hp : ps.Pairwise PairBefore) {s : State}
    (hc : s.clock = c) :
    ps.foldl f s = { s with windows := { s.windows with units := (ps.foldl f s).windows.units } } ∧
      (∀ p, p ∈ ps → (ps.foldl f s).windows.unitAt p.1 p.2.2 =
        (s.windows.unitAt p.1 p.2.2).map (fun u => ⟨u.histogram, g p.2.1 u.acc⟩)) ∧
      ∀ j n, (∀ p, p ∈ ps → ¬(p.1 = j ∧ p.2.2 = n)) → (ps.foldl f s).windows.unitAt j n = s.windows.unitAt j n := by
  induction ps generalizing s with
  | nil => exact ⟨rfl, fun p h => absurd h List.not_mem_nil, fun _ _ _ => rfl⟩
  | cons p ps ih =>
    obtain ⟨hfirst, hrest⟩ := List.pairwise_cons.1 hp
    obtain ⟨hwhole, hunit⟩ := hf s p List.mem_cons_self hc
    have hc' : (f s p).clock = c := by rw [hwhole]; exact hc
    obtain ⟨iwhole, imem, iother⟩ := ih (fun s q hq => hf s q (List.mem_cons_of_mem _ hq)) hrest hc'
    have hapart : ∀ q, q ∈ ps → ¬(q.1 = p.1 ∧ q.2.2 = p.2.2) := by
      rintro q hq ⟨h1, h2⟩
      rcases hfirst q hq with hlt | ⟨_, hlt⟩ <;> omega
    rw [List.foldl_cons]
    refine ⟨?_, fun q hq => ?_, fun j n hno => ?_⟩
    · generalize ps.foldl f (f s p) = t at iwhole ⊢
      rw [iwhole]
      conv_lhs => rw [hwhole]
    · rcases List.mem_cons.1 hq with rfl | hq'
      · rw [iother _ _ hapart, hunit, if_pos ⟨rfl, rfl⟩]
      · rw [imem q hq', hunit, if_neg fun h => hapart q hq' ⟨h.1.symm, h.2.symm⟩]
    · rw [iother j n fun q hq => hno q (List.mem_cons_of_mem _ hq), hunit, if_neg (hno p List.mem_cons_self)]

theorem unitAt_setAcc_of (i slot : Nat) (h : Acc → Acc) (s : State) (j n : Nat) :
    (s.setAcc i slot (h (s.windows.accAt i slot))).windows.unitAt j n = if i = j ∧ slot = n
      then (s.windows.unitAt j n).map (fun u => ⟨u.histogram, h u.acc⟩) else s.windows.unitAt j n := by
  rw [unitAt_setAcc]
  by_cases he : i = j ∧ slot = n
  · obtain ⟨rfl, rfl⟩ := he
    rw [if_pos ⟨rfl, rfl⟩, if_pos ⟨rfl, rfl⟩]
    cases hu : s.windows.unitAt i slot with
    | none => rfl
    | some u => simp [WindowEngine.accAt, hu]
  · rw [if_neg he, if_neg he]

theorem accAt_of_map {w x : WindowEngine} {i slot : Nat} {h : Acc → Acc} (hidle : h .idle = .idle)
    (hu : x.unitAt i slot = (w.unitAt i slot).map (fun u => ⟨u.histogram, h u.acc⟩)) :
    x.accAt i slot = h (w.accAt i slot) := by
  unfold WindowEngine.accAt
  rw [hu]
  cases w.unitAt i slot with
  | none => exact hidle.symm
  | some u => rfl

theorem mem_slotPairs {slot : Nat} {s : State} {p : Nat × LimitEntry × Nat}
    (h : p ∈ s.pairsWhere (fun _ n => n == slot)) : p.2.2 = slot := beq_iff_eq.1 (mem_pairsWhere.1 h).2.2

/-- Work on the units of a slot. -/
theorem slotUnits_act {slot : Nat} {s : State} {g : LimitEntry → Acc → Acc} {c : Clock} :
    ActsOnUnits (s.pairsWhere (fun _ n => n == slot))
      (fun s' p => s'.setAcc p.1 slot (g p.2.1 (s'.windows.accAt p.1 slot))) g c := by
  intro x p hp _
  refine ⟨rfl, fun j n => ?_⟩
  rw [mem_slotPairs hp]
  exact unitAt_setAcc_of _ _ (g p.2.1) _ _ _

theorem slotPairs_foldl {slot : Nat} {s : State} {g : LimitEntry → Acc → Acc} {t : State} (hidle : ∀ e, g e .idle = .idle)
    (ht : t = (s.pairsWhere (fun _ n => n == slot)).foldl
      (fun s' p => s'.setAcc p.1 slot (g p.2.1 (s'.windows.accAt p.1 slot))) s) :
    t = { s with windows := { s.windows with units := t.windows.units } } ∧
      (∀ i e, s.table.active.at i = some e → e.slots.getLsbD slot = true →
        t.windows.accAt i slot = g e (s.windows.accAt i slot)) ∧
      ∀ j n, n ≠ slot → t.windows.unitAt j n = s.windows.unitAt j n := by
  obtain ⟨hwhole, hmem, hother⟩ := foldl_units (slotUnits_act (slot := slot) (s := s) (g := g)) (pairsWhere_ascend _ s) rfl
  rw [← ht] at hwhole hmem hother
  refine ⟨hwhole, fun i e he hslot => ?_, fun j n hn => hother j n fun p hp h => hn (h.2.symm.trans (mem_slotPairs hp))⟩
  exact accAt_of_map (hidle e) (hmem (i, e, slot) (mem_pairsWhere.2 ⟨he, hslot, beq_self_eq_true _⟩))

theorem resyncWindows_of {slot : Nat} (s : State) :
    s.resyncWindows slot = { s with windows := { s.windows with units := (s.resyncWindows slot).windows.units } } ∧
      (∀ i e, s.table.active.at i = some e → e.slots.getLsbD slot = true →
        (s.resyncWindows slot).windows.accAt i slot = (s.windows.accAt i slot).resync e s.now) ∧
      ∀ j n, n ≠ slot → (s.resyncWindows slot).windows.unitAt j n = s.windows.unitAt j n :=
  slotPairs_foldl (g := fun e => Acc.resync e s.now) (fun _ => rfl) rfl

/-- The slice's energy and level given to the episodes and the account of its slot. -/
theorem gained_eq {slot : Nat} {x : Slice} {s w : State} (h : s = w) :
    (s.gainSlice slot x).modifySlot slot (SlotRecord.gainSlice x) = { w with
      slots := w.slots.modify slot (fun r => { r with energy := r.energy.add x.level, latest := some x.level })
      episodes := { w.episodes with current := w.episodes.current.map (fun e =>
        if e.slot = slot then
          { e with energy := e.energy.add x.level, suspect := e.suspect || x.overload } else e) } } := h ▸ rfl

/-- Settles O29: the accumulators, the SLICE evaluations, the episodes and the account; a resync on the windows. -/
theorem sliceHandedOn : Obligations.SliceHandedOn := by
  unfold Obligations.SliceHandedOn
  refine ⟨fun slot x s => ⟨fun hc => if_pos hc, fun hc => ⟨_, rfl, ?_⟩⟩, fun slot i s e he hslot => ?_⟩
  · have hno : ¬x.calibrating = true := by rw [hc]; exact Bool.false_ne_true
    have hclock := (evaluates_integrate slot x s).clock
    have hnow : (s.integrate slot x).now = s.now := congrArg Clock.now hclock
    rw [State.handOn, if_neg hno]
    refine gained_eq ?_
    rw [State.evaluateSlice, hclock, hnow]
    refine congrArg (fun f => List.foldl f (s.integrate slot x) _) (funext fun w => funext fun p => ?_)
    exact congrArg (fun r => w.evaluate p.1 slot p.2.1 r false) rfl
  obtain ⟨hwhole, hacc, hother⟩ := resyncWindows_of (slot := slot) s
  refine ⟨_, rfl, hwhole, ?_, ?_, ?_, hother⟩
  · intro w hw
    rw [hacc i e he hslot, hw]
    rfl
  · intro steps step k hring hwin
    rw [hacc i e he hslot, hring, Acc.resync, LimitEntry.openAcc, hwin]
    rfl
  · intro hidle
    rw [hacc i e he hslot, hidle]
    rfl

end Sys2Proof.Machine

/-! SET TIME, START TIME and TRIM: the clock loaded and started, with the band change and the windows it makes. -/

namespace Sys2Proof.Machine

/-! ### A band change while nothing runs -/

theorem foldl_same {α β : Type} {f : β → α → β} {b : β} {xs : List α} (h : ∀ a, f b a = b) : xs.foldl f b = b := by
  induction xs with
  | nil => rfl
  | cons a xs ih => rw [List.foldl_cons, h, ih]

theorem openIdle_of_closed {minute : Bool} {p : Nat × LimitEntry × Nat} {s : State} (h : s.opensNow p.2.1 = false) :
    s.openIdle minute p = s := by
  unfold State.openIdle
  cases s.windows.accAt p.1 p.2.2 with
  | idle => exact if_neg (by rw [h]; exact Bool.false_ne_true)
  | window t => rfl
  | ring steps => rfl

theorem opensNow_stopped {e : LimitEntry} {s : State} (h : s.clock.running = false) : s.opensNow e = false := by
  rw [State.opensNow, h, Bool.and_false]

theorem bandWindow_idle {old : Nat} {minute : Bool} {p : Nat × LimitEntry × Nat} {s : State}
    (h : s.windows.accAt p.1 p.2.2 = .idle) :
    s.bandWindow old minute p = if p.2.1.activeIn old then s else s.openIdle minute p := by
  unfold State.bandWindow
  rw [h]
  cases p.2.1.window <;> rfl

theorem bandWindows_idle {old : Nat} {minute : Bool} {s : State} (h : ∀ i slot, s.windows.accAt i slot = .idle)
    (hrun : s.clock.running = false) : s.bandWindows old minute = s := by
  refine foldl_same fun p => ?_
  rw [bandWindow_idle (h p.1 p.2.2), openIdle_of_closed (opensNow_stopped hrun), ite_self]

theorem bandNow_stopped {s : State} (h : s.clock.running = false) : s.bandNow = 15 := by
  rw [State.bandNow, h]
  rfl

/-- The plant monitor after a band change: its run accounts begin anew. -/
def PlantMonitor.bandChanged (m : Moment) (p : PlantMonitor) : PlantMonitor :=
  { p with lines := p.lines.map (fun l => { l with bandRun := 0 }), bandStart := m }

/-- The state under another clock. -/
def State.atClock (c : Clock) (s : State) : State := { s with clock := c }

theorem decideBand_stopped {s : State} (h : ∀ i slot, s.windows.accAt i slot = .idle)
    (hrun : s.clock.running = false) (hnone : s.episodes.current = []) :
    s.decideBand false false = { s with
      clock := { s.clock with band := 15 }
      plant := if s.clock.band = 15 then s.plant else s.plant.bandChanged s.now } := by
  unfold State.decideBand
  rw [bandNow_stopped hrun]
  by_cases hb : s.clock.band = 15
  · rw [if_pos hb.symm, if_pos hb, ← hb]
  · rw [if_neg (Ne.symm hb), if_neg hb, State.bandEvent, if_neg Bool.false_ne_true]
    obtain ⟨x, hx⟩ : ∃ x : State, x = s.atClock { s.clock with band := 15 } := ⟨_, rfl⟩
    have hwindows : x.bandWindows s.clock.band false = x := by
      rw [hx]
      exact bandWindows_idle h hrun
    have hepisodes : x.bandEpisodes = x := by
      rw [hx]
      exact demandClose_of_none hnone
    show ((State.bandWindows s.clock.band false (s.atClock { s.clock with band := 15 })).bandEpisodes).bandPlant = _
    rw [← hx, hwindows, hepisodes, hx]
    rfl

theorem accAt_discardWindows (s : State) (i slot : Nat) : s.discardWindows.windows.accAt i slot = .idle := by
  unfold WindowEngine.accAt
  rw [unitAt_discardWindows]
  cases s.windows.unitAt i slot <;> rfl

/-- What an accepted SET TIME leaves behind its closure demand. -/
theorem loadTime_eq {day eighth weekday : Nat} {s y : State}
    (hy : (s.atClock (s.clock.load day eighth weekday)).demandClose (fun _ => true) .timeSet = y) :
    s.loadTime day eighth weekday = State.raise .clockStopped { y with
      clock := { y.clock with band := 15 }
      windows := y.discardWindows.windows
      plant := if y.clock.band = 15 then y.plant else y.plant.bandChanged y.now } := by
  have hcurrent : y.episodes.current = [] := hy ▸ current_demandClose_all _ _
  have hclock : y.clock = s.clock.load day eighth weekday := hy ▸ (closed_demandClose _ _ _).clock
  show State.raise .clockStopped (((s.atClock (s.clock.load day eighth weekday)).demandClose (fun _ => true)
    .timeSet).discardWindows.decideBand false false) = _
  rw [hy, decideBand_stopped (s := y.discardWindows) (accAt_discardWindows y)
    (show y.clock.running = false by rw [hclock]; rfl) hcurrent]
  rfl

theorem verdictsOf_all (r : CloseReason) (s : State) :
    s.verdictsOf (fun _ => true) r = s.episodes.current.map (fun e => e.verdict s.table.active r s.now) := by
  rw [State.verdictsOf, List.filter_true]

theorem weekday_offset {day weekday : Nat} (h : weekday ≤ 6) :
    offsetFor day weekday < 7 ∧ (day + offsetFor day weekday) % 7 = weekday := by
  unfold offsetFor
  omega

/-- The time set: the episodes have left under the loaded clock, their verdicts are offered, and then the windows,
the band and the plant monitor follow. -/
theorem loadTime_moved {day eighth weekday : Nat} {w : State} {vs : List Verdict}
    (hvs : vs = w.episodes.current.map (fun e => e.verdict w.table.active .timeSet
      ⟨⟨day, eighth, .stopped⟩, w.clock.tickCount⟩)) :
    ∃ x : State, (w.atClock (w.clock.load day eighth weekday)).Leaves (fun _ => true) x ∧
      w.loadTime day eighth weekday = State.raise .clockStopped { x.offerEach vs with
        clock := { x.clock with band := 15 }
        windows := w.discardWindows.windows
        plant := if w.clock.band = 15 then w.plant
          else w.plant.bandChanged ⟨⟨day, eighth, .stopped⟩, w.clock.tickCount⟩ } := by
  obtain ⟨x, hx, hclose⟩ := demandClose_eq (named := fun _ => true) (fun _ _ _ _ => rfl) .timeSet
    (w.atClock (w.clock.load day eighth weekday))
  rw [show (w.atClock (w.clock.load day eighth weekday)).verdictsOf (fun _ => true) .timeSet = vs from
    (verdictsOf_all _ _).trans hvs.symm] at hclose
  refine ⟨x, hx, (loadTime_eq hclose).trans ?_⟩
  have hclosed := closed_offerEach vs x
  have hclock := hclosed.clock
  have hwindows : (x.offerEach vs).windows = w.windows := hclosed.windows.trans (by rw [hx.whole]; rfl)
  have hplant : (x.offerEach vs).plant = w.plant := hclosed.plant.trans (by rw [hx.whole]; rfl)
  have hband : x.clock = w.clock.load day eighth weekday := by rw [hx.whole]; rfl
  rw [hplant, State.now, hclock, hband]
  refine congrArg (fun units => State.raise .clockStopped { x.offerEach vs with
    clock := _, plant := _, windows := units }) ?_
  unfold State.discardWindows
  rw [hwindows]

/-- Settles O43: the checks, then the five steps of an accepted SET TIME. -/
theorem setTime : Obligations.SetTime := by
  unfold Obligations.SetTime
  refine ⟨fun s => ⟨rfl, rfl, rfl⟩, fun s v day eighth weekday u h hday height hweekday hu => ?_⟩
  have ht : exec .setTime s = .next (v.finish (setTimeBody (day, eighth, weekday) v.modifiers u)) := by
    subst hday height hweekday hu
    exact congrArg Host.Outcome.next (takeItem_fixed h h.form)
  rw [ht, setTimeBody]
  refine ⟨fun hbad => ?_, fun he hw hany hcert => ?_, fun he hwk hok w hw => ?_⟩
  · rw [if_pos ?_, finish_refuse]
    exact hbad.imp_left Nat.succ_le_of_lt
  · rw [if_neg (by simp only [Config.eighthsPerDay]; omega), if_pos (denied_analysis hany hcert), finish_refuse]
  rw [if_neg (by simp only [Config.eighthsPerDay]; omega), if_neg (allowed_analysis hok)]
  have hfinish : u.finishStamped = w := hw.symm
  rw [hfinish]
  obtain ⟨vs, hvs⟩ : ∃ vs, vs = w.episodes.current.map (fun e => e.verdict w.table.active .timeSet
    ⟨⟨day, eighth, .stopped⟩, w.clock.tickCount⟩) := ⟨_, rfl⟩
  obtain ⟨x, ⟨hwhole, hidle, hfollows⟩, hload⟩ := loadTime_moved (weekday := weekday) hvs
  have hnone : (w.atClock (w.clock.load day eighth weekday)).episodes.current.filter (fun _ => !true) = [] :=
    List.filter_eq_nil_iff.2 fun _ _ => by decide
  rw [hnone] at hwhole
  have hxclock : x.clock = w.clock.load day eighth weekday := by rw [hwhole]; rfl
  have hmoved := offerEach_on (base := x.atClock { x.clock with band := 15 }) (s := x) rfl rfl vs
  have hself := offerEach_eq_offering vs x
  rw [← hvs]
  generalize x.offerEach vs = y at hload hmoved hself
  generalize w.loadTime day eighth weekday = t at hload ⊢
  have htold : State.Told _ t := hload ▸ told_raise _ _
  have hclock : t.clock = { x.clock with band := 15 } := htold.clock
  have hbeacons : t.beacons = x.beacons := htold.beacons.trans (by rw [hself]; rfl)
  have hwindows : t.windows = w.discardWindows.windows := htold.windows
  have hplant : t.plant = if w.clock.band = 15 then w.plant
    else w.plant.bandChanged ⟨⟨day, eighth, .stopped⟩, w.clock.tickCount⟩ := htold.plant
  have hcurrent : t.episodes.current = [] :=
    (congrArg EpisodeTable.current htold.episodes).trans (by rw [hself, hwhole]; rfl)
  have htable : t.table = w.table := htold.table.trans (by rw [hself, hwhole]; rfl)
  refine ⟨x.atClock { x.clock with band := 15 }, t, rfl, hload ▸ notified_raise _ _, ?_, ?_, fun hnil => ?_,
    fun hne i b hb => ?_, ?_, ?_, ?_, hcurrent, ?_, ?_, ?_, fun i slot => ?_, ?_, ?_, htable, ?_, ?_, hplant⟩
  · rw [hclock, hbeacons, hxclock]
    conv_lhs => rw [hwhole]
    rfl
  · rw [hwindows, hplant, hload, hmoved]
    conv_lhs => rw [hself]
    rfl
  · rw [hbeacons, hidle fun e he => absurd ((show w.episodes.current = [] from hnil) ▸ he) List.not_mem_nil]
    rfl
  · obtain ⟨e, he⟩ := List.exists_mem_of_ne_nil _ hne
    rw [hbeacons, hfollows ⟨e, he, rfl⟩ i b hb]
    refine congrArg (fun l : List Nat => some (b.follow (!l.isEmpty))) (demand_congr ?_ ?_ i)
    · rw [hcurrent, hwhole]
    · rw [htable, hwhole]; rfl
  · rw [hclock, hxclock]
    rfl
  · rw [hclock, hxclock]
    exact (weekday_offset hwk).1
  · rw [hclock, hxclock]
    exact (weekday_offset hwk).2
  · exact (congrArg EpisodeTable.next htold.episodes).trans (by rw [hself, hwhole]; rfl)
  · exact (congrArg EpisodeTable.uncaptured htold.episodes).trans (by rw [hself, hwhole]; rfl)
  · rw [hwindows]
    rfl
  · rw [hwindows, unitAt_discardWindows]
  · exact htold.schedule.trans (by rw [hself, hwhole]; rfl)
  · exact htold.slots.trans (by rw [hself, hwhole]; rfl)
  · exact htold.cadence.trans (by rw [hself, hwhole]; rfl)
  · exact htold.held.trans (by rw [hself, hwhole]; rfl)

/-! ### What a band decision keeps -/

theorem windows_evaluate (i slot : Nat) (e : LimitEntry) (r : Reading) (closing : Bool) (s : State) :
    (s.evaluate i slot e r closing).windows = (s.setCell i slot ((s.windows.cellAt i slot).after e r
      (e.rawOutcome r (s.windows.cellAt i slot).previous (s.referenceValue e slot)))).windows := by
  unfold State.evaluate
  extract_lets cell reference raw final s1 s2
  have h2 : s2.windows = s1.windows := by
    unfold s2
    split
    · exact (judges_applyOutcome _ _).windows
    · rfl
  split
  · exact (told_offer _ _).windows.trans h2
  · exact h2

theorem kinds_evaluate (i slot : Nat) (e : LimitEntry) (r : Reading) (closing : Bool) (s : State) :
    (s.evaluate i slot e r closing).windows.kinds = s.windows.kinds := by
  rw [windows_evaluate]
  rfl

theorem kinds_openIdle (minute : Bool) (p : Nat × LimitEntry × Nat) (s : State) :
    (s.openIdle minute p).windows.kinds = s.windows.kinds := by
  unfold State.openIdle
  split
  · split
    · exact kinds_setAcc _ _ _ _
    · rfl
  · rfl

theorem kinds_bandWindow (old : Nat) (minute : Bool) (p : Nat × LimitEntry × Nat) (s : State) :
    (s.bandWindow old minute p).windows.kinds = s.windows.kinds := by
  unfold State.bandWindow
  extract_lets now active
  split
  · exact (kinds_evaluate _ _ _ _ _ _).trans (kinds_setAcc _ _ _ _)
  · split
    · rfl
    · split
      · exact kinds_setAcc _ _ _ _
      · exact (kinds_evaluate _ _ _ _ _ _).trans (kinds_setAcc _ _ _ _)
  · split
    · rfl
    · exact kinds_setAcc _ _ _ _
  · split
    · rfl
    · exact kinds_openIdle _ _ _
  · rfl

theorem kinds_bandWindows (old : Nat) (minute : Bool) (s : State) :
    (s.bandWindows old minute).windows.kinds = s.windows.kinds := by
  unfold State.bandWindows
  generalize s.evaluationPairs [old, s.clock.band] = ps
  induction ps generalizing s with
  | nil => rfl
  | cons p ps ih => exact (ih _).trans (kinds_bandWindow _ _ _ _)

/-- The two parts of a band-change event whose order is a choice. -/
def State.bandParts (old : Nat) (minute first : Bool) (s : State) : State :=
  if first then s.bandEpisodes.bandWindows old minute else (s.bandWindows old minute).bandEpisodes

theorem bandEvent_eq (old : Nat) (minute first : Bool) (s : State) :
    s.bandEvent old minute first = (s.bandParts old minute first).bandPlant := by
  unfold State.bandEvent State.bandParts
  split <;> rfl

theorem evaluates_bandParts (old : Nat) (minute first : Bool) (s : State) : Evaluates s (s.bandParts old minute first) := by
  unfold State.bandParts
  split
  · exact (judges_demandClose _ _ _).evaluates.trans (evaluates_bandWindows _ _ _)
  · exact (evaluates_bandWindows _ _ _).trans (judges_demandClose _ _ _).evaluates

theorem kinds_bandParts (old : Nat) (minute first : Bool) (s : State) :
    (s.bandParts old minute first).windows.kinds = s.windows.kinds := by
  unfold State.bandParts
  split
  · exact (kinds_bandWindows _ _ _).trans (congrArg _ (judges_demandClose _ _ _).windows)
  · exact (congrArg _ (judges_demandClose _ _ _).windows).trans (kinds_bandWindows _ _ _)

theorem decideBand_of_same {minute first : Bool} {s : State} (h : s.bandNow = s.clock.band) :
    s.decideBand minute first = s := if_pos h

theorem decideBand_of_changed {minute first : Bool} {s : State} (h : s.bandNow ≠ s.clock.band) :
    s.decideBand minute first =
      ((s.atClock { s.clock with band := s.bandNow }).bandParts s.clock.band minute first).bandPlant :=
  (if_neg h).trans (bandEvent_eq ..)

/-- What a band decision leaves unchanged. -/
structure State.BandKept (s t : State) : Prop where
  clock    : t.clock = { s.clock with band := s.bandNow }
  schedule : t.schedule = s.schedule
  slots    : t.slots = s.slots
  table    : t.table = s.table
  cadence  : t.cadence = s.cadence
  held     : t.held = s.held
  kinds    : t.windows.kinds = s.windows.kinds

theorem bandKept_decideBand (minute first : Bool) (s : State) : s.BandKept (s.decideBand minute first) := by
  by_cases h : s.bandNow = s.clock.band
  · rw [decideBand_of_same h]
    exact ⟨by rw [h], rfl, rfl, rfl, rfl, rfl, rfl⟩
  · rw [decideBand_of_changed h]
    have he := evaluates_bandParts s.clock.band minute first (s.atClock { s.clock with band := s.bandNow })
    exact ⟨he.clock, he.schedule, he.slots, he.table, he.cadence, he.held, kinds_bandParts ..⟩

/-- The band the rule gives does not depend on the band held. -/
theorem State.BandKept.bandNow {s t : State} (h : s.BandKept t) : t.bandNow = s.bandNow := by
  unfold State.bandNow State.dayType
  rw [h.clock, h.schedule]
  rfl

theorem isSome_of_kinds {w x : WindowEngine} (h : x.kinds = w.kinds) (i slot : Nat) :
    (x.unitAt i slot).isSome = (w.unitAt i slot).isSome := by
  rw [← Option.isSome_map (f := PoolUnit.histogram), unitAt_kind, h, ← unitAt_kind, Option.isSome_map]

/-! ### Opening at the start of the clock -/

/-- The contents of an accumulator after an opening: an IDLE one opens where windows of the entry open now. -/
def LimitEntry.opened (e : LimitEntry) (m : Moment) (minute opens : Bool) (a : Acc) : Acc :=
  if a = .idle ∧ opens = true then e.openAcc m minute else a

theorem openIdle_eq (minute : Bool) (p : Nat × LimitEntry × Nat) (s : State) :
    s.openIdle minute p = if s.windows.accAt p.1 p.2.2 = .idle ∧ s.opensNow p.2.1 = true
      then s.setAcc p.1 p.2.2 (p.2.1.openAcc s.now minute) else s := by
  unfold State.openIdle
  cases ha : s.windows.accAt p.1 p.2.2 with
  | idle => simp
  | window t => rfl
  | ring steps => rfl

theorem openIdles_act (minute : Bool) (ps : List (Nat × LimitEntry × Nat)) (c : Clock) :
    ActsOnUnits ps (fun s p => s.openIdle minute p)
      (fun e => e.opened c.now minute (e.activeIn c.band && c.running)) c := by
  intro s p _ hc
  subst hc
  simp only [openIdle_eq]
  refine ⟨?_, fun j n => ?_⟩
  · split <;> rfl
  · by_cases he : p.1 = j ∧ p.2.2 = n
    · obtain ⟨rfl, rfl⟩ := he
      cases hu : s.windows.unitAt p.1 p.2.2 with
      | none => split <;> simp [unitAt_setAcc, hu]
      | some u =>
        have hacc : s.windows.accAt p.1 p.2.2 = u.acc := by rw [WindowEngine.accAt, hu]
        rw [hacc]
        by_cases hopen : u.acc = .idle ∧ s.opensNow p.2.1 = true
        · rw [if_pos hopen, unitAt_setAcc, if_pos ⟨rfl, rfl⟩, if_pos ⟨rfl, rfl⟩, hu]
          exact congrArg (fun a => some (PoolUnit.mk u.histogram a)) (if_pos hopen).symm
        · rw [if_neg hopen, if_pos ⟨rfl, rfl⟩, hu]
          exact congrArg (fun a => some (PoolUnit.mk u.histogram a)) (if_neg hopen).symm
    · rw [if_neg he]
      split
      · rw [unitAt_setAcc, if_neg he]
      · rfl

theorem openAcc_ne_idle {e : LimitEntry} (h : e.window ≠ .slice) (m : Moment) (minute : Bool) : e.openAcc m minute ≠ .idle := by
  unfold LimitEntry.openAcc
  cases hw : e.window with
  | slice => exact absurd hw h
  | fixed | band | rolling => exact nofun

/-- Settles O44: what opens, the checks of START TIME, its band decision and openings, and TRIM. -/
theorem startTimeAndTrim : Obligations.StartTimeAndTrim := by
  unfold Obligations.StartTimeAndTrim
  refine ⟨fun e m minute begun hb => ⟨?_, ?_, ?_, ?_, fun _ => rfl, fun c => ?_⟩, fun s v u h hu => ?_, fun s v trim u h htrim hu => ?_⟩
  · intro hw
    rw [LimitEntry.openAcc, hw]
  · intro n hw
    rw [LimitEntry.openAcc, hw, hb]
    rfl
  · intro hw
    rw [LimitEntry.openAcc, hw, hb]
    rfl
  · intro step k hw
    rw [LimitEntry.openAcc, hw, hb]
    rfl
  · simp [Clock.running]
  · have ht : exec .startTime s = .next (v.finish (startTimeBody () v.modifiers u)) := by
      subst hu
      exact congrArg Host.Outcome.next (takeItem_fixed h h.form)
    rw [ht, startTimeBody]
    refine ⟨fun hunset => ?_, fun hset hany hcert => ?_, fun hrun hok => ?_, fun hstop hok w hw => ?_⟩
    · rw [hunset]
      rfl
    · have hden := denied_analysis hany hcert
      cases hc : u.clock.state with
      | unset => exact absurd hc hset
      | stopped => simp only [if_pos hden]; rfl
      | running => simp only [if_pos hden]; rfl
    · simp only [hrun, if_neg (allowed_analysis hok)]
      rfl
    · have hfinish : u.finishStamped = w := hw.symm
      simp only [hstop, if_neg (allowed_analysis hok), hfinish]
      obtain ⟨x, hx⟩ : ∃ x, x = State.decideBand false false { w with clock := { w.clock with state := .running } } := ⟨_, rfl⟩
      have hdec : State.BandKept _ x := hx ▸ bandKept_decideBand _ _ _
      have hbandNow : x.bandNow = x.clock.band := hdec.bandNow.trans (congrArg Clock.band hdec.clock).symm
      have hrunning : x.clock.running = true := by rw [hdec.clock]; rfl
      obtain ⟨hwhole, hmem, hother⟩ := foldl_units (openIdles_act false (x.pairsWhere (fun _ _ => true)) x.clock)
        (pairsWhere_ascend _ x) rfl
      have hstart : w.startClock = (x.pairsWhere (fun _ _ => true)).foldl (fun s p => s.openIdle false p) x := by
        rw [hx]
        rfl
      rw [← hstart] at hwhole hmem hother
      generalize w.startClock = t at hwhole hmem hother ⊢
      have hclock : t.clock = x.clock := by rw [hwhole]
      have htable : t.table = x.table := by rw [hwhole]
      have hunit : ∀ i e slot a, x.table.active.at i = some e → e.slots.getLsbD slot = true →
          x.windows.unitAt i slot = some a → t.windows.unitAt i slot = some ⟨a.histogram,
            if a.acc = .idle ∧ e.bands.getLsbD t.clock.band = true then e.openAcc t.now false else a.acc⟩ := by
        intro i e slot a he hs ha
        rw [hmem (i, e, slot) (mem_pairsWhere.2 ⟨he, hs, rfl⟩), State.now, hclock]
        show (x.windows.unitAt i slot).map _ = _
        rw [ha, hrunning, Bool.and_true]
        rfl
      refine ⟨x, t, rfl, hx, hwhole, ?_, ?_, ?_, ?_, ?_, ?_, ?_, ?_, ?_⟩
      · have hsame : t.bandNow = x.bandNow := by rw [hwhole]; rfl
        rw [hsame, hbandNow, hclock, hdec.clock]
      · rw [htable]
        exact hunit
      · intro i slot hno
        refine hother i slot fun p hp hat => ?_
        obtain ⟨hpat, hpslot, _⟩ := mem_pairsWhere.1 hp
        rw [← htable, hat.1] at hpat
        rw [hat.2, hno _ hpat] at hpslot
        exact Bool.false_ne_true hpslot
      · intro i e slot he hs hw hact hsome
        obtain ⟨a, ha⟩ := Option.isSome_iff_exists.1 ((isSome_of_kinds hdec.kinds i slot).trans hsome)
        rw [WindowEngine.accAt, hunit i e slot a (htable ▸ he) hs ha]
        show (if _ then _ else _) ≠ _
        by_cases hidle : a.acc = .idle
        · rw [if_pos ⟨hidle, hact⟩]
          exact openAcc_ne_idle hw _ _
        · rw [if_neg fun hc => hidle hc.1]
          exact hidle
      · rw [hwhole]; exact hdec.schedule
      · rw [hwhole]; exact hdec.slots
      · rw [hwhole]; exact hdec.table
      · rw [hwhole]; exact hdec.cadence
      · rw [hwhole]; exact hdec.held
  · subst htrim hu
    refine congrArg Host.Outcome.next ((takeItem_fixed h h.form).trans ?_)
    rw [trimBody, finish_ite, finish_ite]
    rfl

end Sys2Proof.Machine

/-! Evaluations: the cell, the outcome handed on and the record offered. -/

namespace Sys2Proof.Machine

/-! ### The evaluation in its steps (R85) -/

/-- What an evaluation leaves in its result cell. -/
def State.withCell (i slot : Nat) (e : LimitEntry) (r : Reading) (s : State) : State :=
  s.setCell i slot ((s.windows.cellAt i slot).after e r
    (e.rawOutcome r (s.windows.cellAt i slot).previous (s.referenceValue e slot)))

/-- The final outcome of an evaluation. -/
def State.finalOutcome (i slot : Nat) (e : LimitEntry) (r : Reading) (s : State) : TestOutcome :=
  (e.rawOutcome r (s.windows.cellAt i slot).previous (s.referenceValue e slot)).negated e.negate

/-- The outcome handed to the episode table. -/
def State.withOutcome (i slot : Nat) (e : LimitEntry) (r : Reading) (closing : Bool) (s : State) : State :=
  if e.action.episodes then
    (s.withCell i slot e r).applyOutcome (handedOf i slot e r (s.finalOutcome i slot e r) closing)
  else s.withCell i slot e r

theorem evaluate_eq (i slot : Nat) (e : LimitEntry) (r : Reading) (closing : Bool) (s : State) :
    s.evaluate i slot e r closing = if e.action.reports && s.finalOutcome i slot e r = .isTrue
      then (s.withOutcome i slot e r closing).offer (.window (windowRecord i slot e r (s.referenceValue e slot)))
      else s.withOutcome i slot e r closing := rfl

theorem gridAt_cellAt {w : WindowEngine} {i slot : Nat} {c : ResultCell} (h : gridAt w.cells i slot = some c) :
    w.cellAt i slot = c := by
  rw [WindowEngine.cellAt, h]
  rfl

theorem cellAt_setCell_same {i slot : Nat} {c : ResultCell} {s : State} (h : (gridAt s.windows.cells i slot).isSome = true) :
    (s.setCell i slot c).windows.cellAt i slot = c := by
  rw [cellAt_setCell, if_pos ⟨rfl, rfl, h⟩]

theorem cellAt_setCell_other {i slot j n : Nat} {c : ResultCell} {s : State} (h : (j, n) ≠ (i, slot)) :
    (s.setCell i slot c).windows.cellAt j n = s.windows.cellAt j n := by
  rw [cellAt_setCell, if_neg]
  rintro ⟨rfl, rfl, _⟩
  exact h rfl

theorem negated_cases (b : Bool) (o : TestOutcome) : o.negated b = (match o with
    | .undetermined => .undetermined
    | .isTrue => if b then .isFalse else .isTrue
    | .isFalse => if b then .isTrue else .isFalse) := by
  cases b <;> cases o <;> rfl

section Outcomes

variable {h : Handed} {s : State}

theorem applyOutcome_none (hf : s.episodes.find h.key h.slot = none) :
    s.applyOutcome h = if h.outcome = .isTrue ∧ h.closing = false then s.tryOpen h.opening else s := by
  unfold State.applyOutcome
  rw [hf]

/-- The state with TRUNCATED taken from an evaluation. -/
def State.marked (h : Handed) (s : State) : State := s.modifyEpisode h.key h.slot (Episode.markTruncated h)

variable {e : Episode} (hf : s.episodes.find h.key h.slot = some e)

include hf

theorem applyOutcome_extends (hs : e.state = .opened) (ho : h.outcome = .isTrue) :
    s.applyOutcome h = (s.marked h).modifyEpisode h.key h.slot (Episode.extend h) := by
  unfold State.applyOutcome
  simp only [hf, hs, ho]
  rfl

theorem applyOutcome_ends (hs : e.state = .opened) (ho : h.outcome ≠ .isTrue) :
    s.applyOutcome h = (s.marked h).endTrueRun h := by
  unfold State.applyOutcome
  simp only [hf, hs]
  cases hx : h.outcome with
  | isTrue => exact absurd hx ho
  | isFalse => rfl
  | undetermined => rfl

theorem applyOutcome_reenters {n : Nat} (hs : e.state = .holdOff n) (ho : h.outcome = .isTrue) :
    s.applyOutcome h = (s.marked h).modifyEpisode h.key h.slot (Episode.reenter h) := by
  unfold State.applyOutcome
  simp only [hf, hs, ho]
  rfl

theorem applyOutcome_stays {n : Nat} (hs : e.state = .holdOff n) (ho : h.outcome ≠ .isTrue) :
    s.applyOutcome h = s.marked h := by
  unfold State.applyOutcome
  simp only [hf, hs]
  cases hx : h.outcome with
  | isTrue => exact absurd hx ho
  | isFalse => rfl
  | undetermined => rfl

end Outcomes

/-- An UNDETERMINED outcome acts as a FALSE one. -/
theorem applyOutcome_undetermined {h : Handed} (ho : h.outcome = .undetermined) (s : State) :
    s.applyOutcome h = s.applyOutcome { h with outcome := .isFalse } := by
  have hno : h.outcome ≠ .isTrue := by rw [ho]; exact nofun
  cases hf : s.episodes.find h.key h.slot with
  | none =>
    rw [applyOutcome_none hf, applyOutcome_none (h := { h with outcome := .isFalse }) hf, if_neg fun k => hno k.1,
      if_neg fun k => nomatch k.1]
  | some e =>
    cases hs : e.state with
    | opened =>
      rw [applyOutcome_ends hf hs hno, applyOutcome_ends (h := { h with outcome := .isFalse }) hf hs nofun]
      rfl
    | holdOff n =>
      rw [applyOutcome_stays hf hs hno, applyOutcome_stays (h := { h with outcome := .isFalse }) hf hs nofun]
      rfl

/-! ### The reference value (R46) -/

theorem referenceValue_plain {e : LimitEntry} (h : ∀ key, e.test ≠ .excess key) (slot : Nat) (s : State) :
    s.referenceValue e slot = none := by
  unfold State.referenceValue
  cases ht : e.test with
  | excess key => exact absurd ht (h key)
  | gt | rise | countGe | invalid | always => rfl

theorem referenceValue_excess {e : LimitEntry} {key : Nat} (h : e.test = .excess key) (slot : Nat) (s : State) :
    s.referenceValue e slot = (s.table.active.find key).elim none (fun p =>
      if p.2.slots.getLsbD slot then (s.windows.cellAt p.1 slot).valid else none) := by
  unfold State.referenceValue
  rw [h]
  show (match s.table.active.find key with | none => none | some (i, r) => _) = _
  cases s.table.active.find key <;> rfl

theorem offer_room {body : RecordBody} {s : State} (h : s.report.queue.length < 48) : s.offer body = s.admitRecord body :=
  if_pos (decide_eq_true (show s.report.queue.length < Config.queueDepth from h))

theorem offer_full {body : RecordBody} {s : State} (hfull : 48 ≤ s.report.queue.length) : s.offer body =
    State.raise .reportDropped { s with report := { s.report with dropped := min (s.report.dropped + 1) 65535 } } := by
  unfold State.offer State.queueHasRoom
  exact if_neg (by rw [decide_eq_true_eq]; exact Nat.not_lt.2 hfull)

theorem reports_iff {a : Action} : a.reports = true ↔ a = .report ∨ a = .both := by cases a <;> decide

theorem episodes_iff {a : Action} : a.episodes = true ↔ a = .episode ∨ a = .both := by cases a <;> decide

theorem valid_after (c : ResultCell) (e : LimitEntry) (r : Reading) (raw : TestOutcome) : (c.after e r raw).valid =
    if r.metric.isSome ∧ e.minCoverage ≤ r.coverage then r.metric else c.valid := by
  show (r.validMetric e.minCoverage).or c.valid = _
  unfold Reading.validMetric
  by_cases hc : e.minCoverage ≤ r.coverage
  · rw [if_pos hc]
    cases r.metric <;> simp [hc]
  · rw [if_neg hc, if_neg fun h => hc h.2]
    rfl

theorem final_invalid {e : LimitEntry} {r : Reading} {p : Option Comparison} {x : Option Nat} (ht : e.test = .invalid)
    (hn : e.negate = true) : (e.rawOutcome r p x).negated e.negate = .isTrue ↔ e.minCoverage ≤ r.coverage := by
  rw [LimitEntry.rawOutcome_invalid _ _ _ ht, hn]
  by_cases hc : r.coverage < e.minCoverage
  · simp [TestOutcome.ofBool, TestOutcome.negated, hc, Nat.not_le.2 hc]
  · simp [TestOutcome.ofBool, TestOutcome.negated, hc, Nat.not_lt.1 hc]

/-- Settles O53: the cell, then the episode table, then the record. -/
theorem finalOutcomeActs : Obligations.FinalOutcomeActs := by
  unfold Obligations.FinalOutcomeActs
  refine ⟨fun i slot e r closing s cell raw final reference hcell href hraw hfinal => ?_,
    fun h s ho => applyOutcome_undetermined ho s, fun e slot s => ⟨fun hno => referenceValue_plain hno slot s, fun key hkey => ?_⟩,
    fun body s _ => ⟨fun hroom => ?_, fun hfull => ?_⟩⟩
  · have hneg : raw.negated e.negate = final := (negated_cases _ _).trans hfinal.symm
    have hfin : s.finalOutcome i slot e r = final := by
      rw [State.finalOutcome, gridAt_cellAt hcell, ← href, ← hraw, hneg]
    have hwin := windows_evaluate i slot e r closing s
    have hu : s.withCell i slot e r =
        { s with windows := { s.windows with cells := (s.evaluate i slot e r closing).windows.cells } } := by
      rw [hwin]
      rfl
    have hcellAt : (s.withCell i slot e r).windows.cellAt i slot = cell.after e r raw := by
      rw [State.withCell, cellAt_setCell_same (by rw [hcell]; rfl), gridAt_cellAt hcell, ← href, ← hraw]
    refine ⟨s.withCell i slot e r, s.withOutcome i slot e r closing, _, rfl, hu, (congrArg WindowEngine.units hwin).trans rfl,
      fun j n hne => ?_, fun hnone => ?_, ?_, fun hno => ?_, fun hyes => ?_, fun hrep htrue => ?_, fun hnot => ?_, fun ht hn => ?_,
      fun ht hn => ?_⟩
    · rw [hwin]
      exact cellAt_setCell_other hne
    · rw [evaluate_eq, State.withOutcome, hnone]
      rfl
    · rw [hcellAt, ← valid_after cell e r raw, ← hneg]
      rfl
    · exact if_neg fun h => by rcases hno with h1 | h1 <;> rw [h1] at h <;> exact Bool.false_ne_true h
    · rw [State.withOutcome, if_pos (episodes_iff.2 hyes), hfin]
      rfl
    · rw [evaluate_eq, if_pos (by simp [reports_iff.2 hrep, hfin, htrue]), ← href]
      rfl
    · rw [evaluate_eq, if_neg]
      simpa [reports_iff, hfin] using hnot
    · rw [← hfin, State.finalOutcome]
      exact final_invalid ht hn
    · rw [← hfin, State.finalOutcome, LimitEntry.rawOutcome_always _ _ _ ht, hn]
      rfl
  · rw [referenceValue_excess hkey]
    refine ⟨fun hnone => ?_, fun i x hat hlow => ?_⟩
    · rw [find_eq_none.2 hnone]
      rfl
    · rw [find_eq_some.2 ⟨hat, hlow⟩]
      rfl
  · rw [offer_room hroom]
    exact admitted_admit body s
  · rw [offer_full hfull]
    exact ⟨notified_raise _ _, rfl⟩

end Sys2Proof.Machine

/-! What an outcome does to the current episode of its key and slot. -/

namespace Sys2Proof.Machine

/-! ### The current episode of a key and slot -/

theorem of_iff {key slot : Nat} {e : Episode} : e.of key slot = true ↔ e.key = key ∧ e.slot = slot := by
  simp [Episode.of]

theorem find_none_of {t : EpisodeTable} {key slot : Nat} :
    t.find key slot = none ↔ ∀ e, e ∈ t.current → ¬(e.key = key ∧ e.slot = slot) := by
  rw [EpisodeTable.find, List.find?_eq_none]
  exact forall₂_congr fun e _ => not_congr of_iff

theorem modifyEpisode_none {key slot : Nat} {f : Episode → Episode} {es : List Episode}
    (h : ∀ e, e ∈ es → ¬(e.key = key ∧ e.slot = slot)) : modifyEpisode key slot f es = es := by
  induction es with
  | nil => rfl
  | cons x es ih =>
    rw [modifyEpisode, if_neg (mt of_iff.1 (h x List.mem_cons_self)), ih fun e he => h e (List.mem_cons_of_mem _ he)]

theorem modifyEpisode_first {key slot : Nat} {f : Episode → Episode} {before after : List Episode} {e : Episode}
    (he : e.key = key ∧ e.slot = slot) (h : ∀ x, x ∈ before → ¬(x.key = key ∧ x.slot = slot)) :
    modifyEpisode key slot f (before ++ e :: after) = before ++ f e :: after := by
  induction before with
  | nil => exact if_pos (of_iff.2 he)
  | cons x before ih =>
    rw [List.cons_append, modifyEpisode, if_neg (mt of_iff.1 (h x List.mem_cons_self)),
      ih fun y hy => h y (List.mem_cons_of_mem _ hy)]
    rfl

theorem find_first {t : EpisodeTable} {key slot : Nat} {before after : List Episode} {e : Episode}
    (hc : t.current = before ++ e :: after) (he : e.key = key ∧ e.slot = slot)
    (h : ∀ x, x ∈ before → ¬(x.key = key ∧ x.slot = slot)) : t.find key slot = some e := by
  rw [EpisodeTable.find, hc, List.find?_append, List.find?_eq_none.2 fun x hx => mt of_iff.1 (h x hx),
    List.find?_cons_of_pos (of_iff.2 he)]
  rfl

theorem modifyEpisode_twice {key slot : Nat} {f g : Episode → Episode}
    (hf : ∀ e, e.of key slot = true → (f e).of key slot = true) (es : List Episode) :
    modifyEpisode key slot g (modifyEpisode key slot f es) = modifyEpisode key slot (g ∘ f) es := by
  induction es with
  | nil => rfl
  | cons x es ih =>
    by_cases hx : x.of key slot = true
    · rw [modifyEpisode, if_pos hx, modifyEpisode, if_pos (hf x hx), modifyEpisode, if_pos hx]
      rfl
    · rw [modifyEpisode, if_neg hx, modifyEpisode, if_neg hx, modifyEpisode, if_neg hx, ih]

theorem markTruncated_of (h : Handed) (e : Episode) (he : e.of h.key h.slot = true) :
    (e.markTruncated h).of h.key h.slot = true := he

/-! ### What the outcome makes of the episode (R97 to R99, R103) -/

/-- The record after an outcome that does not close it. -/
def Episode.afterOutcome (h : Handed) (e : Episode) : Episode :=
  match e.state with
  | .opened =>
    if h.outcome = .isTrue then (e.markTruncated h).extend h
    else { e.markTruncated h with state := .holdOff (8 * h.holdOff) }
  | .holdOff _ => if h.outcome = .isTrue then (e.markTruncated h).reenter h else e.markTruncated h

section AfterOutcome

variable {h : Handed} {e : Episode} {n : Nat}

theorem afterOutcome_extends (hs : e.state = .opened) (ho : h.outcome = .isTrue) :
    e.afterOutcome h = (e.markTruncated h).extend h := by
  rw [Episode.afterOutcome, hs]
  exact if_pos ho

theorem afterOutcome_holdOff (hs : e.state = .opened) (ho : h.outcome ≠ .isTrue) :
    e.afterOutcome h = { e.markTruncated h with state := .holdOff (8 * h.holdOff) } := by
  rw [Episode.afterOutcome, hs]
  exact if_neg ho

theorem afterOutcome_reenters (hs : e.state = .holdOff n) (ho : h.outcome = .isTrue) :
    e.afterOutcome h = (e.markTruncated h).reenter h := by
  rw [Episode.afterOutcome, hs]
  exact if_pos ho

theorem afterOutcome_stays (hs : e.state = .holdOff n) (ho : h.outcome ≠ .isTrue) :
    e.afterOutcome h = e.markTruncated h := by
  rw [Episode.afterOutcome, hs]
  exact if_neg ho

end AfterOutcome

theorem joinMax_cases (a b : Option Nat) : joinMax a b = (match a, b with
    | some x, some y => some (max x y)
    | none, some y => some y
    | p, none => p) := by
  cases a <;> cases b <;> simp [joinMax, maxOption]

section Standing

variable {h : Handed} {s : State} {e : Episode} (hf : s.episodes.find h.key h.slot = some e)

include hf

/-- A change of the episode found depends on what it makes of that episode alone. -/
theorem modifyEpisode_congr {f g : Episode → Episode} (he : f e = g e) :
    modifyEpisode h.key h.slot f s.episodes.current = modifyEpisode h.key h.slot g s.episodes.current := by
  obtain ⟨hof, before, after, hsplit, hbefore⟩ := List.find?_eq_some_iff_append.1 hf
  have hno : ∀ x, x ∈ before → ¬(x.key = h.key ∧ x.slot = h.slot) := fun x hx hk => by
    simpa [of_iff.2 hk] using hbefore x hx
  rw [hsplit, modifyEpisode_first (of_iff.1 hof) hno, modifyEpisode_first (of_iff.1 hof) hno, he]

theorem marked_modifyEpisode {g : Episode → Episode} (hg : g (e.markTruncated h) = e.afterOutcome h) :
    (s.marked h).modifyEpisode h.key h.slot g = { s with episodes := { s.episodes with
      current := modifyEpisode h.key h.slot (Episode.afterOutcome h) s.episodes.current } } := by
  refine congrArg (fun es => { s with episodes := { s.episodes with current := es } }) ?_
  exact (modifyEpisode_twice (markTruncated_of h) _).trans (modifyEpisode_congr hf hg)

theorem find_marked : (s.marked h).episodes.find h.key h.slot = some (e.markTruncated h) :=
  find_modifyEpisode (markTruncated_of h e (List.find?_some hf)) hf

omit hf in
theorem marked_without : (s.marked h).without h.key h.slot = s.without h.key h.slot := by
  have hremove : (s.marked h).removeEpisode h.key h.slot = s.removeEpisode h.key h.slot :=
    congrArg (fun es => { s with episodes := { s.episodes with current := es } })
      (eraseP_modifyEpisode (markTruncated_of h))
  rw [State.without, hremove]
  rfl

/-- The outcome changes the record in place, except where it closes the episode. -/
theorem applyOutcome_changes (hkeep : h.holdOff ≠ 0 ∨ h.outcome = .isTrue ∨ e.state ≠ .opened) :
    s.applyOutcome h = { s with
      due := if e.state = .opened ∧ h.outcome ≠ .isTrue
        then s.due.filter (fun d => d != .holdOff h.key h.slot) else s.due
      episodes := { s.episodes with
        current := modifyEpisode h.key h.slot (Episode.afterOutcome h) s.episodes.current } } := by
  cases hs : e.state with
  | opened =>
    by_cases ho : h.outcome = .isTrue
    · rw [applyOutcome_extends hf hs ho, if_neg fun k => k.2 ho]
      exact marked_modifyEpisode hf (afterOutcome_extends hs ho).symm
    · have hoff : h.holdOff ≠ 0 := hkeep.resolve_right fun k => k.elim ho fun k => k hs
      rw [applyOutcome_ends hf hs ho, State.endTrueRun, if_neg hoff, if_pos ⟨rfl, ho⟩]
      exact congrArg (fun x : State => { x with due := s.due.filter (fun d => d != Due.holdOff h.key h.slot) })
        (marked_modifyEpisode hf (g := fun x => { x with state := .holdOff (8 * h.holdOff) })
          (afterOutcome_holdOff hs ho).symm)
  | holdOff n =>
    by_cases ho : h.outcome = .isTrue
    · rw [applyOutcome_reenters hf hs ho, if_neg fun k => nomatch k.1]
      exact marked_modifyEpisode hf (afterOutcome_reenters hs ho).symm
    · rw [applyOutcome_stays hf hs ho, if_neg fun k => nomatch k.1]
      exact congrArg (fun es => { s with episodes := { s.episodes with current := es } })
        (modifyEpisode_congr hf (afterOutcome_stays hs ho).symm)

/-- With hold-off 0 the end of a TRUE run closes the episode. -/
theorem applyOutcome_closes (hs : e.state = .opened) (ho : h.outcome ≠ .isTrue) (hoff : h.holdOff = 0) :
    s.applyOutcome h = (s.without h.key h.slot).offerVerdict
      ((e.markTruncated h).verdict s.table.active .quiet h.close) := by
  rw [applyOutcome_ends hf hs ho, State.endTrueRun, if_pos hoff, State.closeOf, find_marked hf]
  show (s.marked h).closeEpisode (e.markTruncated h) .quiet h.close = _
  have hof : e.key = h.key ∧ e.slot = h.slot := of_iff.1 (List.find?_some hf)
  rw [closeEpisode_eq]
  show ((s.marked h).without e.key e.slot).offerVerdict _ = _
  rw [hof.1, hof.2, marked_without]
  rfl

end Standing

theorem hasFree_iff {t : EpisodeTable} : t.hasFree = true ↔ t.current.length + t.waiting.length < 32 := by
  unfold EpisodeTable.hasFree EpisodeTable.used
  exact decide_eq_true_iff

/-- Settles O57: openings, and what becomes of a standing episode. -/
theorem outcomesAct : Obligations.OutcomesAct := by
  unfold Obligations.OutcomesAct
  refine ⟨fun key slot t f => ⟨fun e => of_iff, find_none_of, modifyEpisode_none, fun before e after hc he hb =>
    ⟨find_first hc he hb, hc ▸ modifyEpisode_first he hb⟩⟩, fun h s => ⟨fun hf => ⟨fun hno => ?_, fun ho hclosing hroom => ?_,
    fun ho hclosing hfull => ?_⟩, fun e hf => ?_⟩⟩
  · rw [applyOutcome_none hf]
    exact if_neg fun k => hno.elim (fun hn => hn k.1) fun hc => Bool.false_ne_true (k.2.symm.trans hc)
  · have hopen : s.applyOutcome h = s.openEpisode h.opening := by
      rw [applyOutcome_none hf, if_pos ⟨ho, hclosing⟩]
      exact if_pos (hasFree_iff.2 hroom)
    have heps : (s.applyOutcome h).episodes = (s.withOpened h.opening).episodes := by rw [hopen, openEpisode_episodes]
    refine ⟨hopen, h.opening.episode s.episodes.next s.plant (partnerSlots h.slot s.episodes.current), ?_, ?_, ?_, ?_, rfl, rfl,
      rfl, rfl, rfl, rfl, rfl, rfl, rfl, rfl, rfl, rfl, rfl, rfl, ?_⟩
    · rw [heps]
      exact List.getLast?_concat ..
    · rw [hopen]
      exact notified_raise _ _
    · rw [heps]
      simp [State.withOpened, gainCoincident]
    · rw [heps]
      rfl
    · exact bne_iff_ne
  · have hopen : s.applyOutcome h = s.countUncaptured h.index := by
      rw [applyOutcome_none hf, if_pos ⟨ho, hclosing⟩]
      exact if_neg fun hfree => Nat.not_lt.2 hfull (hasFree_iff.1 hfree)
    rw [hopen]
    exact ⟨notified_raise _ _, rfl⟩
  · refine ⟨Episode.afterOutcome h, applyOutcome_changes hf, fun hs ho => ?_, fun hs ho _ => ?_, fun n hs ho => ?_,
      fun n hs ho => ?_, fun hs ho hoff => ?_⟩
    · exact (afterOutcome_extends hs ho).trans (congrArg (fun p => ({ e with
        lastTrue := h.close, peak := p, truncated := e.truncated || h.truncated } : Episode)) (joinMax_cases e.peak h.metric))
    · exact afterOutcome_holdOff hs ho
    · exact (afterOutcome_reenters hs ho).trans (congrArg (fun p => ({ e with
        state := .opened, reentries := min (e.reentries + 1) 65535, lastTrue := h.close, peak := p
        truncated := e.truncated || h.truncated } : Episode)) (joinMax_cases e.peak h.metric))
    · exact afterOutcome_stays hs ho
    · rw [applyOutcome_closes hf hs ho hoff]
      refine ⟨?_, ?_, _, rfl, without_eq _ _ _, follows_without _ _ _⟩
      · rw [current_offerVerdict]
        rfl
      · rw [(closed_offerVerdict _ _).next]
        rfl

end Sys2Proof.Machine

/-! The boundaries of windows and rings: what ends at a tick, its evaluation, and what it leaves. -/

namespace Sys2Proof.Machine

/-! ### Units and cells by index and slot -/

theorem gridAt_some {α : Type} {g : List (List α)} {i j : Nat} {a : α} :
    gridAt g i j = some a ↔ ∃ row, g[i]? = some row ∧ row[j]? = some a := by
  unfold gridAt
  rw [Option.bind_eq_some_iff]

theorem unitAt_some {w : WindowEngine} {i slot : Nat} {x : PoolUnit} :
    w.unitAt i slot = some x ↔ ∃ row, w.units[i]? = some row ∧ row[slot]? = some (some x) := by
  unfold WindowEngine.unitAt
  rw [Option.join_eq_some_iff, gridAt_some]

theorem accAt_some {w : WindowEngine} {i slot : Nat} {x : PoolUnit} (h : w.unitAt i slot = some x) :
    w.accAt i slot = x.acc := by
  rw [WindowEngine.accAt, h]

theorem accAt_none {w : WindowEngine} {i slot : Nat} (h : w.unitAt i slot = none) : w.accAt i slot = .idle := by
  rw [WindowEngine.accAt, h]

theorem unitAt_of_accAt {w : WindowEngine} {i slot : Nat} {a : Acc} (h : w.accAt i slot = a) (ha : a ≠ .idle) :
    (w.unitAt i slot).isSome = true := by
  cases hu : w.unitAt i slot with
  | none => exact absurd (h.symm.trans (accAt_none hu)) ha
  | some x => rfl

theorem unitAt_setAcc_other {i slot j n : Nat} {a : Acc} {s : State} (h : (j, n) ≠ (i, slot)) :
    (s.setAcc i slot a).windows.unitAt j n = s.windows.unitAt j n := by
  rw [unitAt_setAcc, if_neg]
  rintro ⟨rfl, rfl⟩
  exact h rfl

theorem accAt_setAcc_same {i slot : Nat} {a b : Acc} {s : State} (h : s.windows.accAt i slot = b) (hb : b ≠ .idle) :
    (s.setAcc i slot a).windows.accAt i slot = a := by
  rw [accAt_setAcc, if_pos ⟨rfl, rfl, unitAt_of_accAt h hb⟩]

/-! ### What an evaluation leaves of the windows -/

section Evaluated

variable (i slot : Nat) (e : LimitEntry) (r : Reading) (closing : Bool) (s : State)

theorem unitAt_evaluate (j n : Nat) : (s.evaluate i slot e r closing).windows.unitAt j n = s.windows.unitAt j n := by
  rw [windows_evaluate, unitAt_setCell]

theorem accAt_evaluate (j n : Nat) : (s.evaluate i slot e r closing).windows.accAt j n = s.windows.accAt j n := by
  rw [WindowEngine.accAt, unitAt_evaluate]
  rfl

theorem cellAt_evaluate_other {j n : Nat} (h : (j, n) ≠ (i, slot)) :
    (s.evaluate i slot e r closing).windows.cellAt j n = s.windows.cellAt j n := by
  rw [windows_evaluate]
  exact cellAt_setCell_other h

variable {i slot s}

theorem cellAt_evaluate_same (h : (gridAt s.windows.cells i slot).isSome = true) :
    ∃ raw, (s.evaluate i slot e r closing).windows.cellAt i slot = (s.windows.cellAt i slot).after e r raw := by
  rw [windows_evaluate]
  exact ⟨_, cellAt_setCell_same h⟩

end Evaluated

/-! ### A boundary -/

/-- A pair's contents end: new contents and the evaluation of what stood. -/
def State.ended (i slot : Nat) (e : LimitEntry) (a : Acc) (t : Tally) (s : State) : State :=
  (s.setAcc i slot a).evaluate i slot e (.ofTally e t s.now) false

theorem ended_other {i slot : Nat} (e : LimitEntry) (a : Acc) (t : Tally) (s : State) {j n : Nat} (h : (j, n) ≠ (i, slot)) :
    (s.ended i slot e a t).windows.unitAt j n = s.windows.unitAt j n ∧
      (s.ended i slot e a t).windows.cellAt j n = s.windows.cellAt j n :=
  ⟨(unitAt_evaluate ..).trans (unitAt_setAcc_other h), cellAt_evaluate_other _ _ _ _ _ _ h⟩

theorem ended_accAt {i slot : Nat} {e : LimitEntry} {a b : Acc} {t : Tally} {s : State}
    (h : s.windows.accAt i slot = b) (hb : b ≠ .idle) : (s.ended i slot e a t).windows.accAt i slot = a :=
  (accAt_evaluate ..).trans (accAt_setAcc_same h hb)

theorem ended_cellAt {i slot : Nat} (e : LimitEntry) (a : Acc) (t : Tally) {s : State}
    (h : (gridAt s.windows.cells i slot).isSome = true) :
    ∃ raw, (s.ended i slot e a t).windows.cellAt i slot =
      (s.windows.cellAt i slot).after e (.ofTally e t s.now) raw :=
  cellAt_evaluate_same (s := s.setAcc i slot a) e _ false h

theorem beganAt_iff {t : Tally} {m : Moment} : t.beganAt m = true ↔ t.start.tick = m.tick := beq_iff_eq

theorem endWindow_off {p : Nat × LimitEntry × Nat} {s : State} (h : ¬p.2.1.window.endsAt s.clock.eighth = true) :
    s.endWindow p = s := if_neg h

theorem endWindow_idle {i slot : Nat} {e : LimitEntry} {s : State} (h : s.windows.accAt i slot = .idle) :
    s.endWindow (i, e, slot) = s := by
  unfold State.endWindow
  simp only [h]
  exact ite_self _

theorem endWindow_window {i slot : Nat} {e : LimitEntry} {s : State} {w : Tally} (he : e.window.endsAt s.clock.eighth = true)
    (h : s.windows.accAt i slot = .window w) : s.endWindow (i, e, slot) = if w.beganAt s.now then s
      else s.ended i slot e (if e.activeIn s.clock.band then .window (Tally.begin s.now false) else .idle) w := by
  unfold State.endWindow
  rw [if_pos he]
  simp only [h]
  rfl

theorem endWindow_ring {i slot : Nat} {e : LimitEntry} {s : State} {steps : List Tally} {last all : Tally}
    (he : e.window.endsAt s.clock.eighth = true) (h : s.windows.accAt i slot = .ring steps)
    (hlast : steps.getLast? = some last) (hall : ringTally steps = some all) :
    s.endWindow (i, e, slot) = if last.beganAt s.now then s
      else s.ended i slot e (.ring (ringAfter e.window.ringSize steps s.now)) all := by
  unfold State.endWindow
  rw [if_pos he]
  simp only [h, hlast, hall]
  rfl

theorem endWindow_empty {i slot : Nat} {e : LimitEntry} {s : State} (h : s.windows.accAt i slot = .ring []) :
    s.endWindow (i, e, slot) = s := by
  unfold State.endWindow
  simp only [h]
  exact ite_self _

theorem ringTally_concat (steps : List Tally) (w : Tally) : ∃ all, ringTally (steps ++ [w]) = some all := by
  cases steps with
  | nil => exact ⟨w, rfl⟩
  | cons t rest => exact ⟨_, rfl⟩

theorem endsAt_fixed {m eighth : Nat} : (WindowType.fixed m).endsAt eighth = true ↔ eighth % (480 * m) = 0 := beq_iff_eq

theorem endsAt_rolling {step k eighth : Nat} : (WindowType.rolling step k).endsAt eighth = true ↔ eighth % (8 * step) = 0 :=
  beq_iff_eq

theorem coverage_of_pos {counted expected : Nat} (h : expected ≠ 0) :
    coveragePercent counted expected = min 100 (100 * counted / expected) := if_neg h

theorem ticks_ne_zero {a b : Tick} (h : a ≠ b) : (b - a).toNat ≠ 0 := fun hz =>
  h (by bv_omega)

/-- Settles O55: the grid, one unit written, and the boundary of one pair. -/
theorem boundaryEndsWindows : Obligations.BoundaryEndsWindows := by
  unfold Obligations.BoundaryEndsWindows
  refine ⟨fun w i slot => ⟨fun x => unitAt_some, fun x => accAt_some, accAt_none, fun c => gridAt_some, fun c => gridAt_cellAt,
    fun hnone => ?_, rfl⟩, fun i slot a s t ht => ?_, fun i slot e s hcell => ⟨_, rfl, fun j n hne => ?_,
    fun m w hwin hacc => ⟨fun hoff => ?_, fun hon hbegan => ?_⟩, fun step k steps w hwin hacc => ⟨fun hoff => ?_, fun hon hbegan => ?_⟩,
    endWindow_idle⟩⟩
  · rw [WindowEngine.cellAt, hnone]
    rfl
  · subst ht
    refine ⟨rfl, ?_, fun j n => unitAt_setAcc_other⟩
    rw [unitAt_setAcc, if_pos ⟨rfl, rfl⟩]
  · by_cases he : e.window.endsAt s.clock.eighth = true
    · cases hacc : s.windows.accAt i slot with
      | idle => rw [endWindow_idle hacc]; exact ⟨rfl, rfl⟩
      | window w =>
        rw [endWindow_window he hacc]
        split
        · exact ⟨rfl, rfl⟩
        · exact ended_other _ _ _ _ hne
      | ring steps =>
        rcases List.eq_nil_or_concat' steps with rfl | ⟨steps, w, rfl⟩
        · rw [endWindow_empty hacc]
          exact ⟨rfl, rfl⟩
        · obtain ⟨all, hall⟩ := ringTally_concat steps w
          rw [endWindow_ring he hacc List.getLast?_concat hall]
          split
          · exact ⟨rfl, rfl⟩
          · exact ended_other _ _ _ _ hne
    · rw [endWindow_off he]
      exact ⟨rfl, rfl⟩
  · by_cases he : e.window.endsAt s.clock.eighth = true
    · rw [endWindow_window he hacc, if_pos (beganAt_iff.2 (hoff.resolve_left fun hne => hne (endsAt_fixed.1 (hwin ▸ he))))]
    · exact endWindow_off he
  · have hend : s.endWindow (i, e, slot) = _ := endWindow_window (hwin ▸ endsAt_fixed.2 hon) hacc
    rw [hend, if_neg fun hb => hbegan (beganAt_iff.1 hb)]
    have hexpected : expectedSlices e.window w.start.tick s.now.tick = (s.clock.tickCount - w.start.tick).toNat := by
      rw [hwin]
      rfl
    refine ⟨ended_accAt hacc nofun, fun expected hx => ?_, fun c hc => ?_⟩
    · rw [State.ended, Reading.ofTally, hexpected, ← hx]
      rfl
    · obtain ⟨raw, hraw⟩ := ended_cellAt e (if e.activeIn s.clock.band then .window (Tally.begin s.now false) else .idle) w hcell
      rw [← hc, hraw]
      refine ⟨rfl, rfl, rfl, rfl, rfl, congrArg some ?_⟩
      show coveragePercent _ _ = _
      rw [hexpected, coverage_of_pos (ticks_ne_zero hbegan)]
  · by_cases he : e.window.endsAt s.clock.eighth = true
    · obtain ⟨all, hall⟩ := ringTally_concat steps w
      rw [endWindow_ring he hacc List.getLast?_concat hall, if_pos (beganAt_iff.2 (hoff.resolve_left fun hne => hne (endsAt_rolling.1 (hwin ▸ he))))]
    · exact endWindow_off he
  · obtain ⟨all, hall⟩ := ringTally_concat steps w
    have hend : s.endWindow (i, e, slot) = _ :=
      endWindow_ring (hwin ▸ endsAt_rolling.2 hon) hacc List.getLast?_concat hall
    have hring : ringAfter e.window.ringSize (steps ++ [w]) s.now = (if steps.length + 1 < k then steps ++ [w]
        else (steps ++ [w]).drop 1) ++ [⟨s.now, 0, 0, [], none, none, 0, [], false, false⟩] := by
      rw [hwin, ringAfter, List.length_append]
      rfl
    have hexpected : expectedSlices e.window all.start.tick s.now.tick = 8 * k * step := by rw [hwin]; rfl
    rw [hend, if_neg fun hb => hbegan (beganAt_iff.1 hb), hring]
    refine ⟨ended_accAt hacc nofun, fun all' hall' => ?_, fun c all' hc hall' => ?_⟩
    all_goals obtain rfl : all = all' := Option.some.inj (hall.symm.trans hall')
    · rw [State.ended, Reading.ofTally, hexpected]
    · obtain ⟨raw, hraw⟩ := ended_cellAt e (.ring ((if steps.length + 1 < k then steps ++ [w]
        else (steps ++ [w]).drop 1) ++ [⟨s.now, 0, 0, [], none, none, 0, [], false, false⟩])) all hcell
      rw [← hc, hraw]
      refine ⟨rfl, rfl, rfl, rfl, rfl, fun hs hk => congrArg some ?_⟩
      show coveragePercent _ _ = _
      rw [hexpected, coverage_of_pos (by positivity)]

end Sys2Proof.Machine

/-! Band changes: the band in force, the order of an evaluation event, and each pair at the change. -/

namespace Sys2Proof.Machine

/-! ### The band in force (R34) -/

theorem firstBand_lowest {d : DayType} {minute n k : Nat} {bands : List (Option BandRecord)} {r : BandRecord}
    (hr : bands[k]? = some (some r)) (hh : r.holds d minute = true)
    (hlow : ∀ j q, j < k → bands[j]? = some (some q) → ¬q.holds d minute = true) :
    firstBand d minute n bands = n + k := by
  induction bands generalizing n k with
  | nil => simp at hr
  | cons band rest ih =>
    cases k with
    | zero =>
      obtain rfl : band = some r := Option.some.inj hr
      exact if_pos hh
    | succ k =>
      have hrest := ih (n := n + 1) (k := k) hr fun j q hj hq => hlow (j + 1) q (Nat.succ_lt_succ hj) hq
      cases band with
      | none => exact hrest.trans (by omega)
      | some b => exact (if_neg (hlow 0 b (Nat.succ_pos k) rfl)).trans (hrest.trans (by omega))

theorem bandNow_of_running {s : State} (h : s.clock.state = .running) :
    s.bandNow = firstBand s.dayType s.clock.minute 0 s.schedule.activeBands := by
  rw [State.bandNow, Clock.running, h]
  rfl

theorem bandNow_of_lowest {s : State} {b : Nat} (hrun : s.clock.state = .running) (h : IsLowest s.BandHolds b) :
    s.bandNow = b := by
  obtain ⟨⟨r, hr, hholds⟩, hlow⟩ := h
  rw [bandNow_of_running hrun, firstBand_lowest hr ((r.holds_iff _ s.clock.minute).2 hholds), Nat.zero_add]
  intro j q hj hq hh
  exact hlow j hj ⟨q, hq, (q.holds_iff _ _).1 hh⟩

theorem bandNow_of_none {s : State} (hrun : s.clock.state = .running) (h : ∀ b, ¬s.BandHolds b) : s.bandNow = 14 := by
  rw [bandNow_of_running hrun]
  refine (firstBand_other_or_holds _ _ _ _).resolve_right ?_
  rintro ⟨k, r, _, hr, hh⟩
  exact h k ⟨r, hr, (r.holds_iff _ _).1 hh⟩

/-! ### The order of an evaluation event (R85) -/

theorem refersTo_iff {t : EntryTable} {bands : List Nat} {key : Nat} : t.refersTo bands key = true ↔
    ∃ i e, t.at i = some e ∧ e.test = .excess key ∧ ∃ b, b ∈ bands ∧ e.bands.getLsbD b = true := by
  have href : ∀ e : LimitEntry, e.test.reference = some key ↔ e.test = .excess key := by
    intro e
    cases e.test <;> simp [Test.reference]
  rw [EntryTable.refersTo, any_entries]
  simp only [Bool.and_eq_true, beq_iff_eq, href, List.any_eq_true, LimitEntry.activeIn]

theorem evaluationPairs_eq (bands : List Nat) (s : State) : s.evaluationPairs bands =
    (s.table.active.entries.filter (fun p => s.table.active.refersTo bands p.2.key)).flatMap entryPairs ++
      (s.table.active.entries.filter (fun p => !s.table.active.refersTo bands p.2.key)).flatMap entryPairs := by
  unfold State.evaluationPairs
  rw [List.partition_eq_filter_filter]
  exact List.flatMap_append

theorem evaluationPairs_congr {s t : State} (h : t.table = s.table) (bands : List Nat) :
    t.evaluationPairs bands = s.evaluationPairs bands := by
  rw [evaluationPairs_eq, evaluationPairs_eq, h]

theorem evaluationPairs_pairwise (bands : List Nat) (s : State) {referred : Nat → Prop}
    (h : ∀ key, referred key ↔ s.table.active.refersTo bands key = true) :
    (s.evaluationPairs bands).Pairwise (fun p q => (referred p.2.1.key ∧ ¬referred q.2.1.key) ∨
      ((referred p.2.1.key ↔ referred q.2.1.key) ∧ PairBefore p q)) := by
  have hkey : ∀ (q : Nat × LimitEntry → Bool) (p : Nat × LimitEntry × Nat),
      p ∈ (s.table.active.entries.filter q).flatMap entryPairs → q (p.1, p.2.1) = true := by
    intro q p hp
    obtain ⟨x, hx, hpx⟩ := List.mem_flatMap.1 hp
    obtain ⟨_, _, rfl⟩ := List.mem_map.1 hpx
    exact (List.mem_filter.1 hx).2
  have hgroup := fun q => pairs_ascend ((entries_ascend s.table.active).filter q)
  rw [evaluationPairs_eq, List.pairwise_append]
  refine ⟨(hgroup _).imp_of_mem fun {p q} hp hq hlt => Or.inr ⟨iff_of_true ?_ ?_, hlt⟩,
    (hgroup _).imp_of_mem fun {p q} hp hq hlt => Or.inr ⟨iff_of_false ?_ ?_, hlt⟩,
    fun p hp q hq => Or.inl ⟨?_, ?_⟩⟩
  · exact (h _).2 (hkey _ p hp)
  · exact (h _).2 (hkey _ q hq)
  · exact fun hr => by simpa [(h _).1 hr] using hkey _ p hp
  · exact fun hr => by simpa [(h _).1 hr] using hkey _ q hq
  · exact (h _).2 (hkey _ p hp)
  · exact fun hr => by simpa [(h _).1 hr] using hkey _ q hq

/-! ### The episodes out of band (R109) -/

theorem outOfBand_iff {s : State} {e : Episode} : s.outOfBand e = true ↔
    ∀ i x, s.table.active.find e.key = some (i, x) → x.bands.getLsbD s.clock.band = false := by
  unfold State.outOfBand
  cases s.table.active.find e.key with
  | none => exact iff_of_true rfl fun i x h => absurd h.symm (Option.some_ne_none (i, x))
  | some p => simp [LimitEntry.activeIn, Prod.ext_iff]

theorem bandEpisodes_eq {s : State} {outside : Episode → Bool} (h : ∀ e, outside e = true ↔
    ∀ i x, s.table.active.find e.key = some (i, x) → x.bands.getLsbD s.clock.band = false) :
    s.bandEpisodes = s.demandClose outside .bandEnd := by
  have hsame : s.outOfBand = outside := funext fun e => Bool.eq_iff_iff.2 (outOfBand_iff.trans (h e).symm)
  rw [State.bandEpisodes, hsame]

theorem bandWindows_eq {s u : State} (ht : s.table = u.table) (hc : s.clock = u.clock) (old : Nat) (minute : Bool) :
    s.bandWindows old minute =
      (u.evaluationPairs [old, u.clock.band]).foldl (fun x p => x.bandWindow old minute p) s := by
  rw [State.bandWindows, evaluationPairs_congr ht, hc]

theorem bandParts_first {u : State} {outside : Episode → Bool} (old : Nat) (minute : Bool) (h : ∀ e, outside e = true ↔
    ∀ i x, u.table.active.find e.key = some (i, x) → x.bands.getLsbD u.clock.band = false) :
    u.bandParts old minute true = (u.evaluationPairs [old, u.clock.band]).foldl (fun x p => x.bandWindow old minute p)
      (u.demandClose outside .bandEnd) := by
  have hj := judges_demandClose outside .bandEnd u
  rw [State.bandParts, if_pos rfl, bandEpisodes_eq h, bandWindows_eq hj.table hj.clock]

theorem bandParts_last {u : State} {outside : Episode → Bool} (old : Nat) (minute : Bool) (h : ∀ e, outside e = true ↔
    ∀ i x, u.table.active.find e.key = some (i, x) → x.bands.getLsbD u.clock.band = false) :
    u.bandParts old minute false = ((u.evaluationPairs [old, u.clock.band]).foldl
      (fun x p => x.bandWindow old minute p) u).demandClose outside .bandEnd := by
  have he := evaluates_bandWindows old minute u
  rw [State.bandParts, if_neg Bool.false_ne_true]
  refine bandEpisodes_eq fun e => ?_
  rw [he.table, he.clock]
  exact h e

/-! ### A pair at a band change (R72, R79, R80) -/

section Pair

variable {old i slot : Nat} {minute : Bool} {e : LimitEntry} {s : State} {c : Tally}

theorem bandWindow_band (hw : e.window = .band) (hacc : s.windows.accAt i slot = .window c) :
    s.bandWindow old minute (i, e, slot) = State.evaluate i slot e (.ofTally e c s.now) false
      (s.setAcc i slot (if s.opensNow e then e.openAcc s.now minute else .idle)) := by
  unfold State.bandWindow
  simp only [hw, hacc]

theorem bandWindow_fixed {m : Nat} (hw : e.window = .fixed m) (hacc : s.windows.accAt i slot = .window c) :
    s.bandWindow old minute (i, e, slot) = if e.activeIn s.clock.band then s
      else if minute && c.beganAt s.now then s.setAcc i slot .idle
      else State.evaluate i slot e (.ofTally e { c with cut := true } s.now) true (s.setAcc i slot .idle) := by
  unfold State.bandWindow
  simp only [hw, hacc]

theorem bandWindow_rolling {step k : Nat} {steps : List Tally} (hw : e.window = .rolling step k)
    (hacc : s.windows.accAt i slot = .ring steps) :
    s.bandWindow old minute (i, e, slot) = if e.activeIn s.clock.band then s else s.setAcc i slot .idle := by
  unfold State.bandWindow
  simp only [hw, hacc]

theorem bandWindow_slice (hw : e.window = .slice) : s.bandWindow old minute (i, e, slot) =
    if s.windows.accAt i slot = .idle then
      if e.activeIn old then s else s.openIdle minute (i, e, slot) else s := by
  cases hacc : s.windows.accAt i slot with
  | idle => rw [if_pos rfl, bandWindow_idle hacc]
  | window t => unfold State.bandWindow; simp only [hw, hacc]; rfl
  | ring steps => unfold State.bandWindow; simp only [hw, hacc]; rfl

theorem bandWindow_opens (hacc : s.windows.accAt i slot = .idle) (hold : e.bands.getLsbD old = false)
    (hact : e.bands.getLsbD s.clock.band = true) (hrun : s.clock.running = true) :
    s.bandWindow old minute (i, e, slot) = s.setAcc i slot (e.openAcc s.now minute) := by
  rw [bandWindow_idle hacc, if_neg (show ¬e.activeIn old = true by rw [LimitEntry.activeIn, hold]; exact Bool.false_ne_true),
    openIdle_eq, if_pos ⟨hacc, by rw [State.opensNow, LimitEntry.activeIn, hact, hrun]; rfl⟩]

/-- A SLICE entry's unit holds nothing before and after. -/
theorem unitAt_setAcc_idle (hacc : s.windows.accAt i slot = .idle) (j n : Nat) :
    (s.setAcc i slot .idle).windows.unitAt j n = s.windows.unitAt j n := by
  rw [unitAt_setAcc]
  by_cases h : i = j ∧ slot = n
  · obtain ⟨rfl, rfl⟩ := h
    rw [if_pos ⟨rfl, rfl⟩]
    cases hu : s.windows.unitAt i slot with
    | none => rfl
    | some u =>
      rw [accAt_some hu] at hacc
      rw [Option.map_some, ← hacc]
  · rw [if_neg h]

end Pair

theorem reading_eq (e : LimitEntry) (c : Tally) {s : State} {expected : Nat} (hw : ∀ step k, e.window ≠ .rolling step k)
    (hx : expected = (s.clock.tickCount - c.start.tick).toNat) : Reading.ofTally e c s.now =
      ⟨e.metric.over c, coveragePercent c.counted expected, c.counted, c.excluded, expected, c.start, s.now, c.cut,
        c.overload⟩ := by
  have hexp : expectedSlices e.window c.start.tick s.now.tick = expected := by
    rw [hx]
    cases hwin : e.window with
    | rolling step k => exact absurd hwin (hw step k)
    | slice | fixed | band => rfl
  rw [Reading.ofTally, hexp]

/-- Settles O56: the band, the event, the order, and each pair. -/
theorem bandChange : Obligations.BandChange := by
  unfold Obligations.BandChange
  refine ⟨fun s => ⟨fun hstop => bandNow_stopped (by simpa [Clock.running] using hstop), fun hrun => ⟨fun b => bandNow_of_lowest hrun,
    bandNow_of_none hrun⟩, fun minute first => (bandKept_decideBand minute first s).clock⟩, fun minute first s =>
    ⟨decideBand_of_same, fun hne u w outside order hu hout horder hfirst hlast => ?_⟩, fun bands s referred href =>
    ⟨fun i e slot => mem_evaluationPairs, evaluationPairs_pairwise bands s fun key => (href key).trans refersTo_iff.symm⟩,
    fun old i slot minute e s t active ht hactive => ⟨fun c hw hacc expected hx => ?_, fun m c hw hacc expected hx => ?_,
    fun step k steps hw hacc => ?_, fun hacc => ⟨fun hno => ?_, fun hold hact hrun => ?_⟩, fun hw => ?_⟩, fun _ _ => rfl⟩
  · have hparts : u.bandParts s.clock.band minute first = w := by
      have hu' : u.table = s.table ∧ u.clock.band = s.bandNow := by rw [hu]; exact ⟨rfl, rfl⟩
      have hout' : ∀ e, outside e = true ↔
          ∀ i x, u.table.active.find e.key = some (i, x) → x.bands.getLsbD u.clock.band = false := by
        rw [hu'.1, hu'.2]
        exact hout
      rw [← hu'.2] at horder
      cases first with
      | true => rw [hfirst rfl, horder, bandParts_first _ _ hout']
      | false => rw [hlast rfl, horder, bandParts_last _ _ hout']
    have hclock := (evaluates_bandParts s.clock.band minute first u).clock
    rw [hparts] at hclock
    rw [decideBand_of_changed hne, show s.atClock { s.clock with band := s.bandNow } = u from hu.symm, hparts,
      State.bandPlant, State.now, hclock, hu]
    rfl
  · rw [ht, bandWindow_band hw hacc, reading_eq e c (by rw [hw]; exact nofun) hx, State.opensNow, LimitEntry.activeIn, ← hactive,
      LimitEntry.openAcc, hw]
    rfl
  · rw [ht, bandWindow_fixed hw hacc, LimitEntry.activeIn, ← hactive]
    refine ⟨fun hact => if_pos hact, fun hact hminute hbegan => ?_, fun hact hlate => ?_⟩
    · rw [if_neg (by rw [hact]; exact Bool.false_ne_true), if_pos (by rw [hminute]; exact beganAt_iff.2 hbegan)]
    · rw [if_neg (by rw [hact]; exact Bool.false_ne_true), if_neg ?_,
        reading_eq e { c with cut := true } (expected := expected) (by rw [hw]; exact nofun) hx]
      · rfl
      · rw [Bool.and_eq_true, beganAt_iff]
        rintro ⟨hminute, hbegan⟩
        exact hlate.elim (fun hf => Bool.false_ne_true (hf.symm.trans hminute)) fun hne => hne hbegan
  · rw [ht, bandWindow_rolling hw hacc, hactive]
    rfl
  · rw [ht, bandWindow_idle hacc]
    by_cases hold : e.activeIn old = true
    · exact if_pos hold
    · refine (if_neg hold).trans (openIdle_of_closed ?_)
      rw [State.opensNow, LimitEntry.activeIn, ← hactive]
      rcases hno with hb | ha | hr
      · exact absurd hb hold
      · rw [ha, Bool.false_and]
      · rw [hr, Bool.and_false]
  · rw [ht, bandWindow_opens hacc hold (hactive ▸ hact) hrun, LimitEntry.openAcc]
    refine ⟨fun m hw => ?_, fun hw => ?_, fun step k hw => ?_⟩
    · rw [hw]
      rfl
    · rw [hw]
      rfl
    · rw [hw]
      rfl
  · subst ht
    rw [bandWindow_slice hw]
    split
    · next hacc =>
      split
      · exact ⟨rfl, fun _ _ => rfl⟩
      · rw [openIdle_eq, LimitEntry.openAcc, hw]
        split
        · exact ⟨rfl, unitAt_setAcc_idle hacc⟩
        · exact ⟨rfl, fun _ _ => rfl⟩
    · exact ⟨rfl, fun _ _ => rfl⟩

end Sys2Proof.Machine

/-! A slice into the accumulators, and what a metric is over what has been counted. -/

namespace Sys2Proof.Machine

/-! ### Integration (R68, R75, R76) -/

/-- What a slice makes of the tally in progress. -/
def Tally.taking (metric : Metric) (x : Slice) (t : Tally) : Tally := if x.calibrating then t.exclude else t.add metric x

theorem take_window (metric : Metric) (x : Slice) (t : Tally) : Acc.take metric x (.window t) = .window (t.taking metric x) :=
  rfl

theorem modify_last {α : Type} (f : α → α) (l : List α) (a : α) : (l ++ [a]).modify l.length f = l ++ [f a] := by
  rw [modify_of_getElem? (a := a) (by simp), List.set_append_right _ _ (Nat.le_refl _), Nat.sub_self]
  rfl

theorem take_ring (metric : Metric) (x : Slice) (steps : List Tally) (t : Tally) :
    Acc.take metric x (.ring (steps ++ [t])) = .ring (steps ++ [t.taking metric x]) := by
  refine congrArg Acc.ring ?_
  rw [List.length_append, List.length_singleton, Nat.add_sub_cancel]
  exact modify_last (Tally.taking metric x) steps t

/-- The tally taken is the one the rules state. -/
theorem taking_eq {metric : Metric} {x : Slice} {taken : Tally → Tally}
    (hout : ∀ t, x.calibrating = true → taken t = t.exclude)
    (hfull : ∀ t, x.calibrating = false → 4294967295 ≤ t.counted → taken t = t)
    (hin : ∀ t, x.calibrating = false → t.counted < 4294967295 → taken t = t.add metric x) (t : Tally) :
    t.taking metric x = taken t := by
  cases hc : x.calibrating with
  | true => exact (if_pos hc).trans (hout t hc).symm
  | false =>
    refine (if_neg (by rw [hc]; exact Bool.false_ne_true)).trans ?_
    by_cases hlt : t.counted < 4294967295
    · exact (hin t hc hlt).symm
    · rw [hfull t hc (Nat.not_lt.1 hlt)]
      exact if_neg hlt

theorem add_of_lt {metric : Metric} {x : Slice} {t : Tally} (h : t.counted < 4294967295) : t.add metric x = { t with
    counted := t.counted + 1
    energy := EnergySum.add x.level t.energy
    maxFast := maxOption t.maxFast x.fast
    maxPeak := maxOption t.maxPeak x.peak
    events := eventsAfter metric x.peak t.events
    bins := binsAfter metric x.level t.bins
    overload := t.overload || x.overload } := if_pos h

theorem integrate_of (slot : Nat) (x : Slice) (s : State) :
    s.integrate slot x = { s with windows := { s.windows with units := (s.integrate slot x).windows.units } } ∧
      (∀ i e, s.table.active.at i = some e → e.slots.getLsbD slot = true →
        (s.integrate slot x).windows.accAt i slot = (s.windows.accAt i slot).take e.metric x) ∧
      ∀ j n, n ≠ slot → (s.integrate slot x).windows.unitAt j n = s.windows.unitAt j n :=
  slotPairs_foldl (g := fun e => Acc.take e.metric x) (fun _ => rfl) rfl

/-! ### Metrics (R42, R78) -/

theorem over_of_counted {t : Tally} (h : t.counted ≠ 0) (m : Metric) : m.over t = (match m with
    | .leq => equivalentLevel t.energy t.counted
    | .lmax => t.maxFast
    | .lpeak => t.maxPeak
    | .ln n => percentileLevel t.bins n
    | .events _ => some t.events) := if_neg h

theorem percentileLevel_none {bins : Counts} {n : Nat} (h : slicesFrom 0 bins = 0) : percentileLevel bins n = none :=
  if_pos ((total_eq bins).trans h)

theorem percentileLevel_some {bins : Counts} {n : Nat} (h : slicesFrom 0 bins ≠ 0) :
    percentileLevel bins n = some (200 + 10 * highestBin bins n 119) := if_neg fun hz => h ((total_eq bins).symm.trans hz)

theorem ofLevels_concat (levels : List Nat) (l : Nat) :
    EnergySum.ofLevels (levels ++ [l]) = EnergySum.add l (EnergySum.ofLevels levels) := by
  rw [EnergySum.ofLevels, List.foldl_append]
  rfl

/-- Settles O54: integration, the metrics, the accounts and the ring taken together. -/
theorem sliceIntegrated : Obligations.SliceIntegrated := by
  unfold Obligations.SliceIntegrated
  refine ⟨fun slot i x s e he hslot taken hout hfull hin => ?_, fun m t => ⟨fun h => if_pos h, fun h => ?_⟩, fun a levels hsum hcount => ?_,
    fun levels l => (ofLevels_concat levels l).symm, fun b k n bins => slicesFrom_bump b k n bins, ringTally_total⟩
  · have htaking : ∀ t, t.taking e.metric x = taken t := by
      refine taking_eq hout hfull fun t hc hlt => (hin t hc hlt).trans ((add_of_lt hlt).trans ?_).symm
      rfl
    obtain ⟨hwhole, hacc, hother⟩ := integrate_of slot x s
    refine ⟨_, rfl, hwhole, fun w hw => ?_, fun steps w hw => ?_, fun hidle => ?_, hother⟩
    · rw [hacc i e he hslot, hw, take_window, htaking]
    · rw [hacc i e he hslot, hw, take_ring, htaking]
    · rw [hacc i e he hslot, hidle]
      rfl
  · refine ⟨fun hm levels hsum hcount hle hl => ?_, fun hm => ?_, fun hm => ?_, fun n hm h1 h99 => ⟨fun hz => ?_, fun hz => ?_⟩,
      fun aux hm => ?_⟩
    all_goals rw [hm, over_of_counted h]
    · rw [hsum, hcount]
      exact equivalentLevel_greatest (fun hnil => h (by rw [hcount, hnil]; rfl)) hle hl
    · exact percentileLevel_none hz
    · obtain ⟨hle, hpart, hbest⟩ := highestBin_greatest t.bins (show n ≤ 100 by omega) 119
      exact ⟨_, percentileLevel_some hz, hle, hpart, hbest⟩
  · rw [EnergyAccount.leq, hsum, hcount]
    refine ⟨fun hnil => ?_, equivalentLevel_greatest, fun l => ⟨fun hlt => ?_, fun hge => ?_⟩⟩
    · rw [hnil]
      rfl
    · rw [EnergyAccount.add, if_pos (show a.count < Config.max32 by rw [hcount]; exact hlt), hsum, hcount, ofLevels_concat,
        List.length_append]
      exact ⟨rfl, rfl⟩
    · exact if_neg (by rw [hcount]; exact Nat.not_lt.2 hge)

end Sys2Proof.Machine

/-! READ HISTOGRAM: its checks, its bins, and the amounts it reports. -/

namespace Sys2Proof.Machine

/-! ### The bins (R89) -/

theorem add_one_mod (x : Nat) {n : Nat} (hn : 0 < n) : (x + 1) % n = if x % n + 1 = n then 0 else x % n + 1 := by
  have hr := Nat.mod_lt x hn
  have hx : (x + 1) % n = (x % n + 1) % n := by rw [Nat.mod_add_mod]
  rw [hx]
  split
  · next h => rw [h, Nat.mod_self]
  · next h => exact Nat.mod_eq_of_lt (by omega)

/-- Bins without a wrap: upward from the start, to 119 at most. -/
theorem histogramBins_plain (start count : Nat) :
    histogramBins start count 0 = (List.range (min count (120 - start))).map (start + ·) := by
  rw [histogramBins, if_pos rfl]
  induction count with
  | zero => simp
  | succ count ih =>
    rw [List.range_succ, List.filterMap_append, ih]
    by_cases h : start + count ≤ 119
    · have hmin : min (count + 1) (120 - start) = min count (120 - start) + 1 := by omega
      have hcount : min count (120 - start) = count := by omega
      rw [hmin, List.range_succ, List.map_append, hcount]
      simp [h]
    · have hmin : min (count + 1) (120 - start) = min count (120 - start) := by omega
      simp [hmin, h]

/-- The bins of a group: where it begins and how many it holds. -/
def groupBase (start wrap : Nat) : Nat := start / wrap * wrap

def groupSize (start wrap : Nat) : Nat := min wrap (120 - groupBase start wrap)

/-- The bin of a group at a place counted from the start. -/
def groupBin (start wrap k : Nat) : Nat :=
  groupBase start wrap + (start - groupBase start wrap + k) % groupSize start wrap

theorem histogramBins_wrapped (start count : Nat) {wrap : Nat} (h : wrap ≠ 0) :
    histogramBins start count wrap = (List.range count).map (groupBin start wrap) := if_neg h

/-- The place behind the last of a group is its first. -/
theorem next_of_place {r size base wrap : Nat} (hr : r < size) (hsize : size = min wrap (120 - base)) (hb : base + r ≤ 119) :
    base + (if r + 1 = size then 0 else r + 1) = if r + 1 = wrap ∨ base + r = 119 then base else base + r + 1 := by
  split_ifs <;> omega

section Group

variable {start wrap : Nat} (hstart : start ≤ 119) (hwrap : 0 < wrap)

include hwrap

theorem groupBase_le : groupBase start wrap ≤ start ∧ start - groupBase start wrap < wrap := by
  have hdiv := Nat.div_add_mod' start wrap
  have hmod := Nat.mod_lt start hwrap
  unfold groupBase
  omega

include hstart

theorem groupSize_bounds : 0 < groupSize start wrap ∧ start - groupBase start wrap < groupSize start wrap := by
  have hbase := groupBase_le (start := start) hwrap
  unfold groupSize
  omega

theorem groupBin_bounds (k : Nat) : groupBase start wrap ≤ groupBin start wrap k ∧ groupBin start wrap k ≤ 119 ∧
    groupBin start wrap k - groupBase start wrap < wrap := by
  obtain ⟨hpos, _⟩ := groupSize_bounds hstart hwrap
  have hr := Nat.mod_lt (start - groupBase start wrap + k) hpos
  have hsize : groupSize start wrap = min wrap (120 - groupBase start wrap) := rfl
  unfold groupBin
  omega

theorem groupBin_zero : groupBin start wrap 0 = start := by
  obtain ⟨_, hlt⟩ := groupSize_bounds hstart hwrap
  have hle := (groupBase_le (start := start) hwrap).1
  rw [groupBin, Nat.add_zero, Nat.mod_eq_of_lt hlt]
  omega

theorem groupBin_div (k : Nat) : groupBin start wrap k / wrap = start / wrap := by
  obtain ⟨hle, _, hlt⟩ := groupBin_bounds hstart hwrap k
  have hsplit : groupBin start wrap k = (groupBin start wrap k - groupBase start wrap) + start / wrap * wrap :=
    (Nat.sub_add_cancel hle).symm
  rw [hsplit, Nat.add_mul_div_right _ _ hwrap, Nat.div_eq_of_lt hlt, Nat.zero_add]

/-- The next bin: one up, or the first of the group behind its last. -/
theorem groupBin_next (k : Nat) : groupBin start wrap (k + 1) =
    if (groupBin start wrap k + 1) % wrap = 0 ∨ groupBin start wrap k = 119
      then groupBin start wrap k / wrap * wrap else groupBin start wrap k + 1 := by
  obtain ⟨hpos, _⟩ := groupSize_bounds hstart hwrap
  have hr := Nat.mod_lt (start - groupBase start wrap + k) hpos
  have hsize : groupSize start wrap = min wrap (120 - groupBase start wrap) := rfl
  have hbound := groupBin_bounds hstart hwrap k
  have hdiv := groupBin_div hstart hwrap k
  have hbin : groupBin start wrap k =
      groupBase start wrap + (start - groupBase start wrap + k) % groupSize start wrap := rfl
  have hmod : (groupBin start wrap k + 1) % wrap = 0 ↔
      (start - groupBase start wrap + k) % groupSize start wrap + 1 = wrap := by
    rw [hbin, Nat.add_assoc, Nat.add_comm]
    show (_ + start / wrap * wrap) % wrap = 0 ↔ _
    rw [Nat.add_mul_mod_self_right]
    generalize (start - groupBase start wrap + k) % groupSize start wrap = r at hr ⊢
    rcases Nat.lt_or_ge (r + 1) wrap with hlt | hge
    · rw [Nat.mod_eq_of_lt hlt]
      exact iff_of_false (Nat.succ_ne_zero r) (Nat.ne_of_lt hlt)
    · obtain rfl : wrap = r + 1 := by omega
      exact iff_of_true (Nat.mod_self _) rfl
  rw [hdiv, if_congr (or_congr_left hmod) rfl rfl]
  have hsucc : groupBin start wrap (k + 1) = groupBase start wrap +
      (if (start - groupBase start wrap + k) % groupSize start wrap + 1 = groupSize start wrap then 0
        else (start - groupBase start wrap + k) % groupSize start wrap + 1) :=
    congrArg (groupBase start wrap + ·) (add_one_mod (start - groupBase start wrap + k) hpos)
  rw [hsucc, hbin, next_of_place hr hsize (by omega)]
  rfl

end Group

theorem counts_at_absent {bins : Counts} {b : Nat} (h : ∀ m, (b, m) ∉ bins) : Counts.at bins b = 0 := by
  induction bins with
  | nil => rfl
  | cons p bins ih =>
    obtain ⟨j, m⟩ := p
    rw [Counts.at, if_neg fun hj => h m (by rw [← hj]; exact List.mem_cons_self), ih fun m hm => h m (List.mem_cons_of_mem _ hm)]

theorem counts_at_present {bins : Counts} {b n : Nat} (hnodup : (bins.map (·.1)).Nodup) (h : (b, n) ∈ bins) :
    Counts.at bins b = n := by
  induction bins with
  | nil => exact absurd h List.not_mem_nil
  | cons p bins ih =>
    obtain ⟨j, m⟩ := p
    obtain ⟨hout, hrest⟩ := List.nodup_cons.1 hnodup
    rcases List.mem_cons.1 h with heq | hmem
    · obtain ⟨rfl, rfl⟩ := Prod.mk.inj heq
      exact if_pos rfl
    · have hne : j ≠ b := fun hj => hout (List.mem_map.2 ⟨(b, n), hmem, hj.symm⟩)
      rw [Counts.at, if_neg hne, ih hrest hmem]

/-- What the bins are, without a wrap and with one. -/
theorem histogramBins_spec {start count wrap : Nat} (hstart : start ≤ 119) (hcount : 1 ≤ count) :
    (histogramBins start count wrap).head? = some start ∧ (∀ b, b ∈ histogramBins start count wrap → b ≤ 119) ∧
      (wrap ≠ 0 → (histogramBins start count wrap).length = count ∧
        ∀ b, b ∈ histogramBins start count wrap → b / wrap = start / wrap) ∧
      ∀ k b, (histogramBins start count wrap)[k]? = some b → k + 1 < count →
        (histogramBins start count wrap)[k + 1]? =
          if wrap = 0 then (if b < 119 then some (b + 1) else none)
          else if (b + 1) % wrap = 0 ∨ b = 119 then some (b / wrap * wrap) else some (b + 1) := by
  by_cases hw : wrap = 0
  · subst hw
    rw [histogramBins_plain]
    refine ⟨?_, fun b hb => ?_, fun h => absurd rfl h, fun k b hk hlt => ?_⟩
    · obtain ⟨n, hn⟩ : ∃ n, min count (120 - start) = n + 1 := ⟨min count (120 - start) - 1, by omega⟩
      rw [hn, List.range_succ_eq_map]
      rfl
    · obtain ⟨k, hk, rfl⟩ := List.mem_map.1 hb
      have := List.mem_range.1 hk
      omega
    · obtain ⟨hlen, rfl⟩ := List.getElem?_eq_some_iff.1 hk
      rw [List.getElem_map, List.getElem_range, if_pos rfl]
      rw [List.length_map, List.length_range] at hlen
      by_cases hb : start + k < 119
      · rw [if_pos hb, List.getElem?_map, List.getElem?_range (by omega)]
        rfl
      · rw [if_neg hb, List.getElem?_eq_none]
        rw [List.length_map, List.length_range]
        omega
  · have hpos := Nat.pos_of_ne_zero hw
    rw [histogramBins_wrapped start count hw]
    refine ⟨?_, fun b hb => ?_, fun _ => ⟨by simp, fun b hb => ?_⟩, fun k b hk hlt => ?_⟩
    · obtain ⟨n, rfl⟩ : ∃ n, count = n + 1 := ⟨count - 1, by omega⟩
      rw [List.range_succ_eq_map]
      exact congrArg some (groupBin_zero hstart hpos)
    · obtain ⟨k, _, rfl⟩ := List.mem_map.1 hb
      exact (groupBin_bounds hstart hpos k).2.1
    · obtain ⟨k, _, rfl⟩ := List.mem_map.1 hb
      exact groupBin_div hstart hpos k
    · rw [if_neg hw, List.getElem?_map, List.getElem?_range hlt, Option.map_some, groupBin_next hstart hpos]
      rw [List.getElem?_map, List.getElem?_range (Nat.lt_of_succ_lt hlt)] at hk
      obtain rfl := Option.some.inj hk
      exact apply_ite some _ _ _

/-! ### READ HISTOGRAM -/

/-- A modifier SLOT that stands before a command says the slot. -/
theorem modifiers_slot_of {v : ItemView} {c : CommandCode} {n : Nat} (hp : prefixesTaken v.prefixes c = true)
    (hn : .slot n ∈ v.prefixes) : v.modifiers.slot = some n := by
  cases hs : v.modifiers.slot with
  | none => exact absurd hn (modifiers_slot_none.1 hs n)
  | some m =>
    obtain ⟨x, hx⟩ := List.length_eq_one_iff.1 (prefixesTaken_iff.1 hp (.slot n) hn).2
    have hone : ∀ k, .slot k ∈ v.prefixes → PrefixItem.slot k = x := fun k hk =>
      List.mem_singleton.1 (hx ▸ List.mem_filter.2 ⟨hk, rfl⟩)
    exact congrArg some (PrefixItem.slot.inj ((hone m (modifiers_slot_some hs)).trans (hone n hn).symm))

theorem readHistogram_range {key start count wrap n : Nat} {s : State} (h : 11 < n ∨ key = 0 ∨ 119 < start ∨ count < 1 ∨
    32 < count ∨ wrap ∉ [0, 8, 16, 32]) : s.readHistogram key start count wrap (some n) = .refuse .range := by
  refine if_pos ?_
  simp only [List.mem_cons, List.not_mem_nil, or_false, not_or] at h
  simp only [Config.slotCount]
  omega

theorem readHistogram_checked {key start count wrap n : Nat} {s : State} (hn : n ≤ 11) (hk : key ≠ 0) (hs : start ≤ 119)
    (h1 : 1 ≤ count) (h32 : count ≤ 32) (hw : wrap ∈ [0, 8, 16, 32]) :
    s.readHistogram key start count wrap (some n) = (s.table.active.find key).elim (.refuse .notFound) (fun p =>
      if p.2.slots.getLsbD n then
        if p.2.metric.isLn then
          match s.windows.accAt p.1 n with
          | .window t => .ok (.histogram s.now n true (some t.start) t.counted
              ((histogramBins start count wrap).map (fun b => (b, Counts.at t.bins b))))
          | _ => .ok (.histogram s.now n false none 0 ((histogramBins start count wrap).map (fun b => (b, 0))))
        else .refuse .range
      else .refuse .notFound) := by
  refine (if_neg ?_).trans ?_
  · simp only [List.mem_cons, List.not_mem_nil, or_false] at hw
    simp only [Config.slotCount]
    omega
  · cases s.table.active.find key <;> rfl

/-- Settles O48: the checks and the answer, the bins, the amounts, and the worked figures. -/
theorem readHistogramAndWorkedFigures : Obligations.ReadHistogramAndWorkedFigures := by
  unfold Obligations.ReadHistogramAndWorkedFigures
  refine ⟨fun s v key start count wrap u h hkey hstart hcount hwrap hu => ?_, ⟨by decide +kernel, by decide +kernel, by decide +kernel,
    by decide +kernel,    fun start count wrap hs hc _ => histogramBins_spec hs hc⟩, fun bins b n hnodup => ⟨counts_at_present hnodup, counts_at_absent⟩,
    by decide +kernel, by decide +kernel⟩
  have ht : exec .readHistogram s = .next (v.finish (u, u.readHistogram key start count wrap v.modifiers.slot)) := by
    subst hkey hstart hcount hwrap hu
    exact congrArg Host.Outcome.next (takeItem_fixed h h.form)
  rw [ht]
  refine ⟨fun hbad => ?_, fun n hmem hn hk hs h1 h32 hw => ?_⟩
  · cases hslot : v.modifiers.slot with
    | none => rfl
    | some n =>
      rw [readHistogram_range (hbad.imp_left fun hall => hall n (modifiers_slot_some hslot))]
      rfl
  · rw [modifiers_slot_of h.prefixes hmem, readHistogram_checked hn hk hs h1 h32 hw]
    refine ⟨fun hnone => ?_, fun i e hfind => ⟨fun hno => ?_, fun hyes hln => ?_, fun hyes hln => ?_⟩⟩
    · rw [hnone]
      rfl
    · rw [hfind, Option.elim_some, if_neg (by rw [hno]; exact Bool.false_ne_true)]
      rfl
    · rw [hfind, Option.elim_some, if_pos hyes, if_neg fun hl => (isLn_iff.1 hl).elim hln]
      rfl
    · rw [hfind, Option.elim_some, if_pos hyes, if_pos (isLn_iff.2 hln)]
      refine ⟨fun w hw => ?_, fun hidle => ?_⟩
      · simp only [hw]
        rfl
      · simp only [hidle]
        rfl

end Sys2Proof.Machine

/-! The queries of the part: what READ TIME, READ SLOT, READ WINDOW and READ EPISODES answer. -/

namespace Sys2Proof.Machine

/-! ### READ SLOT (R18) -/

theorem members_ascend {w : Nat} (m : BitVec w) : (members m).Pairwise (· < ·) := List.pairwise_lt_range.filter _

theorem readSlot_range {n : Nat} (h : 11 < n) (s : State) : s.readSlot (some n) = .refuse .range := if_pos h

theorem readSlot_one {n : Nat} {r : SlotRecord} {s : State} (h : n ≤ 11) (hr : s.slots[n]? = some r) :
    s.readSlot (some n) = .ok (.slots s.now [slotReport s.clock.tickCount n r]) := by
  rw [State.readSlot, if_neg (show ¬Config.slotCount ≤ (some n).getD 0 from Nat.not_le.2 (Nat.lt_succ_of_le h)),
    State.slotReports, hr]
  rfl

theorem slotReports_getElem? {n : Nat} {r : SlotRecord} {s : State} (h : s.slots[n]? = some r) :
    (s.slotReports none)[n]? = some (slotReport s.clock.tickCount n r) := by
  rw [State.slotReports, List.getElem?_map, List.getElem?_zipIdx, h]
  exact congrArg (fun k => some (slotReport s.clock.tickCount k r)) (Nat.zero_add n)

theorem length_slotReports (s : State) : (s.slotReports none).length = s.slots.length := by simp [State.slotReports]

/-! ### READ WINDOW (R88) -/

theorem readWindow_key_zero (slot : Option Nat) (s : State) : s.readWindow 0 slot = .refuse .range := if_pos (.inl rfl)

theorem readWindow_slot_range {n : Nat} (h : 11 < n) (key : Nat) (s : State) :
    s.readWindow key (some n) = .refuse .range := if_pos (.inr h)

/-- A key and a slot in range: the guard of the read is passed. -/
theorem readWindow_unguarded {key : Nat} {slot : Option Nat} (hk : key ≠ 0) (hs : ∀ n, slot = some n → n ≤ 11) :
    ¬(key = 0 ∨ Config.slotCount ≤ slot.getD 0) := by
  rintro (h | h)
  · exact hk h
  · cases slot with
    | none => exact absurd h (by decide)
    | some n => exact absurd (hs n rfl) (Nat.not_le.2 h)

section
variable {key : Nat} {slot : Option Nat} {s : State} (hk : key ≠ 0) (hs : ∀ n, slot = some n → n ≤ 11)
include hk hs

theorem readWindow_missing (h : s.table.active.find key = none) : s.readWindow key slot = .refuse .notFound := by
  rw [State.readWindow, if_neg (readWindow_unguarded hk hs), h]

theorem readWindow_unnamed {i n : Nat} {e : LimitEntry} (h : s.table.active.find key = some (i, e))
    (hn : slot = some n) (he : e.slots.getLsbD n = false) : s.readWindow key slot = .refuse .notFound := by
  have none_reported : (members e.slots).filter (fun m => m == n) = [] :=
    List.filter_eq_nil_iff.2 fun m hm heq => by
      rw [mem_members, eq_of_beq heq, he] at hm
      exact Bool.false_ne_true hm
  subst hn
  rw [State.readWindow, if_neg (readWindow_unguarded hk hs), h]
  simp only [none_reported]
  rfl

theorem readWindow_one {i n : Nat} {e : LimitEntry} (h : s.table.active.find key = some (i, e))
    (hn : slot = some n) (he : e.slots.getLsbD n = true) : s.readWindow key slot =
      .ok (.windows s.now i (e.activeIn s.clock.band) [s.windowReport i e n]) := by
  have one_reported : (members e.slots).filter (fun m => m == n) = [n] := by
    rw [List.filter_beq, List.count_eq_one_of_mem (members_ascend _).nodup ((mem_members _ _).2 he)]
    rfl
  subst hn
  rw [State.readWindow, if_neg (readWindow_unguarded hk hs), h]
  simp only [one_reported]
  rfl

theorem readWindow_all {i : Nat} {e : LimitEntry} (h : s.table.active.find key = some (i, e)) (hn : slot = none)
    (he : e.slots ≠ 0) : s.readWindow key slot =
      .ok (.windows s.now i (e.activeIn s.clock.band) ((members e.slots).map (s.windowReport i e))) := by
  obtain ⟨n, hset⟩ := bit_of_ne_zero he
  have some_reported : (members e.slots).isEmpty = false :=
    List.isEmpty_eq_false_iff.2 (List.ne_nil_of_mem ((mem_members _ _).2 hset))
  subst hn
  rw [State.readWindow, if_neg (readWindow_unguarded hk hs), h]
  simp only [some_reported]
  rfl

end

/-! ### What an accumulator and a ring report (R77, R88) -/

theorem windowReport_slice {i n : Nat} {e : LimitEntry} {s : State} (h : e.window = .slice) :
    s.windowReport i e n = ⟨s.windows.cellAt i n, none, none⟩ := by
  rw [State.windowReport, h]
  rfl

theorem windowReport_windowed {i n : Nat} {e : LimitEntry} {s : State} (h : e.window ≠ .slice) : s.windowReport i e n =
    ⟨s.windows.cellAt i n, some (s.windows.accAt i n).isOpen, openFigures e (s.windows.accAt i n) s.now⟩ := by
  rw [State.windowReport]
  exact if_pos (windowed_iff.2 h)

theorem expectedSlices_unstepped {w : WindowType} (h : w = .band ∨ ∃ m, w = .fixed m) (start now : Tick) :
    expectedSlices w start now = (now - start).toNat := by
  obtain rfl | ⟨m, rfl⟩ := h <;> rfl

theorem windowReport_window {i n : Nat} {e : LimitEntry} {s : State} {w : Tally}
    (h : e.window = .band ∨ ∃ m, e.window = .fixed m) (ha : s.windows.accAt i n = .window w) : s.windowReport i e n =
      ⟨s.windows.cellAt i n, some true, some ⟨some w.start, none, none, w.counted, w.excluded,
        (s.clock.tickCount - w.start.tick).toNat, coveragePercent w.counted (s.clock.tickCount - w.start.tick).toNat,
        e.metric.over w, w.cut, w.overload⟩⟩ := by
  have hw : e.window ≠ .slice := by
    obtain h | ⟨m, h⟩ := h <;> rw [h] <;> exact WindowType.noConfusion
  rw [windowReport_windowed hw, ha, ← expectedSlices_unstepped h]
  rfl

theorem windowReport_ring {i n step k : Nat} {e : LimitEntry} {s : State} {steps : List Tally} {all : Tally}
    (h : e.window = .rolling step k) (ha : s.windows.accAt i n = .ring steps) (hall : ringTally steps = some all) :
    s.windowReport i e n = ⟨s.windows.cellAt i n, some true, some ⟨none, some steps.length, some all.start, all.counted,
      all.excluded, 8 * k * step, coveragePercent all.counted (8 * k * step), e.metric.over all, all.cut,
      all.overload⟩⟩ := by
  have hw : e.window ≠ .slice := by rw [h]; exact WindowType.noConfusion
  have hx : expectedSlices e.window all.start.tick s.now.tick = 8 * k * step := by rw [h]; rfl
  rw [windowReport_windowed hw, ha, ← hx]
  show WindowReport.mk _ _ ((ringTally steps).map _) = _
  rw [hall]
  rfl

end Sys2Proof.Machine

/-! The layouts of the parts a readout consists of, each as the row of its quantities, and what stands at each offset. -/

namespace Sys2Proof.Machine

/-! ### Codes and quantities in their widths -/

theorem tick_mod (t : Tick) : t.toNat % 4294967296 = t.toNat := Nat.mod_eq_of_lt t.isLt

theorem byteSet_mod (m : BitVec 8) : m.toNat % 256 = m.toNat := Nat.mod_eq_of_lt m.isLt

theorem slotSet_mod (m : BitVec 12) : m.toNat % 65536 = m.toNat :=
  Nat.mod_eq_of_lt (Nat.lt_trans m.isLt (by decide))

theorem noticeSet_mod (m : BitVec 14) : m.toNat % 65536 = m.toNat :=
  Nat.mod_eq_of_lt (Nat.lt_trans m.isLt (by decide))

theorem strap_mod (m : BitVec 2) : m.toNat % 256 = m.toNat := Nat.mod_eq_of_lt (Nat.lt_trans m.isLt (by decide))

theorem SlotLink.code_mod (l : SlotLink) : l.code % 256 = l.code := by cases l <;> rfl

theorem DayType.code_mod (d : DayType) : d.code % 256 = d.code := by cases d <;> rfl

theorem EpisodeState.code_mod (e : EpisodeState) : e.code % 256 = e.code := by cases e <;> rfl

theorem BeaconMode.code_mod (m : BeaconMode) : m.code % 256 = m.code := by cases m <;> rfl

theorem Override.code_mod (o : Override) : o.code % 256 = o.code := by cases o <;> rfl

theorem CadenceMode.code_mod (m : CadenceMode) : m.code % 256 = m.code := by cases m <;> rfl

theorem ClockState.code_mod (c : ClockState) : c.code % 256 = c.code := by cases c <;> rfl

theorem levelCode_mod (l : Level) : levelCode l % 256 = if l = .high then 1 else 0 := by cases l <;> rfl

theorem toNat_bool (b : Bool) : b.toNat = if b then 1 else 0 := by cases b <;> rfl

/-! ### The parts (R18, R88, R115, R134, R143, R163) -/

theorem SlotReport.layout (r : SlotReport) : r.bytes = byte1 r.slot ++ (byte1 r.link.code ++
    (byteBool r.link.boundId.isSome ++ (byte1 (r.link.boundId.getD 0) ++ (byteBool r.link.expectedSequence.isSome ++
    (byte1 (r.link.expectedSequence.getD 0) ++ (byteBool r.elapsed.isSome ++ (byte4 ((r.elapsed.map (·.toNat)).getD 0) ++
    (byteLevel r.latest ++ (byte2 r.counters.accepted ++ (byte2 r.counters.missing ++ (byte2 r.counters.rejected ++
    (byte2 r.counters.range ++ (byte2 r.counters.excluded ++ (byte2 r.counters.resyncs ++ (byte2 r.counters.stalls ++
    (byteLevel r.leq ++ byte4 r.count)))))))))))))))) := by
  simp only [SlotReport.bytes, flagged_byte1, tickFlagged_eq, SlotCounters.bytes, List.append_assoc]

theorem PlantLine.layout (n : Nat) (l : PlantLine) : l.bytes n = l.record.image n ++ (byte1 (levelCode l.sampler.level) ++
    (byteBool l.active ++ (byteBool l.activationTick.isSome ++ (byte4 ((l.activationTick.map (·.toNat)).getD 0) ++
    (byteBool l.deactivationTick.isSome ++ (byte4 ((l.deactivationTick.map (·.toNat)).getD 0) ++ (byte4 l.summaryRun ++
    byte4 l.bandRun))))))) := by
  simp only [PlantLine.bytes, tickFlagged_eq, List.append_assoc]

@[simp] theorem PlantRecord.length_image (n : Nat) (r : PlantRecord) : (r.image n).length = 6 := rfl

@[simp] theorem field_after_plantImage (n : Nat) (r : PlantRecord) (rest : List Byte) (k w : Nat) :
    field (r.image n ++ rest) (k + 6) w = field rest k w := field_skip (PlantRecord.length_image n r) k w

@[simp] theorem take_plantImage (n : Nat) (r : PlantRecord) (rest : List Byte) :
    (r.image n ++ rest).take 6 = r.image n := List.take_left' (PlantRecord.length_image n r)

theorem flagged_flag (v : Option Bool) :
    flagged 1 (v.map byteBool) = byteBool v.isSome ++ byte1 ((v.map Bool.toNat).getD 0) := flagged_bool id v

theorem ResultCell.layout (c : ResultCell) (rest : List Byte) : c.bytes ++ rest =
    byteBool c.outcome.isSome ++ (byte1 ((c.outcome.map (·.code)).getD 0) ++ (byteBool c.metric.isSome ++
    (byte2 (c.metric.getD 0) ++ (byteBool c.coverage.isSome ++ (byte1 (c.coverage.getD 0) ++
    (byteBool c.spanStart.isSome ++ (momentOrZero c.spanStart ++ (byteBool c.close.isSome ++
    (momentOrZero c.close ++ (byteBool c.truncated.isSome ++ (byte1 ((c.truncated.map Bool.toNat).getD 0) ++
    (byteBool c.overload.isSome ++ (byte1 ((c.overload.map Bool.toNat).getD 0) ++ (byteBool c.previous.isSome ++
    (byte1 ((c.previous.map (·.code)).getD 0) ++ (byteBool c.valid.isSome ++ (byte2 (c.valid.getD 0) ++
    rest))))))))))))))))) := by
  simp only [ResultCell.bytes, flagged_byte1, flagged_byte2, flagged_code, flagged_flag, momentFlagged_eq, List.append_assoc]

theorem openFiguresBytes_layout (f : Option OpenFigures) : openFiguresBytes f =
    byteBool (f.bind (·.start)).isSome ++ (momentOrZero (f.bind (·.start)) ++ (byteBool (f.bind (·.records)).isSome ++
    (byte1 ((f.bind (·.records)).getD 0) ++ (byteBool (f.bind (·.oldest)).isSome ++ (momentOrZero (f.bind (·.oldest)) ++
    (byteBool f.isSome ++ (byte4 ((f.map (·.counted)).getD 0) ++ (byteBool f.isSome ++ (byte4 ((f.map (·.excluded)).getD 0) ++
    (byteBool f.isSome ++ (byte4 ((f.map (·.expected)).getD 0) ++ (byteBool f.isSome ++ (byte1 ((f.map (·.coverage)).getD 0) ++
    (byteBool (f.bind (·.metric)).isSome ++ (byte2 ((f.bind (·.metric)).getD 0) ++ (byteBool f.isSome ++
    (byte1 ((f.map (fun x => x.truncated.toNat)).getD 0) ++ (byteBool f.isSome ++
    byte1 ((f.map (fun x => x.overload.toNat)).getD 0))))))))))))))))))) := by
  simp only [openFiguresBytes, flagged_byte1, flagged_byte2, flagged_code, flagged_count, flagged_bool, momentFlagged_eq,
    List.append_assoc]

theorem WindowReport.layout (r : WindowReport) : r.bytes = r.cell.bytes ++ (byteBool r.accOpen.isSome ++
    (byte1 ((r.accOpen.map Bool.toNat).getD 0) ++ openFiguresBytes r.figures)) := by
  simp only [WindowReport.bytes, flagged_flag, List.append_assoc]

theorem EpisodeReport.layout (r : EpisodeReport) : r.bytes = byte2 r.episode.number ++ (byte2 r.episode.key ++
    (byte1 r.episode.index ++ (byte1 r.episode.slot ++ (byte1 r.episode.state.code ++ (byte4 r.episode.openTick.toNat ++
    (r.episode.start.bytes ++ (r.episode.lastTrue.bytes ++ (byteBool r.episode.state.remaining.isSome ++
    (byte4 (r.episode.state.remaining.getD 0) ++ (byteBool r.episode.peak.isSome ++ (byte2 (r.episode.peak.getD 0) ++
    (byteLevel r.leq ++ (byte4 r.episode.energy.count ++ (byte2 r.episode.reentries ++ (byteNumber r.episode.primary ++
    (byte1 r.episode.everActive.toNat ++ (byte2 r.episode.coincident.toNat ++ (byte2 (r.episode.continuationOf.getD 0) ++
    (byteBool r.episode.suspect ++ (byteBool r.episode.clockNotRunning ++ byteBool r.episode.truncated)))))))))))))))))))) := by
  unfold EpisodeReport.bytes
  simp only [flagged_byte2, flagged_byte4, List.append_assoc]

/-! ### What stands at each offset of a part -/

theorem SlotReport.fields (r : SlotReport) : r.bytes.length = 33 ∧
    field r.bytes 0 1 = r.slot % 256 ∧ field r.bytes 1 1 = r.link.code ∧ IsOptional r.bytes 2 1 r.link.boundId ∧
    IsOptional r.bytes 4 1 r.link.expectedSequence ∧ IsOptional r.bytes 6 4 (r.elapsed.map (·.toNat)) ∧
    field r.bytes 11 2 = r.latest.getD 0xFFFF % 65536 ∧ field r.bytes 13 2 = r.counters.accepted % 65536 ∧
    field r.bytes 15 2 = r.counters.missing % 65536 ∧ field r.bytes 17 2 = r.counters.rejected % 65536 ∧
    field r.bytes 19 2 = r.counters.range % 65536 ∧ field r.bytes 21 2 = r.counters.excluded % 65536 ∧
    field r.bytes 23 2 = r.counters.resyncs % 65536 ∧ field r.bytes 25 2 = r.counters.stalls % 65536 ∧
    field r.bytes 27 2 = r.leq.getD 0xFFFF % 65536 ∧ field r.bytes 29 4 = r.count % 4294967296 := by
  rw [SlotReport.layout]
  simp [IsOptional, SlotLink.code_mod]

theorem PlantLine.fields (n : Nat) (l : PlantLine) : (l.bytes n).length = 26 ∧ (l.bytes n).take 6 = l.record.image n ∧
    field (l.bytes n) 6 1 = (if l.sampler.level = .high then 1 else 0) ∧
    field (l.bytes n) 7 1 = (if l.active then 1 else 0) ∧ IsOptional (l.bytes n) 8 4 (l.activationTick.map (·.toNat)) ∧
    IsOptional (l.bytes n) 13 4 (l.deactivationTick.map (·.toNat)) ∧
    field (l.bytes n) 18 4 = l.summaryRun % 4294967296 ∧ field (l.bytes n) 22 4 = l.bandRun % 4294967296 := by
  rw [PlantLine.layout]
  simp [IsOptional, levelCode_mod]

theorem WindowReport.fields (r : WindowReport) : r.bytes.length = 88 ∧
    IsOptional r.bytes 0 1 (r.cell.outcome.map (·.code)) ∧ IsOptional r.bytes 2 2 r.cell.metric ∧
    IsOptional r.bytes 5 1 r.cell.coverage ∧ IsOptionalMoment r.bytes 7 r.cell.spanStart ∧
    IsOptionalMoment r.bytes 18 r.cell.close ∧ IsOptional r.bytes 29 1 (r.cell.truncated.map Bool.toNat) ∧
    IsOptional r.bytes 31 1 (r.cell.overload.map Bool.toNat) ∧
    IsOptional r.bytes 33 1 (r.cell.previous.map (·.code)) ∧ IsOptional r.bytes 35 2 r.cell.valid ∧
    IsOptional r.bytes 38 1 (r.accOpen.map Bool.toNat) ∧ IsOptionalMoment r.bytes 40 (r.figures.bind (·.start)) ∧
    IsOptional r.bytes 51 1 (r.figures.bind (·.records)) ∧ IsOptionalMoment r.bytes 53 (r.figures.bind (·.oldest)) ∧
    IsOptional r.bytes 64 4 (r.figures.map (·.counted)) ∧ IsOptional r.bytes 69 4 (r.figures.map (·.excluded)) ∧
    IsOptional r.bytes 74 4 (r.figures.map (·.expected)) ∧ IsOptional r.bytes 79 1 (r.figures.map (·.coverage)) ∧
    IsOptional r.bytes 81 2 (r.figures.bind (·.metric)) ∧ IsOptional r.bytes 84 1 (r.figures.map (·.truncated.toNat)) ∧
    IsOptional r.bytes 86 1 (r.figures.map (·.overload.toNat)) := by
  rw [WindowReport.layout, ResultCell.layout, openFiguresBytes_layout]
  simp [IsOptional, isOptionalMoment_iff]

theorem EpisodeReport.fields (e : Episode) (leq : Option Nat) : ∃ o, EpisodeReport.bytes ⟨e, leq⟩ = o ∧ o.length = 56 ∧
    field o 0 2 = e.number % 65536 ∧ field o 2 2 = e.key % 65536 ∧
    field o 4 1 = e.index % 256 ∧ field o 5 1 = e.slot % 256 ∧
    field o 6 1 = e.state.code ∧ field o 7 4 = e.openTick.toNat ∧
    (o.drop 11).take 10 = e.start.bytes ∧ (o.drop 21).take 10 = e.lastTrue.bytes ∧
    IsOptional o 31 4 e.state.remaining ∧ IsOptional o 36 2 e.peak ∧
    field o 39 2 = leq.getD 0xFFFF % 65536 ∧ field o 41 4 = e.energy.count % 4294967296 ∧
    field o 45 2 = e.reentries % 65536 ∧ field o 47 1 = e.primary.getD 0xFF % 256 ∧
    field o 48 1 = e.everActive.toNat ∧ field o 49 2 = e.coincident.toNat ∧
    field o 51 2 = e.continuationOf.getD 0 % 65536 ∧ field o 53 1 = e.suspect.toNat ∧
    field o 54 1 = e.clockNotRunning.toNat ∧ field o 55 1 = e.truncated.toNat := by
  refine ⟨_, EpisodeReport.layout ⟨e, leq⟩, ?_⟩
  simp [IsOptional, tick_mod, EpisodeState.code_mod, byteSet_mod, slotSet_mod, toNat_bool]

/-! ### Standing queries and commit results (R163, R189) -/

theorem CommandCode.code_mod (c : CommandCode) : c.code % 256 = c.code := by cases c <;> rfl

@[simp] theorem Query.length_bytes (n : Nat) (q : Query) : (q.bytes n).length = 6 := rfl

theorem Query.layout (n : Nat) (q : Query) : q.bytes n = byte1 n ++ (byte1 q.command.commandCode.code ++
    (byte2 q.command.keyField ++ (byteNumber q.command.slotField ++ [q.tag]))) := by
  simp only [Query.bytes, List.append_assoc]

theorem Query.target_fields (n : Nat) (q : Query) : field (q.bytes n) 2 2 = q.command.keyField % 65536 ∧
    field (q.bytes n) 4 1 = q.command.slotField.getD 0xFF % 256 := by
  rw [Query.layout]
  simp

theorem Query.fields (n : Nat) (q : Query) : (q.bytes n).length = 6 ∧ field (q.bytes n) 0 1 = n % 256 ∧
    (q.bytes n)[1]? = some q.command.commandCode.byte ∧ (q.bytes n)[5]? = some q.tag ∧
    ∀ (key : Nat) (slot : Option Nat),
      (q.command = .readWindow key slot →
        field (q.bytes n) 2 2 = key % 65536 ∧ field (q.bytes n) 4 1 = slot.getD 0xFF % 256) ∧
      (q.command = .readSlot slot → field (q.bytes n) 2 2 = 0 ∧ field (q.bytes n) 4 1 = slot.getD 0xFF % 256) ∧
      (q.command = .readEpisodes ∨ q.command = .readTime → field (q.bytes n) 2 2 = 0 ∧ field (q.bytes n) 4 1 = 0xFF) := by
  obtain ⟨hkey, hslot⟩ := q.target_fields n
  refine ⟨rfl, field_byte1 n _, rfl, rfl, fun key slot => ⟨fun h => ?_, fun h => ?_, ?_⟩⟩
  · rw [h] at hkey hslot
    exact ⟨hkey, hslot⟩
  · rw [h] at hkey hslot
    exact ⟨hkey, hslot⟩
  · rintro (h | h) <;> rw [h] at hkey hslot <;> exact ⟨hkey, hslot⟩

theorem commitResultBytes_failed (reason : CommitFailure) (index : Option Nat) :
    commitResultBytes (some (.failed reason index)) =
      [0x02, BitVec.ofNat 8 reason.code, BitVec.ofNat 8 (index.getD 0xFF)] := rfl

@[simp] theorem length_commitResultBytes (r : Option CommitResult) : (commitResultBytes r).length = 3 := by
  rcases r with _ | _ | _ <;> rfl

@[simp] theorem field_after_commitResult (r : Option CommitResult) (rest : List Byte) (k w : Nat) :
    field (commitResultBytes r ++ rest) (k + 3) w = field rest k w := field_skip (length_commitResultBytes r) k w

@[simp] theorem drop_after_commitResult (r : Option CommitResult) (rest : List Byte) (k : Nat) :
    (commitResultBytes r ++ rest).drop (k + 3) = rest.drop k := drop_skip (length_commitResultBytes r) k

@[simp] theorem take_commitResult (r : Option CommitResult) (rest : List Byte) :
    (commitResultBytes r ++ rest).take 3 = commitResultBytes r := List.take_left' (length_commitResultBytes r)

end Sys2Proof.Machine

/-! The data of the reply items, in the order of each command's rule. -/

namespace Sys2Proof.Machine

/-! ### Reply data as rows of quantities (R189) -/

theorem flatMap_byteBool (bs : List Bool) : bs.flatMap byteBool = bs.map (fun b => if b then 0x01 else 0x00) := by
  induction bs with
  | nil => rfl
  | cons b bs ih =>
    rw [List.flatMap_cons, List.map_cons, ih]
    cases b <;> rfl

/-- The image of an entry that may be absent, behind its flag byte. -/
def imageOrZero (held : Option LimitEntry) : List Byte := held.elim (List.replicate 28 0) LimitEntry.image

theorem flagged_image (held : Option LimitEntry) : flagged 28 (held.map LimitEntry.image) =
    byteBool held.isSome ++ imageOrZero held := by
  cases held <;> rfl

@[simp] theorem length_imageOrZero (held : Option LimitEntry) : (imageOrZero held).length = 28 := by
  cases held with
  | none => rfl
  | some e => simp [imageOrZero, LimitEntry.image]

@[simp] theorem take_imageOrZero (held : Option LimitEntry) (rest : List Byte) :
    (imageOrZero held ++ rest).take 28 = imageOrZero held := List.take_left' (length_imageOrZero held)

@[simp] theorem field_after_imageOrZero (held : Option LimitEntry) (rest : List Byte) (k w : Nat) :
    field (imageOrZero held ++ rest) (k + 28) w = field rest k w := field_skip (length_imageOrZero held) k w

theorem entryData_fields (index : Nat) (frozen : Bool) (held : Option LimitEntry) (active : Option Bool) :
    ∃ o, ReplyData.bytes (.entry index frozen held active) = o ∧ o.length = 34 ∧ field o 0 1 = index % 256 ∧
      field o 1 1 = held.isNone.toNat ∧ field o 2 1 = frozen.toNat ∧ field o 3 1 = held.isSome.toNat ∧
      (o.drop 4).take 28 = imageOrZero held ∧
      IsOptional o 32 1 (active.map Bool.toNat) := by
  have layout : ReplyData.bytes (.entry index frozen held active) = byte1 index ++ (byteBool held.isNone ++
      (byteBool frozen ++ (byteBool held.isSome ++ (imageOrZero held ++
      (byteBool active.isSome ++ byte1 ((active.map Bool.toNat).getD 0)))))) := by
    simp only [ReplyData.bytes, flagged_image, flagged_flag, List.append_assoc]
  refine ⟨_, layout, ?_⟩
  simp [IsOptional, toNat_bool]

theorem timeData_fields (moment : Moment) (weekday : Nat) (dayType : DayType) (band : Nat) (trim : Int) :
    ∃ o, ReplyData.bytes (.time moment weekday dayType band trim) = o ∧ o.length = 15 ∧ o.take 10 = moment.bytes ∧
      field o 10 1 = weekday % 256 ∧ field o 11 1 = dayType.code ∧ field o 12 1 = band % 256 ∧
      (field o 13 2 : Int) = trim % 65536 := by
  have layout : ReplyData.bytes (.time moment weekday dayType band trim) = moment.bytes ++ (byte1 weekday ++
      (byte1 dayType.code ++ (byte1 band ++ byte2 (BitVec.ofInt 16 trim).toNat))) := by
    simp only [ReplyData.bytes, List.append_assoc]
  refine ⟨_, layout, ?_⟩
  simp [DayType.code_mod]
  omega

/-- The last items of READ PLANT: the button, the certify input, the mark and its latch. -/
def plantTail (pressed asserted : Bool) (mark : Option Tick) (latch : Bool) : List Byte :=
  byteBool pressed ++ (byteBool asserted ++ (byteBool mark.isSome ++ (byteBool mark.isSome ++
    (byte4 ((mark.map (·.toNat)).getD 0) ++ byteBool latch))))

theorem plantTail_fields (pressed asserted : Bool) (mark : Option Tick) (latch : Bool) :
    (plantTail pressed asserted mark latch).length = 9 ∧
      field (plantTail pressed asserted mark latch) 0 1 = pressed.toNat ∧
      field (plantTail pressed asserted mark latch) 1 1 = asserted.toNat ∧
      field (plantTail pressed asserted mark latch) 2 1 = mark.isSome.toNat ∧
      IsOptional (plantTail pressed asserted mark latch) 3 4 (mark.map (·.toNat)) ∧
      field (plantTail pressed asserted mark latch) 8 1 = latch.toNat := by
  simp [plantTail, IsOptional, toNat_bool]

theorem plantData_layout (moment : Moment) (band : Nat) (bandStart : Moment) (lines : List PlantLine)
    (pressed asserted : Bool) (mark : Option Tick) (latch : Bool) :
    ReplyData.bytes (.plant moment band bandStart lines pressed asserted mark latch) =
      moment.bytes ++ BitVec.ofNat 8 band :: (bandStart.bytes ++ (lines.zipIdx.flatMap (fun p => p.1.bytes p.2) ++
        plantTail pressed asserted mark latch)) := by
  simp only [ReplyData.bytes, plantTail, tickFlagged_eq, List.append_assoc]
  rfl

theorem coincidenceData_fields (moment : Moment) (mask : SlotMask) (setting : Option Moment) :
    ∃ o, ReplyData.bytes (.coincidence moment mask setting) = o ∧ o.length = 23 ∧ o.take 10 = moment.bytes ∧
      field o 10 2 = mask.toNat ∧ IsOptionalMoment o 12 setting := by
  have layout : ReplyData.bytes (.coincidence moment mask setting) = moment.bytes ++ (byte2 mask.toNat ++
      (byteBool setting.isSome ++ momentOrZero setting)) := by
    simp only [ReplyData.bytes, momentFlagged_eq, List.append_assoc]
  refine ⟨_, layout, ?_⟩
  simp [isOptionalMoment_iff, slotSet_mod]

theorem noticesData_fields (moment : Moment) (waiting mask : NoticeSet) (latch : Bool) :
    ∃ o, ReplyData.bytes (.notices moment waiting mask latch) = o ∧ o.length = 15 ∧ o.take 10 = moment.bytes ∧
      field o 10 2 = waiting.toNat ∧ field o 12 2 = mask.toNat ∧ field o 14 1 = latch.toNat := by
  have layout : ReplyData.bytes (.notices moment waiting mask latch) = moment.bytes ++ (byte2 waiting.toNat ++
      (byte2 mask.toNat ++ byteBool latch)) := by
    simp only [ReplyData.bytes, List.append_assoc]
  refine ⟨_, layout, ?_⟩
  simp [noticeSet_mod, toNat_bool]

theorem cadenceData_fields (moment : Moment) (c : Cadence) :
    ∃ o, ReplyData.bytes (.cadence moment c) = o ∧ o.take 10 = moment.bytes ∧
      field o 10 2 = c.baseLatch % 65536 ∧ field o 12 1 = c.summaryLatch % 256 ∧ field o 13 2 = c.base % 65536 ∧
      field o 15 1 = c.summary % 256 ∧ field o 16 1 = c.second % 256 ∧ field o 17 1 = c.mode.code ∧
      field o 18 1 = c.running.toNat ∧ o.drop 19 = queryListBytes c.queries := by
  have layout : ReplyData.bytes (.cadence moment c) = moment.bytes ++ (byte2 c.baseLatch ++ (byte1 c.summaryLatch ++
      (byte2 c.base ++ (byte1 c.summary ++ (byte1 c.second ++ (byte1 c.mode.code ++ (byteBool c.running ++
      queryListBytes c.queries))))))) := by
    simp only [ReplyData.bytes, List.append_assoc]
  refine ⟨_, layout, ?_⟩
  simp [CadenceMode.code_mod, toNat_bool]

/-! ### The bins of READ HISTOGRAM (R89) -/

/-- Parts of one length stand one after another: what is behind the first `k` of them begins with part `k`. -/
theorem drop_flatMap {α : Type} {part : α → List Byte} {w : Nat} (hw : ∀ x, (part x).length = w) {xs : List α} {x : α} :
    ∀ {k : Nat}, xs[k]? = some x → ∃ rest, (xs.flatMap part).drop (w * k) = part x ++ rest := by
  induction xs with
  | nil => exact fun h => nomatch h
  | cons y ys ih =>
    intro k h
    cases k with
    | zero =>
      obtain rfl : y = x := Option.some.inj h
      exact ⟨_, rfl⟩
    | succ k =>
      obtain ⟨rest, hrest⟩ := ih h
      exact ⟨rest, by rw [List.flatMap_cons, Nat.mul_succ, drop_skip (hw y), hrest]⟩

theorem field_of_drop {o rest : List Byte} {m : Nat} (h : o.drop m = rest) (k w : Nat) :
    field o (m + k) w = field rest k w := by
  rw [field, field, ← List.drop_drop, h]

theorem histogramData_fields (moment : Moment) (slot : Nat) (isOpen : Bool) (start : Option Moment) (counted : Nat)
    (bins : List (Nat × Nat)) :
    ∃ o, ReplyData.bytes (.histogram moment slot isOpen start counted bins) = o ∧ o.take 10 = moment.bytes ∧
      field o 10 1 = slot % 256 ∧ field o 11 1 = isOpen.toNat ∧ IsOptionalMoment o 12 start ∧
      field o 23 4 = counted % 4294967296 ∧ field o 27 1 = bins.length % 256 ∧ o.length = 28 + 5 * bins.length ∧
      ∀ k bin n, bins[k]? = some (bin, n) →
        field o (28 + 5 * k) 1 = bin % 256 ∧ field o (29 + 5 * k) 4 = n % 4294967296 := by
  have layout : ReplyData.bytes (.histogram moment slot isOpen start counted bins) = moment.bytes ++ (byte1 slot ++
      (byteBool isOpen ++ (byteBool start.isSome ++ (momentOrZero start ++ (byte4 counted ++ (byte1 bins.length ++
      bins.flatMap (fun p => byte1 p.1 ++ byte4 p.2))))))) := by
    simp only [ReplyData.bytes, momentFlagged_eq, List.append_assoc]
  have bins_length : (bins.flatMap (fun p => byte1 p.1 ++ byte4 p.2)).length = 5 * bins.length := by
    simp [List.length_flatMap, Nat.mul_comm]
  refine ⟨_, layout, take_moment moment _, ?_⟩
  simp only [isOptionalMoment_iff, toNat_bool, List.length_append, bins_length]
  refine ⟨by simp, by simp, by simp, by simp, by simp, ?_, fun k bin n hk => ?_⟩
  · simp
    omega
  · obtain ⟨rest, hrest⟩ := drop_flatMap (part := fun p => byte1 p.1 ++ byte4 p.2) (w := 5) (fun _ => rfl) hk
    rw [Nat.add_comm 28, Nat.add_comm 29]
    have at_bin := field_of_drop hrest
    exact ⟨by simpa using at_bin 0 1, by simpa using at_bin 1 4⟩

/-! ### READ STATUS (R181) -/

/-- The last items of READ STATUS: the notice latch, the error and overrun counters and the fills. -/
def StatusReport.tail (r : StatusReport) : List Byte :=
  byteBool r.latch ++ (byte2 r.fieldErrors ++ (byte2 r.gatewayErrors ++ (byte2 r.forwardOverruns ++
    (byte2 r.controlOverruns ++ (byte1 r.forwardFill ++ (byte1 r.onwardFill ++ byte1 r.replyFill))))))

theorem StatusReport.tail_fields (r : StatusReport) : r.tail.length = 12 ∧ field r.tail 0 1 = r.latch.toNat ∧
    field r.tail 1 2 = r.fieldErrors % 65536 ∧ field r.tail 3 2 = r.gatewayErrors % 65536 ∧
    field r.tail 5 2 = r.forwardOverruns % 65536 ∧ field r.tail 7 2 = r.controlOverruns % 65536 ∧
    field r.tail 9 1 = r.forwardFill % 256 ∧ field r.tail 10 1 = r.onwardFill % 256 ∧
    field r.tail 11 1 = r.replyFill % 256 := by
  simp [StatusReport.tail, toNat_bool]

theorem beaconStatus_bytes (bs : List BeaconReport) :
    bs.flatMap (fun b => byte1 b.override.code ++ byteBool b.automatic ++ byteBool b.output) =
      bs.flatMap (fun b => [BitVec.ofNat 8 b.override.code, if b.automatic then 0x01 else 0x00,
        if b.output then 0x01 else 0x00]) := by
  congr 1
  funext b
  cases b.automatic <;> cases b.output <;> rfl

theorem StatusReport.layout (r : StatusReport) : r.bytes = r.moment.bytes ++ (byte1 r.strap.toNat ++
    (byteBool r.commitPending ++ (commitResultBytes r.lastResult ++ (byte1 r.clock.code ++ (byte1 r.band ++
    (byte1 r.plainInUse ++ (byte1 r.histInUse ++ (byte1 r.depth ++ (byte1 r.opened ++ (byte1 r.holdOff ++
    (byte1 r.closedWaiting ++ (byteBool r.certify ++ (byte1 r.queries ++
    (r.beacons.flatMap (fun b => [BitVec.ofNat 8 b.override.code, if b.automatic then 0x01 else 0x00,
      if b.output then 0x01 else 0x00]) ++ r.tail)))))))))))))) := by
  rw [← beaconStatus_bytes]
  unfold StatusReport.bytes StatusReport.tail
  simp only [List.append_assoc]

theorem StatusReport.fields (r : StatusReport) : r.bytes.take 10 = r.moment.bytes ∧
    field r.bytes 10 1 = r.strap.toNat ∧ field r.bytes 11 1 = r.commitPending.toNat ∧
    (r.bytes.drop 12).take 3 = commitResultBytes r.lastResult ∧ field r.bytes 15 1 = r.clock.code ∧
    field r.bytes 16 1 = r.band % 256 ∧ field r.bytes 17 1 = r.plainInUse % 256 ∧
    field r.bytes 18 1 = r.histInUse % 256 ∧ field r.bytes 19 1 = r.depth % 256 ∧ field r.bytes 20 1 = r.opened % 256 ∧
    field r.bytes 21 1 = r.holdOff % 256 ∧ field r.bytes 22 1 = r.closedWaiting % 256 ∧
    field r.bytes 23 1 = r.certify.toNat ∧ field r.bytes 24 1 = r.queries % 256 ∧
    r.bytes.drop 25 = r.beacons.flatMap (fun b => [BitVec.ofNat 8 b.override.code, if b.automatic then 0x01 else 0x00,
      if b.output then 0x01 else 0x00]) ++ r.tail := by
  rw [StatusReport.layout]
  simp [strap_mod, ClockState.code_mod, toNat_bool]

end Sys2Proof.Machine

/-! Readouts: what the queries answer, and the bytes of their answers. -/

namespace Sys2Proof.Machine

/-- The ticks since the last accepted slice of a link, as the obligations write them. -/
theorem elapsed_eq (l : SlotLink) (tick : Tick) : l.lastAccepted.map (fun t => tick - t) = (match l with
    | .live _ _ last => some (tick - last)
    | .stalled _ _ last => some (tick - last)
    | _ => none) := by
  cases l <;> rfl

theorem slotReport_eq (tick : Tick) (n : Nat) (r : SlotRecord) : slotReport tick n r = ⟨n, r.link, (match r.link with
    | .live _ _ last => some (tick - last)
    | .stalled _ _ last => some (tick - last)
    | _ => none), r.latest, r.counters, r.energy.leq, r.energy.count⟩ := by
  rw [← elapsed_eq]
  rfl

/-- Settles O50: the reads by their guards and cases, the layouts by the row of quantities each one is. -/
theorem readouts : Obligations.Readouts := by
  unfold Obligations.Readouts
  refine ⟨fun s => ⟨rfl, fun n h => readSlot_range h s, fun n r h hr => (readSlot_one h hr).trans ?_,
      ⟨_, rfl, length_slotReports s, fun n r hr => (slotReports_getElem? hr).trans ?_⟩,
      fun mask => ⟨members_ascend mask, mem_members mask⟩, fun slot => readWindow_key_zero slot s,
      fun key n h => readWindow_slot_range h key s,
      fun key slot hk hs => ⟨readWindow_missing hk hs, fun i e hf => ⟨fun n => readWindow_unnamed hk hs hf,
        fun n => readWindow_one hk hs hf, readWindow_all hk hs hf⟩⟩,
      fun i e n => ⟨_, rfl, ?_, fun h => ?_, fun h ha => ?_, fun w h ha expected hx => ?_,
        fun step k first rest h ha => ?_⟩, rfl⟩,
    ⟨?_, ?_, ?_, ?_, ?_, ?_, ?_, ?_, ?_, ?_, ?_⟩,
    ⟨fun r => ⟨_, rfl, r.fields⟩, fun n l => ⟨_, rfl, l.fields n⟩, fun r => ⟨_, rfl, r.fields⟩,
      fun e leq => ?_, fun r => ⟨_, rfl, ?_⟩, fun n q => ⟨_, rfl, q.fields n⟩,
      fun qs => rfl, rfl, rfl, commitResultBytes_failed⟩,
    fun index frozen held active => ?_, fun index answer => rfl,
    fun records isProtected exceptions band => ?_, timeData_fields, fun moment reports => rfl,
    fun moment band bandStart lines pressed asserted mark latch =>
      ⟨_, plantData_layout moment band bandStart lines pressed asserted mark latch,
        plantTail_fields pressed asserted mark latch⟩,
    coincidenceData_fields, fun moment index active reports => ?_, histogramData_fields,
    fun moment waiting reports => ?_, fun moment lines => rfl,
    fun mask => ⟨_, rfl, rfl, (field_byte2_last _).trans (noticeSet_mod mask)⟩, noticesData_fields, cadenceData_fields,
    fun qs => rfl, fun r => ?_⟩
  · exact congrArg (fun x => Answer.ok (.slots s.now [x])) (slotReport_eq s.clock.tickCount n r)
  · exact congrArg some (slotReport_eq s.clock.tickCount n r)
  · rw [State.windowReport]
    split <;> rfl
  · rw [windowReport_slice h]
    exact ⟨rfl, rfl⟩
  · rw [windowReport_windowed h, ha]
    exact ⟨rfl, rfl⟩
  · rw [windowReport_window h ha, hx]
    exact ⟨rfl, rfl⟩
  · obtain ⟨all, hall, hstart, total⟩ := ringTally_total first rest
    rw [windowReport_ring h ha hall, hstart]
    exact ⟨all, hall, total.counted, total.excluded, total.cut, total.overload, rfl, rfl⟩
  iterate 11 · intro x; cases x <;> rfl
  · obtain ⟨o, ho, fields⟩ := EpisodeReport.fields e leq
    refine ⟨o, ho, ?_⟩
    rcases h : e.state with _ | left <;> rw [h] at fields <;> exact fields
  · simp [BeaconReport.bytes, BeaconMode.code_mod, Override.code_mod, toNat_bool]
  · cases held <;> exact entryData_fields index frozen _ active
  · simp only [ReplyData.bytes, flatMap_byteBool, List.append_assoc]
    rfl
  · simp only [ReplyData.bytes, List.append_assoc]
    cases active <;> rfl
  · simp only [ReplyData.bytes, List.append_assoc]
    rfl
  · obtain ⟨hmoment, hstrap, hpending, hresult, hclock, hband, hplain, hhist, hdepth, hopened, hhold, hclosed, hcertify,
      hqueries, hbeacons⟩ := r.fields
    exact ⟨_, r.tail, rfl, hmoment, hstrap, hpending, hresult, hclock, hband, hplain, hhist, hdepth, hopened, hhold,
      hclosed, hcertify, hqueries, hbeacons, r.tail_fields⟩

end Sys2Proof.Machine

/-! The layouts of what the part sends: the envelope, the records of a report and the items of a reply. -/

namespace Sys2Proof.Machine

/-! ### The envelope (R184) -/

theorem byte2_word (w : BitVec 16) : byte2 w.toNat = [w.extractLsb' 8 8, w.extractLsb' 0 8] := by
  have high : BitVec.ofNat 8 (w.toNat / 256) = w.extractLsb' 8 8 := by
    apply BitVec.eq_of_toNat_eq
    rw [BitVec.toNat_ofNat, BitVec.extractLsb'_toNat, Nat.shiftRight_eq_div_pow]
  have low : BitVec.ofNat 8 w.toNat = w.extractLsb' 0 8 := by
    apply BitVec.eq_of_toNat_eq
    rw [BitVec.toNat_ofNat, BitVec.extractLsb'_toNat, Nat.shiftRight_zero]
  rw [byte2, high, low]

theorem envelope_layout (kind : FrameKind) (payload : List Byte) : envelope kind payload =
    0x7E :: BitVec.ofNat 8 kind.code :: BitVec.ofNat 8 payload.length :: (payload ++
      byte2 (checkOf (BitVec.ofNat 8 kind.code :: BitVec.ofNat 8 payload.length :: payload)).toNat) := rfl

theorem checkOf_snoc (bytes : List Byte) (b : Byte) :
    checkOf (bytes ++ [b]) = crcShifts 8 (checkOf bytes ^^^ (b.setWidth 16 <<< 8)) := List.foldl_concat crcByte _ b bytes

theorem crcShift_eq (c : BitVec 16) : crcShift c = (c <<< 1) ^^^ (if c.getLsbD 15 then 0x1021 else 0) := by
  have top : c.msb = c.getLsbD 15 := BitVec.msb_eq_getLsbD_last c
  rw [crcShift, top]
  split
  · rfl
  · exact (BitVec.xor_zero).symm

theorem strap_byte (m : BitVec 2) : BitVec.ofNat 8 m.toNat = m.setWidth 8 := by
  apply BitVec.eq_of_toNat_eq
  rw [BitVec.toNat_ofNat, BitVec.toNat_setWidth]

/-! ### Codes in their width -/

theorem Metric.code_mod (m : Metric) : m.code % 256 = m.code := by cases m <;> rfl

theorem WindowType.code_mod (w : WindowType) : w.code % 256 = w.code := by cases w <;> rfl

theorem Test.code_mod (t : Test) : t.code % 256 = t.code := by cases t <;> rfl

theorem CloseReason.code_mod (r : CloseReason) : r.code % 256 = r.code := by cases r <;> rfl

theorem Result.code_mod (r : Result) : r.code % 256 = r.code := by cases r <;> rfl

theorem RecordBody.code_mod (b : RecordBody) : b.code % 256 = b.code := by cases b <;> rfl

/-! ### Flag bytes -/

theorem fourFlags_bits (a b c d : Bool) (flags : Byte) (h : flags = BitVec.ofNat 8 (((if a then 1 else 0) +
    (if b then 2 else 0) + (if c then 4 else 0) + (if d then 8 else 0)) % 256)) :
    flags.getLsbD 0 = a ∧ flags.getLsbD 1 = b ∧ flags.getLsbD 2 = c ∧ flags.getLsbD 3 = d := by
  subst h
  revert a b c d
  decide

theorem fiveFlags_bits (a b c d e : Bool) (flags : Byte) (h : flags = BitVec.ofNat 8 (((if a then 1 else 0) +
    (if b then 2 else 0) + (if c then 4 else 0) + (if d then 8 else 0) + (if e then 16 else 0)) % 256)) :
    flags.getLsbD 0 = a ∧ flags.getLsbD 1 = b ∧ flags.getLsbD 2 = c ∧ flags.getLsbD 3 = d ∧
      flags.getLsbD 4 = e := by
  subst h
  revert a b c d e
  decide

/-! ### Records -/

theorem Moment.layout (m : Moment) : m.bytes = byte2 m.stamp.day ++ (byte3 m.stamp.eighth ++
    (byte1 m.stamp.clock.code ++ byte4 m.tick.toNat)) := by
  simp only [Moment.bytes, Stamp.bytes, List.append_assoc]

theorem Moment.fields (m : Moment) : m.bytes.length = 10 ∧ field m.bytes 0 2 = m.stamp.day % 65536 ∧
    field m.bytes 2 3 = m.stamp.eighth % 16777216 ∧ field m.bytes 5 1 = m.stamp.clock.code ∧
    field m.bytes 6 4 = m.tick.toNat := by
  rw [Moment.layout]
  simp [ClockState.code_mod, tick_mod]

/-- The flag byte of a VERDICT: negate, SUSPECT, CLOCK NOT RUNNING, TRUNCATED, peak present. -/
def Verdict.flags (v : Verdict) : Nat :=
  (if (Judged.codes v.judged).2.2.2.1 then 1 else 0) + (if v.suspect then 2 else 0) +
    (if v.clockNotRunning then 4 else 0) + (if v.truncated then 8 else 0) + (if v.peak.isSome then 16 else 0)

theorem Verdict.flags_lt (v : Verdict) : v.flags < 32 := by
  unfold Verdict.flags
  repeat' split
  all_goals decide

theorem Verdict.layout (v : Verdict) : v.bytes = byte2 v.number ++ (byte2 v.key ++ (byte1 v.index ++ (byte1 v.slot ++
    (byte2 (v.continuationOf.getD 0) ++ (byte1 (Judged.codes v.judged).1 ++ (byte1 (Judged.codes v.judged).2.1 ++
    (byte1 (Judged.codes v.judged).2.2.1 ++ (byte1 v.reason.code ++ (byte2 (Judged.codes v.judged).2.2.2.2 ++
    (v.start.bytes ++ (v.lastTrue.bytes ++ (v.close.bytes ++ (byte4 v.openTick.toNat ++ (byte4 v.duration.toNat ++
    (byte2 (v.peak.getD 0) ++ (byteLevel v.leq ++ (byte4 v.sliceCount ++ (byte2 v.reentries ++ (byteNumber v.primary ++
    (byte1 v.everActive.toNat ++ (byte2 v.coincident.toNat ++ byte1 v.flags))))))))))))))))))))) := by
  unfold Verdict.bytes Verdict.flags
  simp only [List.append_assoc]

theorem Verdict.fields (v : Verdict) : v.bytes.length = 67 ∧ field v.bytes 0 2 = v.number % 65536 ∧
    field v.bytes 2 2 = v.key % 65536 ∧ field v.bytes 4 1 = v.index % 256 ∧ field v.bytes 5 1 = v.slot % 256 ∧
    field v.bytes 6 2 = v.continuationOf.getD 0 % 65536 ∧ field v.bytes 11 1 = v.reason.code ∧
    (v.bytes.drop 14).take 10 = v.start.bytes ∧ (v.bytes.drop 24).take 10 = v.lastTrue.bytes ∧
    (v.bytes.drop 34).take 10 = v.close.bytes ∧ field v.bytes 44 4 = v.openTick.toNat ∧
    field v.bytes 48 4 = v.duration.toNat ∧ field v.bytes 52 2 = v.peak.getD 0 % 65536 ∧
    field v.bytes 54 2 = v.leq.getD 0xFFFF % 65536 ∧ field v.bytes 56 4 = v.sliceCount % 4294967296 ∧
    field v.bytes 60 2 = v.reentries % 65536 ∧ field v.bytes 62 1 = v.primary.getD 0xFF % 256 ∧
    field v.bytes 63 1 = v.everActive.toNat ∧ field v.bytes 64 2 = v.coincident.toNat ∧
    field v.bytes 66 1 = v.flags % 256 := by
  rw [Verdict.layout]
  simp [CloseReason.code_mod, tick_mod, byteSet_mod, slotSet_mod]

theorem Verdict.entry_fields (v : Verdict) : field v.bytes 8 1 = (Judged.codes v.judged).1 % 256 ∧
    field v.bytes 9 1 = (Judged.codes v.judged).2.1 % 256 ∧ field v.bytes 10 1 = (Judged.codes v.judged).2.2.1 % 256 ∧
    field v.bytes 12 2 = (Judged.codes v.judged).2.2.2.2 % 65536 := by
  rw [Verdict.layout]
  simp

/-- The three code bytes of a verdict without its entry, taken together. -/
theorem Verdict.codes_absent {v : Verdict} (h : v.judged = none) : field v.bytes 8 3 = 0 := by
  rw [Verdict.layout, h]
  simp [Judged.codes]
  rfl

theorem Verdict.flag_bits (v : Verdict) (flags : Byte) (h : flags = v.bytes.getD 66 0) :
    flags.getLsbD 0 = (Judged.codes v.judged).2.2.2.1 ∧ flags.getLsbD 1 = v.suspect ∧
      flags.getLsbD 2 = v.clockNotRunning ∧ flags.getLsbD 3 = v.truncated ∧ flags.getLsbD 4 = v.peak.isSome := by
  obtain ⟨hlength, -, -, -, -, -, -, -, -, -, -, -, -, -, -, -, -, -, -, hflags⟩ := v.fields
  rw [getD_eq_field (by omega), hflags] at h
  exact fiveFlags_bits _ _ _ _ _ flags h

/-- The flag byte of a WINDOW record: TRUNCATED, OVERLOAD seen, reference present, value present. -/
def WindowRecord.flags (r : WindowRecord) : Nat :=
  (if r.truncated then 1 else 0) + (if r.overload then 2 else 0) + (if r.reference.isSome then 4 else 0) +
    (if r.value.isSome then 8 else 0)

theorem WindowRecord.flags_lt (r : WindowRecord) : r.flags < 16 := by
  unfold WindowRecord.flags
  repeat' split
  all_goals decide

theorem WindowRecord.layout (r : WindowRecord) : r.bytes = byte2 r.key ++ (byte1 r.index ++ (byte1 r.slot ++
    (byte1 r.window.code ++ (byte1 r.metric.code ++ (byte1 r.test.code ++ (byte1 r.flags ++ (r.spanStart.bytes ++
    (r.close.bytes ++ (byte2 (r.value.getD 0) ++ (byte2 r.threshold ++ (byte2 (r.reference.getD 0) ++ (byte4 r.counted ++
    (byte4 r.excluded ++ (byte4 r.expected ++ byte1 r.coverage)))))))))))))) := by
  unfold WindowRecord.bytes WindowRecord.flags
  simp only [List.append_assoc]

theorem WindowRecord.fields (r : WindowRecord) : r.bytes.length = 47 ∧ field r.bytes 0 2 = r.key % 65536 ∧
    field r.bytes 2 1 = r.index % 256 ∧ field r.bytes 3 1 = r.slot % 256 ∧ field r.bytes 4 1 = r.window.code ∧
    field r.bytes 5 1 = r.metric.code ∧ field r.bytes 6 1 = r.test.code ∧ field r.bytes 7 1 = r.flags % 256 ∧
    (r.bytes.drop 8).take 10 = r.spanStart.bytes ∧ (r.bytes.drop 18).take 10 = r.close.bytes ∧
    field r.bytes 28 2 = r.value.getD 0 % 65536 ∧ field r.bytes 30 2 = r.threshold % 65536 ∧
    field r.bytes 32 2 = r.reference.getD 0 % 65536 ∧ field r.bytes 34 4 = r.counted % 4294967296 ∧
    field r.bytes 38 4 = r.excluded % 4294967296 ∧ field r.bytes 42 4 = r.expected % 4294967296 ∧
    field r.bytes 46 1 = r.coverage % 256 := by
  rw [WindowRecord.layout]
  simp [WindowType.code_mod, Metric.code_mod, Test.code_mod]

theorem WindowRecord.flag_bits (r : WindowRecord) (flags : Byte) (h : flags = r.bytes.getD 7 0) :
    flags.getLsbD 0 = r.truncated ∧ flags.getLsbD 1 = r.overload ∧ flags.getLsbD 2 = r.reference.isSome ∧
      flags.getLsbD 3 = r.value.isSome := by
  obtain ⟨hlength, -, -, -, -, -, -, hflags, -⟩ := r.fields
  rw [getD_eq_field (by omega), hflags] at h
  exact fourFlags_bits _ _ _ _ flags h

theorem SummaryRecord.layout (r : SummaryRecord) : r.bytes = r.moment.bytes ++ (byte2 r.dropped ++
    (byte2 r.fieldErrors ++ (byte2 r.gatewayErrors ++ (byte2 r.forwardOverruns ++ (byte2 r.controlOverruns ++
    (byte1 r.slots.length ++ (r.slots.flatMap SlotAccount.bytes ++ (byte1 r.lines.length ++
    (r.lines.flatMap LineAccount.bytes ++ (byte1 r.uncaptured.length ++
    r.uncaptured.flatMap UncapturedAccount.bytes)))))))))) := by
  simp only [SummaryRecord.bytes, List.append_assoc]

theorem SummaryRecord.fields (r : SummaryRecord) : r.bytes.take 10 = r.moment.bytes ∧
    field r.bytes 10 2 = r.dropped % 65536 ∧ field r.bytes 12 2 = r.fieldErrors % 65536 ∧
    field r.bytes 14 2 = r.gatewayErrors % 65536 ∧ field r.bytes 16 2 = r.forwardOverruns % 65536 ∧
    field r.bytes 18 2 = r.controlOverruns % 65536 ∧
    r.bytes.drop 20 = BitVec.ofNat 8 r.slots.length :: (r.slots.flatMap SlotAccount.bytes ++
      BitVec.ofNat 8 r.lines.length :: (r.lines.flatMap LineAccount.bytes ++
        BitVec.ofNat 8 r.uncaptured.length :: r.uncaptured.flatMap UncapturedAccount.bytes)) := by
  rw [SummaryRecord.layout]
  simp [byte1]

theorem SlotAccount.layout (a : SlotAccount) : a.bytes = byte1 a.slot ++ (byte1 a.link.code ++
    (byte1 (a.link.boundId.getD 0) ++ (byte2 a.counters.accepted ++ (byte2 a.counters.missing ++
    (byte2 a.counters.rejected ++ (byte2 a.counters.range ++ (byte2 a.counters.excluded ++ (byte2 a.counters.resyncs ++
    (byte2 a.counters.stalls ++ (byteLevel a.leq ++ byte4 a.count)))))))))) := by
  simp only [SlotAccount.bytes, SlotCounters.bytes, List.append_assoc]

theorem SlotAccount.fields (a : SlotAccount) : a.bytes.length = 23 ∧ field a.bytes 0 1 = a.slot % 256 ∧
    field a.bytes 1 1 = a.link.code ∧ field a.bytes 2 1 = a.link.boundId.getD 0 % 256 ∧
    field a.bytes 3 2 = a.counters.accepted % 65536 ∧ field a.bytes 5 2 = a.counters.missing % 65536 ∧
    field a.bytes 7 2 = a.counters.rejected % 65536 ∧ field a.bytes 9 2 = a.counters.range % 65536 ∧
    field a.bytes 11 2 = a.counters.excluded % 65536 ∧ field a.bytes 13 2 = a.counters.resyncs % 65536 ∧
    field a.bytes 15 2 = a.counters.stalls % 65536 ∧ field a.bytes 17 2 = a.leq.getD 0xFFFF % 65536 ∧
    field a.bytes 19 4 = a.count % 4294967296 := by
  rw [SlotAccount.layout]
  simp [SlotLink.code_mod]

theorem Mark.layout (m : Mark) : m.bytes = m.moment.bytes ++ (byte1 m.band ++ (byte1 m.levels.length ++
    m.levels.flatMap (fun p => byte1 p.1 ++ byteLevel p.2))) := by
  simp only [Mark.bytes, List.append_assoc]

theorem Mark.level_fields {m : Mark} {k slot : Nat} {level : Option Nat} (h : m.levels[k]? = some (slot, level)) :
    field m.bytes (12 + 3 * k) 1 = slot % 256 ∧ field m.bytes (13 + 3 * k) 2 = level.getD 0xFFFF % 65536 := by
  obtain ⟨rest, hrest⟩ := drop_flatMap (part := fun p => byte1 p.1 ++ byteLevel p.2) (w := 3) (fun _ => rfl) h
  have at_level := field_of_drop hrest
  rw [Mark.layout, Nat.add_comm 12, Nat.add_comm 13]
  exact ⟨by simpa using at_level 0 1, by simpa using at_level 1 2⟩

theorem QueryRecord.fields (r : QueryRecord) : field r.bytes 0 1 = r.position % 256 ∧
    r.bytes[1]? = some r.query.command.commandCode.byte ∧ field r.bytes 2 2 = r.query.command.keyField % 65536 ∧
    field r.bytes 4 1 = r.query.command.slotField.getD 0xFF % 256 ∧ r.bytes[5]? = some r.query.tag ∧
    r.bytes.drop 6 = r.item.bytes := by
  have layout : r.bytes = byte1 r.position ++ (byte1 r.query.command.commandCode.code ++
      (byte2 r.query.command.keyField ++ (byteNumber r.query.command.slotField ++ ([r.query.tag] ++ r.item.bytes)))) := by
    simp only [QueryRecord.bytes, Query.layout, List.append_assoc]
  rw [layout]
  refine ⟨by simp, rfl, by simp, by simp, rfl, rfl⟩

theorem AttentionRecord.fields (r : AttentionRecord) : r.bytes.length = 14 ∧ r.bytes.take 10 = r.moment.bytes ∧
    field r.bytes 10 2 = r.pending.toNat ∧ field r.bytes 12 2 = r.mask.toNat := by
  simp [AttentionRecord.bytes, noticeSet_mod]

theorem Record.fields (t : Tick) (body : RecordBody) : field (Record.content ⟨t, body⟩) 0 1 = body.code ∧
    field (Record.content ⟨t, body⟩) 1 4 = t.toNat ∧ (Record.content ⟨t, body⟩).drop 5 = body.bytes := by
  have layout : Record.content ⟨t, body⟩ = byte1 body.code ++ (byte4 t.toNat ++ body.bytes) := by
    simp only [Record.content, List.append_assoc]
  rw [layout]
  simp [RecordBody.code_mod, tick_mod]

/-! ### Replies -/

theorem ReplyItem.fields (i : ReplyItem) : i.bytes[0]? = some i.code ∧ field i.bytes 1 1 = i.result.code ∧
    field i.bytes 2 2 = i.data.bytes.length % 65536 ∧ i.bytes.drop 4 = i.data.bytes := by
  have layout : i.bytes = i.code :: (byte1 i.result.code ++ (byte2 i.data.bytes.length ++ i.data.bytes)) := by
    simp only [ReplyItem.bytes, List.append_assoc, List.cons_append, List.nil_append]
  rw [layout]
  refine ⟨rfl, ?_, ?_, rfl⟩
  · rw [field_after_cons i.code _ 0 1, field_byte1, Result.code_mod]
  · rw [field_after_cons i.code _ 1 2, field_after_byte1 i.result.code _ 0 2, field_byte2]

/-- Settles O40: each layout as the row of its quantities, and the run by the rule of its frames. -/
theorem recordLayouts : Obligations.RecordLayouts := by
  unfold Obligations.RecordLayouts
  refine ⟨⟨?_, ?_, ?_, ?_, ?_⟩, ⟨fun kind payload kindByte length check hk hl hc => ?_, rfl, checkOf_snoc,
      fun n c => ⟨rfl, congrArg (crcShifts n) (crcShift_eq c)⟩⟩,
    fun kind strap content n h0 hn h => ⟨(runOf_spec kind strap h0 hn h).1, fun k hk => ?_⟩,
    fun t body => ?_, fun m => ?_, fun v => ?_, fun r => ?_,
    ⟨SummaryRecord.fields, fun a => ?_, fun a => ?_, fun a => ?_⟩,
    ⟨fun m => ?_, fun r => ?_, AttentionRecord.fields⟩, fun r => ?_, fun i => ?_, rfl⟩
  iterate 5 · intro x; cases x <;> rfl
  · have kindCode : kindByte = BitVec.ofNat 8 kind.code := by
      rw [hk]
      cases kind <;> rfl
    rw [envelope_layout, hc, hl, kindCode, byte2_word]
  · rw [(runOf_spec kind strap h0 hn h).2 k hk, ← strap_byte]
    rfl
  · obtain ⟨hcode, htick, hbytes⟩ := Record.fields t body
    cases body <;> exact ⟨hcode, htick, hbytes⟩
  · obtain ⟨hlength, hday, heighth, hclock, htick⟩ := m.fields
    refine ⟨hlength, hday, heighth, hclock.trans ?_, htick⟩
    cases m.stamp.clock <;> rfl
  · obtain ⟨hlength, hnumber, hkey, hindex, hslot, hcontinuation, hreason, hstart, hlast, hclose, hopen, hduration,
      hpeak, hleq, hcount, hreentries, hprimary, hactive, hcoincident, hflags⟩ := v.fields
    obtain ⟨hmetric, hwindow, htest, hthreshold⟩ := v.entry_fields
    obtain ⟨hnegate, hsuspect, hnotRunning, htruncated, hpeaked⟩ := v.flag_bits _ rfl
    refine ⟨hlength, hnumber, hkey, hindex, hslot, hcontinuation, fun j hj => ?_, fun hj => ?_, hreason, hstart, hlast,
      hclose, hopen, hduration, hpeak, hleq, hcount, hreentries, hprimary, hactive, hcoincident, hsuspect, hnotRunning,
      htruncated, hpeaked, hflags.trans_lt ?_⟩
    · rw [hj] at hmetric hwindow htest hthreshold hnegate
      exact ⟨hmetric.trans j.metric.code_mod, hwindow.trans j.window.code_mod, htest.trans j.test.code_mod, hthreshold,
        hnegate⟩
    · rw [hj] at hthreshold hnegate
      exact ⟨Verdict.codes_absent hj, hthreshold, hnegate⟩
    · exact (Nat.mod_le _ _).trans_lt v.flags_lt
  · obtain ⟨hlength, hkey, hindex, hslot, hwindow, hmetric, htest, hflags, hspan⟩ := r.fields
    obtain ⟨htruncated, hoverload, hreference, hvalue⟩ := r.flag_bits _ rfl
    exact ⟨hlength, hkey, hindex, hslot, hwindow, hmetric, htest, htruncated, hoverload, hreference, hvalue,
      hflags.trans_lt ((Nat.mod_le _ _).trans_lt r.flags_lt), hspan⟩
  · obtain ⟨hlength, hslot, hlink, hid, hcounters⟩ := a.fields
    refine ⟨hlength, hslot, hlink.trans ?_, fun id h => ?_, hcounters⟩
    · cases a.link <;> rfl
    · rw [hid, h, Option.getD_some]
  · simp [LineAccount.bytes]
  · simp [UncapturedAccount.bytes]
  · refine ⟨take_moment m.moment _, ?_, ?_, ?_, fun k slot level => Mark.level_fields⟩ <;> rw [Mark.layout]
    · simp
    · simp
    · simp [List.length_flatMap]
      omega
  · obtain ⟨hposition, hcode, hkey, hslot, htag, hitem⟩ := r.fields
    refine ⟨hposition, hcode, fun key slot h => ?_, fun h => ?_, hslot, htag, hitem⟩
    · rw [hkey, h]
      rfl
    · rw [hkey]
      cases hc : r.query.command with
      | readWindow key slot => exact absurd hc (h key slot)
      | readSlot slot => rfl
      | readEpisodes => rfl
      | readTime => rfl
  · simp only [Reply.content, List.append_assoc]
    rfl
  · obtain ⟨hcode, hresult, hdata⟩ := i.fields
    refine ⟨hcode, hresult.trans ?_, hdata⟩
    cases i.result <;> rfl

end Sys2Proof.Machine

/-! Limit entry images: the image of an entry within R39 and R40 reads as that entry, and what reads as an entry is
within them. -/

namespace Sys2Proof.Machine

/-! ### Fields of an image with one byte set -/

/-- A field that does not hold the byte set. -/
theorem field_set {o : List Byte} {i k n : Nat} (x : Byte) (h : k + n ≤ i ∨ i < k) :
    field (o.set i x) k n = field o k n := by
  unfold field
  rcases h with h | h
  · rw [List.drop_set, if_neg (by omega), List.take_set_of_le (by omega)]
  · rw [List.drop_set_of_lt h]

/-- A part of a layout and what stands behind it. -/
theorem take_append_behind (o : List Byte) (k n : Nat) : (o.drop k).take n ++ o.drop (k + n) = o.drop k := by
  rw [← List.drop_drop, List.take_append_drop]

/-! ### The fields read back -/

theorem onlyIf_of {α : Type} {b : Bool} (h : b = true) (x : α) : onlyIf b x = some x := if_pos h

theorem metricOf_code {m : Metric} (hln : ∀ n, m = .ln n → 1 ≤ n ∧ n ≤ 99) (haux : ∀ a, m = .events a → a ≤ 1600) :
    metricOf m.code m.percentileField m.auxField = some m := by
  cases m with
  | ln n =>
    obtain ⟨h1, h99⟩ := hln n rfl
    have guard : (decide (1 ≤ n) && decide (n ≤ 99) && (0 == 0)) = true := by simp [h1, h99]
    exact onlyIf_of guard _
  | events a =>
    have guard : ((0 == 0) && decide (a ≤ 1600)) = true := by simp [haux a rfl]
    exact onlyIf_of guard _
  | _ => rfl

theorem divisorOf_iff {n m : Nat} : divisorOf n m = true ↔ 1 ≤ n ∧ n ∣ m := by
  simp [divisorOf, Nat.dvd_iff_mod_eq_zero]

theorem windowOf_code {w : WindowType} (hfixed : ∀ m, w = .fixed m → 1 ≤ m ∧ m ∣ 1440)
    (hrolling : ∀ s k, w = .rolling s k → 1 ≤ s ∧ s ∣ 3600 ∧ 2 ≤ k ∧ k ≤ 16) :
    windowOf w.code w.fields.1 w.fields.2.1 w.fields.2.2 = some w := by
  cases w with
  | fixed m => exact onlyIf_of (by simpa [WindowType.fields] using divisorOf_iff.2 (hfixed m rfl)) _
  | rolling s k =>
    obtain ⟨hs, hdvd, h2, h16⟩ := hrolling s k rfl
    have guard : ((0 == 0) && divisorOf s 3600 && decide (2 ≤ k) && decide (k ≤ 16)) = true := by
      simp [divisorOf_iff.2 ⟨hs, hdvd⟩, h2, h16]
    exact onlyIf_of guard _
  | _ => rfl

theorem testOf_code {t : Test} (h : ∀ k, t = .excess k → 1 ≤ k) : testOf t.code t.referenceField = some t := by
  cases t with
  | excess k => exact onlyIf_of (by simpa [Test.referenceField] using Nat.ne_of_gt (h k rfl)) _
  | _ => rfl

theorem actionOf_of_code (a : Action) : actionOf a.code = some a := by cases a <;> rfl

theorem episodes_action_iff {a : Action} : a.episodes = true ↔ a = .episode ∨ a = .both := by cases a <;> decide

theorem beaconOf_of {b : Option Nat} {a : Action} (h : ∀ l, b = some l → l ≤ 3 ∧ (a = .episode ∨ a = .both)) :
    beaconOf b.isSome (b.getD 0) a = some b := by
  cases b with
  | none => rfl
  | some l =>
    obtain ⟨hl, ha⟩ := h l rfl
    refine onlyIf_of ?_ _
    rw [episodes_action_iff.2 ha, Bool.and_true]
    exact decide_eq_true (Nat.lt_succ_of_le hl)

/-! ### The combinations of R40 and the threshold of R39 -/

theorem combinationAllowed_iff {m : Metric} {w : WindowType} {t : Test} : combinationAllowed m w t = true ↔
    (∀ n, m = .ln n → w = .band ∨ ∃ k, w = .fixed k) ∧ (w = .slice → m = .leq ∨ m = .lmax ∨ m = .lpeak) ∧
    (t = .countGe → ∃ a, m = .events a) ∧ (∀ a, m = .events a → t = .countGe ∨ t = .invalid ∨ t = .always) := by
  unfold combinationAllowed
  cases m with
  | ln n => cases w <;> cases t <;> simp
  | events a => cases w <;> cases t <;> simp
  | _ => cases t <;> simp

theorem thresholdAllowed_iff {t : Test} {n : Nat} :
    thresholdAllowed t n = true ↔ n ≤ if t = .countGe then 65535 else 1600 := by
  cases t <;> exact decide_eq_true_iff

/-! ### The image of an entry (R187) -/

theorem LimitEntry.layout (e : LimitEntry) : e.image = byte2 e.key ++ (byte2 e.slots.toNat ++ (byte2 e.bands.toNat ++
    (byte1 e.metric.code ++ (byte1 e.metric.percentileField ++ (byte2 e.metric.auxField ++ (byte1 e.window.code ++
    (byte2 e.window.fields.1 ++ (byte2 e.window.fields.2.1 ++ (byte1 e.window.fields.2.2 ++ (byte1 e.test.code ++
    (byte1 e.flagByte ++ (byte2 e.threshold ++ (byte2 e.test.referenceField ++ (byte1 e.minCoverage ++
    (byte1 e.action.code ++ (byte1 (e.beacon.getD 0) ++ (byte2 e.holdOff ++ byte1 e.maxLength))))))))))))))))) := by
  simp only [LimitEntry.image, List.append_assoc]

theorem LimitEntry.length_image (e : LimitEntry) : e.image.length = 28 := by
  rw [LimitEntry.layout]
  simp

theorem LimitEntry.flagByte_lt (e : LimitEntry) : e.flagByte < 8 := by
  unfold LimitEntry.flagByte
  repeat' split
  all_goals decide

theorem flagByte_bits (a b c : Bool) (flags : Byte)
    (h : flags = BitVec.ofNat 8 ((if a then 1 else 0) + (if b then 2 else 0) + (if c then 4 else 0))) :
    flags.getLsbD 0 = a ∧ flags.getLsbD 1 = b ∧ flags.getLsbD 2 = c := by
  subst h
  revert a b c
  decide

section
variable {e : LimitEntry} (h : e.Valid)
include h

theorem LimitEntry.Valid.percentile_lt : e.metric.percentileField < 256 := by
  have bound := h.percentile
  cases hm : e.metric with
  | ln n => exact (bound n hm).2.trans_lt (by decide)
  | _ => exact Nat.zero_lt_succ _

theorem LimitEntry.Valid.aux_lt : e.metric.auxField < 65536 := by
  have bound := h.aux
  cases hm : e.metric with
  | events a => exact (bound a hm).trans_lt (by decide)
  | _ => exact Nat.zero_lt_succ _

theorem LimitEntry.Valid.windowFields_lt :
    e.window.fields.1 < 65536 ∧ e.window.fields.2.1 < 65536 ∧ e.window.fields.2.2 < 256 := by
  have fixed := h.fixed
  have rolling := h.rolling
  cases hw : e.window with
  | fixed m => exact ⟨(Nat.le_of_dvd (by decide) (fixed m hw).2).trans_lt (by decide), Nat.zero_lt_succ _, Nat.zero_lt_succ _⟩
  | rolling s k =>
    obtain ⟨-, hs, -, hk⟩ := rolling s k hw
    exact ⟨Nat.zero_lt_succ _, (Nat.le_of_dvd (by decide) hs).trans_lt (by decide), hk.trans_lt (by decide)⟩
  | _ => decide

theorem LimitEntry.Valid.reference_lt : e.test.referenceField < 65536 := by
  have bound := h.reference
  cases ht : e.test with
  | excess k => exact Nat.lt_succ_of_le (bound k ht).2
  | _ => decide

theorem LimitEntry.Valid.threshold_lt : e.threshold < 65536 := by
  have bound := h.threshold
  split at bound <;> omega

theorem LimitEntry.Valid.beacon_lt : e.beacon.getD 0 < 256 := by
  have bound := h.beacon
  cases hb : e.beacon with
  | none => decide
  | some l => exact (bound l hb).1.trans_lt (by decide)

/-- The fields of the image of an entry within R39 (the table of load images). -/
theorem LimitEntry.Valid.image_fields : field e.image 0 2 = e.key ∧ field e.image 2 2 = e.slots.toNat ∧
    field e.image 4 2 = e.bands.toNat ∧ field e.image 6 1 = e.metric.code ∧
    field e.image 7 1 = e.metric.percentileField ∧ field e.image 8 2 = e.metric.auxField ∧
    field e.image 10 1 = e.window.code ∧ field e.image 11 2 = e.window.fields.1 ∧
    field e.image 13 2 = e.window.fields.2.1 ∧ field e.image 15 1 = e.window.fields.2.2 ∧
    field e.image 16 1 = e.test.code ∧ field e.image 17 1 = e.flagByte ∧ field e.image 18 2 = e.threshold ∧
    field e.image 20 2 = e.test.referenceField ∧ field e.image 22 1 = e.minCoverage ∧
    field e.image 23 1 = e.action.code ∧ field e.image 24 1 = e.beacon.getD 0 ∧ field e.image 25 2 = e.holdOff ∧
    field e.image 27 1 = e.maxLength := by
  obtain ⟨hfixed, hstep, hcount⟩ := h.windowFields_lt
  have hkey : e.key % 65536 = e.key := Nat.mod_eq_of_lt (Nat.lt_succ_of_le h.key.2)
  have hbands : e.bands.toNat % 65536 = e.bands.toNat := Nat.mod_eq_of_lt e.bands.isLt
  have hflags : e.flagByte % 256 = e.flagByte := Nat.mod_eq_of_lt (e.flagByte_lt.trans (by decide))
  have hcoverage : e.minCoverage % 256 = e.minCoverage := Nat.mod_eq_of_lt (h.minCoverage.2.trans_lt (by decide))
  have hhold : e.holdOff % 65536 = e.holdOff := Nat.mod_eq_of_lt (h.holdOff.trans_lt (by decide))
  have hmax : e.maxLength % 256 = e.maxLength := Nat.mod_eq_of_lt (h.maxLength.2.trans_lt (by decide))
  have haction : e.action.code % 256 = e.action.code := by cases e.action <;> rfl
  rw [LimitEntry.layout]
  simp [hkey, hbands, hflags, hcoverage, hhold, hmax, haction, slotSet_mod, Metric.code_mod, WindowType.code_mod,
    Test.code_mod, Nat.mod_eq_of_lt hfixed, Nat.mod_eq_of_lt hstep, Nat.mod_eq_of_lt hcount,
    Nat.mod_eq_of_lt h.percentile_lt, Nat.mod_eq_of_lt h.aux_lt, Nat.mod_eq_of_lt h.reference_lt,
    Nat.mod_eq_of_lt h.threshold_lt, Nat.mod_eq_of_lt h.beacon_lt]

theorem LimitEntry.Valid.image_flags : (imageFlags e.image).getLsbD 0 = e.negate ∧
    (imageFlags e.image).getLsbD 1 = decide (e.custody = .certified) ∧
    (imageFlags e.image).getLsbD 2 = e.beacon.isSome := by
  obtain ⟨-, -, -, -, -, -, -, -, -, -, -, hflags, -⟩ := h.image_fields
  refine flagByte_bits e.negate (decide (e.custody = .certified)) e.beacon.isSome _ ?_
  rw [imageFlags, getD_eq_field (by rw [LimitEntry.length_image]; decide), hflags, LimitEntry.flagByte]
  simp

theorem LimitEntry.Valid.combination : combinationAllowed e.metric e.window e.test = true :=
  combinationAllowed_iff.2 ⟨h.lnWindow, h.sliceMetric, h.countMetric, h.eventsTest⟩

/-- The image of an entry within R39 and R40 reads as that entry. -/
theorem LimitEntry.Valid.ofImage_image : LimitEntry.ofImage e.image = some e := by
  obtain ⟨hkey, hslots, hbands, hmetric, hpercentile, haux, hwindow, hfixed, hstep, hcount, htest, -, hthreshold,
    hreference, hcoverage, haction, hline, hhold, hmax⟩ := h.image_fields
  obtain ⟨hnegate, hcertified, hbeacon⟩ := h.image_flags
  have plain : plainFieldsAllowed e.image = true := by
    have slots_pos : e.slots.toNat ≠ 0 := fun h0 => h.slots (BitVec.eq_of_toNat_eq h0)
    have bands_pos : e.bands.toNat ≠ 0 := fun h0 => h.bands (BitVec.eq_of_toNat_eq h0)
    have key_pos := h.key.1
    simp only [plainFieldsAllowed, hkey, hslots, hbands, hcoverage, hhold, hmax, Bool.and_eq_true, bne_iff_ne,
      decide_eq_true_eq]
    exact ⟨⟨⟨⟨⟨⟨⟨⟨by omega, slots_pos⟩, e.slots.isLt⟩, bands_pos⟩, h.minCoverage.1⟩, h.minCoverage.2⟩, h.holdOff⟩,
      h.maxLength.1⟩, h.maxLength.2⟩
  have guard : (plainFieldsAllowed e.image && combinationAllowed e.metric e.window e.test &&
      thresholdAllowed e.test e.threshold) = true := by
    rw [plain, h.combination, thresholdAllowed_iff.2 h.threshold]
    rfl
  have custody : (if decide (e.custody = .certified) then Custody.certified else .site) = e.custody := by
    cases e.custody <;> rfl
  rw [LimitEntry.ofImage, hmetric, hpercentile, haux, metricOf_code h.percentile h.aux, Option.bind_some, hwindow, hfixed,
    hstep, hcount, windowOf_code h.fixed h.rolling, Option.bind_some, htest, hreference,
    testOf_code (fun k hk => (h.reference k hk).1), Option.bind_some, haction, actionOf_of_code, Option.bind_some, hbeacon,
    hline, beaconOf_of h.beacon, Option.bind_some, hthreshold, onlyIf_of guard, hkey, hslots, hbands, hnegate, hcertified,
    custody, hcoverage, hhold, hmax, BitVec.ofNat_toNat, BitVec.ofNat_toNat, BitVec.setWidth_eq, BitVec.setWidth_eq]

end

end Sys2Proof.Machine

/-! What reads as an entry is within R39 and R40, and its image is what was read; band, exception and plant images. -/

namespace Sys2Proof.Machine

/-! ### What reads as an entry (R39, R40, R187) -/

theorem metricOf_ranges {code percentile aux : Nat} {m : Metric} (h : metricOf code percentile aux = some m) :
    (∀ n, m = .ln n → 1 ≤ n ∧ n ≤ 99) ∧ (∀ a, m = .events a → a ≤ 1600) := by
  unfold metricOf at h
  split at h
  case h_6 => exact absurd h.symm (Option.some_ne_none _)
  all_goals
    obtain ⟨guard, rfl⟩ := onlyIf_some h
    simp at guard
    simp [guard]

theorem windowOf_ranges {code minutes step count : Nat} {w : WindowType} (h : windowOf code minutes step count = some w) :
    (∀ m, w = .fixed m → 1 ≤ m ∧ m ∣ 1440) ∧
      (∀ s k, w = .rolling s k → 1 ≤ s ∧ s ∣ 3600 ∧ 2 ≤ k ∧ k ≤ 16) := by
  unfold windowOf at h
  split at h
  case h_5 => exact absurd h.symm (Option.some_ne_none _)
  all_goals
    obtain ⟨guard, rfl⟩ := onlyIf_some h
    simp [divisorOf_iff] at guard
    simp [guard]

theorem testOf_ranges {code reference : Nat} {t : Test} (h : testOf code reference = some t) (k : Nat)
    (hk : t = .excess k) : 1 ≤ k ∧ k = reference := by
  unfold testOf at h
  split at h
  case h_7 => exact absurd h.symm (Option.some_ne_none _)
  case h_3 =>
    obtain ⟨guard, rfl⟩ := onlyIf_some h
    obtain rfl := Test.excess.inj hk
    exact ⟨Nat.one_le_iff_ne_zero.2 (bne_iff_ne.1 guard), rfl⟩
  all_goals
    obtain ⟨-, rfl⟩ := onlyIf_some h
    cases hk

theorem beaconOf_ranges {present : Bool} {line : Nat} {a : Action} {b : Option Nat} (h : beaconOf present line a = some b)
    (l : Nat) (hl : b = some l) : l ≤ 3 ∧ (a = .episode ∨ a = .both) := by
  unfold beaconOf at h
  split at h
  · obtain ⟨guard, rfl⟩ := onlyIf_some h
    obtain rfl := Option.some.inj hl
    obtain ⟨hline, ha⟩ := (Bool.and_eq_true _ _).mp guard
    exact ⟨Nat.le_of_lt_succ (of_decide_eq_true hline), episodes_action_iff.1 ha⟩
  · obtain ⟨-, rfl⟩ := onlyIf_some h
    cases hl

/-- What reads as an entry is within R39 and R40. -/
theorem LimitEntry.valid_of_ofImage {o : List Byte} {e : LimitEntry} (h : LimitEntry.ofImage o = some e) : e.Valid := by
  obtain ⟨-, hslots, hbands, -⟩ := LimitEntry.ofImage_fields h
  unfold LimitEntry.ofImage at h
  simp only [Option.bind_eq_some_iff] at h
  obtain ⟨m, hm, w, hw, t, ht, a, ha, b, hb, h⟩ := h
  obtain ⟨guard, rfl⟩ := onlyIf_some h
  simp only [plainFieldsAllowed, Bool.and_eq_true, decide_eq_true_eq, bne_iff_ne] at guard
  obtain ⟨⟨⟨⟨⟨⟨⟨⟨⟨⟨hkey, hslots0⟩, -⟩, hbands0⟩, hcov50⟩, hcov100⟩, hhold⟩, hmax1⟩, hmax240⟩, hcombination⟩,
    hthreshold⟩ := guard
  obtain ⟨hln, hslice, hcount, hevents⟩ := combinationAllowed_iff.1 hcombination
  obtain ⟨hpercentile, haux⟩ := metricOf_ranges hm
  obtain ⟨hfixed, hrolling⟩ := windowOf_ranges hw
  exact
    { key := ⟨Nat.one_le_iff_ne_zero.2 hkey, Nat.le_of_lt_succ (field_lt_two o 0)⟩
      slots := fun h0 => hslots0 (hslots.symm.trans (congrArg BitVec.toNat h0))
      bands := fun h0 => hbands0 (hbands.symm.trans (congrArg BitVec.toNat h0))
      percentile := hpercentile
      aux := haux
      fixed := hfixed
      rolling := hrolling
      reference := fun k hk => by
        obtain ⟨h1, rfl⟩ := testOf_ranges ht k hk
        exact ⟨h1, Nat.le_of_lt_succ (field_lt_two o 20)⟩
      threshold := thresholdAllowed_iff.1 hthreshold
      minCoverage := ⟨hcov50, hcov100⟩
      beacon := beaconOf_ranges hb
      holdOff := hhold
      maxLength := ⟨hmax1, hmax240⟩
      lnWindow := hln
      sliceMetric := hslice
      countMetric := hcount
      eventsTest := hevents }

/-- The image of what was read: the bytes read, the reserved bits of the flag byte cleared. -/
theorem LimitEntry.image_of_ofImage {o : List Byte} {e : LimitEntry} (ho : o.length = 28)
    (h : LimitEntry.ofImage o = some e) : e.image = o.set 17 (o.getD 17 0 &&& 0x07) := by
  obtain ⟨hkey, hslots, hbands, ⟨hmetric, hpercentile, haux⟩, ⟨hwindow, hfixed, hstep, hcount⟩, ⟨htest, hreference⟩,
    hflags, hthreshold, hcoverage, haction, ⟨-, hline, -⟩, hhold, hmax⟩ := LimitEntry.ofImage_fields h
  obtain ⟨p, hp⟩ : ∃ p, p = o.set 17 (o.getD 17 0 &&& 0x07) := ⟨_, rfl⟩
  have hlength : p.length = 28 := by rw [hp, List.length_set, ho]
  have kept {k n : Nat} (hk : k + n ≤ 17 ∨ 17 < k) : field o k n = field p k n := by rw [hp, field_set _ hk]
  have flags_kept : (o.getD 17 0 &&& 0x07).toNat = field p 17 1 := by
    rw [field_one, List.getD_eq_getElem?_getD (l := p), hp, List.getElem?_set_self (by omega)]
    rfl
  have two {k : Nat} (hk : k + 1 < 28) : byte2 (field p k 2) ++ p.drop (k + 2) = p.drop k := by
    rw [byte2_field (by omega), take_append_behind]
  have one {k : Nat} (hk : k < 28) : byte1 (field p k 1) ++ p.drop (k + 1) = p.drop k := by
    rw [byte1_field (by omega), take_append_behind]
  have last : byte1 (field p 27 1) = p.drop 27 := by
    rw [byte1_field (by omega), List.take_of_length_le (by rw [List.length_drop]; omega)]
  rw [← hp, LimitEntry.layout, hkey, hslots, hbands, hmetric, hpercentile, haux, hwindow, hfixed, hstep, hcount, htest,
    hreference, hflags, hthreshold, hcoverage, haction, hline, hhold, hmax, flags_kept]
  simp only [kept (k := 0) (n := 2) (by omega), kept (k := 2) (n := 2) (by omega), kept (k := 4) (n := 2) (by omega),
    kept (k := 6) (n := 1) (by omega), kept (k := 7) (n := 1) (by omega), kept (k := 8) (n := 2) (by omega),
    kept (k := 10) (n := 1) (by omega), kept (k := 11) (n := 2) (by omega), kept (k := 13) (n := 2) (by omega),
    kept (k := 15) (n := 1) (by omega), kept (k := 16) (n := 1) (by omega), kept (k := 18) (n := 2) (by omega),
    kept (k := 20) (n := 2) (by omega), kept (k := 22) (n := 1) (by omega), kept (k := 23) (n := 1) (by omega),
    kept (k := 24) (n := 1) (by omega), kept (k := 25) (n := 2) (by omega), kept (k := 27) (n := 1) (by omega)]
  rw [last, two (k := 25) (by omega), one (k := 24) (by omega), one (k := 23) (by omega), one (k := 22) (by omega),
    two (k := 20) (by omega), two (k := 18) (by omega), one (k := 17) (by omega), one (k := 16) (by omega),
    one (k := 15) (by omega), two (k := 13) (by omega), two (k := 11) (by omega), one (k := 10) (by omega),
    two (k := 8) (by omega), one (k := 7) (by omega), one (k := 6) (by omega), two (k := 4) (by omega),
    two (k := 2) (by omega), two (k := 0) (by omega), List.drop_zero]

/-- The reserved bits of the flag byte do not matter. -/
theorem LimitEntry.ofImage_set_flags {o : List Byte} (ho : o.length = 28) {flags : Byte}
    (h : flags &&& 0x07 = o.getD 17 0 &&& 0x07) : LimitEntry.ofImage (o.set 17 flags) = LimitEntry.ofImage o := by
  have mask_bits : ∀ k, k < 3 → (0x07 : Byte).getLsbD k = true := by decide
  have low_bits : ∀ x y : Byte, x &&& 0x07 = y &&& 0x07 → ∀ k, k < 3 → x.getLsbD k = y.getLsbD k := by
    intro x y hxy k hk
    have bit := congrArg (fun z => z.getLsbD k) hxy
    have mask : (0x07 : Byte).getLsbD k = true := mask_bits k hk
    simpa only [BitVec.getLsbD_and, mask, Bool.and_true] using bit
  have flags_set : imageFlags (o.set 17 flags) = flags := by
    rw [imageFlags, List.getD_eq_getElem?_getD, List.getElem?_set_self (by omega)]
    rfl
  have bits : ∀ k, k < 3 → (imageFlags (o.set 17 flags)).getLsbD k = (imageFlags o).getLsbD k := by
    rw [flags_set]
    exact low_bits flags _ h
  have kept {k n : Nat} (hk : k + n ≤ 17 ∨ 17 < k) : field (o.set 17 flags) k n = field o k n := field_set _ hk
  unfold LimitEntry.ofImage plainFieldsAllowed
  simp only [kept (k := 0) (n := 2) (by omega), kept (k := 2) (n := 2) (by omega), kept (k := 4) (n := 2) (by omega),
    kept (k := 6) (n := 1) (by omega), kept (k := 7) (n := 1) (by omega), kept (k := 8) (n := 2) (by omega),
    kept (k := 10) (n := 1) (by omega), kept (k := 11) (n := 2) (by omega), kept (k := 13) (n := 2) (by omega),
    kept (k := 15) (n := 1) (by omega), kept (k := 16) (n := 1) (by omega), kept (k := 18) (n := 2) (by omega),
    kept (k := 20) (n := 2) (by omega), kept (k := 22) (n := 1) (by omega), kept (k := 23) (n := 1) (by omega),
    kept (k := 24) (n := 1) (by omega), kept (k := 25) (n := 2) (by omega), kept (k := 27) (n := 1) (by omega),
    bits 0 (by decide), bits 1 (by decide), bits 2 (by decide)]

/-! ### What is refused (R183, R187) -/

theorem Metric.percentileField_absent {m : Metric} (h : m.code ≠ 4) : m.percentileField = 0 := by
  cases m with
  | ln n => exact absurd rfl h
  | _ => rfl

theorem Metric.auxField_absent {m : Metric} (h : m.code ≠ 5) : m.auxField = 0 := by
  cases m with
  | events a => exact absurd rfl h
  | _ => rfl

theorem WindowType.fixed_absent {w : WindowType} (h : w.code ≠ 2) : w.fields.1 = 0 := by
  cases w with
  | fixed m => exact absurd rfl h
  | _ => rfl

theorem WindowType.rolling_absent {w : WindowType} (h : w.code ≠ 4) : w.fields.2.1 = 0 ∧ w.fields.2.2 = 0 := by
  cases w with
  | rolling s k => exact absurd rfl h
  | _ => exact ⟨rfl, rfl⟩

theorem Test.referenceField_absent {t : Test} (h : t.code ≠ 3) : t.referenceField = 0 := by
  cases t with
  | excess k => exact absurd rfl h
  | _ => rfl

theorem Test.referenceField_present {t : Test} (h : t.code = 3) : t = .excess t.referenceField := by
  cases t with
  | excess k => rfl
  | _ => exact absurd h (by decide)

theorem Action.code_of_episodes {a : Action} (h : a.episodes = true) : ¬a.code ≤ 1 := by
  cases a <;> revert h <;> decide

/-- Slot bits above 11, a conditional field absent and not zero, a reference key 0, a beacon line that is absent and not
zero or that stands under NONE or REPORT. -/
theorem LimitEntry.ofImage_refused {o : List Byte}
    (h : 4096 ≤ field o 2 2 ∨ (field o 6 1 ≠ 4 ∧ field o 7 1 ≠ 0) ∨ (field o 6 1 ≠ 5 ∧ field o 8 2 ≠ 0) ∨
      (field o 10 1 ≠ 2 ∧ field o 11 2 ≠ 0) ∨ (field o 10 1 ≠ 4 ∧ (field o 13 2 ≠ 0 ∨ field o 15 1 ≠ 0)) ∨
      (field o 16 1 ≠ 3 ∧ field o 20 2 ≠ 0) ∨ (field o 16 1 = 3 ∧ field o 20 2 = 0) ∨
      ((o.getD 17 0).getLsbD 2 = false ∧ field o 24 1 ≠ 0) ∨
      ((o.getD 17 0).getLsbD 2 = true ∧ field o 23 1 ≤ 1)) : LimitEntry.ofImage o = none := by
  refine Option.eq_none_iff_forall_ne_some.2 fun e he => ?_
  have reference := (LimitEntry.valid_of_ofImage he).reference
  obtain ⟨-, hslots, -, ⟨hmetric, hpercentile, haux⟩, ⟨hwindow, hfixed, hstep, hcount⟩, ⟨htest, hreference⟩, -, -, -,
    haction, ⟨hpresent, hline, hepisodes⟩, -⟩ := LimitEntry.ofImage_fields he
  rw [← hslots, ← hmetric, ← hpercentile, ← haux, ← hwindow, ← hfixed, ← hstep, ← hcount, ← htest, ← hreference, ← haction,
    ← hline] at h
  obtain h | ⟨hc, hv⟩ | ⟨hc, hv⟩ | ⟨hc, hv⟩ | ⟨hc, hv⟩ | ⟨hc, hv⟩ | ⟨hc, hv⟩ | ⟨hf, hv⟩ | ⟨hf, hv⟩ := h
  · exact absurd e.slots.isLt (Nat.not_lt.2 h)
  · exact hv (Metric.percentileField_absent hc)
  · exact hv (Metric.auxField_absent hc)
  · exact hv (WindowType.fixed_absent hc)
  · obtain ⟨hs, hk⟩ := WindowType.rolling_absent hc
    exact hv.elim (· hs) (· hk)
  · exact hv (Test.referenceField_absent hc)
  · obtain ⟨hpos, -⟩ := reference _ (Test.referenceField_present hc)
    exact absurd hv (Nat.ne_of_gt hpos)
  · rw [hf] at hpresent
    rw [Option.isSome_eq_false_iff, Option.isNone_iff_eq_none] at hpresent
    exact hv (by rw [hpresent]; rfl)
  · exact Action.code_of_episodes (hepisodes hf) hv

end Sys2Proof.Machine

/-! Load images: the bytes of a field, and the band, exception and plant images. -/

namespace Sys2Proof.Machine

/-! ### The bytes of a field (R183) -/

theorem drop_of_getElem? {o : List Byte} {k : Nat} {a : Byte} (h : o[k]? = some a) : o.drop k = a :: o.drop (k + 1) := by
  obtain ⟨hk, rfl⟩ := List.getElem?_eq_some_iff.1 h
  exact List.drop_eq_getElem_cons hk

theorem field_two_bytes {o : List Byte} {k : Nat} {a b : Byte} (ha : o[k]? = some a) (hb : o[k + 1]? = some b) :
    field o k 2 = 256 * a.toNat + b.toNat := by
  rw [field, drop_of_getElem? ha, drop_of_getElem? hb]
  show (0 * 256 + a.toNat) * 256 + b.toNat = _
  omega

theorem field_three_bytes {o : List Byte} {k : Nat} {a b c : Byte} (ha : o[k]? = some a) (hb : o[k + 1]? = some b)
    (hc : o[k + 2]? = some c) : field o k 3 = 65536 * a.toNat + 256 * b.toNat + c.toNat := by
  rw [field, drop_of_getElem? ha, drop_of_getElem? hb, drop_of_getElem? hc]
  show ((0 * 256 + a.toNat) * 256 + b.toNat) * 256 + c.toNat = _
  omega

theorem recordsOf_getElem? {size count k : Nat} (h : k < count) (o : List Byte) :
    (recordsOf size count o)[k]? = some ((o.drop (size * k)).take size) := by
  rw [recordsOf, List.getElem?_map, List.getElem?_range h, Option.map_some]

/-! ### Band images (R33) -/

theorem bandOfImage_out {o : List Byte} (h : 14 ≤ field o 0 1) : bandOfImage o = none := if_pos h

theorem bandOfImage_in {o : List Byte} (h : field o 0 1 < 14) : bandOfImage o = (match field o 1 1 with
    | 0 => some (field o 0 1, none)
    | 1 => onlyIf (BitVec.ofNat 9 (field o 2 2) != 0 && field o 4 2 ≤ 1439 && 1 ≤ field o 6 2 && field o 6 2 ≤ 1440 &&
        field o 4 2 < field o 6 2) (field o 0 1, some ⟨BitVec.ofNat 9 (field o 2 2), field o 4 2, field o 6 2⟩)
    | _ => none) := if_neg (Nat.not_le.2 h)

theorem bandOfImage_undefined {o : List Byte} (h : field o 0 1 < 14) (hcode : field o 1 1 = 0) :
    bandOfImage o = some (field o 0 1, none) := by
  rw [bandOfImage_in h, hcode]
  rfl

theorem bandOfImage_code {o : List Byte} (h : 2 ≤ field o 1 1) : bandOfImage o = none := by
  rcases Nat.lt_or_ge (field o 0 1) 14 with hband | hband
  · rw [bandOfImage_in hband]
    split <;> first | omega | rfl
  · exact bandOfImage_out hband

theorem bandOfImage_defined {o : List Byte} (h : field o 0 1 < 14) (hcode : field o 1 1 = 1) : bandOfImage o =
    if BitVec.ofNat 9 (field o 2 2) ≠ 0 ∧ field o 4 2 ≤ 1439 ∧ field o 6 2 ≤ 1440 ∧ field o 4 2 < field o 6 2
      then some (field o 0 1, some ⟨BitVec.ofNat 9 (field o 2 2), field o 4 2, field o 6 2⟩) else none := by
  rw [bandOfImage_in h, hcode]
  refine if_congr ?_ rfl rfl
  simp only [Bool.and_eq_true, bne_iff_ne, decide_eq_true_eq]
  constructor
  · rintro ⟨⟨⟨⟨hdays, hstart⟩, -⟩, hstop⟩, hlt⟩
    exact ⟨hdays, hstart, hstop, hlt⟩
  · rintro ⟨hdays, hstart, hstop, hlt⟩
    exact ⟨⟨⟨⟨hdays, hstart⟩, Nat.one_le_of_lt hlt⟩, hstop⟩, hlt⟩

theorem daySet_mod (m : BitVec 9) : m.toNat % 65536 = m.toNat := Nat.mod_eq_of_lt (Nat.lt_trans m.isLt (by decide))

theorem bandImage_fields (band : Nat) (b : BandRecord) : (bandImage band (some b)).length = 8 ∧
    field (bandImage band (some b)) 0 1 = band % 256 ∧ field (bandImage band (some b)) 1 1 = 1 ∧
    field (bandImage band (some b)) 2 2 = b.days.toNat ∧ field (bandImage band (some b)) 4 2 = b.start % 65536 ∧
    field (bandImage band (some b)) 6 2 = b.stop % 65536 := by
  have layout : bandImage band (some b) = byte1 band ++ (byte1 1 ++ (byte2 b.days.toNat ++ (byte2 b.start ++
      byte2 b.stop))) := by
    simp only [bandImage, List.append_assoc]
  rw [layout]
  simp [daySet_mod]

theorem bandOfImage_image {band : Nat} {b : BandRecord} (hband : band < 14) (hdays : b.days ≠ 0) (hstart : b.start ≤ 1439)
    (hstop : b.stop ≤ 1440) (hlt : b.start < b.stop) : bandOfImage (bandImage band (some b)) = some (band, some b) := by
  obtain ⟨-, h0, h1, h2, h4, h6⟩ := bandImage_fields band b
  rw [Nat.mod_eq_of_lt (by omega)] at h0 h4 h6
  rw [bandOfImage_defined (h0.trans_lt hband) h1, h0, h2, h4, h6, BitVec.ofNat_toNat, BitVec.setWidth_eq,
    if_pos ⟨hdays, hstart, hstop, hlt⟩]

/-! ### Exception images (R31) -/

theorem exceptionImage_fields (x : ExceptionRecord) : x.image.length = 3 ∧ field x.image 0 2 = x.day % 65536 ∧
    field x.image 2 1 = x.dayType.code := by
  simp [ExceptionRecord.image, DayType.code_mod]

theorem dayType_of_code (d : DayType) : DayType.all[d.code]? = some d := by cases d <;> rfl

theorem exceptionOfImage_image {x : ExceptionRecord} (h : x.day ≤ 65535) : exceptionOfImage x.image = some x := by
  obtain ⟨-, hday, htype⟩ := exceptionImage_fields x
  rw [exceptionOfImage, htype, dayType_of_code, hday, Nat.mod_eq_of_lt (Nat.lt_succ_of_le h)]
  rfl

/-! ### Plant images (R121) -/

theorem plantImage_bytes (line : Nat) (r : PlantRecord) : r.image line = [BitVec.ofNat 8 line,
    if r.enabled then 0x01 else 0x00, if r.activeLevel = .high then 0x01 else 0x00, BitVec.ofNat 8 r.debounce,
    BitVec.ofNat 8 r.priority, BitVec.ofNat 8 r.linger] := by
  obtain ⟨enabled, level, debounce, priority, linger⟩ := r
  cases enabled <;> cases level <;> rfl

theorem plantImage_fields (line : Nat) (r : PlantRecord) : (r.image line).length = 6 ∧
    field (r.image line) 0 1 = line % 256 ∧ ((r.image line).getD 1 0).getLsbD 0 = r.enabled ∧
    field (r.image line) 2 1 = levelCode r.activeLevel ∧ field (r.image line) 3 1 = r.debounce % 256 ∧
    field (r.image line) 4 1 = r.priority % 256 ∧ field (r.image line) 5 1 = r.linger % 256 := by
  have layout : r.image line = byte1 line ++ (byteBool r.enabled ++ (byte1 (levelCode r.activeLevel) ++
      (byte1 r.debounce ++ (byte1 r.priority ++ byte1 r.linger)))) := by
    simp only [PlantRecord.image, List.append_assoc]
  have enabled : ((r.image line).getD 1 0).getLsbD 0 = r.enabled := by
    rw [plantImage_bytes]
    show (if r.enabled then (0x01 : Byte) else 0x00).getLsbD 0 = r.enabled
    cases r.enabled <;> rfl
  have level : levelCode r.activeLevel % 256 = levelCode r.activeLevel := by cases r.activeLevel <;> rfl
  refine ⟨rfl, ?_, enabled, ?_⟩
  all_goals
    rw [layout]
    simp [level]

theorem levelOf_eq (n : Nat) : levelOf n = if n ≤ 1 then some (if n = 0 then .low else .high) else none := by
  match n with
  | 0 => rfl
  | 1 => rfl
  | n + 2 => exact (if_neg (by omega)).symm

theorem plantOfImage_eq (o : List Byte) : plantOfImage o =
    if field o 0 1 < 8 ∧ field o 2 1 ≤ 1 ∧ 2 ≤ field o 3 1 ∧ field o 3 1 ≤ 15 ∧ field o 4 1 ≤ 7 ∧ field o 5 1 ≤ 60
      then some (field o 0 1, ⟨(o.getD 1 0).getLsbD 0, if field o 2 1 = 0 then .low else .high, field o 3 1, field o 4 1,
        field o 5 1⟩)
      else none := by
  rw [plantOfImage, levelOf_eq]
  by_cases hlevel : field o 2 1 ≤ 1
  · rw [if_pos hlevel, Option.bind_some]
    refine if_congr ?_ rfl rfl
    simp only [Bool.and_eq_true, decide_eq_true_eq]
    constructor
    · rintro ⟨⟨⟨⟨hline, h2⟩, h15⟩, hpriority⟩, hlinger⟩
      exact ⟨hline, hlevel, h2, h15, hpriority, hlinger⟩
    · rintro ⟨hline, -, h2, h15, hpriority, hlinger⟩
      exact ⟨⟨⟨⟨hline, h2⟩, h15⟩, hpriority⟩, hlinger⟩
  · rw [if_neg hlevel, if_neg (fun hall => hlevel hall.2.1)]
    rfl

theorem plantOfImage_image {line : Nat} {r : PlantRecord} (hline : line < 8) (h2 : 2 ≤ r.debounce) (h15 : r.debounce ≤ 15)
    (hpriority : r.priority ≤ 7) (hlinger : r.linger ≤ 60) : plantOfImage (r.image line) = some (line, r) := by
  obtain ⟨-, f0, f1, f2, f3, f4, f5⟩ := plantImage_fields line r
  rw [Nat.mod_eq_of_lt (by omega)] at f0 f3 f4 f5
  have level_le : levelCode r.activeLevel ≤ 1 := by cases r.activeLevel <;> decide
  have level_of : (if levelCode r.activeLevel = 0 then Level.low else .high) = r.activeLevel := by
    cases r.activeLevel <;> rfl
  rw [plantOfImage_eq, f0, f1, f2, f3, f4, f5, level_of, if_pos ⟨hline, level_le, h2, h15, hpriority, hlinger⟩]

/-- Settles O39: fields and records by their bytes; an entry's image reads back as it is, and only what is within R39 and
R40 reads; then the band, exception and plant images. -/
theorem loadImages : Obligations.LoadImages := by
  unfold Obligations.LoadImages
  refine ⟨fun o k a b c ha => ⟨?_, fun hb => ⟨field_two_bytes ha hb, fun hc => field_three_bytes ha hb hc⟩⟩,
    fun size count o => ⟨length_recordsOf size count o, fun k hk => recordsOf_getElem? hk o⟩,
    ⟨fun e h => ⟨e.length_image, h.ofImage_image⟩,
      fun o e ho h => ⟨LimitEntry.valid_of_ofImage h, LimitEntry.image_of_ofImage ho h⟩⟩,
    fun e at_ h hat => ?_,
    fun o at_ ho hat => ⟨fun h => LimitEntry.ofImage_refused (hat ▸ h), fun flags hf => LimitEntry.ofImage_set_flags ho hf⟩,
    ⟨fun band hband => ⟨rfl, fun b hdays hstart hstop hlt =>
      ⟨(bandImage_fields band b).1, bandOfImage_image hband hdays hstart hstop hlt⟩⟩,
    fun o at_ days ho hat hdays => ?_, fun x h => ⟨(exceptionImage_fields x).1, exceptionOfImage_image h⟩, fun o ho => rfl,
    fun line r hline h2 h15 hpriority hlinger =>
      ⟨plantImage_bytes line r, plantOfImage_image hline h2 h15 hpriority hlinger⟩,
    fun o at_ ho hat => hat ▸ plantOfImage_eq o⟩⟩
  · rw [field_one, List.getD_eq_getElem?_getD, ha]
    rfl
  · obtain ⟨hkey, hslots, hbands, hmetric, hpercentile, haux, hwindow, hfixed, hstep, hcount, htest, hflags, hthreshold,
      hreference, hcoverage, haction, hline, hhold, hmax⟩ := h.image_fields
    subst hat
    refine ⟨hkey, hslots, hbands, hmetric.trans ?_, hpercentile.trans ?_, haux.trans ?_, hwindow.trans ?_, hfixed.trans ?_,
      hstep.trans ?_, hcount.trans ?_, htest.trans ?_, hflags, hthreshold, hreference.trans ?_, hcoverage,
      haction.trans ?_, hline, hhold, hmax⟩
    · cases e.metric <;> rfl
    · cases e.metric <;> rfl
    · cases e.metric <;> rfl
    · cases e.window <;> rfl
    · cases e.window <;> rfl
    · cases e.window <;> rfl
    · cases e.window <;> rfl
    · cases e.test <;> rfl
    · cases e.test <;> rfl
    · cases e.action <;> rfl
  · subst hat hdays
    exact ⟨fun h => h.elim bandOfImage_out bandOfImage_code, bandOfImage_undefined, bandOfImage_defined⟩

end Sys2Proof.Machine

/-! The checks of a commit: the lowest index at fault, the first failing check, and what the failure leaves. -/

namespace Sys2Proof.Machine

/-! ### What a table needs (R60) -/

theorem sum_entries (t : EntryTable) (f : LimitEntry → Nat) :
    (t.entries.map (fun p => f p.2)).sum = (t.map (fun x => x.elim 0 f)).sum := by
  suffices h : ∀ (t : EntryTable) (k : Nat),
      (((t.zipIdx k).filterMap (fun p => p.1.map (fun e => (p.2, e)))).map (fun p => f p.2)).sum =
        (t.map (fun x => x.elim 0 f)).sum from h t 0
  intro t
  induction t with
  | nil => exact fun k => rfl
  | cons x t ih =>
    intro k
    cases x with
    | none => simpa using ih (k + 1)
    | some e => simpa using ih (k + 1)

/-! ### The lowest index at fault (R59) -/

section
variable {t : EntryTable} {q : Nat × LimitEntry → Bool} {P : Nat → Prop}
  (h : ∀ i, P i ↔ ∃ e, t.at i = some e ∧ q (i, e) = true)
include h

theorem lowest_entry_some {i : Nat} (hi : IsLowest P i) : (t.entries.find? q).map (·.1) = some i := by
  obtain ⟨hP, hlow⟩ := hi
  obtain ⟨e, hat, hq⟩ := (h i).1 hP
  rw [find_entries_some.2 ⟨hat, hq, fun j x hj hqx => Nat.not_lt.1 fun hlt => hlow j hlt ((h j).2 ⟨x, hj, hqx⟩)⟩,
    Option.map_some]

theorem lowest_entry_none (hnone : ∀ i, ¬P i) : (t.entries.find? q).map (·.1) = none := by
  rw [find_entries_none.2 fun i e hat => Bool.eq_false_iff.2 fun hq => hnone i ((h i).2 ⟨e, hat, hq⟩), Option.map_none]

end

theorem duplicate_iff {t : EntryTable} (i : Nat) : t.Duplicate i ↔
    ∃ e, t.at i = some e ∧ t.entries.any (fun x => x.1 != i && x.2.key == e.key) = true := by
  simp only [any_entries, Bool.and_eq_true, bne_iff_ne, beq_iff_eq]
  constructor
  · rintro ⟨e, j, f, hat, hj, hf, hkey⟩
    exact ⟨e, hat, j, f, hf, hj, hkey⟩
  · rintro ⟨e, hat, j, f, hf, hj, hkey⟩
    exact ⟨e, j, f, hat, hj, hf, hkey⟩

theorem isEvents_iff {m : Metric} : m.isEvents = true ↔ ∃ a, m = .events a := by cases m <;> simp [Metric.isEvents]

theorem reference_isSome_iff {t : Test} : t.reference.isSome = true ↔ ∃ k, t = .excess k := by
  cases t <;> simp [Test.reference]

/-- Without duplicates a key is held at one index. -/
theorem at_unique_of_no_duplicate {t : EntryTable} (h : ∀ i, ¬t.Duplicate i) {i j : Nat} {e f : LimitEntry}
    (hi : t.at i = some e) (hj : t.at j = some f) (hkey : f.key = e.key) : j = i ∧ f = e := by
  obtain rfl : j = i := by
    by_contra hne
    exact h i ⟨e, j, f, hi, hne, hj, hkey⟩
  exact ⟨rfl, Option.some.inj (hj.symm.trans hi)⟩

/-- A reference key without duplicates in the table. -/
theorem badReferenceKey_iff {t : EntryTable} (h : ∀ i, ¬t.Duplicate i) (own key : Nat) :
    t.badReferenceKey own key = true ↔ key = own ∨ ¬t.Holds key ∨
      ∃ j r, t.at j = some r ∧ r.key = key ∧ ((∃ k, r.test = .excess k) ∨ ∃ a, r.metric = .events a) := by
  rw [EntryTable.badReferenceKey, Bool.or_eq_true, beq_iff_eq]
  refine or_congr_right ?_
  cases hf : t.find key with
  | none =>
    have missing := find_eq_none.1 hf
    exact ⟨fun _ => .inl fun ⟨i, e, hat, hkey⟩ => missing i e hat hkey, fun _ => rfl⟩
  | some p =>
    obtain ⟨i, r⟩ := p
    obtain ⟨hat, ⟨x, hx, hxkey⟩, -⟩ := find_eq_some.1 hf
    obtain rfl : r = x := Option.some.inj (hat.symm.trans hx)
    show (r.test.reference.isSome || r.metric.isEvents) = true ↔ _
    rw [Bool.or_eq_true, reference_isSome_iff, isEvents_iff]
    constructor
    · exact fun hbad => .inr ⟨i, r, hat, hxkey, hbad⟩
    · rintro (hmissing | ⟨j, r', hat', hkey', hbad⟩)
      · exact absurd ⟨i, r, hat, hxkey⟩ hmissing
      · obtain ⟨-, rfl⟩ := at_unique_of_no_duplicate h hat hat' (hkey'.trans hxkey.symm)
        exact hbad

theorem badReference_iff {t : EntryTable} (h : ∀ i, ¬t.Duplicate i) (i : Nat) : t.BadReference i ↔
    ∃ e, t.at i = some e ∧ e.test.reference.any (t.badReferenceKey e.key) = true := by
  have any_iff : ∀ e : LimitEntry, e.test.reference.any (t.badReferenceKey e.key) = true ↔
      ∃ key, e.test = .excess key ∧ t.badReferenceKey e.key key = true := by
    intro e
    cases e.test <;> simp [Test.reference]
  simp only [any_iff, badReferenceKey_iff h]
  constructor
  · rintro ⟨e, key, hat, htest, hbad⟩
    exact ⟨e, hat, key, htest, hbad⟩
  · rintro ⟨e, hat, key, htest, hbad⟩
    exact ⟨e, key, hat, htest, hbad⟩

theorem undefinedBand_iff {t : EntryTable} {bands : List (Option BandRecord)} (i : Nat) : t.UndefinedBand bands i ↔
    ∃ e, t.at i = some e ∧ (List.range Config.userBands).any (fun b =>
      e.bands.getLsbD b && ((bands[b]?).join).isNone) = true := by
  have undefined_iff : ∀ b : Nat, (∀ r, bands[b]? ≠ some (some r)) ↔ ((bands[b]?).join).isNone = true := fun b => by
    rw [Option.isNone_iff_eq_none, Option.eq_none_iff_forall_ne_some]
    exact forall_congr' fun r => not_congr Option.join_eq_some_iff.symm
  simp only [List.any_eq_true, List.mem_range, Bool.and_eq_true, ← undefined_iff]
  constructor
  · rintro ⟨e, b, hat, hb, hset, hundefined⟩
    exact ⟨e, hat, b, hb, hset, hundefined⟩
  · rintro ⟨e, hat, b, hb, hset, hundefined⟩
    exact ⟨e, b, hat, hb, hset, hundefined⟩

/-! ### The first failing check (R59) -/

section
variable {s : State}

theorem commitFailure_duplicate {i : Nat} (h : s.table.staged.duplicateKey = some i) :
    s.commitFailure = some (.duplicateKey, some i) := by
  rw [State.commitFailure, h]

theorem commitFailure_reference {i : Nat} (hd : s.table.staged.duplicateKey = none)
    (h : s.table.staged.badReference = some i) : s.commitFailure = some (.badReference, some i) := by
  rw [State.commitFailure, hd, h]

theorem commitFailure_band {i : Nat} (hd : s.table.staged.duplicateKey = none)
    (hr : s.table.staged.badReference = none) (h : s.table.staged.undefinedBand s.schedule.stagedBands = some i) :
    s.commitFailure = some (.bandUndefined, some i) := by
  rw [State.commitFailure, hd, hr, h]

theorem commitFailure_pool (hd : s.table.staged.duplicateKey = none) (hr : s.table.staged.badReference = none)
    (hb : s.table.staged.undefinedBand s.schedule.stagedBands = none) :
    s.commitFailure = if 96 < s.table.staged.need then some (.poolExhausted, none)
      else if 24 < s.table.staged.histogramNeed then some (.histogramExhausted, none) else none := by
  rw [State.commitFailure, hd, hr, hb]
  rfl

end

/-! ### COMMIT_CHECKS -/

theorem exec_commitChecks_due {choice : SwapChoice} {s : State} (hdue : .commit ∈ s.due) (hpending : s.table.pending = true) :
    exec (.commitChecks choice) s = .next ((match s.commitFailure with
      | some (reason, index) => (s.clearDue .commit).endCommit (.failed reason index) .commitFailed
      | none => (s.clearDue .commit).swap choice)) := by
  have is_due : s.isDue .commit = true := List.contains_iff_mem.2 hdue
  show Host.Outcome.next (s.takeDue _ .commit) = _
  rw [State.takeDue, if_pos is_due]
  show Host.Outcome.next (State.checkCommit choice (s.clearDue .commit)) = _
  rw [State.checkCommit, if_pos (show (s.clearDue .commit).table.pending = true from hpending)]
  rfl

/-- Settles O14: each check finds the lowest index at fault, and a failure changes the result alone. -/
theorem failedCommit : Obligations.FailedCommit := by
  unfold Obligations.FailedCommit
  refine ⟨fun t slots hslots => ?_, fun s => ⟨fun i hi => commitFailure_duplicate ?_, fun hd => ?_⟩,
    fun choice s reason index hdue hpending hfail => ?_⟩
  · have need_of : ∀ e : LimitEntry, e.need = if e.window = .slice then 0 else slots e := fun e => by
      rw [hslots, LimitEntry.need]
      cases e.window <;> rfl
    constructor
    · refine (sum_entries t LimitEntry.need).trans (congrArg List.sum (List.map_congr_left fun x _ => ?_))
      cases x with
      | none => rfl
      | some e => exact need_of e
    · refine (sum_entries t (fun e => if e.metric.isLn then e.need else 0)).trans
        (congrArg List.sum (List.map_congr_left fun x _ => ?_))
      cases x with
      | none => rfl
      | some e =>
        show (if e.metric.isLn = true then e.need else 0) = (match e.metric with
          | .ln _ => if e.window = .slice then 0 else slots e
          | _ => 0)
        rw [need_of]
        cases e.metric <;> rfl
  · exact lowest_entry_some duplicate_iff hi
  · have no_duplicate : s.table.staged.duplicateKey = none := lowest_entry_none duplicate_iff hd
    have bad_reference_iff := badReference_iff hd
    refine ⟨fun i hi => commitFailure_reference no_duplicate (lowest_entry_some bad_reference_iff hi), fun hr => ?_⟩
    have no_bad_reference : s.table.staged.badReference = none := lowest_entry_none bad_reference_iff hr
    exact ⟨fun i hi => commitFailure_band no_duplicate no_bad_reference (lowest_entry_some undefinedBand_iff hi),
      fun hb => commitFailure_pool no_duplicate no_bad_reference (lowest_entry_none undefinedBand_iff hb)⟩
  · refine ⟨_, (exec_commitChecks_due hdue hpending).trans ?_, notified_raise .commitFailed _, rfl⟩
    rw [hfail]
    rfl

end Sys2Proof.Machine

/-! The closes of a swap: key by key the episodes whose key is withdrawn or redefined leave, and their verdicts are
offered (R61, R62, R110). -/

namespace Sys2Proof.Machine

/-! ### Closes of many reasons -/

/-- The verdicts of the episodes that close for a reason. -/
def State.closingVerdicts (closing : Episode → Option CloseReason) (s : State) : List Verdict :=
  s.episodes.current.filterMap (fun e => (closing e).map (fun reason => e.verdict s.table.active reason s.now))

/-- The episodes with a reason to close have left, and their verdicts are offered in some order. -/
def State.ClosesBy (closing : Episode → Option CloseReason) (s t : State) : Prop :=
  ∃ (u : State) (vs : List Verdict), s.Leaves (fun e => (closing e).isSome) u ∧
    vs.Perm (s.closingVerdicts closing) ∧ t = u.offerEach vs

theorem State.Leaves.table {named : Episode → Bool} {s u : State} (h : s.Leaves named u) : u.table = s.table := by
  rw [h.whole]

theorem State.Leaves.current {named : Episode → Bool} {s u : State} (h : s.Leaves named u) :
    u.episodes.current = s.episodes.current.filter (fun e => !named e) := by
  rw [h.whole]

theorem State.Leaves.now {named : Episode → Bool} {s u : State} (h : s.Leaves named u) : u.now = s.now := by
  rw [h.whole]
  rfl

theorem leaves_nothing (s : State) : s.Leaves (fun _ => false) s where
  whole := by
    have all_stay : s.episodes.current.filter (fun _ => !false) = s.episodes.current := List.filter_true _
    rw [all_stay]
  idle := fun _ => rfl
  follows := fun ⟨_, _, h⟩ => absurd h Bool.false_ne_true

theorem closesBy_nothing (s : State) : s.ClosesBy (fun _ => none) s :=
  ⟨s, [], leaves_nothing s, by simp [State.closingVerdicts], rfl⟩

theorem filterMap_of_guard {α β : Type} (named : α → Bool) (f : α → β) (xs : List α) :
    xs.filterMap (fun x => if named x then some (f x) else none) = (xs.filter named).map f := by
  induction xs with
  | nil => rfl
  | cons x xs ih =>
    cases h : named x
    · rw [List.filterMap_cons_none (by rw [h]; rfl), List.filter_cons_of_neg (by rw [h]; exact Bool.false_ne_true), ih]
    · rw [List.filterMap_cons_some (by rw [h]; rfl), List.filter_cons_of_pos h, List.map_cons, ih]

theorem closesBy_demandClose {named : Episode → Bool}
    (hn : ∀ a b : Episode, a.key = b.key → a.slot = b.slot → named a = named b) (r : CloseReason) (s : State) :
    s.ClosesBy (fun e => if named e then some r else none) (s.demandClose named r) := by
  obtain ⟨u, hu, heq⟩ := demandClose_eq hn r s
  have named_eq : (fun e => (if named e then some r else none).isSome) = named := by
    funext e
    cases named e <;> rfl
  have verdicts : s.closingVerdicts (fun e => if named e then some r else none) = s.verdictsOf named r := by
    rw [State.verdictsOf, ← filterMap_of_guard]
    refine congrArg (fun f => s.episodes.current.filterMap f) (funext fun e => ?_)
    dsimp only
    cases named e <;> rfl
  exact ⟨u, _, named_eq.symm ▸ hu, verdicts ▸ List.Perm.refl _, heq⟩

/-- What leaves for one reason first and what then leaves for the other, taken together. -/
theorem filterMap_or_perm {α β γ : Type} (f g : α → Option β) (h : α → β → γ) (xs : List α) :
    (xs.filterMap (fun x => (f x).map (h x)) ++
      (xs.filter (fun x => !(f x).isSome)).filterMap (fun x => (g x).map (h x))).Perm
        (xs.filterMap (fun x => ((f x).or (g x)).map (h x))) := by
  induction xs with
  | nil => exact .refl _
  | cons x xs ih =>
    cases hf : f x with
    | some b => simpa [hf] using ih.cons (h x b)
    | none =>
      cases hg : g x with
      | none => simpa [hf, hg] using ih
      | some b => simpa [hf, hg] using List.perm_middle.trans (ih.cons (h x b))

/-- Two leavings make one. -/
theorem State.Leaves.trans {f g : Episode → Bool} {s t u : State} (h : s.Leaves f t) (k : t.Leaves g u) :
    s.Leaves (fun e => f e || g e) u := by
  have filters : t.episodes.current.filter (fun e => !g e) = s.episodes.current.filter (fun e => !(f e || g e)) := by
    rw [h.current, List.filter_filter]
    refine List.filter_congr fun e _ => ?_
    cases f e <;> cases g e <;> rfl
  refine ⟨?_, fun hidle => ?_, fun hsome => ?_⟩
  · rw [← filters, k.whole, h.whole]
  · have hf : t = s := h.idle fun e he => (Bool.or_eq_false_iff.1 (hidle e he)).1
    have hg : u = t := k.idle fun e he => (Bool.or_eq_false_iff.1 (hidle e (hf ▸ he))).2
    rw [hg, hf]
  · by_cases hg : ∃ e, e ∈ t.episodes.current ∧ g e = true
    · by_cases hf : ∃ e, e ∈ s.episodes.current ∧ f e = true
      · refine (h.follows hf).trans (k.follows hg) fun i => ?_
        exact demand_ne_nil_of_sublist (by rw [k.current]; exact List.filter_sublist) k.table i
      · have hts : t = s := h.idle fun e he => Bool.eq_false_iff.2 fun hyes => hf ⟨e, he, hyes⟩
        exact hts ▸ k.follows hg
    · have hut : u = t := k.idle fun e he => Bool.eq_false_iff.2 fun hyes => hg ⟨e, he, hyes⟩
      obtain ⟨e, he, hyes⟩ := hsome
      rw [hut]
      refine h.follows ⟨e, he, ?_⟩
      by_contra hno
      rw [Bool.not_eq_true] at hno
      have stays : e ∈ t.episodes.current := by
        rw [h.current]
        exact List.mem_filter.2 ⟨he, by rw [hno]; rfl⟩
      exact hg ⟨e, stays, by simpa [hno] using hyes⟩

/-- A leaving after offers is the leaving, then the offers. -/
theorem leaves_offerEach {named : Episode → Bool} {u t : State} {vs : List Verdict} (h : (u.offerEach vs).Leaves named t) :
    ∃ w : State, u.Leaves named w ∧ t = w.offerEach vs := by
  obtain ⟨hwhole, hidle, hfollows⟩ := h
  rw [current_offerEach] at hwhole hidle hfollows
  obtain ⟨w, hw⟩ : ∃ w : State, w = { u with
    episodes := { u.episodes with current := u.episodes.current.filter (fun e => !named e) }
    beacons := t.beacons } := ⟨_, rfl⟩
  have ht : t = w.offerEach vs := by
    rw [offerEach_on (base := w) (s := u) (by rw [hw]; rfl) (by rw [hw]; rfl) vs, hwhole, offerEach_eq_offering vs u, hw]
    rfl
  refine ⟨w, ⟨?_, fun hno => ?_, fun hsome => ?_⟩, ht⟩
  · rw [hw]
  · have same_beacons : t.beacons = u.beacons := by rw [hidle hno, beacons_offerEach]
    have all_stay : u.episodes.current.filter (fun e => !named e) = u.episodes.current :=
      List.filter_eq_self.2 fun e he => by rw [hno e he]; rfl
    rw [hw, same_beacons, all_stay]
  · intro i b hb
    have followed := hfollows hsome i b (by rw [beacons_offerEach]; exact hb)
    have same_demand : t.demand i = w.demand i :=
      demand_congr (by rw [ht, current_offerEach]) (by rw [ht, (closed_offerEach vs w).table]) i
    rw [same_demand] at followed
    rw [hw]
    rw [hw] at followed
    exact followed

/-- Two closings make one. -/
theorem State.ClosesBy.trans {f g : Episode → Option CloseReason} {s t u : State} (h : s.ClosesBy f t)
    (k : t.ClosesBy g u) : s.ClosesBy (fun e => (f e).or (g e)) u := by
  obtain ⟨a, vs, ha, hvs, rfl⟩ := h
  obtain ⟨b, ws, hb, hws, rfl⟩ := k
  obtain ⟨c, hc, rfl⟩ := leaves_offerEach hb
  have either : (fun e => (f e).isSome || (g e).isSome) = fun e => ((f e).or (g e)).isSome :=
    funext fun e => Option.isSome_or.symm
  refine ⟨c, vs ++ ws, either ▸ ha.trans hc, ?_, (offerEach_append vs ws c).symm⟩
  have later : (a.offerEach vs).closingVerdicts g = (s.episodes.current.filter (fun e => !(f e).isSome)).filterMap
      (fun e => (g e).map (fun reason => e.verdict s.table.active reason s.now)) := by
    have hnow : (a.offerEach vs).now = s.now := by
      rw [← ha.now]
      exact congrArg Clock.now (closed_offerEach vs a).clock
    rw [State.closingVerdicts, current_offerEach, ha.current, (closed_offerEach vs a).table, ha.table, hnow]
  rw [later] at hws
  exact (hvs.append hws).trans (filterMap_or_perm f g (fun e reason => e.verdict s.table.active reason s.now) _)

/-! ### The closes of a swap -/

/-- The reason an episode closes for in a swap from the active table to the staged one (R61, R62, R110). -/
def LimitTable.swapClosing (t : LimitTable) (e : Episode) : Option CloseReason :=
  (t.active.find e.key).bind (fun p => closureAt p.2 ((t.staged.find e.key).map (·.2)) e.slot)

theorem closureAt_cases (old : LimitEntry) (new : Option LimitEntry) (slot : Nat) :
    closureAt old new slot = none ∨ closureAt old new slot = some .withdrawn ∨ closureAt old new slot = some .redefined := by
  unfold closureAt
  split
  · exact .inr (.inl rfl)
  · split
    · split
      · exact .inl rfl
      · exact .inr (.inl rfl)
    · exact .inr (.inr rfl)

theorem closesBy_closeKey (key : Nat) (s : State) :
    s.ClosesBy (fun e => if e.key = key then s.table.swapClosing e else none) (s.closeKey key) := by
  unfold State.closeKey
  cases hfind : s.table.active.find key with
  | none =>
    have nothing : (fun e : Episode => if e.key = key then s.table.swapClosing e else none) = fun _ => none := by
      funext e
      by_cases hk : e.key = key
      · rw [if_pos hk, LimitTable.swapClosing, hk, hfind]
        rfl
      · exact if_neg hk
    rw [nothing]
    exact closesBy_nothing s
  | some p =>
    obtain ⟨j, old⟩ := p
    have respects : ∀ r : CloseReason, ∀ a b : Episode, a.key = b.key → a.slot = b.slot →
        (a.key == key && closureAt old ((s.table.staged.find key).map (·.2)) a.slot == some r) =
          (b.key == key && closureAt old ((s.table.staged.find key).map (·.2)) b.slot == some r) := by
      intro r a b hk hslot
      rw [hk, hslot]
    have both := (closesBy_demandClose (respects .withdrawn) .withdrawn s).trans
      (closesBy_demandClose (respects .redefined) .redefined _)
    refine Eq.mp (congrArg (fun closing => s.ClosesBy closing _) (funext fun e => ?_)) both
    by_cases hk : e.key = key
    · have reason : s.table.swapClosing e = closureAt old ((s.table.staged.find key).map (·.2)) e.slot := by
        rw [LimitTable.swapClosing, hk, hfind]
        rfl
      rw [if_pos hk, reason, beq_iff_eq.2 hk]
      obtain h | h | h := closureAt_cases old ((s.table.staged.find key).map (·.2)) e.slot <;> rw [h] <;> rfl
    · rw [if_neg hk, beq_eq_false_iff_ne.2 hk]
      rfl

theorem closesBy_foldl (keys : List Nat) (s : State) :
    s.ClosesBy (fun e => if e.key ∈ keys then s.table.swapClosing e else none) (keys.foldl State.closeKey s) := by
  induction keys generalizing s with
  | nil => exact (funext fun e : Episode => if_neg (List.not_mem_nil (a := e.key))) ▸ closesBy_nothing s
  | cons key keys ih =>
    have rest := ih (s.closeKey key)
    rw [(judges_closeKey s key).table] at rest
    refine Eq.mp (congrArg (fun closing => s.ClosesBy closing _) (funext fun e => ?_)) ((closesBy_closeKey key s).trans rest)
    by_cases hk : e.key = key
    · rw [if_pos hk, if_pos (List.mem_cons.2 (.inl hk))]
      cases s.table.swapClosing e with
      | some r => rfl
      | none => rw [ite_self, Option.or_none]
    · by_cases hks : e.key ∈ keys
      · rw [if_neg hk, if_pos hks, if_pos (List.mem_cons_of_mem _ hks), Option.none_or]
      · rw [if_neg hk, if_neg hks, if_neg (fun h => (List.mem_cons.1 h).elim hk hks), Option.none_or]

/-- The closes of a swap: every episode with a reason, whatever keys the choice names first. -/
theorem closesBy_closeKeys (keys : List Nat) (s : State) : s.ClosesBy s.table.swapClosing (s.closeKeys keys) := by
  refine Eq.mp (congrArg (fun closing => s.ClosesBy closing _) (funext fun e => ?_))
    (closesBy_foldl (keys ++ s.table.active.keys) s)
  cases hfind : s.table.active.find e.key with
  | none =>
    have nothing : s.table.swapClosing e = none := by rw [LimitTable.swapClosing, hfind, Option.bind_none]
    rw [nothing, ite_self]
  | some p =>
    have held : e.key ∈ s.table.active.keys := by
      have hkey : p.2.key = e.key := by simpa using List.find?_some hfind
      exact List.mem_map.2 ⟨p, List.mem_of_find?_eq_some hfind, hkey⟩
    exact if_pos (List.mem_append_right _ held)

end Sys2Proof.Machine

/-! The beacon lines through a band decision: their settings stay, a flash phase stands exactly where the demand is not
empty, and a pulse runs on or starts again (R137, R139, R140). -/

namespace Sys2Proof.Machine

/-! ### A line from one state to another -/

/-- The line keeps its settings; its phase is none, the one it had or one begun afresh; its pulse is the one it had or,
in PULSE mode, one of full width. -/
structure BeaconLine.Tracks (b c : BeaconLine) : Prop where
  mode     : c.mode = b.mode
  width    : c.width = b.width
  override : c.override = b.override
  flash    : c.flash = none ∨ c.flash = b.flash ∨ c.flash = some ⟨true, 4⟩
  pulse    : c.pulse = b.pulse ∨ b.mode = .pulse ∧ c.pulse = 8 * b.width

theorem BeaconLine.Tracks.refl (b : BeaconLine) : b.Tracks b := ⟨rfl, rfl, rfl, .inr (.inl rfl), .inl rfl⟩

theorem BeaconLine.Tracks.trans {a b c : BeaconLine} (h : a.Tracks b) (k : b.Tracks c) : a.Tracks c where
  mode := k.mode.trans h.mode
  width := k.width.trans h.width
  override := k.override.trans h.override
  flash := by
    obtain hk | hk | hk := k.flash
    · exact .inl hk
    · rw [hk]
      exact h.flash
    · exact .inr (.inr hk)
  pulse := by
    obtain hk | ⟨hmode, hk⟩ := k.pulse
    · rw [hk]
      exact h.pulse
    · exact .inr ⟨h.mode.symm.trans hmode, by rw [hk, h.width]⟩

theorem tracks_follow (demanded : Bool) (b : BeaconLine) : b.Tracks (b.follow demanded) := by
  rw [follow_eq]
  refine ⟨rfl, rfl, rfl, ?_, .inl rfl⟩
  show (if _ then _ else _) = _ ∨ _
  split
  · exact .inr (by cases b.flash <;> simp)
  · exact .inl rfl

theorem follow_pulse (demanded : Bool) (b : BeaconLine) : (b.follow demanded).pulse = b.pulse := by rw [follow_eq]

theorem flash_follow (demanded : Bool) (b : BeaconLine) :
    (b.follow demanded).flash.isSome = true ↔ b.mode = .flash ∧ demanded = true := by
  rw [follow_eq]
  show Option.isSome (if _ then _ else _) = true ↔ _
  split
  · next h => exact ⟨fun _ => h, fun _ => by cases b.flash <;> rfl⟩
  · next h => exact ⟨fun hsome => absurd hsome Bool.false_ne_true, fun hyes => absurd hyes h⟩

theorem tracks_startPulse (b : BeaconLine) : b.Tracks b.startPulse := by
  unfold BeaconLine.startPulse
  split
  · next h => exact ⟨rfl, rfl, rfl, .inr (.inl rfl), .inr ⟨h, rfl⟩⟩
  · exact .refl b

theorem flash_startPulse (b : BeaconLine) : b.startPulse.flash = b.flash := by
  unfold BeaconLine.startPulse
  split <;> rfl

/-! ### All lines -/

/-- Every line of the one state is tracked by the other. -/
def State.BeaconsTrack (s t : State) : Prop :=
  ∀ (i : Nat) (b : BeaconLine), s.beacons[i]? = some b → ∃ c, t.beacons[i]? = some c ∧ b.Tracks c

/-- A flash phase stands exactly on the FLASH lines whose demand is not empty (R140). -/
def State.FlashesSettled (s : State) : Prop :=
  ∀ (i : Nat) (b : BeaconLine), s.beacons[i]? = some b → (b.flash.isSome = true ↔ b.mode = .flash ∧ s.demand i ≠ [])

theorem beaconsTrack_of_eq {s t : State} (h : t.beacons = s.beacons) : s.BeaconsTrack t :=
  fun _ b hb => ⟨b, h ▸ hb, .refl b⟩

theorem State.BeaconsTrack.trans {s t u : State} (h : s.BeaconsTrack t) (k : t.BeaconsTrack u) : s.BeaconsTrack u :=
  fun i b hb => by
    obtain ⟨c, hc, hbc⟩ := h i b hb
    obtain ⟨d, hd, hcd⟩ := k i c hc
    exact ⟨d, hd, hbc.trans hcd⟩

theorem State.Follows.beaconsTrack {s t : State} (h : s.Follows t) : s.BeaconsTrack t :=
  fun i b hb => ⟨_, h i b hb, tracks_follow _ b⟩

theorem flashesSettled_followDemand (s : State) : s.followDemand.FlashesSettled := by
  intro i c hc
  have at_line : s.followDemand.beacons[i]? = s.beacons[i]?.map (fun b => b.follow (!(s.demand i).isEmpty)) := by
    show (s.beacons.zipIdx.map _)[i]? = _
    rw [List.getElem?_map, List.getElem?_zipIdx, Option.map_map, Nat.zero_add]
    rfl
  rw [at_line, Option.map_eq_some_iff] at hc
  obtain ⟨b, -, rfl⟩ := hc
  rw [flash_follow, (tracks_follow _ b).mode]
  refine and_congr_right fun _ => ?_
  show _ ↔ s.demand i ≠ []
  simp

theorem demand_nil_of_places {s t : State} (hp : t.episodes.places = s.episodes.places)
    (ht : t.table.active = s.table.active) (i : Nat) :
    t.demand i = [] ↔ s.demand i = [] := by
  have nil_iff : ∀ u : State, u.demand i = [] ↔ ∀ p, p ∈ u.episodes.places → u.table.active.names p.1 i = false := by
    intro u
    unfold State.demand EpisodeTable.places
    rw [List.map_eq_nil_iff, List.filter_eq_nil_iff]
    simp
  rw [nil_iff, nil_iff, hp, ht]

/-- What an operation does to the lines: it tracks them, and keeps the phases settled. -/
structure State.Drives (s t : State) : Prop where
  track   : s.BeaconsTrack t
  settled : s.FlashesSettled → t.FlashesSettled

theorem State.Drives.trans {s t u : State} (h : s.Drives t) (k : t.Drives u) : s.Drives u :=
  ⟨h.track.trans k.track, fun hs => k.settled (h.settled hs)⟩

/-- The lines, the keys of the episodes and the active table are as they were. -/
theorem drives_same {s t : State} (hb : t.beacons = s.beacons) (hp : t.episodes.places = s.episodes.places)
    (ht : t.table.active = s.table.active) : s.Drives t :=
  ⟨beaconsTrack_of_eq hb, fun hs i b h => by
    rw [hb] at h
    rw [hs i b h]
    exact and_congr_right fun _ => not_congr (demand_nil_of_places hp ht i).symm⟩

theorem drives_refl (s : State) : s.Drives s := drives_same rfl rfl rfl

theorem drives_foldl {α : Type} {f : State → α → State} (hf : ∀ (s : State) a, s.Drives (f s a)) (xs : List α) (s : State) :
    s.Drives (xs.foldl f s) := by
  induction xs generalizing s with
  | nil => exact drives_refl s
  | cons x xs ih => exact (hf s x).trans (ih _)

/-- What has changed the episodes alone, and then made the lines follow. -/
theorem drives_followDemand {s t : State} (h : t.beacons = s.beacons) : s.Drives t.followDemand :=
  ⟨(beaconsTrack_of_eq h).trans (State.Follows.beaconsTrack (follows_followDemand t)),
    fun _ => flashesSettled_followDemand t⟩

theorem drives_told {s t : State} (h : s.Told t) : s.Drives t :=
  drives_same h.beacons (congrArg EpisodeTable.places h.episodes) (congrArg LimitTable.active h.table)

/-! ### The operations of the episode table -/

theorem drives_offerVerdict (v : Verdict) (s : State) : s.Drives (s.offerVerdict v) := by
  unfold State.offerVerdict
  split
  · exact drives_told (told_admit _ s)
  · exact drives_same rfl rfl rfl

theorem drives_modifyEpisode {f : Episode → Episode} (hf : ∀ e, (f e).key = e.key ∧ (f e).slot = e.slot) (key slot : Nat)
    (s : State) : s.Drives (s.modifyEpisode key slot f) :=
  drives_same rfl (places_modifyEpisode hf key slot s.episodes.current) rfl

theorem drives_closeOf (key slot : Nat) (r : CloseReason) (m : Moment) (s : State) : s.Drives (s.closeOf key slot r m) := by
  unfold State.closeOf
  split
  · next e _ =>
    rw [closeEpisode_eq]
    exact (drives_followDemand (s := s) (t := s.removeEpisode e.key e.slot) rfl).trans (drives_offerVerdict _ _)
  · exact drives_refl s

theorem drives_demandClose (named : Episode → Bool) (r : CloseReason) (s : State) : s.Drives (s.demandClose named r) :=
  drives_foldl (fun _ _ => drives_closeOf _ _ _ _ _) _ _

theorem drives_startPulses (key : Nat) (s : State) : s.Drives (s.startPulses key) := by
  have at_line : ∀ i, (s.startPulses key).beacons[i]? =
      s.beacons[i]?.map (fun b => if s.table.active.names key i then b.startPulse else b) := by
    intro i
    show (s.beacons.zipIdx.map _)[i]? = _
    rw [List.getElem?_map, List.getElem?_zipIdx, Option.map_map, Nat.zero_add]
    rfl
  refine ⟨fun i b hb => ⟨_, by rw [at_line, hb]; rfl, ?_⟩, fun hs i c hc => ?_⟩
  · split
    · exact tracks_startPulse b
    · exact .refl b
  · rw [at_line, Option.map_eq_some_iff] at hc
    obtain ⟨b, hb, rfl⟩ := hc
    have settled := hs i b hb
    show _ ↔ _ ∧ s.demand i ≠ []
    split
    · rw [flash_startPulse, (tracks_startPulse b).mode]
      exact settled
    · exact settled

theorem drives_openEpisode (o : Opening) (s : State) : s.Drives (s.openEpisode o) := by
  rw [openEpisode_eq]
  unfold State.tellOpened
  extract_lets s1 s2 s3
  have h1 : s1.beacons = s.beacons := by
    unfold s1
    split
    · rfl
    · obtain ⟨c, htold⟩ := coincide_whole o.slot o.lastTrue (partnerSlots o.slot s.episodes.current) (s.withOpened o)
      exact htold.beacons
  have h3 : s2.Drives s3 := by
    unfold s3
    split
    · exact drives_startPulses _ _
    · exact drives_refl _
  exact ((drives_followDemand h1).trans h3).trans (drives_told (told_raise _ _))

theorem drives_tryOpen (o : Opening) (s : State) : s.Drives (s.tryOpen o) := by
  unfold State.tryOpen
  split
  · exact drives_openEpisode o s
  · exact (drives_same (s := s) (t := { s with episodes := { s.episodes with
      uncaptured := s.episodes.uncaptured.modify o.index (bumpTo Config.max16) } }) rfl rfl rfl).trans
      (drives_told (told_raise _ _))

theorem drives_endTrueRun (h : Handed) (s : State) : s.Drives (s.endTrueRun h) := by
  unfold State.endTrueRun
  split
  · exact drives_closeOf _ _ _ _ _
  · refine (drives_same (s := s) (t := s.clearDue (.holdOff h.key h.slot)) rfl rfl rfl).trans (drives_modifyEpisode ?_ _ _ _)
    exact fun _ => ⟨rfl, rfl⟩

theorem drives_applyOutcome (h : Handed) (s : State) : s.Drives (s.applyOutcome h) := by
  unfold State.applyOutcome
  split
  · split
    · exact drives_tryOpen _ _
    · exact drives_refl s
  · refine (drives_modifyEpisode (f := Episode.markTruncated h) (fun _ => ⟨rfl, rfl⟩) h.key h.slot s).trans ?_
    extract_lets s1
    split
    · exact drives_modifyEpisode (f := Episode.extend h) (fun _ => ⟨rfl, rfl⟩) _ _ _
    · exact drives_endTrueRun h s1
    · exact drives_modifyEpisode (f := Episode.reenter h) (fun _ => ⟨rfl, rfl⟩) _ _ _
    · exact drives_refl s1

/-! ### The window engine and the band decision -/

theorem drives_evaluate (i slot : Nat) (e : LimitEntry) (r : Reading) (closing : Bool) (s : State) :
    s.Drives (s.evaluate i slot e r closing) := by
  unfold State.evaluate
  extract_lets cell reference raw final s1 s2
  have h1 : s.Drives s1 := drives_same rfl rfl rfl
  have h2 : s1.Drives s2 := by
    unfold s2
    split
    · exact drives_applyOutcome _ _
    · exact drives_refl _
  refine (h1.trans h2).trans ?_
  split
  · exact drives_told (told_offer _ _)
  · exact drives_refl _

theorem drives_setAcc (i slot : Nat) (a : Acc) (s : State) : s.Drives (s.setAcc i slot a) := drives_same rfl rfl rfl

theorem drives_openIdle (minute : Bool) (p : Nat × LimitEntry × Nat) (s : State) : s.Drives (s.openIdle minute p) := by
  rw [openIdle_eq]
  split
  · exact drives_setAcc _ _ _ _
  · exact drives_refl s

theorem drives_bandWindow (old : Nat) (minute : Bool) (p : Nat × LimitEntry × Nat) (s : State) :
    s.Drives (s.bandWindow old minute p) := by
  unfold State.bandWindow
  extract_lets now active
  split
  · exact (drives_setAcc _ _ _ _).trans (drives_evaluate _ _ _ _ _ _)
  · split
    · exact drives_refl s
    · split
      · exact drives_setAcc _ _ _ _
      · exact (drives_setAcc _ _ _ _).trans (drives_evaluate _ _ _ _ _ _)
  · split
    · exact drives_refl s
    · exact drives_setAcc _ _ _ _
  · split
    · exact drives_refl s
    · exact drives_openIdle _ _ _
  · exact drives_refl s

theorem drives_bandWindows (old : Nat) (minute : Bool) (s : State) : s.Drives (s.bandWindows old minute) :=
  drives_foldl (fun _ _ => drives_bandWindow _ _ _ _) _ _

theorem drives_decideBand (minute first : Bool) (s : State) : s.Drives (s.decideBand minute first) := by
  by_cases h : s.bandNow = s.clock.band
  · rw [decideBand_of_same h]
    exact drives_refl s
  · rw [decideBand_of_changed h]
    have clock : s.Drives (s.atClock { s.clock with band := s.bandNow }) := drives_same rfl rfl rfl
    have plant : ∀ u : State, u.Drives u.bandPlant := fun _ => drives_same rfl rfl rfl
    refine (clock.trans ?_).trans (plant _)
    unfold State.bandParts
    split
    · exact (drives_demandClose _ _ _).trans (drives_bandWindows _ _ _)
    · exact (drives_bandWindows _ _ _).trans (drives_demandClose _ _ _)

end Sys2Proof.Machine

/-! The swap of a commit: its stages, what each keeps, and the state it leaves (R36, R61 to R63, R66). -/

namespace Sys2Proof.Machine

/-! ### The stages of a swap -/

/-- The staged copies exchanged for the active ones, with what moves with the keys; the lines follow. -/
def State.exchanged (first : List (Nat × Nat)) (s : State) : State := (s.moveKeys first).followDemand.adoptSchedule

/-- The swap up to the exchange. -/
def State.swapped (c : SwapChoice) (s : State) : State := (s.closeKeys c.keys).exchanged c.plainFirst

/-- The swap up to the band decision. -/
def State.swapDecided (c : SwapChoice) (s : State) : State := (s.swapped c).decideBand false c.bandEndFirst

/-- Every pair of the active table that is IDLE opens where it can. -/
def State.openAll (s : State) : State := s.openIdles false (s.pairsWhere (fun _ _ => true))

theorem swap_eq (c : SwapChoice) (s : State) : s.swap c = (s.swapDecided c).openAll.endCommit .done .commitDone := rfl

theorem exec_commitChecks_swap {choice : SwapChoice} {s : State} (hdue : .commit ∈ s.due)
    (hpending : s.table.pending = true) (hpass : s.commitFailure = none) :
    exec (.commitChecks choice) s =
      .next ((((s.clearDue .commit).swapDecided choice).openAll).endCommit .done .commitDone) := by
  rw [exec_commitChecks_due hdue hpending, hpass, ← swap_eq]

/-! ### The exchange -/

section
variable (c : SwapChoice) (s : State)

theorem judges_closes : Judges s (s.closeKeys c.keys) := judges_closeKeys c.keys s

theorem swapped_clock : (s.swapped c).clock = s.clock := (judges_closes c s).clock

theorem swapped_table : (s.swapped c).table = { s.table with active := s.table.staged } :=
  congrArg (fun t : LimitTable => { t with active := t.staged }) (judges_closes c s).table

theorem swapped_schedule : (s.swapped c).schedule = { s.schedule with
    activeBands := s.schedule.stagedBands, activeExceptions := s.schedule.stagedExceptions } :=
  congrArg (fun x : Schedule => { x with activeBands := x.stagedBands, activeExceptions := x.stagedExceptions })
    (judges_closes c s).schedule

theorem swapped_windows : (s.swapped c).windows = s.windows.moved s.table.active s.table.staged c.plainFirst := by
  show (s.closeKeys c.keys).windows.moved _ _ _ = _
  rw [(judges_closes c s).windows, (judges_closes c s).table]

end

/-! ### Openings over all pairs (R70) -/

theorem evaluates_openAll (s : State) : Evaluates s s.openAll := evaluates_openIdles _ _ _

theorem kinds_openAll (s : State) : s.openAll.windows.kinds = s.windows.kinds := by
  unfold State.openAll State.openIdles
  generalize s.pairsWhere (fun _ _ => true) = ps
  induction ps generalizing s with
  | nil => rfl
  | cons p ps ih => exact (ih _).trans (kinds_openIdle _ _ _)

theorem drives_openAll (s : State) : s.Drives s.openAll := drives_foldl (fun _ _ => drives_openIdle _ _ _) _ _

theorem openAll_whole (s : State) : s.openAll = { s with windows := { s.windows with units := s.openAll.windows.units } } :=
  (foldl_units (openIdles_act false _ s.clock) (pairsWhere_ascend _ s) rfl).1

theorem beacons_openAll (s : State) : s.openAll.beacons = s.beacons := by
  rw [openAll_whole]

theorem unitAt_openAll {i slot : Nat} {e : LimitEntry} {a : PoolUnit} {s : State} (hat : s.table.active.at i = some e)
    (hslot : e.slots.getLsbD slot = true) (ha : s.windows.unitAt i slot = some a) :
    s.openAll.windows.unitAt i slot = some ⟨a.histogram,
      if a.acc = .idle ∧ e.bands.getLsbD s.clock.band = true ∧ s.clock.state = .running
        then e.openAcc s.now false else a.acc⟩ := by
  obtain ⟨-, hunits, -⟩ := foldl_units (openIdles_act false _ s.clock) (pairsWhere_ascend (fun _ _ => true) s) rfl
  have unit := hunits (i, e, slot) (mem_pairsWhere.2 ⟨hat, hslot, rfl⟩)
  refine unit.trans ?_
  rw [ha, Option.map_some, LimitEntry.opened]
  refine congrArg (fun x => some (PoolUnit.mk a.histogram x)) (if_congr (and_congr_right fun _ => ?_) rfl rfl)
  rw [Bool.and_eq_true, LimitEntry.activeIn, Clock.running, beq_iff_eq]

theorem unitAt_openAll_other {i slot : Nat} {s : State}
    (h : ∀ e, s.table.active.at i = some e → e.slots.getLsbD slot = false) :
    s.openAll.windows.unitAt i slot = s.windows.unitAt i slot := by
  obtain ⟨-, -, hothers⟩ := foldl_units (openIdles_act false _ s.clock) (pairsWhere_ascend (fun _ _ => true) s) rfl
  refine hothers i slot fun p hp ⟨hi, hs⟩ => ?_
  obtain ⟨hat, hslot, -⟩ := mem_pairsWhere.1 hp
  rw [hi] at hat
  rw [hs, h _ hat] at hslot
  exact Bool.false_ne_true hslot

/-! ### What a commit leaves unchanged -/

/-- The inputs, slots, cadence and held work are as they were; a line may have its band run count begun anew. -/
structure State.InputsKept (s t : State) : Prop where
  slots     : t.slots = s.slots
  cadence   : t.cadence = s.cadence
  held      : t.held = s.held
  mark      : t.plant.mark = s.plant.mark
  certify   : t.plant.certify = s.plant.certify
  markLatch : t.plant.markLatch = s.plant.markLatch
  strap     : t.ports.strap = s.ports.strap
  onward    : t.ports.onward = s.ports.onward
  lines     : ∀ (i : Nat) (l : PlantLine), s.plant.lines[i]? = some l →
                ∃ m : PlantLine, t.plant.lines[i]? = some m ∧ m = { l with bandRun := m.bandRun }

theorem State.InputsKept.trans {s t u : State} (h : s.InputsKept t) (k : t.InputsKept u) : s.InputsKept u where
  slots := k.slots.trans h.slots
  cadence := k.cadence.trans h.cadence
  held := k.held.trans h.held
  mark := k.mark.trans h.mark
  certify := k.certify.trans h.certify
  markLatch := k.markLatch.trans h.markLatch
  strap := k.strap.trans h.strap
  onward := k.onward.trans h.onward
  lines i l hl := by
    obtain ⟨m, hm, hml⟩ := h.lines i l hl
    obtain ⟨n, hn, hnm⟩ := k.lines i m hm
    refine ⟨n, hn, ?_⟩
    rw [hnm, hml]

theorem Evaluates.inputsKept {s t : State} (h : Evaluates s t) : s.InputsKept t :=
  ⟨h.slots, h.cadence, h.held, h.mark, h.certify, h.markLatch, h.strap, h.onward,
    fun _ l hl => ⟨l, h.lines ▸ hl, rfl⟩⟩

theorem inputsKept_same {s t : State} (hs : t.slots = s.slots) (hc : t.cadence = s.cadence) (hh : t.held = s.held)
    (hp : t.plant = s.plant) (hq : t.ports = s.ports) : s.InputsKept t := by
  refine ⟨hs, hc, hh, ?_, ?_, ?_, ?_, ?_, fun _ l hl => ⟨l, hp ▸ hl, rfl⟩⟩
  · rw [hp]
  · rw [hp]
  · rw [hp]
  · rw [hq]
  · rw [hq]

theorem inputsKept_bandPlant (s : State) : s.InputsKept s.bandPlant := by
  refine ⟨rfl, rfl, rfl, rfl, rfl, rfl, rfl, rfl, fun i l hl => ⟨{ l with bandRun := 0 }, ?_, rfl⟩⟩
  show (s.plant.lines.map _)[i]? = _
  rw [List.getElem?_map, hl]
  rfl

theorem inputsKept_decideBand (minute first : Bool) (s : State) : s.InputsKept (s.decideBand minute first) := by
  by_cases h : s.bandNow = s.clock.band
  · rw [decideBand_of_same h]
    exact (Evaluates.refl s).inputsKept
  · rw [decideBand_of_changed h]
    have clock : s.InputsKept (s.atClock { s.clock with band := s.bandNow }) := inputsKept_same rfl rfl rfl rfl rfl
    exact (clock.trans (evaluates_bandParts _ _ _ _).inputsKept).trans (inputsKept_bandPlant _)

theorem inputsKept_raise (n : Notice) (s : State) : s.InputsKept (s.raise n) := (emits_raise n s).judges.evaluates.inputsKept

/-- The state whose commit has ended with a result. -/
def State.withResult (r : CommitResult) (s : State) : State :=
  { s with table := { s.table with pending := false, lastResult := some r } }

theorem endCommit_eq (r : CommitResult) (n : Notice) (s : State) : s.endCommit r n = (s.withResult r).raise n := rfl

@[simp] theorem withResult_clock (r : CommitResult) (s : State) : (s.withResult r).clock = s.clock := rfl
@[simp] theorem withResult_schedule (r : CommitResult) (s : State) : (s.withResult r).schedule = s.schedule := rfl
@[simp] theorem withResult_windows (r : CommitResult) (s : State) : (s.withResult r).windows = s.windows := rfl
@[simp] theorem withResult_episodes (r : CommitResult) (s : State) : (s.withResult r).episodes = s.episodes := rfl
@[simp] theorem withResult_beacons (r : CommitResult) (s : State) : (s.withResult r).beacons = s.beacons := rfl
@[simp] theorem withResult_table (r : CommitResult) (s : State) :
    (s.withResult r).table = { s.table with pending := false, lastResult := some r } := rfl

theorem swap_told (c : SwapChoice) (s : State) :
    ((s.swapDecided c).openAll.withResult .done).Told (s.swap c) := by
  rw [swap_eq, endCommit_eq]
  exact told_raise _ _

theorem inputsKept_exchanged (first : List (Nat × Nat)) (s : State) : s.InputsKept (s.exchanged first) :=
  inputsKept_same rfl rfl rfl rfl rfl

theorem inputsKept_withResult (r : CommitResult) (s : State) : s.InputsKept (s.withResult r) :=
  inputsKept_same rfl rfl rfl rfl rfl

theorem inputsKept_swap (c : SwapChoice) (s : State) : s.InputsKept (s.swap c) := by
  rw [swap_eq, endCommit_eq]
  have exchange : s.InputsKept (s.swapped c) :=
    (judges_closes c s).evaluates.inputsKept.trans (inputsKept_exchanged c.plainFirst _)
  have opened : s.InputsKept (s.swapDecided c).openAll :=
    (exchange.trans (inputsKept_decideBand _ _ _)).trans (evaluates_openAll _).inputsKept
  exact (opened.trans (inputsKept_withResult .done _)).trans (inputsKept_raise _ _)

/-! ### The beacon lines of a swap (R137, R139, R140) -/

/-- What leaves without an opening: the lines are tracked, and no pulse starts. -/
def State.Quiets (s t : State) : Prop :=
  ∀ (i : Nat) (b : BeaconLine), s.beacons[i]? = some b → ∃ c, t.beacons[i]? = some c ∧ b.Tracks c ∧ c.pulse = b.pulse

theorem quiets_of_eq {s t : State} (h : t.beacons = s.beacons) : s.Quiets t :=
  fun _ b hb => ⟨b, h ▸ hb, .refl b, rfl⟩

theorem State.Follows.quiets {s t : State} (h : s.Follows t) : s.Quiets t :=
  fun i b hb => ⟨_, h i b hb, tracks_follow _ b, follow_pulse _ b⟩

theorem State.Quiets.trans {s t u : State} (h : s.Quiets t) (k : t.Quiets u) : s.Quiets u := fun i b hb => by
  obtain ⟨c, hc, hbc, hpulse⟩ := h i b hb
  obtain ⟨d, hd, hcd, hpulse'⟩ := k i c hc
  exact ⟨d, hd, hbc.trans hcd, hpulse'.trans hpulse⟩

theorem State.ClosesBy.quiets {closing : Episode → Option CloseReason} {s t : State} (h : s.ClosesBy closing t) :
    s.Quiets t := by
  obtain ⟨u, vs, hleaves, -, rfl⟩ := h
  refine State.Quiets.trans ?_ (quiets_of_eq (beacons_offerEach vs u))
  by_cases hsome : ∃ e, e ∈ s.episodes.current ∧ (closing e).isSome = true
  · exact (hleaves.follows hsome).quiets
  · rw [hleaves.idle fun e he => Bool.eq_false_iff.2 fun hyes => hsome ⟨e, he, hyes⟩]
    exact quiets_of_eq rfl

theorem quiets_swapped (c : SwapChoice) (s : State) : s.Quiets (s.swapped c) :=
  (closesBy_closeKeys c.keys s).quiets.trans
    (State.Follows.quiets (follows_followDemand ((s.closeKeys c.keys).moveKeys c.plainFirst)))

theorem flashesSettled_swapped (c : SwapChoice) (s : State) : (s.swapped c).FlashesSettled :=
  flashesSettled_followDemand ((s.closeKeys c.keys).moveKeys c.plainFirst)

theorem drives_withResult (r : CommitResult) (s : State) : s.Drives (s.withResult r) := drives_same rfl rfl rfl

theorem drives_afterExchange (c : SwapChoice) (s : State) : (s.swapped c).Drives (s.swap c) := by
  rw [swap_eq, endCommit_eq]
  have opened : (s.swapped c).Drives (s.swapDecided c).openAll := (drives_decideBand _ _ _).trans (drives_openAll _)
  exact (opened.trans (drives_withResult .done _)).trans (drives_told (told_raise _ _))

theorem beacon_swap {c : SwapChoice} {s : State} {i : Nat} {b : BeaconLine} (hb : s.beacons[i]? = some b) :
    ∃ d, (s.swap c).beacons[i]? = some d ∧ b.Tracks d ∧ (d.flash.isSome = true ↔ b.mode = .flash ∧ (s.swap c).demand i ≠ []) ∧
      ((s.swapped c).bandNow = (s.swapped c).clock.band → d.pulse = b.pulse) := by
  obtain ⟨x, hx, hbx, hpulse⟩ := quiets_swapped c s i b hb
  obtain ⟨htrack, hsettled⟩ := drives_afterExchange c s
  obtain ⟨d, hd, hxd⟩ := htrack i x hx
  have flash := hsettled (flashesSettled_swapped c s) i d hd
  rw [(hbx.trans hxd).mode] at flash
  refine ⟨d, hd, hbx.trans hxd, flash, fun hsame => ?_⟩
  have beacons : (s.swap c).beacons = (s.swapped c).beacons := by
    have decided : s.swapDecided c = s.swapped c := decideBand_of_same hsame
    rw [(swap_told c s).beacons, withResult_beacons, beacons_openAll, decided]
  rw [beacons, hx, Option.some.injEq] at hd
  rw [← hd, hpulse]

/-! ### The state after a swap -/

theorem bandNow_congr {s t : State} (hc : t.clock = s.clock) (hs : t.schedule = s.schedule) : t.bandNow = s.bandNow := by
  unfold State.bandNow State.dayType
  rw [hc, hs]

theorem bandKept_swapDecided (c : SwapChoice) (s : State) : (s.swapped c).BandKept (s.swapDecided c) :=
  bandKept_decideBand _ _ _

theorem swap_schedule (c : SwapChoice) (s : State) : (s.swap c).schedule = (s.swapped c).schedule := by
  rw [(swap_told c s).schedule, withResult_schedule, (evaluates_openAll _).schedule,
    (bandKept_swapDecided c s).schedule]

theorem swap_clock (c : SwapChoice) (s : State) :
    (s.swap c).clock = { s.clock with band := (s.swapped c).bandNow } := by
  rw [(swap_told c s).clock, withResult_clock, (evaluates_openAll _).clock, (bandKept_swapDecided c s).clock,
    swapped_clock]

theorem swap_bandNow (c : SwapChoice) (s : State) : (s.swap c).bandNow = (s.swapped c).bandNow := by
  have decided : (s.swap c).clock = (s.swapDecided c).clock := by
    rw [(swap_told c s).clock, withResult_clock, (evaluates_openAll _).clock]
  rw [← (bandKept_swapDecided c s).bandNow]
  exact bandNow_congr decided ((swap_schedule c s).trans (bandKept_swapDecided c s).schedule.symm)

theorem swap_table (c : SwapChoice) (s : State) :
    (s.swap c).table = ⟨s.table.staged, s.table.staged, s.table.frozen, false, some .done⟩ := by
  rw [(swap_told c s).table, withResult_table, (evaluates_openAll _).table, (bandKept_swapDecided c s).table,
    swapped_table]

theorem swap_kinds (c : SwapChoice) (s : State) :
    (s.swap c).windows.kinds = (s.windows.moved s.table.active s.table.staged c.plainFirst).kinds := by
  rw [(swap_told c s).windows, withResult_windows, kinds_openAll, (bandKept_swapDecided c s).kinds, swapped_windows]

theorem unitAt_of_kinds {w x : WindowEngine} (h : x.kinds = w.kinds) {i slot : Nat} {u : PoolUnit}
    (hu : x.unitAt i slot = some u) : ∃ v, w.unitAt i slot = some v ∧ v.histogram = u.histogram := by
  have kind : (w.unitAt i slot).map (·.histogram) = some u.histogram := by
    rw [unitAt_kind, ← h, ← unitAt_kind, hu, Option.map_some]
  exact Option.map_eq_some_iff.1 kind

/-- Settles O15: the swap by its stages, each with what it keeps. -/
theorem commitSwaps : Obligations.CommitSwaps := by
  unfold Obligations.CommitSwaps
  refine ⟨inUse_eq_filter, fun choice s hdue hpending hpass => ?_⟩
  obtain ⟨x, hx⟩ : ∃ x : State, x = s.clearDue .commit := ⟨_, rfl⟩
  have inputs : s.InputsKept (x.swap choice) := by
    rw [hx]
    have cleared : s.InputsKept (s.clearDue .commit) := inputsKept_same rfl rfl rfl rfl rfl
    exact cleared.trans (inputsKept_swap choice (s.clearDue .commit))
  have kinds := swap_kinds choice x
  refine ⟨x.swap choice, hx ▸ exec_commitChecks_swap hdue hpending hpass, notified_raise _ _, ?_, ?_, ?_,
    fun i slot hi hslot => ?_, fun hfrozen => ⟨?_, fun i slot e u hat hu => ⟨fun hln => ?_, fun hplain hhist => ?_⟩⟩,
    fun i b hb => ?_, inputs.slots, inputs.cadence, inputs.held, inputs.mark, inputs.certify, inputs.markLatch,
    inputs.strap, inputs.onward, inputs.lines⟩
  · rw [swap_table, hx]
    rfl
  · rw [swap_schedule, swapped_schedule, hx]
    rfl
  · rw [swap_bandNow, swap_clock, hx]
    rfl
  · rw [isSome_of_kinds kinds, unitAt_moved, if_pos ⟨hi, hslot⟩, movedUnit_isSome, hx]
    rfl
  · rw [inUse_eq_kinds, kinds, ← inUse_eq_kinds]
    refine (moved_plain_le _ _ _ _).trans ?_
    rw [length_plainHolders]
    exact Nat.min_le_left _ _
  · obtain ⟨v, hv, hkind⟩ := unitAt_of_kinds kinds hu
    rw [← hkind]
    exact moved_ln _ _ _ _ (by rw [hx]; exact hat) (isLn_iff.2 hln) hv
  · obtain ⟨v, hv, hkind⟩ := unitAt_of_kinds kinds hu
    have not_ln : e.metric.isLn = false := Bool.eq_false_iff.2 fun hln => by
      obtain ⟨n, hn⟩ := isLn_iff.1 hln
      exact hplain n hn
    rw [inUse_eq_kinds, kinds, ← inUse_eq_kinds]
    exact moved_plain_full _ _ _ _ (by rw [hx]; exact hfrozen.staged) (by rw [hx]; exact hat) not_ln hv
      (hkind.trans hhist)
  · obtain ⟨d, hd, htracks, hflash, hpulse⟩ := beacon_swap (c := choice) (s := x) (i := i) (b := b) (by rw [hx]; exact hb)
    refine ⟨d, hd, htracks.mode, htracks.width, htracks.override, hflash, htracks.flash, ?_⟩
    by_cases hband : (x.swapped choice).bandNow = (x.swapped choice).clock.band
    · exact .inl (hpulse hband)
    · have moved : (x.swap choice).clock.band ≠ s.clock.band := by
        rw [swap_clock]
        rw [swapped_clock, hx] at hband
        rw [hx]
        exact hband
      exact htracks.pulse.imp_right fun h => ⟨moved, h⟩

end Sys2Proof.Machine

/-! What a swap does to the accounts of each key: the cells, the accumulators, the counters and the episodes that move,
and those that start anew (R61 to R63, R83, R110). -/

namespace Sys2Proof.Machine

/-! ### Which accounts are carried (R61) -/

theorem sameDefinition_iff {a b : LimitEntry} :
    a.sameDefinition b = true ↔ a.metric = b.metric ∧ a.window = b.window ∧ a.bands = b.bands := by
  simp [LimitEntry.sameDefinition, and_assoc]

section
variable {old new : EntryTable} {e o : LimitEntry} {i j slot : Nat}

theorem carriedFrom_found (hfind : old.find e.key = some (j, o)) : old.carriedFrom e slot =
    if o.sameDefinition e && o.slots.getLsbD slot && e.slots.getLsbD slot then some j else none := by
  rw [EntryTable.carriedFrom, hfind]

theorem carriedFrom_kept (hfind : old.find e.key = some (j, o)) (hm : o.metric = e.metric) (hw : o.window = e.window)
    (hb : o.bands = e.bands) (ho : o.slots.getLsbD slot = true) (he : e.slots.getLsbD slot = true) :
    old.carriedFrom e slot = some j := by
  rw [carriedFrom_found hfind, sameDefinition_iff.2 ⟨hm, hw, hb⟩, ho, he]
  rfl

theorem carriedFrom_anew (hfind : old.find e.key = some (j, o)) (h : o.metric ≠ e.metric ∨ o.window ≠ e.window ∨
    o.bands ≠ e.bands ∨ o.slots.getLsbD slot = false ∨ e.slots.getLsbD slot = false) : old.carriedFrom e slot = none := by
  rw [carriedFrom_found hfind]
  refine if_neg fun hall => ?_
  rw [Bool.and_eq_true, Bool.and_eq_true, sameDefinition_iff] at hall
  obtain ⟨⟨⟨hm, hw, hb⟩, ho⟩, he⟩ := hall
  obtain h | h | h | h | h := h
  · exact h hm
  · exact h hw
  · exact h hb
  · exact Bool.false_ne_true (h.symm.trans ho)
  · exact Bool.false_ne_true (h.symm.trans he)

theorem carriedFrom_missing (hfind : old.find e.key = none) : old.carriedFrom e slot = none := by
  rw [EntryTable.carriedFrom, hfind]

variable (w : WindowEngine) (first : List (Nat × Nat)) (hi : i < 64) (hs : slot < 12)
include hi hs

theorem cellAt_moved_held (hat : new.at i = some e) :
    (w.moved old new first).cellAt i slot = (old.carriedFrom e slot).elim .empty (fun j => w.cellAt j slot) := by
  rw [cellAt_moved w old new first hi hs, WindowEngine.movedCell, hat, Option.bind_some]
  cases old.carriedFrom e slot <;> rfl

theorem cellAt_moved_empty (hat : new.at i = none) : (w.moved old new first).cellAt i slot = .empty := by
  rw [cellAt_moved w old new first hi hs, WindowEngine.movedCell, hat]
  rfl

theorem unitAt_moved_empty (hat : new.at i = none) : (w.moved old new first).unitAt i slot = none := by
  rw [unitAt_moved, if_pos (show i < Config.entryCount ∧ slot < Config.slotCount from ⟨hi, hs⟩), WindowEngine.movedUnit,
    hat]

theorem unitAt_moved_held (hat : new.at i = some e) : (w.moved old new first).unitAt i slot =
    if e.window.windowed && e.slots.getLsbD slot then
      some ⟨!(new.plainHolders first).contains (i, slot), w.movedAcc old e slot⟩ else none := by
  rw [unitAt_moved, if_pos (show i < Config.entryCount ∧ slot < Config.slotCount from ⟨hi, hs⟩), WindowEngine.movedUnit,
    hat]

/-- The contents of a pair carried over. -/
theorem accAt_moved_kept (hat : new.at i = some e) (hfrom : old.carriedFrom e slot = some j) (hwin : e.window ≠ .slice)
    (hslot : e.slots.getLsbD slot = true) : (w.moved old new first).accAt i slot = w.accAt j slot := by
  rw [WindowEngine.accAt, unitAt_moved_held w first hi hs hat, windowed_iff.2 hwin, hslot]
  show w.movedAcc old e slot = _
  rw [WindowEngine.movedAcc, hfrom]

/-- A pair that is not carried over is IDLE. -/
theorem accAt_moved_anew (hat : new.at i = some e) (hfrom : old.carriedFrom e slot = none) :
    (w.moved old new first).accAt i slot = .idle := by
  rw [WindowEngine.accAt, unitAt_moved_held w first hi hs hat]
  split
  · next u hu =>
    split at hu
    · rw [← Option.some.inj hu]
      show w.movedAcc old e slot = _
      rw [WindowEngine.movedAcc, hfrom]
    · cases hu
  · rfl

end

/-! ### The uncaptured counters (R63, R114) -/

section
variable {old new : EntryTable} {counters : List Nat} {i : Nat}

theorem movedCounter_kept {e o : LimitEntry} {j : Nat} (hat : new.at i = some e) (hfind : old.find e.key = some (j, o)) :
    movedCounter counters old new i = counters.getD j 0 := by
  rw [movedCounter, hat, Option.bind_some, hfind]

theorem movedCounter_anew {e : LimitEntry} (hat : new.at i = some e) (hfind : old.find e.key = none) :
    movedCounter counters old new i = 0 := by
  rw [movedCounter, hat, Option.bind_some, hfind]

theorem movedCounter_empty (hat : new.at i = none) : movedCounter counters old new i = 0 := by
  rw [movedCounter, hat, Option.bind_none]

end

/-! ### The closure of an episode (R61, R62) -/

theorem closureAt_withdrawn (old : LimitEntry) (slot : Nat) : closureAt old none slot = some .withdrawn := rfl

theorem closureAt_redefined {old e : LimitEntry} (h : old.metric ≠ e.metric ∨ old.window ≠ e.window ∨ old.bands ≠ e.bands)
    (slot : Nat) : closureAt old (some e) slot = some .redefined := by
  refine if_neg fun hsame => ?_
  obtain ⟨hm, hw, hb⟩ := sameDefinition_iff.1 hsame
  exact h.elim (· hm) fun h => h.elim (· hw) (· hb)

theorem closureAt_same {old e : LimitEntry} (hm : old.metric = e.metric) (hw : old.window = e.window)
    (hb : old.bands = e.bands) (slot : Nat) : closureAt old (some e) slot =
      if e.slots.getLsbD slot && e.action.episodes then none else some .withdrawn :=
  if_pos (sameDefinition_iff.2 ⟨hm, hw, hb⟩)

theorem closureAt_kept {old e : LimitEntry} {slot : Nat} (hm : old.metric = e.metric) (hw : old.window = e.window)
    (hb : old.bands = e.bands) (hs : e.slots.getLsbD slot = true) (ha : e.action = .episode ∨ e.action = .both) :
    closureAt old (some e) slot = none := by
  rw [closureAt_same hm hw hb, hs, episodes_action_iff.2 ha]
  rfl

theorem closureAt_dropped {old e : LimitEntry} {slot : Nat} (hm : old.metric = e.metric) (hw : old.window = e.window)
    (hb : old.bands = e.bands) (h : e.slots.getLsbD slot = false ∨ ¬(e.action = .episode ∨ e.action = .both)) :
    closureAt old (some e) slot = some .withdrawn := by
  rw [closureAt_same hm hw hb]
  refine if_neg fun hall => ?_
  obtain ⟨hs, ha⟩ := (Bool.and_eq_true _ _).mp hall
  exact h.elim (fun hno => Bool.false_ne_true (hno.symm.trans hs)) (· (episodes_action_iff.1 ha))

theorem closureAt_isSome {old e : LimitEntry} {slot : Nat} (h : old.metric ≠ e.metric ∨ old.window ≠ e.window ∨
    old.bands ≠ e.bands ∨ e.slots.getLsbD slot = false ∨ ¬(e.action = .episode ∨ e.action = .both)) :
    closureAt old (some e) slot ≠ none := by
  by_cases hm : old.metric = e.metric
  · by_cases hw : old.window = e.window
    · by_cases hb : old.bands = e.bands
      · rw [closureAt_dropped hm hw hb (((h.resolve_left (· hm)).resolve_left (· hw)).resolve_left (· hb))]
        exact Option.some_ne_none _
      · rw [closureAt_redefined (.inr (.inr hb))]
        exact Option.some_ne_none _
    · rw [closureAt_redefined (.inr (.inl hw))]
      exact Option.some_ne_none _
  · rw [closureAt_redefined (.inl hm)]
    exact Option.some_ne_none _

/-! ### The closes of a swap, as offers from the state before it -/

/-- The state after closes, and the offers it comes from. -/
theorem State.ClosesBy.offers {closing : Episode → Option CloseReason} {s y : State} (h : s.ClosesBy closing y) :
    ∃ vs : List Verdict, vs.Perm (s.closingVerdicts closing) ∧
      y = { s.offerEach vs with
        episodes := { (s.offerEach vs).episodes with
          current := s.episodes.current.filter (fun e => (closing e).isNone) }
        beacons := y.beacons } ∧
      ((∀ e, e ∈ s.episodes.current → closing e = none) → y.beacons = s.beacons) ∧
      ((∃ e, e ∈ s.episodes.current ∧ closing e ≠ none) → State.Follows s y) := by
  obtain ⟨u, vs, hleaves, hperm, hy⟩ := h
  obtain ⟨hwhole, hidle, hfollows⟩ := hleaves
  have stay : s.episodes.current.filter (fun e => !(closing e).isSome) =
      s.episodes.current.filter (fun e => (closing e).isNone) :=
    List.filter_congr fun e _ => Option.not_isSome _
  rw [stay] at hwhole
  have beacons : y.beacons = u.beacons := by rw [hy, beacons_offerEach]
  refine ⟨vs, hperm, ?_, fun hno => ?_, fun ⟨e, he, hsome⟩ => ?_⟩
  · have base : y = u.offering (s.offerEach vs) := by
      rw [hy]
      exact offerEach_on (by rw [hwhole]; rfl) (by rw [hwhole]; rfl) vs
    rw [beacons, base]
    conv_lhs => rw [hwhole]
    conv_rhs => rw [offerEach_eq_offering vs s]
    rfl
  · rw [beacons, hidle fun e he => by rw [hno e he]; rfl]
  · intro i b hb
    have followed := hfollows ⟨e, he, Option.ne_none_iff_isSome.1 hsome⟩ i b hb
    have demand : y.demand i = u.demand i :=
      demand_congr (by rw [hy, current_offerEach]) (by rw [hy, (closed_offerEach vs u).table]) i
    rw [beacons, demand]
    exact followed

end Sys2Proof.Machine

/-! The swap carries the accounts of each key. -/

namespace Sys2Proof.Machine

/-! ### The exchange -/

section
variable (first : List (Nat × Nat)) (y : State)

theorem exchanged_whole : y.exchanged first = { y with
    table := { y.table with active := y.table.staged }
    schedule := { y.schedule with activeBands := y.schedule.stagedBands, activeExceptions := y.schedule.stagedExceptions }
    windows := (y.exchanged first).windows
    beacons := (y.exchanged first).beacons
    episodes := { y.episodes with
      current := (y.exchanged first).episodes.current, uncaptured := (y.exchanged first).episodes.uncaptured } } := rfl

theorem exchanged_current : (y.exchanged first).episodes.current = y.episodes.current.map (Episode.moved y.table.staged) :=
  rfl

theorem exchanged_uncaptured : (y.exchanged first).episodes.uncaptured =
    (List.range Config.entryCount).map (movedCounter y.episodes.uncaptured y.table.active y.table.staged) := rfl

theorem follows_exchanged : State.Follows y (y.exchanged first) := follows_followDemand (y.moveKeys first)

end

section
variable (c : SwapChoice) (s : State)

theorem closes_uncaptured : (s.closeKeys c.keys).episodes.uncaptured = s.episodes.uncaptured := by
  obtain ⟨vs, -, hwhole, -, -⟩ := (closesBy_closeKeys c.keys s).offers
  rw [hwhole]
  exact (closed_offerEach vs s).uncaptured

theorem closes_current : (s.closeKeys c.keys).episodes.current =
    s.episodes.current.filter (fun e => (s.table.swapClosing e).isNone) := by
  obtain ⟨vs, -, hwhole, -, -⟩ := (closesBy_closeKeys c.keys s).offers
  rw [hwhole]

theorem swapped_current : (s.swapped c).episodes.current =
    (s.episodes.current.filter (fun e => (s.table.swapClosing e).isNone)).map (Episode.moved s.table.staged) := by
  rw [State.swapped, exchanged_current, closes_current, (judges_closes c s).table]

theorem swapped_uncaptured : (s.swapped c).episodes.uncaptured =
    (List.range Config.entryCount).map (movedCounter s.episodes.uncaptured s.table.active s.table.staged) := by
  rw [State.swapped, exchanged_uncaptured, closes_uncaptured, (judges_closes c s).table]

theorem swapped_counter {i : Nat} (hi : i < 64) : (s.swapped c).episodes.uncaptured[i]? =
    some (movedCounter s.episodes.uncaptured s.table.active s.table.staged i) := by
  rw [swapped_uncaptured, List.getElem?_map, List.getElem?_range (show i < Config.entryCount from hi), Option.map_some]

/-- The cells and contents of a pair after the exchange: those of its key, or anew. -/
theorem swapped_pairs {i slot : Nat} (hi : i < 64) (hs : slot < 12) :
    (∀ e, s.table.staged.at i = some e →
      (∀ j old, s.table.active.find e.key = some (j, old) →
        (old.metric = e.metric → old.window = e.window → old.bands = e.bands →
          old.slots.getLsbD slot = true → e.slots.getLsbD slot = true →
          (s.swapped c).windows.cellAt i slot = s.windows.cellAt j slot ∧
          (e.window ≠ .slice → (s.swapped c).windows.accAt i slot = s.windows.accAt j slot)) ∧
        (old.metric ≠ e.metric ∨ old.window ≠ e.window ∨ old.bands ≠ e.bands ∨
            old.slots.getLsbD slot = false ∨ e.slots.getLsbD slot = false →
          (s.swapped c).windows.cellAt i slot = .empty ∧ (s.swapped c).windows.accAt i slot = .idle)) ∧
      (s.table.active.find e.key = none →
        (s.swapped c).windows.cellAt i slot = .empty ∧ (s.swapped c).windows.accAt i slot = .idle)) ∧
    (s.table.staged.at i = none →
      (s.swapped c).windows.cellAt i slot = .empty ∧ (s.swapped c).windows.unitAt i slot = none) := by
  rw [swapped_windows]
  have anew : ∀ e, s.table.staged.at i = some e → s.table.active.carriedFrom e slot = none →
      (s.windows.moved s.table.active s.table.staged c.plainFirst).cellAt i slot = .empty ∧
        (s.windows.moved s.table.active s.table.staged c.plainFirst).accAt i slot = .idle := fun e hat hfrom =>
    ⟨by rw [cellAt_moved_held s.windows c.plainFirst hi hs hat, hfrom]; rfl,
      accAt_moved_anew s.windows c.plainFirst hi hs hat hfrom⟩
  refine ⟨fun e hat => ⟨fun j old hfind => ⟨fun hm hw hb ho he => ?_, fun h => anew e hat (carriedFrom_anew hfind h)⟩,
    fun hfind => anew e hat (carriedFrom_missing hfind)⟩, fun hat => ?_⟩
  · have hfrom := carriedFrom_kept hfind hm hw hb ho he
    exact ⟨by rw [cellAt_moved_held s.windows c.plainFirst hi hs hat, hfrom]; rfl,
      fun hwin => accAt_moved_kept s.windows c.plainFirst hi hs hat hfrom hwin he⟩
  · exact ⟨cellAt_moved_empty s.windows c.plainFirst hi hs hat, unitAt_moved_empty s.windows c.plainFirst hi hs hat⟩

theorem swap_episodes : (s.swap c).episodes = (s.swapDecided c).episodes := by
  rw [(swap_told c s).episodes, withResult_episodes, openAll_whole]

theorem cellAt_swap (i slot : Nat) : (s.swap c).windows.cellAt i slot = (s.swapDecided c).windows.cellAt i slot := by
  rw [(swap_told c s).windows, withResult_windows, openAll_whole]
  rfl

/-- A swap that leaves the band as it was decides nothing. -/
theorem swapDecided_same {c : SwapChoice} {s : State} (h : (s.swap c).clock.band = s.clock.band) :
    s.swapDecided c = s.swapped c := by
  rw [swap_clock] at h
  exact decideBand_of_same (h.trans (congrArg Clock.band (swapped_clock c s)).symm)

/-- An accumulator that is not IDLE after the band decision keeps its contents. -/
theorem accAt_swap {c : SwapChoice} {s : State} {i slot : Nat} {e : LimitEntry} (hat : s.table.staged.at i = some e)
    (hslot : e.slots.getLsbD slot = true) (h : (s.swapDecided c).windows.accAt i slot ≠ .idle) :
    (s.swap c).windows.accAt i slot = (s.swapDecided c).windows.accAt i slot := by
  have table : (s.swapDecided c).table.active.at i = some e := by
    rw [(bandKept_swapDecided c s).table, swapped_table]
    exact hat
  rw [(swap_told c s).windows, withResult_windows]
  cases hu : (s.swapDecided c).windows.unitAt i slot with
  | none => exact absurd (accAt_none hu) h
  | some a =>
    have acc : (s.swapDecided c).windows.accAt i slot = a.acc := accAt_some hu
    rw [acc] at h
    rw [acc, WindowEngine.accAt, unitAt_openAll table hslot hu]
    exact if_neg fun hall => h hall.1

end

/-! ### Episodes in a swap (R61, R110) -/

/-- An episode whose key, slot and action the new table keeps continues under its new index. -/
theorem swapClosing_kept {t : LimitTable} {ep : Episode} {i j : Nat} {old e : LimitEntry}
    (hold : t.active.find ep.key = some (j, old)) (hnew : t.staged.find ep.key = some (i, e)) (hm : old.metric = e.metric)
    (hw : old.window = e.window) (hb : old.bands = e.bands) (hs : e.slots.getLsbD ep.slot = true)
    (ha : e.action = .episode ∨ e.action = .both) : t.swapClosing ep = none := by
  rw [LimitTable.swapClosing, hold, hnew]
  exact closureAt_kept hm hw hb hs ha

theorem swapClosing_closes {t : LimitTable} {ep : Episode} {j : Nat} {old : LimitEntry}
    (hold : t.active.find ep.key = some (j, old))
    (h : ∀ i e, t.staged.find ep.key = some (i, e) → old.metric ≠ e.metric ∨ old.window ≠ e.window ∨
      old.bands ≠ e.bands ∨ e.slots.getLsbD ep.slot = false ∨ ¬(e.action = .episode ∨ e.action = .both)) :
    t.swapClosing ep ≠ none := by
  rw [LimitTable.swapClosing, hold]
  cases hnew : t.staged.find ep.key with
  | none => exact Option.some_ne_none _
  | some p => exact closureAt_isSome (h p.1 p.2 hnew)

theorem moved_place (t : EntryTable) (e : Episode) : (e.moved t).key = e.key ∧ (e.moved t).slot = e.slot := by
  unfold Episode.moved
  split <;> exact ⟨rfl, rfl⟩

theorem swapClosing_congr (t : LimitTable) {a b : Episode} (hk : a.key = b.key) (hs : a.slot = b.slot) :
    t.swapClosing a = t.swapClosing b := by
  rw [LimitTable.swapClosing, LimitTable.swapClosing, hk, hs]

theorem mem_swapped {c : SwapChoice} {s : State} {ep : Episode} {i : Nat} {e : LimitEntry} (hep : ep ∈ s.episodes.current)
    (hnone : s.table.swapClosing ep = none) (hnew : s.table.staged.find ep.key = some (i, e)) :
    { ep with index := i } ∈ (s.swapped c).episodes.current := by
  have moved : ep.moved s.table.staged = { ep with index := i } := by rw [Episode.moved, hnew]
  rw [swapped_current, ← moved]
  exact List.mem_map_of_mem (List.mem_filter.2 ⟨hep, by rw [hnone]; rfl⟩)

theorem not_mem_swapped {c : SwapChoice} {s : State} {ep x : Episode} (hcloses : s.table.swapClosing ep ≠ none)
    (hx : x ∈ (s.swapped c).episodes.current) : ¬(x.key = ep.key ∧ x.slot = ep.slot) := by
  rintro ⟨hkey, hslot⟩
  rw [swapped_current] at hx
  obtain ⟨e, he, rfl⟩ := List.mem_map.1 hx
  obtain ⟨hk, hs⟩ := moved_place s.table.staged e
  have stays : s.table.swapClosing e = none := Option.isNone_iff_eq_none.1 (List.mem_filter.1 he).2
  exact hcloses ((swapClosing_congr s.table (hk.symm.trans hkey) (hs.symm.trans hslot)).symm.trans stays)

/-- Settles O16: the closes as one set of offers, the exchange pair by pair and key by key, then the band decision and the
openings; in a swap that keeps the band the decision changes nothing. -/
theorem swapCarriesAccounts : Obligations.SwapCarriesAccounts := by
  unfold Obligations.SwapCarriesAccounts
  refine ⟨fun choice s t hdue hpending hpass hexec => ?_, fun old slot => ⟨closureAt_withdrawn old slot, fun e =>
      ⟨fun h => closureAt_redefined h slot, fun hm hw hb => ⟨closureAt_kept hm hw hb, closureAt_dropped hm hw hb⟩⟩⟩,
    fun choice s t hdue hpending hpass hexec hband => ?_⟩
  · obtain ⟨x, hx⟩ : ∃ x : State, x = s.clearDue .commit := ⟨_, rfl⟩
    have htable : x.table = s.table := by rw [hx]; rfl
    have hcurrent : x.episodes.current = s.episodes.current := by rw [hx]; rfl
    have ht : t = x.swap choice := by
      rw [hx]
      exact (Host.Outcome.next.inj ((exec_commitChecks_swap hdue hpending hpass).symm.trans hexec)).symm
    obtain ⟨vs, hperm, hwhole, hidle, hfollows⟩ := (closesBy_closeKeys choice.keys x).offers
    have decidedTable : (x.swapDecided choice).table.active = s.table.staged := by
      rw [(bandKept_swapDecided choice x).table, swapped_table, htable]
    have ytable : (x.closeKeys choice.keys).table = s.table := by rw [(judges_closes choice x).table, htable]
    have yschedule : (x.closeKeys choice.keys).schedule = s.schedule := by
      rw [(judges_closes choice x).schedule, hx]
      rfl
    have pairs := fun i slot hi hs => swapped_pairs choice x (i := i) (slot := slot) hi hs
    refine ⟨vs, s.table.swapClosing, x.offerEach vs, x.closeKeys choice.keys, x.swapped choice, x.swapDecided choice,
      (x.swapDecided choice).openAll, rfl, openAll_whole _, fun i e slot a hat hslot ha =>
        unitAt_openAll (by rw [decidedTable]; exact hat) hslot ha, fun i slot h =>
        unitAt_openAll_other (by rw [decidedTable]; exact h), ?_, fun e => rfl, ?_, ?_, ?_, fun hno => ?_, fun hsome => ?_,
      follows_exchanged _ _, ?_, ?_, fun i slot hi hs => ?_, ?_, fun i hi => ?_⟩
    · rw [ht, swap_eq, endCommit_eq]
      rfl
    · rw [htable] at hperm
      rw [hx] at hperm
      exact hperm
    · rw [hx]
      rfl
    · rw [htable, hcurrent] at hwhole
      exact hwhole
    · rw [hidle (by rw [htable, hcurrent]; exact hno), hx]
      rfl
    · have follows := hfollows (by rw [htable, hcurrent]; exact hsome)
      rw [hx] at follows ⊢
      exact follows
    · have whole := exchanged_whole choice.plainFirst (x.closeKeys choice.keys)
      rw [ytable, yschedule] at whole
      exact whole
    · show ((x.closeKeys choice.keys).exchanged choice.plainFirst).episodes.current = _
      rw [exchanged_current, ytable]
      rfl
    · have pair := pairs i slot hi hs
      rw [htable] at pair
      rw [hx] at pair ⊢
      exact pair
    · rw [swapped_uncaptured, List.length_map, List.length_range]
      rfl
    · rw [swapped_counter choice x hi, htable]
      have counters : x.episodes.uncaptured = s.episodes.uncaptured := by rw [hx]; rfl
      rw [counters]
      exact ⟨fun e j old hat hfind => congrArg some (movedCounter_kept hat hfind),
        fun e hat hfind => congrArg some (movedCounter_anew hat hfind), fun hat => congrArg some (movedCounter_empty hat)⟩
  · obtain ⟨x, hx⟩ : ∃ x : State, x = s.clearDue .commit := ⟨_, rfl⟩
    have htable : x.table = s.table := by rw [hx]; rfl
    have hcurrent : x.episodes.current = s.episodes.current := by rw [hx]; rfl
    have hwindows : x.windows = s.windows := by rw [hx]; rfl
    have ht : t = x.swap choice := by
      rw [hx]
      exact (Host.Outcome.next.inj ((exec_commitChecks_swap hdue hpending hpass).symm.trans hexec)).symm
    have same : x.swapDecided choice = x.swapped choice := swapDecided_same (by rw [← ht, hband, hx]; rfl)
    have pairs := fun i slot hi hs => swapped_pairs choice x (i := i) (slot := slot) hi hs
    rw [htable, hwindows] at pairs
    have cells : ∀ i slot, t.windows.cellAt i slot = (x.swapped choice).windows.cellAt i slot := fun i slot => by
      rw [ht, cellAt_swap, same]
    have current : t.episodes.current = (x.swapped choice).episodes.current := by rw [ht, swap_episodes, same]
    refine ⟨fun i slot e j old hi hs hat hfind hm hw hb ho he => ?_, fun i slot e hi hs hat hfind => ?_,
      fun i slot hi hs hat => ?_, fun ep j old hep hfind => ⟨fun i e hnew hm hw hb hs ha => ?_, fun hall y hy => ?_⟩⟩
    · obtain ⟨hcell, hacc⟩ := (((pairs i slot hi hs).1 e hat).1 j old hfind).1 hm hw hb ho he
      refine ⟨(cells i slot).trans hcell, fun hwin hopen => ?_⟩
      rw [← hacc hwin] at hopen ⊢
      rw [ht, ← same]
      rw [← same] at hopen
      exact accAt_swap (by rw [htable]; exact hat) he hopen
    · exact (cells i slot).trans (((pairs i slot hi hs).1 e hat).2 hfind).1
    · exact (cells i slot).trans ((pairs i slot hi hs).2 hat).1
    · rw [current]
      refine mem_swapped (by rw [hcurrent]; exact hep) ?_ (by rw [htable]; exact hnew)
      rw [htable]
      exact swapClosing_kept hfind hnew hm hw hb hs ha
    · rw [current] at hy
      refine not_mem_swapped ?_ hy
      rw [htable]
      exact swapClosing_closes hfind hall

end Sys2Proof.Machine

/-! The counts of a tick that come to no event: what each takes, and what all of them together leave. -/

namespace Sys2Proof.Machine

/-! ### One count -/

/-- The parts that counts change, given anew. -/
def State.counted (s : State) (due : List Due) (cadence : Cadence) (beacons : List BeaconLine)
    (lines : List PlantLine) (current : List Episode) : State :=
  { s with due := due, cadence := cadence, beacons := beacons
           plant := { s.plant with lines := lines }
           episodes := { s.episodes with current := current } }

/-- An episode after a hold-off count that does not end its hold-off. -/
def Episode.countHeld (e : Episode) : Episode :=
  { e with state := match e.state with
      | .holdOff n => if 1 < n then .holdOff (n - 1) else .holdOff n
      | .opened => .opened }

/-- The state after a count that comes to no event. -/
def State.afterCount (d : Due) (s : State) : State :=
  s.counted (s.due.filter (fun x => x != d))
    (match d with
      | .cadence => s.cadence.count
      | _ => s.cadence)
    (match d with
      | .pulse line => s.beacons.modify line BeaconLine.countPulse
      | .flash line => s.beacons.modify line BeaconLine.countFlash
      | _ => s.beacons)
    (match d with
      | .runCounts => s.plant.lines.map PlantLine.countRun
      | _ => s.plant.lines)
    (match d with
      | .holdOff key slot => Machine.modifyEpisode key slot Episode.countHeld s.episodes.current
      | _ => s.episodes.current)

theorem countHeld_of_stays {e : Episode} {n : Nat} (hs : e.state = .holdOff n) (hn : 1 < n) :
    e.countHeld = { e with state := .holdOff (n - 1) } := by
  simp [Episode.countHeld, hs, hn]

theorem countHeld_of_opened {e : Episode} (hs : e.state = .opened) : e.countHeld = e := by
  obtain ⟨⟩ := e
  cases hs
  rfl

theorem countHeld_of_ends {e : Episode} {n : Nat} (hs : e.state = .holdOff n) (hn : n ≤ 1) : e.countHeld = e := by
  obtain ⟨⟩ := e
  cases hs
  simp [Episode.countHeld, Nat.not_lt.2 hn]

/-- A change of the episode of a key and slot is known by what it makes of the one found. -/
theorem modifyEpisode_of_found {key slot : Nat} {f g : Episode → Episode} {es : List Episode}
    (h : ∀ e, es.find? (Episode.of key slot) = some e → f e = g e) :
    modifyEpisode key slot f es = modifyEpisode key slot g es := by
  induction es with
  | nil => rfl
  | cons x es ih =>
    unfold modifyEpisode
    by_cases hx : x.of key slot = true
    · rw [if_pos hx, if_pos hx, h x (List.find?_cons_of_pos hx)]
    · rw [if_neg hx, if_neg hx, ih fun e he => h e ((List.find?_cons_of_neg hx).trans he)]

theorem modifyEpisode_id {key slot : Nat} {f : Episode → Episode} {es : List Episode}
    (h : ∀ e, es.find? (Episode.of key slot) = some e → f e = e) : modifyEpisode key slot f es = es := by
  induction es with
  | nil => rfl
  | cons x es ih =>
    unfold modifyEpisode
    by_cases hx : x.of key slot = true
    · rw [if_pos hx, h x (List.find?_cons_of_pos hx)]
    · rw [if_neg hx, ih fun e he => h e ((List.find?_cons_of_neg hx).trans he)]

theorem countHoldOff_of_counting {key slot : Nat} {s : State} (h : s.isCount (.holdOff key slot) = true) :
    s.countHoldOff key slot = s.modifyEpisode key slot Episode.countHeld := by
  have stays : s.CountsOn (.holdOff key slot) := (isCount_iff s _).1 h
  unfold State.countHoldOff
  split
  · next e he =>
    have found : s.episodes.current.find? (Episode.of key slot) = some e := he
    split
    · next n hn =>
      have hlt : 1 < n := stays e n he hn
      rw [if_neg (Nat.not_le.2 hlt)]
      refine congrArg (fun es => s.setCurrent es) (modifyEpisode_of_found fun x hx => ?_)
      rw [found] at hx
      obtain rfl := Option.some.inj hx
      exact (countHeld_of_stays hn hlt).symm
    · next ho =>
      refine (congrArg (fun es => s.setCurrent es) (modifyEpisode_id fun x hx => ?_)).symm
      rw [found] at hx
      obtain rfl := Option.some.inj hx
      exact countHeld_of_opened ho
  · next hnone =>
    refine (congrArg (fun es => s.setCurrent es) (modifyEpisode_id fun x hx => ?_)).symm
    exact absurd (hnone.symm.trans hx) nofun

/-- A count taken, whatever the choice. -/
theorem takeDue_count {c : TickChoice} {d : Due} {s : State} (hcount : s.isCount d = true) (hdue : d ∈ s.due) :
    s.takeDue c d = s.afterCount d := by
  rw [takeDue_of hdue]
  cases d with
  | runCounts => rfl
  | cadence =>
    have counting : (s.clearDue .cadence).cadence.underflows = false := by simpa [State.isCount] using hcount
    exact countCadence_of_counting counting
  | holdOff key slot => exact countHoldOff_of_counting (s := s.clearDue (.holdOff key slot)) hcount
  | pulse line => rfl
  | flash line => rfl
  | _ => exact absurd hcount Bool.false_ne_true

/-- What taking the counts makes of one piece: it is taken where it is due and a count. -/
def State.count (d : Due) (s : State) : State := if s.isCount d then s.takeDue plainTick d else s

theorem takeCounts_cons (d : Due) (ds : List Due) (s : State) : s.takeCounts (d :: ds) = (s.count d).takeCounts ds := rfl

theorem count_of {d : Due} {s : State} (hcount : s.isCount d = true) (hdue : d ∈ s.due) :
    s.count d = s.afterCount d :=
  (if_pos hcount).trans (takeDue_count hcount hdue)

theorem count_of_not {d : Due} {s : State} (h : ¬(s.isCount d = true ∧ d ∈ s.due)) : s.count d = s := by
  unfold State.count
  split
  · next hcount => exact takeDue_id fun hdue => h ⟨hcount, hdue⟩
  · rfl

/-- A count is taken, or nothing is. -/
theorem count_cases (d : Due) (s : State) :
    (s.isCount d = true ∧ d ∈ s.due ∧ s.count d = s.afterCount d) ∨
      (¬(s.isCount d = true ∧ d ∈ s.due) ∧ s.count d = s) := by
  by_cases h : s.isCount d = true ∧ d ∈ s.due
  · exact .inl ⟨h.1, h.2, count_of h.1 h.2⟩
  · exact .inr ⟨h, count_of_not h⟩

theorem mem_due_afterCount {d x : Due} {s : State} : x ∈ (s.afterCount d).due ↔ x ∈ s.due ∧ x ≠ d := by
  show x ∈ s.due.filter (fun x => x != d) ↔ _
  rw [List.mem_filter, bne_iff_ne]

theorem isCount_count {d x : Due} {s : State} (hne : d ≠ x) : State.isCount x (s.count d) = s.isCount x := by
  unfold State.count
  split
  · next h => exact count_other h hne
  · rfl

theorem mem_due_count {d x : Due} {s : State} (hne : d ≠ x) : x ∈ (s.count d).due ↔ x ∈ s.due := by
  obtain ⟨-, -, h⟩ | ⟨-, h⟩ := count_cases d s
  · rw [h, mem_due_afterCount]
    exact and_iff_left hne.symm
  · rw [h]

/-! ### All counts of a tick -/

/-- Only what counts change is changed. -/
def State.OnlyCounted (s t : State) : Prop :=
  t = s.counted t.due t.cadence t.beacons t.plant.lines t.episodes.current

theorem State.OnlyCounted.trans {s t u : State} (h : s.OnlyCounted t) (k : t.OnlyCounted u) : s.OnlyCounted u := by
  unfold State.OnlyCounted at h k
  refine k.trans ?_
  rw [h]
  rfl

theorem onlyCounted_count (d : Due) (s : State) : s.OnlyCounted (s.count d) := by
  obtain ⟨-, -, h⟩ | ⟨-, h⟩ := count_cases d s
  · rw [h]
    rfl
  · rw [h]
    rfl

theorem onlyCounted_takeCounts (ds : List Due) (s : State) : s.OnlyCounted (s.takeCounts ds) := by
  induction ds generalizing s with
  | nil => rfl
  | cons d ds ih => exact (onlyCounted_count d s).trans (ih _)

/-- What every count keeps, the counts together keep. -/
theorem takeCounts_keeps {α : Type} {view : State → α} (h : ∀ (d : Due) (s : State), view (s.afterCount d) = view s)
    (ds : List Due) (s : State) : view (s.takeCounts ds) = view s := by
  induction ds generalizing s with
  | nil => rfl
  | cons d ds ih =>
    rw [takeCounts_cons, ih]
    obtain ⟨-, -, hc⟩ | ⟨-, hc⟩ := count_cases d s
    · rw [hc, h]
    · rw [hc]

/-- A piece that is no count is due after the counts where it was before. -/
theorem mem_due_takeCounts {x : Due} {s : State} (h : s.isCount x = false) (ds : List Due) :
    x ∈ (s.takeCounts ds).due ↔ x ∈ s.due := by
  induction ds generalizing s with
  | nil => rfl
  | cons d ds ih =>
    rw [takeCounts_cons]
    by_cases hd : d = x
    · subst hd
      rw [count_of_not fun hc => Bool.false_ne_true (h.symm.trans hc.1), ih h]
    · rw [ih ((isCount_count hd).trans h), mem_due_count hd]

/-- What only one of the counts changes: that count changes it where it is due among those taken. -/
theorem takeCounts_view {α : Type} {view : State → α} {x : Due} {f : α → α}
    (hself : ∀ s : State, view (s.afterCount x) = f (view s))
    (hother : ∀ (d : Due) (s : State), d ≠ x → view (s.afterCount d) = view s) (ds : List Due) (s : State) :
    view (s.takeCounts ds) = if x ∈ ds ∧ x ∈ s.due ∧ s.isCount x = true then f (view s) else view s := by
  induction ds generalizing s with
  | nil => exact (if_neg fun h => List.not_mem_nil h.1).symm
  | cons d ds ih =>
    rw [takeCounts_cons, ih]
    by_cases hd : d = x
    · subst hd
      obtain ⟨hcount, hdue, h⟩ | ⟨hno, h⟩ := count_cases d s
      · rw [h, if_neg fun k => (mem_due_afterCount.1 k.2.1).2 rfl, hself,
          if_pos ⟨List.mem_cons_self, hdue, hcount⟩]
      · rw [h, if_neg fun k => hno ⟨k.2.2, k.2.1⟩, if_neg fun k => hno ⟨k.2.2, k.2.1⟩]
    · have same : view (s.count d) = view s := by
        obtain ⟨-, -, h⟩ | ⟨-, h⟩ := count_cases d s
        · rw [h, hother d s hd]
        · rw [h]
      rw [same, isCount_count hd]
      simp only [mem_due_count hd, List.mem_cons, Ne.symm hd, false_or]

/-- What only one piece changes, that piece being due and among those taken: changed where it is a count. -/
theorem takeCounts_view_due {α : Type} {view : State → α} {x : Due} {f : α → α}
    (hself : ∀ s : State, view (s.afterCount x) = f (view s))
    (hother : ∀ (d : Due) (s : State), d ≠ x → view (s.afterCount d) = view s) {s : State} (hdue : x ∈ s.due) :
    view (s.takeCounts s.due) = if s.isCount x = true then f (view s) else view s := by
  rw [takeCounts_view hself hother]
  exact if_congr ⟨fun h => h.2.2, fun h => ⟨hdue, hdue, h⟩⟩ rfl rfl

/-! ### The parts after the counts -/

theorem lines_takeCounts {s : State} (hdue : .runCounts ∈ s.due) :
    (s.takeCounts s.due).plant.lines = s.plant.lines.map PlantLine.countRun := by
  refine (takeCounts_view_due (view := fun s => s.plant.lines) (x := .runCounts) (fun _ => rfl) (fun d _ hd => ?_)
    hdue).trans (if_pos rfl)
  cases d with
  | runCounts => exact absurd rfl hd
  | _ => rfl

theorem cadence_takeCounts (s : State) : (s.takeCounts s.due).cadence =
    if .cadence ∈ s.due ∧ s.cadence.underflows = false then s.cadence.count else s.cadence := by
  refine (takeCounts_view (view := fun s => s.cadence) (x := .cadence) (fun _ => rfl) (fun d _ hd => ?_)
    s.due s).trans (if_congr ?_ rfl rfl)
  · cases d with
    | cadence => exact absurd rfl hd
    | _ => rfl
  · rw [← and_assoc, and_self, State.isCount, Bool.not_eq_true']

theorem beacons_afterCount_length (d : Due) (s : State) : (s.afterCount d).beacons.length = s.beacons.length := by
  cases d with
  | pulse line => exact List.length_modify ..
  | flash line => exact List.length_modify ..
  | _ => rfl

theorem beacons_takeCounts_length (ds : List Due) (s : State) : (s.takeCounts ds).beacons.length = s.beacons.length :=
  takeCounts_keeps (view := fun s => s.beacons.length) beacons_afterCount_length ds s

/-- The settings of a line, without its pulse and flash counts. -/
def BeaconLine.settings (b : BeaconLine) : BeaconMode × Nat × Override := (b.mode, b.width, b.override)

theorem settings_afterCount (i : Nat) (d : Due) (s : State) :
    (s.afterCount d).beacons[i]?.map BeaconLine.settings = s.beacons[i]?.map BeaconLine.settings := by
  cases d with
  | pulse line =>
    show (s.beacons.modify line _)[i]?.map _ = _
    rw [List.getElem?_modify]
    split <;> cases s.beacons[i]? <;> rfl
  | flash line =>
    show (s.beacons.modify line _)[i]?.map _ = _
    rw [List.getElem?_modify]
    split <;> cases s.beacons[i]? <;> rfl
  | _ => rfl

theorem pulse_afterCount (i : Nat) (s : State) : (s.afterCount (.pulse i)).beacons[i]?.map BeaconLine.pulse =
    (s.beacons[i]?.map BeaconLine.pulse).map (fun n => n - 1) := by
  show (s.beacons.modify i _)[i]?.map _ = _
  rw [List.getElem?_modify_eq]
  cases s.beacons[i]? <;> rfl

theorem pulse_afterCount_other {i : Nat} {d : Due} (hd : d ≠ .pulse i) (s : State) :
    (s.afterCount d).beacons[i]?.map BeaconLine.pulse = s.beacons[i]?.map BeaconLine.pulse := by
  cases d with
  | pulse line =>
    show (s.beacons.modify line _)[i]?.map _ = _
    rw [List.getElem?_modify_ne _ _ fun h : line = i => hd (by rw [h])]
  | flash line =>
    show (s.beacons.modify line _)[i]?.map _ = _
    rw [List.getElem?_modify]
    split <;> cases s.beacons[i]? <;> rfl
  | _ => rfl

theorem flash_afterCount (i : Nat) (s : State) : (s.afterCount (.flash i)).beacons[i]?.map BeaconLine.flash =
    (s.beacons[i]?.map BeaconLine.flash).map (Option.map FlashPhase.tick) := by
  show (s.beacons.modify i _)[i]?.map _ = _
  rw [List.getElem?_modify_eq]
  cases s.beacons[i]? <;> rfl

theorem flash_afterCount_other {i : Nat} {d : Due} (hd : d ≠ .flash i) (s : State) :
    (s.afterCount d).beacons[i]?.map BeaconLine.flash = s.beacons[i]?.map BeaconLine.flash := by
  cases d with
  | flash line =>
    show (s.beacons.modify line _)[i]?.map _ = _
    rw [List.getElem?_modify_ne _ _ fun h : line = i => hd (by rw [h])]
  | pulse line =>
    show (s.beacons.modify line _)[i]?.map _ = _
    rw [List.getElem?_modify]
    split <;> cases s.beacons[i]? <;> rfl
  | _ => rfl

/-- A line whose pulse and flash counts are due after the counts: each taken where it comes to no event. -/
theorem beacon_takeCounts {i : Nat} {s : State} {b : BeaconLine} (hb : s.beacons[i]? = some b)
    (hpulse : .pulse i ∈ s.due) (hflash : .flash i ∈ s.due) :
    (s.takeCounts s.due).beacons[i]? = some { b with
      pulse := if b.pulse = 1 then 1 else b.pulse - 1
      flash := b.flash.map (fun p => if 1 < p.count then ⟨p.asserted, p.count - 1⟩ else p) } := by
  have settings := takeCounts_keeps (view := fun s => s.beacons[i]?.map BeaconLine.settings) (settings_afterCount i)
    s.due s
  have pulse := takeCounts_view_due (view := fun s => s.beacons[i]?.map BeaconLine.pulse) (pulse_afterCount i)
    (fun d s hd => pulse_afterCount_other hd s) hpulse
  have flash := takeCounts_view_due (view := fun s => s.beacons[i]?.map BeaconLine.flash) (flash_afterCount i)
    (fun d s hd => flash_afterCount_other hd s) hflash
  have pulseCounts : s.isCount (.pulse i) = true ↔ b.pulse ≠ 1 := by simp [State.isCount, hb]
  have flashCounts : s.isCount (.flash i) = b.keepsPhase := by simp [State.isCount, hb]
  simp only [hb, Option.map_some] at settings pulse flash
  obtain ⟨b', hb', hset⟩ := Option.map_eq_some_iff.1 settings
  simp only [hb', Option.map_some] at pulse flash
  simp only [BeaconLine.settings, Prod.mk.injEq] at hset
  obtain ⟨hmode, hwidth, hoverride⟩ := hset
  have hp : b'.pulse = if b.pulse = 1 then 1 else b.pulse - 1 := by
    by_cases h1 : b.pulse = 1
    · rw [if_neg fun h => pulseCounts.1 h h1] at pulse
      rw [if_pos h1, Option.some.inj pulse, h1]
    · rw [if_pos (pulseCounts.2 h1)] at pulse
      rw [if_neg h1, Option.some.inj pulse]
  have hf : b'.flash = b.flash.map (fun p => if 1 < p.count then ⟨p.asserted, p.count - 1⟩ else p) := by
    rw [flashCounts, BeaconLine.keepsPhase] at flash
    cases hphase : b.flash with
    | none => simpa [hphase] using flash
    | some p =>
      by_cases hlt : 1 < p.count
      · simpa [hphase, hlt, FlashPhase.tick, Nat.not_le.2 hlt] using flash
      · simpa [hphase, hlt] using flash
  rw [hb', ← hp, ← hf, ← hmode, ← hwidth, ← hoverride]

/-! ### The episodes after the counts -/

theorem countHeld_place (e : Episode) : e.countHeld.key = e.key ∧ e.countHeld.slot = e.slot := ⟨rfl, rfl⟩

theorem places_takeCounts (ds : List Due) (s : State) : (s.takeCounts ds).episodes.places = s.episodes.places := by
  refine takeCounts_keeps (view := fun s => s.episodes.places) (fun d s => ?_) ds s
  cases d with
  | holdOff key slot => exact places_modifyEpisode countHeld_place key slot _
  | _ => rfl

theorem of_countHeld (key slot : Nat) (e : Episode) : e.countHeld.of key slot = e.of key slot := rfl

theorem find_map_countHeld (key slot : Nat) (es : List Episode) : (es.map Episode.countHeld).find? (Episode.of key slot) =
    (es.find? (Episode.of key slot)).map Episode.countHeld := by
  rw [List.find?_map]
  rfl

theorem find_modify_countHeld (key slot : Nat) (es : List Episode) :
    (modifyEpisode key slot Episode.countHeld es).find? (Episode.of key slot) =
      (es.find? (Episode.of key slot)).map Episode.countHeld := by
  cases h : es.find? (Episode.of key slot) with
  | some e => exact find_modifyEpisode (by rw [of_countHeld]; exact List.find?_some h) h
  | none => rw [modifyEpisode_id fun e he => absurd (h.symm.trans he) nofun, h]; rfl

theorem find_takeCounts (key slot : Nat) (ds : List Due) (s : State) : (s.takeCounts ds).episodes.find key slot =
    if .holdOff key slot ∈ ds ∧ .holdOff key slot ∈ s.due ∧ s.isCount (.holdOff key slot) = true
      then (s.episodes.find key slot).map Episode.countHeld else s.episodes.find key slot := by
  refine takeCounts_view (view := fun s => s.episodes.find key slot) (x := .holdOff key slot)
    (f := Option.map Episode.countHeld) (fun s => find_modify_countHeld key slot _)
    (fun d s hd => ?_) ds s
  cases d with
  | holdOff k n =>
    exact find_modify_ne countHeld_place (fun h : k = key ∧ n = slot => hd (by rw [h.1, h.2])) _
  | _ => rfl

/-- An episode that no count taken reaches is one that the count leaves as it is. -/
theorem find_takeCounts_due {s : State} {key slot : Nat}
    (hdue : ∀ e n, s.episodes.find key slot = some e → e.state = .holdOff n → .holdOff key slot ∈ s.due) :
    (s.takeCounts s.due).episodes.find key slot = (s.episodes.find key slot).map Episode.countHeld := by
  rw [find_takeCounts]
  split
  · rfl
  · next h =>
    cases hf : s.episodes.find key slot with
    | none => rfl
    | some e =>
      refine congrArg some (Eq.symm ?_)
      cases hs : e.state with
      | opened => exact countHeld_of_opened hs
      | holdOff n =>
        refine countHeld_of_ends hs (Nat.not_lt.1 fun hn => h ?_)
        have due := hdue e n hf hs
        refine ⟨due, due, ?_⟩
        simpa [State.isCount, hf, hs, EpisodeState.staysHeld] using hn

/-- Two lists with the same places, each once, are equal where each place finds the same episode. -/
theorem eq_of_find {es fs : List Episode} (hplaces : es.map (fun e => (e.key, e.slot)) = fs.map (fun e => (e.key, e.slot)))
    (hnodup : (fs.map (fun e => (e.key, e.slot))).Nodup)
    (hfind : ∀ key slot, es.find? (Episode.of key slot) = fs.find? (Episode.of key slot)) : es = fs := by
  induction es generalizing fs with
  | nil => exact (List.map_eq_nil_iff.1 hplaces.symm).symm
  | cons e es ih =>
    cases fs with
    | nil => cases hplaces
    | cons f fs =>
      obtain ⟨hplace, hrest⟩ := List.cons.inj hplaces
      obtain ⟨hkey, hslot⟩ := Prod.mk.inj hplace
      obtain ⟨hnew, hrestNodup⟩ := List.nodup_cons.1 hnodup
      have hhead : e = f := by
        have := hfind f.key f.slot
        rw [List.find?_cons_of_pos (of_iff.2 ⟨hkey, hslot⟩), List.find?_cons_of_pos (of_iff.2 ⟨rfl, rfl⟩)] at this
        exact Option.some.inj this
      subst hhead
      refine congrArg (e :: ·) (ih hrest hrestNodup fun key slot => ?_)
      by_cases hof : e.of key slot = true
      · obtain ⟨rfl, rfl⟩ := of_iff.1 hof
        have absent : ∀ gs : List Episode, gs.map (fun e => (e.key, e.slot)) = fs.map (fun e => (e.key, e.slot)) →
            gs.find? (Episode.of e.key e.slot) = none := fun gs hgs => by
          refine List.find?_eq_none.2 fun g hg hgof => hnew ?_
          rw [← hgs]
          obtain ⟨hk, hs⟩ := of_iff.1 hgof
          exact List.mem_map.2 ⟨g, hg, by rw [hk, hs]⟩
        rw [absent es hrest, absent fs rfl]
      · have := hfind key slot
        rwa [List.find?_cons_of_neg hof, List.find?_cons_of_neg hof] at this

theorem current_takeCounts {s : State} (hnodup : (s.episodes.current.map (fun e => (e.key, e.slot))).Nodup)
    (hdue : ∀ e n, e ∈ s.episodes.current → e.state = .holdOff n → .holdOff e.key e.slot ∈ s.due) :
    (s.takeCounts s.due).episodes.current = s.episodes.current.map Episode.countHeld := by
  have places := places_map countHeld_place s.episodes.current
  refine eq_of_find ((places_takeCounts s.due s).trans places.symm) (by rw [places]; exact hnodup) fun key slot => ?_
  rw [find_map_countHeld]
  refine find_takeCounts_due fun e n hf hs => ?_
  obtain ⟨rfl, rfl⟩ := of_iff.1 (List.find?_some hf)
  exact hdue e n (List.mem_of_find?_eq_some hf) hs

end Sys2Proof.Machine

/-! The duties of a tick: its pieces in any state, and what a tick does that finds nothing outstanding. -/

namespace Sys2Proof.Machine

/-! ### The advance -/

theorem mem_due_advance {d : Due} {s : State} : d ∈ s.advance.due ↔ s.advance.FallsDue d := by
  refine (mem_dueAtTick { s with clock := s.clock.tick } d).trans ?_
  cases d <;> exact Iff.rfl

theorem finishDue_of_nil {s : State} (h : s.due = []) (c : TickChoice) : s.finishDue c = s := by
  have flushed : s.flush c (s.due.length + 4) = s := by
    unfold State.flush
    rw [h]
  unfold State.finishDue
  rw [flushed, ← h]

theorem tick_pieces (choice : TickChoice) (s : State) : ∃ (w a x y t : State) (counts : List Due),
    State.OutstandingTaken choice s w ∧
    a = { w with clock := w.clock.tick, due := a.due } ∧ (∀ d, d ∈ a.due ↔ a.FallsDue d) ∧
    State.PiecesTaken choice choice.order a x ∧
    (∀ d, d ∈ counts ↔ d ∈ x.due ∧ x.CountsOn d) ∧ State.PiecesTaken choice counts x y ∧
    State.PiecesTaken choice [.windows, .band] y t ∧ exec (.tick choice) s = .next t := by
  obtain ⟨w, hw⟩ : ∃ w : State, w = s.finishDue choice := ⟨_, rfl⟩
  obtain ⟨x, hx⟩ : ∃ x : State, x = w.advance.takeAll choice choice.order := ⟨_, rfl⟩
  have order := piecesTaken_takeAll choice choice.order w.advance
  rw [← hx] at order
  have outstanding := outstandingTaken_finishDue choice s
  rw [← hw] at outstanding
  have final : exec (.tick choice) s = .next ((x.takeCounts x.due).takeAll choice [.windows, .band]) := by
    rw [hx, hw]
    rfl
  exact ⟨w, w.advance, x, x.takeCounts x.due, _, x.due.filter (fun d => x.isCount d), outstanding, rfl,
    fun d => mem_due_advance, order, fun d => by rw [List.mem_filter, isCount_iff],
    counts_pieces choice x.due x x (fun _ _ => rfl) (fun _ _ h => h), piecesTaken_takeAll _ _ _, final⟩

/-! ### The counts and what follows them -/

/-- The state after the advance and the counts of a tick that finds nothing outstanding. -/
def State.tickCounted (s : State) : State := s.advance.takeCounts s.advance.due

theorem onlyCounted_tickCounted (s : State) : s.advance.OnlyCounted s.tickCounted := onlyCounted_takeCounts _ _

theorem mem_due_tickCounted {d : Due} {s : State} (h : s.advance.isCount d = false) :
    d ∈ s.tickCounted.due ↔ s.advance.FallsDue d := by
  rw [State.tickCounted, mem_due_takeCounts h, mem_due_advance]

theorem tick_of_nil {s : State} (h : s.due = []) (c : TickChoice) (hc : c.order = []) :
    s.tick c = (s.tickCounted.takeTick c .windows).takeTick c .band := by
  rw [tick_eq, finishDue_of_nil h, hc]
  rfl

theorem takeTick_windows {c : TickChoice} {s : State} (h : .windows ∈ s.due) :
    s.takeTick c .windows = (s.clearDue .windows).endWindows := takeDue_of h

theorem clearDue_of_not_mem {d : Due} {s : State} (h : d ∉ s.due) : s.clearDue d = s := by
  have same : s.due.filter (fun x => x != d) = s.due := List.filter_eq_self.2 fun x hx => by
    rw [bne_iff_ne]
    exact fun hxd => h (hxd ▸ hx)
  unfold State.clearDue
  rw [same]

theorem mem_clearDue {d x : Due} {s : State} : x ∈ (s.clearDue d).due ↔ x ∈ s.due ∧ x ≠ d := by
  show x ∈ s.due.filter (fun y => y != d) ↔ _
  rw [List.mem_filter, bne_iff_ne]

/-- Once the boundaries are taken, only the work due before them stays, and what an offer made due. -/
theorem mem_due_takeTick_windows {c : TickChoice} {x : Due} {s : State} (h : x ∈ (s.takeTick c .windows).due)
    (hx : x ≠ .summary ∧ x ≠ .verdicts) : x ∈ s.due ∧ x ≠ .windows := by
  by_cases hdue : .windows ∈ s.due
  · obtain h | ⟨h, -⟩ | ⟨h, -⟩ := (due_takeDue (c := c) hdue).2 x h
    · exact h
    · exact absurd h hx.1
    · exact absurd h hx.2
  · have same : s.takeTick c .windows = s := takeDue_id hdue
    rw [same] at h
    exact ⟨h, fun hw => hdue (hw ▸ h)⟩

/-- The band decision of a tick whose boundaries are taken. -/
theorem takeTick_band {c : TickChoice} {s : State} (h : .windows ∉ s.due) : s.takeTick c .band = s.takeDue c .band := by
  show (s.takeDue c .windows).takeDue c .band = _
  rw [takeDue_id h]

section
variable {s : State} (h : s.due = []) (first : Bool) (swap : SwapChoice)
include h

theorem tick_between (hsecond : ¬(s.clock.tick.state = .running ∧ s.clock.tick.eighth % 8 = 0)) :
    s.tick ⟨[], first, swap⟩ = s.tickCounted.clearDue .windows := by
  have noWindows : .windows ∉ s.tickCounted.due := (mem_due_tickCounted rfl).not.2 hsecond
  have noBand : .band ∉ s.tickCounted.due := (mem_due_tickCounted rfl).not.2 fun ⟨hr, hm⟩ => hsecond ⟨hr, by
    have : s.clock.tick.eighth % 480 = 0 := hm
    omega⟩
  have windows : s.tickCounted.takeTick ⟨[], first, swap⟩ .windows = s.tickCounted := takeDue_id noWindows
  rw [tick_of_nil h _ rfl, windows, takeTick_band noWindows, takeDue_id noBand, clearDue_of_not_mem noWindows]

theorem tick_second (hrun : s.clock.tick.state = .running) (hsecond : s.clock.tick.eighth % 8 = 0)
    (hminute : s.clock.tick.eighth % 480 ≠ 0) :
    s.tick ⟨[], first, swap⟩ = (s.tickCounted.clearDue .windows).endWindows := by
  have windows : .windows ∈ s.tickCounted.due := (mem_due_tickCounted rfl).2 ⟨hrun, hsecond⟩
  have noBand : .band ∉ s.tickCounted.due := (mem_due_tickCounted rfl).not.2 fun hm => hminute hm.2
  rw [tick_of_nil h _ rfl,
    takeTick_band fun hw => (mem_due_takeTick_windows hw ⟨nofun, nofun⟩).2 rfl,
    takeDue_id fun hb : Due.band ∈ _ => noBand (mem_due_takeTick_windows hb ⟨nofun, nofun⟩).1, takeTick_windows windows]

theorem tick_minute (hrun : s.clock.tick.state = .running) (hminute : s.clock.tick.eighth % 480 = 0) :
    s.tick ⟨[], first, swap⟩ =
      State.decideBand true first ((s.tickCounted.clearDue .windows).endWindows.clearDue .band) := by
  have windows : .windows ∈ s.tickCounted.due := (mem_due_tickCounted rfl).2 ⟨hrun, by
    have : s.clock.tick.eighth % 480 = 0 := hminute
    show s.clock.tick.eighth % 8 = 0
    omega⟩
  have band : .band ∈ s.tickCounted.due := (mem_due_tickCounted rfl).2 ⟨hrun, hminute⟩
  have stays : .band ∈ (s.tickCounted.clearDue .windows).endWindows.due :=
    (evaluates_endWindows _).due .band rfl (mem_clearDue.2 ⟨band, nofun⟩)
  rw [tick_of_nil h _ rfl, takeTick_band fun hw => (mem_due_takeTick_windows hw ⟨nofun, nofun⟩).2 rfl,
    takeTick_windows windows, takeDue_of stays]
  rfl

end

/-! ### What the boundaries and the band decision of a tick keep -/

/-- The boundaries and the band decision keep the table, the inputs and the work of the other rows. -/
structure State.TickEnds (s t : State) : Prop where
  inputs : s.InputsKept t
  table  : t.table = s.table
  due    : ∀ d, isStanding d = true → d ≠ .band → d ∈ s.due → d ∈ t.due

theorem State.TickEnds.trans {s t u : State} (h : s.TickEnds t) (k : t.TickEnds u) : s.TickEnds u :=
  ⟨h.inputs.trans k.inputs, k.table.trans h.table, fun d hs hb hd => k.due d hs hb (h.due d hs hb hd)⟩

theorem Evaluates.tickEnds {s t : State} (h : Evaluates s t) : s.TickEnds t :=
  ⟨h.inputsKept, h.table, fun d hs _ hd => h.due d hs hd⟩

theorem tickEnds_clearBand (s : State) : s.TickEnds (s.clearDue .band) :=
  ⟨inputsKept_same rfl rfl rfl rfl rfl, rfl, fun _ _ hb hd => mem_clearDue.2 ⟨hd, hb⟩⟩

theorem tickEnds_decideBand (minute first : Bool) (s : State) : s.TickEnds (s.decideBand minute first) :=
  ⟨inputsKept_decideBand .., (bandKept_decideBand ..).table, fun d hs _ hd => (runs_decideBand ..).due d hs hd⟩

section
variable {s : State} (h : s.due = []) (first : Bool) (swap : SwapChoice)
include h

theorem tickEnds_tick : (s.tickCounted.clearDue .windows).TickEnds (s.tick ⟨[], first, swap⟩) := by
  by_cases hsecond : s.clock.tick.state = .running ∧ s.clock.tick.eighth % 8 = 0
  · have windows := (evaluates_endWindows (s.tickCounted.clearDue .windows)).tickEnds
    by_cases hminute : s.clock.tick.eighth % 480 = 0
    · rw [tick_minute h first swap hsecond.1 hminute]
      exact (windows.trans (tickEnds_clearBand _)).trans (tickEnds_decideBand _ _ _)
    · rw [tick_second h first swap hsecond.1 hsecond.2 hminute]
      exact windows
  · rw [tick_between h first swap hsecond]
    exact (Evaluates.refl _).tickEnds

/-- A piece that falls at the tick, comes to an event and is not the tick's own stays due. -/
theorem mem_due_tick {d : Due} (hfalls : s.advance.FallsDue d) (hevent : s.advance.isCount d = false)
    (hstanding : isStanding d = true) (hown : d ≠ .windows ∧ d ≠ .band) : d ∈ (s.tick ⟨[], first, swap⟩).due :=
  (tickEnds_tick h first swap).due d hstanding hown.2 (mem_clearDue.2 ⟨(mem_due_tickCounted hevent).2 hfalls, hown.1⟩)

theorem tick_band_decided (hrun : s.clock.tick.state = .running) (hminute : s.clock.tick.eighth % 480 = 0) :
    (s.tick ⟨[], first, swap⟩).clock.band = (s.tick ⟨[], first, swap⟩).bandNow := by
  rw [tick_minute h first swap hrun hminute]
  have kept := bandKept_decideBand true first ((s.tickCounted.clearDue .windows).endWindows.clearDue .band)
  rw [kept.bandNow, kept.clock]

end

theorem clock_tickCounted (s : State) : s.tickCounted.clock = s.clock.tick := by
  rw [onlyCounted_tickCounted s]
  rfl

theorem tick_keeps_band (c : Clock) : c.tick.band = c.band := by
  have same : c.tick = { c.tick with band := c.band } := tick_withBand c c.band
  rw [same]

theorem tick_band_kept {s : State} (h : s.due = []) (first : Bool) (swap : SwapChoice)
    (hno : ¬(s.clock.tick.state = .running ∧ s.clock.tick.eighth % 480 = 0)) :
    (s.tick ⟨[], first, swap⟩).clock.band = s.clock.band := by
  have counted : (s.tickCounted.clearDue .windows).clock.band = s.clock.band :=
    (congrArg Clock.band (clock_tickCounted s)).trans (tick_keeps_band s.clock)
  by_cases hsecond : s.clock.tick.state = .running ∧ s.clock.tick.eighth % 8 = 0
  · rw [tick_second h first swap hsecond.1 hsecond.2 fun hm => hno ⟨hsecond.1, hm⟩, (evaluates_endWindows _).clock]
    exact counted
  · rw [tick_between h first swap hsecond]
    exact counted

/-! ### The parts after the counts of a tick -/

theorem countRun_eq (l : PlantLine) : l.countRun = { l with
    summaryRun := if l.active then min (l.summaryRun + 1) 4294967295 else l.summaryRun
    bandRun := if l.active then min (l.bandRun + 1) 4294967295 else l.bandRun } := by
  unfold PlantLine.countRun
  split <;> rfl

theorem lines_tickCounted (s : State) : s.tickCounted.plant.lines = s.plant.lines.map PlantLine.countRun :=
  lines_takeCounts (mem_due_advance.2 trivial)

theorem current_tickCounted {s : State} (h : (s.episodes.current.map (fun e => (e.key, e.slot))).Nodup) :
    s.tickCounted.episodes.current = s.episodes.current.map Episode.countHeld :=
  current_takeCounts (s := s.advance) h fun e n he hs => mem_due_advance.2 ⟨e, n, he, rfl, rfl, hs⟩

/-- The episode of a place that stands once is the one found there. -/
theorem find_of_nodup {t : EpisodeTable} {e : Episode} (h : t.places.Nodup) (he : e ∈ t.current) :
    t.find e.key e.slot = some e := by
  cases hf : t.find e.key e.slot with
  | none => exact absurd ⟨rfl, rfl⟩ (find_none_of.1 hf e he)
  | some x =>
    obtain ⟨hkey, hslot⟩ := of_iff.1 (List.find?_some hf)
    exact congrArg some (List.inj_on_of_nodup_map h (List.mem_of_find?_eq_some hf) he (by rw [hkey, hslot]))

theorem holdOff_stays_due {s : State} {e : Episode} {n : Nat} (h : s.episodes.places.Nodup)
    (he : e ∈ s.episodes.current) (hs : e.state = .holdOff n) (hn : n ≤ 1) :
    .holdOff e.key e.slot ∈ s.tickCounted.due := by
  refine (mem_due_tickCounted ?_).2 ⟨e, n, he, rfl, rfl, hs⟩
  show Option.all _ (s.episodes.find e.key e.slot) = false
  rw [find_of_nodup h he]
  simp [EpisodeState.staysHeld, hs, hn]

theorem beacons_tickCounted_length (s : State) : s.tickCounted.beacons.length = s.beacons.length :=
  beacons_takeCounts_length s.advance.due s.advance

theorem beacon_tickCounted {i : Nat} {s : State} {b : BeaconLine} (hi : i < 4) (hb : s.beacons[i]? = some b) :
    s.tickCounted.beacons[i]? = some { b with
      pulse := if b.pulse = 1 then 1 else b.pulse - 1
      flash := b.flash.map (fun p => if 1 < p.count then ⟨p.asserted, p.count - 1⟩ else p) } :=
  beacon_takeCounts (s := s.advance) hb (mem_due_advance.2 hi) (mem_due_advance.2 hi)

theorem cadence_tickCounted (s : State) : s.tickCounted.cadence =
    if s.cadence.running = true ∧ s.cadence.underflows = false then s.cadence.count else s.cadence :=
  (cadence_takeCounts s.advance).trans (if_congr (and_congr_left' mem_due_advance) rfl rfl)

theorem endWindows_of_running {s : State} (h : s.clock.state = .running) :
    s.endWindows = (s.evaluationPairs [s.clock.band]).foldl (fun x p => x.endWindow p) s :=
  if_pos (by rw [Clock.running, h]; rfl)

end Sys2Proof.Machine

/-! The duties of a tick, put together. -/

namespace Sys2Proof.Machine

/-- What the counts of a tick with nothing outstanding leave. -/
structure State.TickCounts (s w : State) : Prop where
  whole    : w = { s with
               due := w.due, clock := s.clock.tick, cadence := w.cadence, beacons := w.beacons
               plant := { s.plant with lines := w.plant.lines }
               episodes := { s.episodes with current := w.episodes.current } }
  lines    : w.plant.lines = s.plant.lines.map PlantLine.countRun
  current  : (s.episodes.current.map (fun e => (e.key, e.slot))).Nodup →
               w.episodes.current = s.episodes.current.map Episode.countHeld
  holdOffs : s.episodes.places.Nodup → ∀ (e : Episode) (n : Nat), e ∈ s.episodes.current → e.state = .holdOff n →
               n ≤ 1 → .holdOff e.key e.slot ∈ w.due
  length   : w.beacons.length = s.beacons.length
  beacon   : ∀ (i : Nat) (b : BeaconLine), i < 4 → s.beacons[i]? = some b → w.beacons[i]? = some { b with
               pulse := if b.pulse = 1 then 1 else b.pulse - 1
               flash := b.flash.map (fun p => if 1 < p.count then ⟨p.asserted, p.count - 1⟩ else p) }
  cadence  : w.cadence =
               if s.cadence.running = true ∧ s.cadence.underflows = false then s.cadence.count else s.cadence

theorem tickCounts_tickCounted (s : State) : s.TickCounts s.tickCounted where
  whole := onlyCounted_tickCounted s
  lines := lines_tickCounted s
  current := current_tickCounted
  holdOffs hnodup _ _ he hs hn := holdOff_stays_due hnodup he hs hn
  length := beacons_tickCounted_length s
  beacon _ _ := beacon_tickCounted
  cadence := cadence_tickCounted s

theorem State.TickCounts.clearWindows {s w : State} (h : s.TickCounts w) : s.TickCounts (w.clearDue .windows) where
  whole := by
    conv_lhs => rw [h.whole]
    rfl
  lines := h.lines
  current := h.current
  holdOffs hnodup e n he hs hn := mem_clearDue.2 ⟨h.holdOffs hnodup e n he hs hn, nofun⟩
  length := h.length
  beacon := h.beacon
  cadence := h.cadence

section
variable {s w : State} (h : s.TickCounts w)
include h

theorem State.TickCounts.clock : w.clock = s.clock.tick := by
  rw [h.whole]

theorem State.TickCounts.table : w.table = s.table := by
  rw [h.whole]

theorem State.TickCounts.line {i : Nat} {l : PlantLine} (hl : s.plant.lines[i]? = some l) :
    w.plant.lines[i]? = some { l with
      summaryRun := if l.active then min (l.summaryRun + 1) 4294967295 else l.summaryRun
      bandRun := if l.active then min (l.bandRun + 1) 4294967295 else l.bandRun } := by
  rw [h.lines, List.getElem?_map, hl, Option.map_some, countRun_eq]

theorem State.TickCounts.cadence_idle (hrun : s.cadence.running = false) : w.cadence = s.cadence := by
  rw [h.cadence, if_neg (by simp [hrun])]

theorem State.TickCounts.cadence_second (hrun : s.cadence.running = true) (hs : 1 < s.cadence.second) :
    w.cadence = { s.cadence with second := s.cadence.second - 1 } := by
  rw [h.cadence, if_pos ⟨hrun, not_underflows (.inr (.inl hs))⟩, count_of_running hrun, if_pos hs]

theorem State.TickCounts.cadence_base (hrun : s.cadence.running = true) (hs : s.cadence.second ≤ 1)
    (hb : 1 < s.cadence.base) : w.cadence = { s.cadence with second := 8, base := s.cadence.base - 1 } := by
  rw [h.cadence, if_pos ⟨hrun, not_underflows (.inr (.inr hb))⟩, count_of_running hrun, if_neg (Nat.not_lt.2 hs),
    if_pos hb]

theorem State.TickCounts.cadence_underflow (hu : s.cadence.underflows = true) : w.cadence = s.cadence := by
  rw [h.cadence, if_neg fun hc => Bool.false_ne_true (hc.2.symm.trans hu)]

end

theorem exec_tick (c : TickChoice) (s : State) : exec (.tick c) s = .next (s.tick c) := rfl

theorem pulse_event {i : Nat} {s : State} {b : BeaconLine} (hb : s.beacons[i]? = some b) (hp : b.pulse = 1) :
    s.advance.isCount (.pulse i) = false := by
  show Option.all _ s.beacons[i]? = false
  simp [hb, hp]

theorem flash_event {i : Nat} {s : State} {b : BeaconLine} {p : FlashPhase} (hb : s.beacons[i]? = some b)
    (hf : b.flash = some p) (hp : p.count ≤ 1) : s.advance.isCount (.flash i) = false := by
  show Option.all _ s.beacons[i]? = false
  simp [hb, BeaconLine.keepsPhase, hf, hp]

theorem cadence_event {s : State} (hu : s.cadence.underflows = true) : s.advance.isCount .cadence = false := by
  show (!s.cadence.underflows) = false
  rw [hu]
  rfl

/-- Settles O13: the pieces by their rows; with nothing outstanding, the counts as one change of the state
advanced, then the boundaries and the band decision of their seconds and minutes. -/
theorem tickDuties : Obligations.TickDuties := by
  unfold Obligations.TickDuties
  refine ⟨tick_pieces, fun first swap s h => ?_⟩
  have counts := (tickCounts_tickCounted s).clearWindows
  have ends := tickEnds_tick h first swap
  have due := fun d => mem_due_tick h first swap (d := d)
  have tickClock := tick_clock ⟨[], first, swap⟩ s
  have between := tick_between h first swap
  have second := tick_second h first swap
  have minute := tick_minute h first swap
  have decided := tick_band_decided h first swap
  have kept := tick_band_kept h first swap
  have final := exec_tick ⟨[], first, swap⟩ s
  generalize s.tick ⟨[], first, swap⟩ = t at ends due tickClock between second minute decided kept final
  generalize s.tickCounted.clearDue .windows = w at counts ends between second minute
  have tickState : t.clock.state = s.clock.tick.state := by rw [tickClock]
  have tickEighth : t.clock.eighth = s.clock.tick.eighth := by rw [tickClock]
  have tickCount : t.clock.tickCount = s.clock.tick.tickCount := by rw [tickClock]
  refine ⟨w, t, final, counts.whole, ?_⟩
  rw [counts.clock, tickState, tickEighth, tickCount]
  refine ⟨?_, fun i l => counts.line, fun hnodup => ⟨counts.current hnodup, counts.holdOffs hnodup⟩, counts.length,
    fun i b hi hb => ⟨counts.beacon i b hi hb, fun hp => due _ hi (pulse_event hb hp) rfl ⟨nofun, nofun⟩,
      fun p hf hp => due _ hi (flash_event hb hf hp) rfl ⟨nofun, nofun⟩⟩,
    counts.cadence_idle, fun hrun => ⟨counts.cadence_second hrun, counts.cadence_base hrun, fun hs hb => ?_⟩, between,
    fun hrun hs x hx => ?_, fun i l hl => ?_, decided, kept,
    fun hp => ⟨due _ hp rfl rfl ⟨nofun, nofun⟩, ends.table.trans counts.table⟩,
    fun hm => due _ (Option.isSome_iff_ne_none.1 hm) rfl rfl ⟨nofun, nofun⟩,
    fun hv => due _ hv rfl rfl ⟨nofun, nofun⟩,
    fun i r id e last hr hl hlt => due (.stall i) ⟨r, id, e, last, hr, hl, hlt⟩ rfl rfl ⟨nofun, nofun⟩,
    fun ep p hep hfind hlt =>
      due (.maximumLength ep.key ep.slot) ⟨ep, p, hep, rfl, rfl, hfind, hlt⟩ rfl rfl ⟨nofun, nofun⟩⟩
  · rw [counts.lines, List.length_map]
  · have underflow := (underflows_iff _).2 ⟨hrun, hs, hb⟩
    exact ⟨counts.cadence_underflow underflow, due _ hrun (cadence_event underflow) rfl ⟨nofun, nofun⟩⟩
  · have windows := endWindows_of_running (s := w) (by rw [counts.clock]; exact hrun)
    rw [counts.clock, ← hx] at windows
    rw [windows] at second minute
    exact ⟨second hrun hs, minute hrun⟩
  · obtain ⟨m, hm, hml⟩ := ends.inputs.lines i _ (counts.line hl)
    exact ⟨m, hm, by rw [hml], by rw [hml]⟩

end Sys2Proof.Machine
